-- ==== Sys2Proof/Word.lean ====
section
/-! DEFINITION. The words of the PS16: what the manual carries as bits (bytes, station maps, the cycle counter), and the identities that index stations. -/

namespace Sys2Proof

/-- One byte of the local port, of a response record or of the configuration memory. -/
abbrev Byte := BitVec 8

/-- One bit on the group line: `true` is 1, recessive; `false` is 0, dominant (R22). -/
abbrev Bit := Bool

/-- A station identity, 0..15 (scope, *Station identities and maps*). -/
abbrev Identity := Fin 16

/-- A station map as it is carried: the identity `i` is in the map when bit `i` is set, identity 15
in the most significant bit (scope, *Station identities and maps*; R25, R171). -/
abbrev StationMap := BitVec 16

/-- The 32-bit wrapping cycle counter and every cycle stamp (R12). -/
abbrev Cycle := BitVec 32

/-- The 34 bytes that one configuration read clocks in, the first bit received uppermost (R177). -/
abbrev ImageBits := BitVec 272

end Sys2Proof
end

