-- ==== Sys2Proof/Config.lean ====
section
/-! DEFINITION. What one station's configuration fixes (the image of Chapter 12), and the choices the manual leaves open, as constants without a body. -/

namespace Sys2Proof

/-- The fields of the configuration image, numbered as in the image table of Chapter 12 (R180).
Counts and limits are numbers; the reserved bits are kept so that field 8 can be tested. -/
structure Image where
  /-- field 1 -/
  stationId : Identity
  /-- field 2 -/
  staleLimit : Nat
  /-- field 3, P -/
  period : Nat
  /-- field 4 -/
  bitTicks : Nat
  /-- field 5 -/
  lineDelay : Nat
  /-- field 6 -/
  listenCycles : Nat
  /-- field 7, bit 15 of bytes 7-8 -/
  autoJoin : Bool
  /-- field 7, bit 14 -/
  groupTrip : Bool
  /-- field 7, bit 13 -/
  gateInHoldover : Bool
  /-- field 8, bits 12-10 of bytes 7-8 -/
  reserved : Nat
  /-- field 9 -/
  lockWindow : Nat
  /-- field 10 -/
  unlockWindow : Nat
  /-- field 11 -/
  lockCount : Nat
  /-- field 12 -/
  settleCount : Nat
  /-- field 13 -/
  kp : Nat
  /-- field 14 -/
  linkErrLimit : Nat
  /-- field 15 -/
  ki : Nat
  /-- field 16 -/
  trimMax : Nat
  /-- field 17 -/
  acqStep : Nat
  /-- field 18 -/
  fineStep : Nat
  /-- field 19 -/
  slotStep : Nat
  /-- field 20 -/
  deadBand : Nat
  /-- field 21 -/
  dutyMin : Nat
  /-- field 22 -/
  dutyMax : Nat
  /-- field 23 -/
  holdoverMax : Nat
  deriving DecidableEq, Repr

/-- The image a block reads while none has been accepted: every field 0.
DESIGN CHOICE (assumption 7): the manual gives no identity and no parameter before LOAD completes. -/
def Image.blank : Image where
  stationId := 0
  staleLimit := 0
  period := 0
  bitTicks := 0
  lineDelay := 0
  listenCycles := 0
  autoJoin := false
  groupTrip := false
  gateInHoldover := false
  reserved := 0
  lockWindow := 0
  unlockWindow := 0
  lockCount := 0
  settleCount := 0
  kp := 0
  linkErrLimit := 0
  ki := 0
  trimMax := 0
  acqStep := 0
  fineStep := 0
  slotStep := 0
  deadBand := 0
  dutyMin := 0
  dutyMax := 0
  holdoverMax := 0

/-- Which of the orders that the manual leaves open is taken when several steps fall in one tick
(R17, R40, R60, R82, R83, R103, R104, R118, R139, R153, R164, R168, R174: "either may be taken
first"). A free value (assumption 4): no body, so no proof can lean on an order. -/
opaque Config.tickOrder : Nat → Nat

/-- Which order the events raised at one instant are offered in (R172: "either offer may be taken
first"). A free value (assumption 5). -/
opaque Config.eventOrder : Nat → Nat

/-- Whether a recessive sample inside a frame, before its end field, raises the idle count. R39 says
so in its list and says otherwise in its table; the model leaves it open (assumption 9). -/
opaque Config.idleCountsFrameBits : Bool

end Sys2Proof
end

