-- ==== Sys2Proof/Syntax.lean ====
section
/-! DEFINITION. The commands of the PS16: one constructor of `Instr` for each row of spec/opcode_table.json, with the operands that the rule of the row needs; and the frames that pass on the group line. -/

namespace Sys2Proof

/-- The four frame kinds, in the order of their codes 000 to 011 (R26). -/
inductive FrameKind
  | fault
  | leave
  | claim
  | beacon
  deriving DecidableEq, Repr

/-- The sender state a BEACON carries: codes 00, 01, 10 (R27). -/
inductive SenderState
  | acquire
  | locked
  | holdover
  deriving DecidableEq, Repr

/-- The cause of a local fault, and of a FAULT frame: codes 001 and 010 (R27, R156, R160). -/
inductive LocalCause
  | pin
  | command
  deriving DecidableEq, Repr

/-- What a frame carries after its arbitration field (the frame layout table of Chapter 2). -/
inductive Payload
  | fault (cause : LocalCause)
  | leave
  | claim (period : BitVec 16)
  | beacon (sentPhase : BitVec 16) (heardMap memberMap : StationMap) (state : SenderState)
  deriving DecidableEq, Repr

/-- A frame on the group line, without its check, which follows from it (R28). -/
structure Frame where
  sender : Identity
  payload : Payload
  deriving DecidableEq, Repr

/-- The errors that raise the link error counter (R53), with what is needed to say which one it is. -/
inductive LinkError
  /-- a foreign frame whose further bits, as sampled, end in a failed check (R30) -/
  | receive (bits : List Bit)
  /-- the 68th consecutive dominant sample in RECOVER (R31) -/
  | dominantRun
  /-- a mismatch at this bit of the frame in flight (R44) -/
  | transmit (bit : Nat)
  deriving DecidableEq, Repr

/-- The commands: one constructor per row of spec/opcode_table.json, in the table's order. -/
inductive Instr
  /-- DEVICE_RESET -/
  | deviceReset
  /-- LOAD_START -/
  | loadStart
  /-- CONFIG_ATTEMPT_END; `bytes` are the 34 bytes this attempt clocked in -/
  | configAttemptEnd (bytes : ImageBits)
  /-- CONFIG_RETRY_WAIT_END -/
  | configRetryWaitEnd
  /-- COUNT_TICK -/
  | countTick
  /-- CYCLE_BOUNDARY -/
  | cycleBoundary
  /-- SYNC_PULSE_END -/
  | syncPulseEnd
  /-- LISTEN_COMPLETE -/
  | listenComplete
  /-- LOCK_REACHED -/
  | lockReached
  /-- UNLOCK_REACHED -/
  | unlockReached
  /-- VIEW_ADOPTION -/
  | viewAdoption
  /-- PEER_STALE; `peer` is the identity whose miss count reaches StaleLimit -/
  | peerStale (peer : Identity)
  /-- HOLDOVER_EXPIRY -/
  | holdoverExpiry
  /-- SOF_EDGE; `bit0` is the level read at the sample point of bit 0 -/
  | sofEdge (bit0 : Bit)
  /-- RX_BEACON -/
  | rxBeacon (sender : Identity) (sentPhase : BitVec 16) (heardMap memberMap : StationMap)
      (state : SenderState)
  /-- RX_CLAIM -/
  | rxClaim (sender : Identity) (period : BitVec 16)
  /-- RX_LEAVE -/
  | rxLeave (sender : Identity)
  /-- RX_FAULT -/
  | rxFault (sender : Identity) (cause : LocalCause)
  /-- RX_FRAME_ERROR; `bits` are the levels sampled since the frame record's last bit -/
  | rxFrameError (bits : List Bit)
  /-- RECOVER_IDLE -/
  | recoverIdle
  /-- DOMINANT_RUN_ERROR -/
  | dominantRunError
  /-- LINE_IDLE -/
  | lineIdle
  /-- TX_FRAME_START -/
  | txFrameStart
  /-- ARBITRATION_LOST; `bit` is the bit sent recessive and read dominant -/
  | arbitrationLost (bit : Nat)
  /-- TRANSMIT_ERROR; `bit` is the bit at which the mismatch is found -/
  | transmitError (bit : Nat)
  /-- ABORT_MARK_END -/
  | abortMarkEnd
  /-- FRAME_COMPLETE -/
  | frameComplete
  /-- LINK_DOWN; `error` is the error that brings the counter to LinkErrLimit -/
  | linkDown (error : LinkError)
  /-- TRIP_PIN_ASSERT -/
  | tripPinAssert
  /-- TRIP_PIN_RELEASE -/
  | tripPinRelease
  /-- STATUS -/
  | status
  /-- SERVO -/
  | servo
  /-- ROSTER; the argument byte is an identity 0..255 -/
  | roster (identity : Byte)
  /-- LOG; the argument byte is an index 0..255 -/
  | log (index : Byte)
  /-- EVENT -/
  | event
  /-- DUTY; the two argument bytes, most significant first -/
  | duty (value : BitVec 16)
  /-- START -/
  | start
  /-- STOP -/
  | stop
  /-- TRIP -/
  | trip
  /-- CLEAR -/
  | clear
  /-- DETACH -/
  | detach
  /-- ATTACH -/
  | attach
  /-- UNKNOWN_REQUEST; a code that is no request code -/
  | unknownRequest (code : Byte)
  /-- LP_SEL_RELEASE -/
  | lpSelRelease
  deriving DecidableEq, Repr

end Sys2Proof
end

