-- ==== Sys2Proof/Machine/State.lean ====
section
/-! DEFINITION. The state of the PS16 as plain data, block by block as the manual's block table lists it; the reasons a step can stop; and the state right after device reset. -/

namespace Sys2Proof.Machine

/-- The reasons a command can stop with a fault. There is none: every command of the table has an
effect in the manual, and an event that cannot arise leaves the state as it is (assumption 1, safe). -/
inductive Fault
  deriving DecidableEq, Repr

/-- The reasons a command can be refused. -/
inductive Refusal
  /-- Raised by an arm of `exec` whose command has no meaning yet; no arm is left so. Safe: a run
  that meets it stops. -/
  | notModelled (mnemonic : String)
  deriving DecidableEq, Repr

/-! ### Names -/

/-- Why a station is BLOCKED (8.1). -/
inductive BlockedReason
  | configNoMemory
  | configCheck
  | configValue
  | idConflict
  deriving DecidableEq, Repr

/-- The sync state; the blocked reason is present in BLOCKED only (8.1). -/
inductive SyncState
  | load
  | blocked (reason : BlockedReason)
  | parked
  | listen
  | join
  | acquire
  | locked
  | holdover
  deriving DecidableEq, Repr

/-- The gate state (9.1). -/
inductive GateState
  | off
  | armed
  | running
  | tripped
  deriving DecidableEq, Repr

/-- The cause in the fault record; the originator is present when the cause is REMOTE (10.1). -/
inductive FaultCause
  | none
  | pin
  | command
  | remote (originator : Identity)
  deriving DecidableEq, Repr

/-- The presence of an identity in the roster; SELF stands at the own identity (R70, 11.5). -/
inductive Presence
  | absent
  | heard
  | member
  | self
  deriving DecidableEq, Repr

/-- The event kinds, in the order of their codes 1..15 (11.5). -/
inductive EventKind
  | configLoaded
  | configBad
  | viewAdopted
  | peerMember
  | peerDropped
  | lockGained
  | lockLost
  | linkDown
  | linkUp
  | holdoverExpired
  | faultLocal
  | faultRemote
  | idConflict
  | periodMismatch
  | parked
  deriving DecidableEq, Repr

/-- The status codes of the local port (11.2). -/
inductive StatusCode
  | done
  | already
  | clamped
  | empty
  | notReady
  | refusedState
  | refusedTrip
  | badArgument
  | unknown
  deriving DecidableEq, Repr

/-! ### Input pins -/

/-- The levels on the input pins, as the outside holds them. REFCLK is the tick itself. `true` is
active, high or recessive. -/
structure Pins where
  /-- RESET: device reset while active -/
  reset : Bool
  /-- LINE_RX: the level of the group line (R22) -/
  lineRx : Bit
  /-- CFG_DI -/
  cfgDi : Bool
  /-- LP_SEL, LP_CLK, LP_DI -/
  lpSel : Bool
  lpClk : Bool
  lpDi : Bool
  /-- TRIP -/
  trip : Bool
  deriving DecidableEq, Repr

/-! ### Configuration loader (Chapter 12) -/

/-- Where the loader stands: waiting for device reset to end, in tick `tick` of read attempt
`attempt`, in tick `tick` of the wait after it, or finished (R177, R178). -/
inductive LoaderPhase
  | held
  | reading (attempt tick : Nat)
  | waiting (attempt tick : Nat)
  | finished
  deriving DecidableEq, Repr

structure Loader where
  phase : LoaderPhase
  /-- the bytes of the read in progress, the first bit received uppermost -/
  buffer : ImageBits
  deriving DecidableEq, Repr

/-! ### Group time and carrier (Chapter 1) -/

/-- The group time block. The applied trim is the servo's `trim` (R5, assumption 10). -/
structure Carrier where
  /-- g, the group phase estimate -/
  g : Nat
  /-- the fractional accumulator -/
  acc : Nat
  /-- o, the slot offset -/
  o : Nat
  /-- c, the carrier counter -/
  c : Nat
  /-- Pc, the length of the current cycle -/
  pc : Nat
  /-- the cycle counter -/
  cycle : Cycle
  /-- the step total -/
  stepTotal : Nat
  /-- SYNC -/
  sync : Bool
  /-- the ticks that the SYNC pulse in progress has lasted (R15) -/
  syncAge : Nat
  deriving DecidableEq, Repr

/-- A phase sample: g, the cycle counter and the step total read at one instant (R16). -/
structure PhaseSample where
  g : Nat
  cycle : Cycle
  stepTotal : Nat
  deriving DecidableEq, Repr

/-! ### Line interface (Chapter 2) -/

/-- The record of the frame in progress (2.2). The bit position reached is the number of `bits`; the
kind and the sender are read off `bits` once they have arrived. -/
structure RxRecord where
  /-- ticks since the SOF edge: the tick of the edge, counted back from now -/
  age : Nat
  /-- the phase sample taken at the edge -/
  sample : PhaseSample
  /-- the own mark -/
  own : Bool
  /-- the bits sampled so far, the SOF first -/
  bits : List Bit
  /-- the check register -/
  crc : Byte
  deriving DecidableEq, Repr

/-- The receiver's mode with what it holds in each (2.2). -/
inductive RxMode
  | off
  | recover (recessiveRun dominantRun : Nat)
  | hunt
  | receive (record : RxRecord)
  deriving DecidableEq, Repr

structure Line where
  mode : RxMode
  /-- ticks into the current bit of the bit grid (R25, R39) -/
  grid : Nat
  /-- LINE_RX as read at the tick before (R24) -/
  rxPrev : Bit
  deriving DecidableEq, Repr

/-- The frame record that a receive error dropped as it took the station to LISTEN, and the carrier at that
instant: what a frame needs that validates in the same instant (R65, R85, assumption 27). -/
structure DroppedRecord where
  record : RxRecord
  carrier : Carrier
  deriving DecidableEq, Repr

/-! ### Contention and transmit queue (Chapter 3) -/

/-- The transmit queue: at most one entry of each kind, in the order of the kinds; a FAULT entry
holds its cause (3.5, R48). -/
structure TxQueue where
  fault : Option LocalCause
  leave : Bool
  claim : Bool
  beacon : Bool
  deriving DecidableEq, Repr

/-- The frame in flight (3.1, R52). -/
structure InFlight where
  /-- the frame with its stamped fields -/
  frame : Frame
  /-- the phase sample taken when the SOF was driven (R46) -/
  sample : PhaseSample
  /-- ticks since the SOF was driven while the receiver has not read it back; absent from then on
  (R40) -/
  awaiting : Option Nat
  /-- the bit position -/
  bit : Nat
  /-- in flight as an abort (R44) -/
  abort : Bool
  deriving DecidableEq, Repr

structure Contention where
  idleCount : Nat
  /-- the bit in which the idle count reached 8 has ended and no dominant level was read since (R40) -/
  lineIdle : Bool
  queue : TxQueue
  inFlight : Option InFlight
  linkErr : Nat
  beaconSent : Bool
  /-- LINE_TX, asserted for dominant -/
  lineTx : Bool
  deriving DecidableEq, Repr

/-! ### Arrival log (Chapter 4) and roster (Chapter 5) -/

structure ArrivalRecord where
  sender : Identity
  state : SenderState
  sentPhase : Nat
  arrivalPhase : Nat
  error : Int
  heardMap : StationMap
  memberMap : StationMap
  usable : Bool
  crossBoundary : Bool
  deriving DecidableEq, Repr

/-- The four optional fields of a roster entry, present together (R70, R74). -/
structure LastBeacon where
  state : SenderState
  heardMap : StationMap
  memberMap : StationMap
  error : Int
  deriving DecidableEq, Repr

structure RosterEntry where
  presence : Presence
  /-- the heard-this-cycle flag -/
  flag : Bool
  misses : Nat
  last : Option LastBeacon
  deriving DecidableEq, Repr

/-! ### View and slot (Chapter 6), phase servo (Chapter 7) -/

structure View where
  adopted : StationMap
  settle : Nat
  /-- the previous member map -/
  previous : StationMap
  target : Nat
  deriving DecidableEq, Repr

structure Servo where
  integ : Int
  /-- the rate trim, which is also the applied trim of the group time block -/
  trim : Int
  meanError : Int
  lastStep : Int
  captureDone : Bool
  lock : Nat
  unlock : Nat
  deriving DecidableEq, Repr

/-! ### Station sequencer (Chapter 8), gate generator (Chapter 9), fault unit (Chapter 10) -/

structure Sequencer where
  sync : SyncState
  listen : Nat
  holdover : Nat
  expired : Bool
  permission : Bool
  deriving DecidableEq, Repr

structure Gate where
  state : GateState
  pendingDuty : Nat
  activeDuty : Nat
  /-- HI and LO -/
  hi : Bool
  lo : Bool
  /-- HI and LO of the previous tick (R150) -/
  hiPrev : Bool
  loPrev : Bool
  deriving DecidableEq, Repr

structure FaultUnit where
  cause : FaultCause
  stamp : Cycle
  repeats : Nat
  /-- the TRIP pin as last read (R156) -/
  pin : Bool
  deriving DecidableEq, Repr

/-! ### Local port and event queue (Chapter 11) -/

structure Answer where
  status : StatusCode
  response : List Byte
  deriving DecidableEq, Repr

structure Port where
  /-- LP_SEL and LP_CLK as read at the tick before (R167) -/
  selPrev : Bool
  clkPrev : Bool
  /-- a transaction is in progress -/
  active : Bool
  /-- the bits taken in it -/
  bits : Nat
  /-- the request code and the argument bytes taken so far -/
  code : Byte
  args : BitVec 16
  /-- the answer, present once the request is taken (R168) -/
  answer : Option Answer
  /-- LP_DO -/
  lpDo : Bool
  deriving DecidableEq, Repr

structure EventRecord where
  kind : EventKind
  subject : Option Identity
  detail : Byte
  stamp : Cycle
  moreLost : Bool
  deriving DecidableEq, Repr

/-! ### The machine -/

/-- The whole state. `free` is the model's own counter of the free choices made so far, and
`pending` the queue of commands that wait. -/
structure State where
  pins : Pins
  loader : Loader
  /-- the configuration image, once accepted (12) -/
  image : Option Image
  carrier : Carrier
  line : Line
  /-- the frame record last dropped by an entry to LISTEN (the model's own, assumption 27) -/
  dropped : Option DroppedRecord
  tx : Contention
  /-- the arrival log, in the order of storage (R62) -/
  log : List ArrivalRecord
  /-- the sixteen roster entries, by identity (R70) -/
  roster : Vector RosterEntry 16
  view : View
  servo : Servo
  seq : Sequencer
  gate : Gate
  fault : FaultUnit
  port : Port
  /-- the event queue, oldest first (R172) -/
  events : List EventRecord
  free : Nat
  pending : List Instr
  deriving DecidableEq, Repr

/-! ### Device reset -/

/-- An ABSENT entry: flag clear, miss count 0, optional fields absent (R70). -/
def RosterEntry.absent : RosterEntry := ⟨.absent, false, 0, none⟩

/-- The entry at the own identity: it holds nothing (R70). -/
def RosterEntry.self : RosterEntry := ⟨.self, false, 0, none⟩

/-- The roster with every entry but SELF absent (R70, R85). -/
def clearedRoster (own : Identity) : Vector RosterEntry 16 :=
  Vector.ofFn fun i => if i = own then RosterEntry.self else RosterEntry.absent

/-- The map that holds one identity alone. -/
def ownMap (own : Identity) : StationMap := BitVec.ofFnLE fun i => decide (i = own)

/-- The empty transmit queue. -/
def TxQueue.empty : TxQueue := ⟨none, false, false, false⟩

/-- The machine right after device reset, at the end of it: LOAD, nothing read yet, every block at
the value its chapter gives, the input pins at rest, no command waiting. The values that the manual
does not give are named in assumptions 7 and 8. -/
def State.reset : State where
  pins := ⟨false, true, false, false, false, false, false⟩
  loader := ⟨.held, 0⟩
  image := none
  carrier := ⟨0, 0, 0, 0, 0, 0, 0, false, 0⟩
  line := ⟨.off, 0, true⟩
  dropped := none
  tx := ⟨0, false, TxQueue.empty, none, 0, false, false⟩
  log := []
  roster := clearedRoster Image.blank.stationId
  view := ⟨ownMap Image.blank.stationId, 0, ownMap Image.blank.stationId, 0⟩
  servo := ⟨0, 0, 0, 0, false, 0, 0⟩
  seq := ⟨.load, 0, 0, false, false⟩
  gate := ⟨.off, 0, 0, false, false, false, false⟩
  fault := ⟨.none, 0, 0, false⟩
  port := ⟨false, false, false, 0, 0, 0, none, false⟩
  events := []
  free := 0
  pending := []

end Sys2Proof.Machine
end

