-- ==== Sys2Proof/Machine/Operands.lean ====
section
/-! DEFINITION. The operand forms of the PS16: signed quantities and wrapped differences, station maps with rank and slot target, codes, the frame layout with its check, and the byte order of response records. -/

namespace Sys2Proof.Machine

/-! ### Phases and signed quantities (scope, *Conventions*) -/

/-- A phase reduced modulo P, into 0..P−1. -/
def reduce (p : Nat) (x : Int) : Nat := (x % (p : Int)).toNat

/-- A difference reduced modulo P into −P/2 ≤ x < P/2, with P/2 exact, so that a difference of
exactly P/2 becomes −P/2. -/
def wrapped (p : Nat) (x : Int) : Int :=
  let r := x % (p : Int)
  if (p : Int) ≤ 2 * r then r - p else r

/-- *Clamp to ±M*. -/
def clampTo (m : Nat) (x : Int) : Int := max (-(m : Int)) (min (m : Int) x)

/-! ### Station maps (R83, R96) -/

/-- The map of the identities for which `f` holds. -/
def mapOf (f : Identity → Bool) : StationMap := BitVec.ofFnLE f

/-- Whether a map lists an identity. -/
def lists (m : StationMap) (i : Identity) : Bool := m.getLsbD i.val

/-- N: how many identities a map holds. -/
def countOf (m : StationMap) : Nat := (List.finRange 16).countP fun i => lists m i

/-- The rank of an identity in a map: how many identities of the map are lower. -/
def rankIn (m : StationMap) (own : Identity) : Nat :=
  (List.finRange 16).countP fun i => lists m i && decide (i < own)

/-- The slot target floor(rank × P / N) (R96). -/
def slotTarget (p : Nat) (m : StationMap) (own : Identity) : Nat := rankIn m own * p / countOf m

/-! ### Bit strings, most significant bit first (R25) -/

/-- The number that a bit string spells. -/
def bitsToNat (l : List Bit) : Nat := l.foldl (fun a b => 2 * a + b.toNat) 0

/-- The bits of a word, most significant first. -/
def wordBits {n : Nat} (v : BitVec n) : List Bit := (List.finRange n).map fun i => v.getMsbD i.val

/-- The `len` bits of a bit string from position `start`. -/
def field (bits : List Bit) (start len : Nat) : List Bit := (bits.drop start).take len

/-! ### Checks (R28, R179) -/

/-- One bit fed into a check register with the given generator constant. -/
def crcStep {n : Nat} (generator : BitVec n) (register : BitVec n) (b : Bit) : BitVec n :=
  if b = register.msb then register <<< 1 else (register <<< 1) ^^^ generator

/-- The frame check register after one more bit (R28). -/
def frameCrcStep (register : Byte) (b : Bit) : Byte := crcStep 0x2F#8 register b

/-- The frame check over a bit string, from 0xFF (R28). -/
def frameCrc (bits : List Bit) : Byte := bits.foldl frameCrcStep 0xFF#8

/-- The check of the configuration image over a bit string, from 0xFFFF (R179). -/
def imageCrc (bits : List Bit) : BitVec 16 := bits.foldl (crcStep 0x1021#16) 0xFFFF#16

end Sys2Proof.Machine

namespace Sys2Proof

open Sys2Proof.Machine

/-! ### Frame layout (the frame layout table of Chapter 2) -/

/-- The kind code (R26). -/
def FrameKind.code : FrameKind → BitVec 3
  | .fault => 0b000
  | .leave => 0b001
  | .claim => 0b010
  | .beacon => 0b011

/-- The kind of a code; 100 to 111 are format errors (R26). -/
def FrameKind.ofCode (n : Nat) : Option FrameKind :=
  if n = 0 then some .fault else if n = 1 then some .leave else if n = 2 then some .claim
  else if n = 3 then some .beacon else none

/-- The total number of bits of a frame, by kind. -/
def FrameKind.total : FrameKind → Nat
  | .fault => 21
  | .leave => 18
  | .claim => 34
  | .beacon => 68

/-- The position of the first check bit: the end field takes the last two bits, the check the eight
before them. -/
def FrameKind.checkAt (k : FrameKind) : Nat := k.total - 10

/-- The position of the first end bit. -/
def FrameKind.endAt (k : FrameKind) : Nat := k.total - 2

/-- The sender state code (R27, 11.5). -/
def SenderState.code : SenderState → BitVec 2
  | .acquire => 0b00
  | .locked => 0b01
  | .holdover => 0b10

/-- The sender state of a code; 11 is a format error (R27). -/
def SenderState.ofCode (n : Nat) : Option SenderState :=
  if n = 0 then some .acquire else if n = 1 then some .locked
  else if n = 2 then some .holdover else none

/-- The cause code of a FAULT frame and of the fault events (R27, R158). -/
def LocalCause.code : LocalCause → BitVec 3
  | .pin => 0b001
  | .command => 0b010

/-- The cause of a code; 000 and 011 to 111 are format errors (R27). -/
def LocalCause.ofCode (n : Nat) : Option LocalCause :=
  if n = 1 then some .pin else if n = 2 then some .command else none

/-- The kind of a frame. -/
def Payload.kind : Payload → FrameKind
  | .fault _ => .fault
  | .leave => .leave
  | .claim _ => .claim
  | .beacon _ _ _ _ => .beacon

/-- The payload bits (the frame layout table). -/
def Payload.bits : Payload → List Bit
  | .fault c => wordBits c.code
  | .leave => []
  | .claim p => wordBits p
  | .beacon ph h m st => wordBits ph ++ wordBits h ++ wordBits m ++ wordBits st.code

/-- The kind, sender and payload bits, over which the check is computed (R28). -/
def Frame.body (f : Frame) : List Bit :=
  wordBits f.payload.kind.code ++ wordBits (BitVec.ofFin f.sender : BitVec 4) ++ f.payload.bits

/-- The whole frame as the line carries it: SOF, body, check, two recessive end bits (R26, R28). -/
def Frame.wire (f : Frame) : List Bit :=
  false :: (f.body ++ wordBits (frameCrc f.body) ++ [true, true])

/-- The level a frame has at one of its bits; past its end the line is released. -/
def Frame.bitAt (f : Frame) (k : Nat) : Bit := f.wire.getD k true

end Sys2Proof

namespace Sys2Proof.Machine

/-! ### Codes of the response records (11.2, 11.5) -/

def StatusCode.code : StatusCode → Byte
  | .done => 0x00
  | .already => 0x01
  | .clamped => 0x02
  | .empty => 0x03
  | .notReady => 0x80
  | .refusedState => 0x81
  | .refusedTrip => 0x82
  | .badArgument => 0x83
  | .unknown => 0x84

/-- LOAD has no code: it is never reported (R169). -/
def SyncState.code : SyncState → Byte
  | .load => 0
  | .blocked _ => 1
  | .parked => 2
  | .listen => 3
  | .join => 4
  | .acquire => 5
  | .locked => 6
  | .holdover => 7

def BlockedReason.code : BlockedReason → Byte
  | .configNoMemory => 1
  | .configCheck => 2
  | .configValue => 3
  | .idConflict => 4

/-- The blocked reason field; 0 when the state is not BLOCKED. -/
def SyncState.reasonCode : SyncState → Byte
  | .load => 0
  | .blocked r => r.code
  | .parked => 0
  | .listen => 0
  | .join => 0
  | .acquire => 0
  | .locked => 0
  | .holdover => 0

def GateState.code : GateState → Byte
  | .off => 0
  | .armed => 1
  | .running => 2
  | .tripped => 3

def FaultCause.code : FaultCause → Byte
  | .none => 0
  | .pin => 1
  | .command => 2
  | .remote _ => 3

/-- The originator, present when the cause is REMOTE. -/
def FaultCause.originator : FaultCause → Option Identity
  | .none => Option.none
  | .pin => Option.none
  | .command => Option.none
  | .remote i => some i

def Presence.code : Presence → Byte
  | .absent => 0
  | .heard => 1
  | .member => 2
  | .self => 3

def EventKind.code : EventKind → Byte
  | .configLoaded => 1
  | .configBad => 2
  | .viewAdopted => 3
  | .peerMember => 4
  | .peerDropped => 5
  | .lockGained => 6
  | .lockLost => 7
  | .linkDown => 8
  | .linkUp => 9
  | .holdoverExpired => 10
  | .faultLocal => 11
  | .faultRemote => 12
  | .idConflict => 13
  | .periodMismatch => 14
  | .parked => 15

/-! ### Bytes of the response records (R171) -/

/-- The bytes of a word, most significant first. -/
def be16 (v : BitVec 16) : List Byte := [v.extractLsb' 8 8, v.extractLsb' 0 8]

def be24 (v : BitVec 24) : List Byte :=
  [v.extractLsb' 16 8, v.extractLsb' 8 8, v.extractLsb' 0 8]

def be32 (v : BitVec 32) : List Byte :=
  [v.extractLsb' 24 8, v.extractLsb' 16 8, v.extractLsb' 8 8, v.extractLsb' 0 8]

/-- A count in two bytes. -/
def count16 (n : Nat) : List Byte := be16 (BitVec.ofNat 16 n)

/-- A signed quantity in two bytes, two's complement. -/
def signed16 (x : Int) : List Byte := be16 (BitVec.ofInt 16 x)

/-- A number in one byte. -/
def byteOf (n : Nat) : Byte := BitVec.ofNat 8 n

/-- A flag reads 1 when set and 0 when clear. -/
def flagByte (b : Bool) : Byte := if b then 1 else 0

/-- An optional identity that is absent reads 0xFF. -/
def identityByte : Option Identity → Byte
  | none => 0xFF
  | some i => BitVec.ofNat 8 i.val

/-- A magnitude as an event detail, at most 255 (R128, R130). -/
def detailByte (n : Nat) : Byte := byteOf (min n 255)

end Sys2Proof.Machine
end

