-- ==== Sys2Proof/Decode.lean ====
section
/-! DEFINITION. The decoders: the commands that a table word spells (the table gives no row any bits, so none), the requests of the local port by code and arguments (Chapter 11), the configuration image by bytes with its field checks (Chapter 12), and a received bit string as a frame (Chapter 2). -/

namespace Sys2Proof

/-- The command that a word of the table's bits spells. No row of spec/opcode_table.json gives bits,
so no word spells a command (assumption 15). -/
def decodeTableWord (_nbits _w : Nat) : Option Instr := none

end Sys2Proof

namespace Sys2Proof.Machine

/-! ### Requests of the local port (R166, R169) -/

/-- The number of argument bytes that a code fixes: every unknown code takes none (R166). -/
def argumentBytes (code : Byte) : Nat :=
  if code = 0x03 ∨ code = 0x04 then 1 else if code = 0x10 then 2 else 0

/-- The request that a code and its argument bytes spell; a code that is none of the request codes is
an unknown request. One argument byte is the low byte of `args`. -/
def decodeRequest (code : Byte) (args : BitVec 16) : Instr :=
  if code = 0x01 then .status
  else if code = 0x02 then .servo
  else if code = 0x03 then .roster (args.extractLsb' 0 8)
  else if code = 0x04 then .log (args.extractLsb' 0 8)
  else if code = 0x05 then .event
  else if code = 0x10 then .duty args
  else if code = 0x11 then .start
  else if code = 0x12 then .stop
  else if code = 0x13 then .trip
  else if code = 0x14 then .clear
  else if code = 0x18 then .detach
  else if code = 0x19 then .attach
  else .unknownRequest code

/-! ### The configuration image (12.2) -/

/-- Byte `k` of the 34 bytes read, from address 0. -/
def imageByte (bits : ImageBits) (k : Nat) : Byte := bits.extractLsb' (8 * (33 - k)) 8

/-- The two-byte word at byte `k`, most significant byte first. -/
def imageWord (bits : ImageBits) (k : Nat) : BitVec 16 := bits.extractLsb' (8 * (32 - k)) 16

/-- The image table of 12.2. -/
def decodeImage (bits : ImageBits) : Image where
  stationId := ⟨(imageByte bits 0).toNat / 16 % 16, Nat.mod_lt _ (by decide)⟩
  staleLimit := ((imageByte bits 0).extractLsb' 0 4).toNat
  period := (imageWord bits 1).toNat
  bitTicks := (imageByte bits 3).toNat
  lineDelay := (imageWord bits 4).toNat
  listenCycles := (imageByte bits 6).toNat
  autoJoin := (imageWord bits 7).getLsbD 15
  groupTrip := (imageWord bits 7).getLsbD 14
  gateInHoldover := (imageWord bits 7).getLsbD 13
  reserved := ((imageWord bits 7).extractLsb' 10 3).toNat
  lockWindow := ((imageWord bits 7).extractLsb' 0 10).toNat
  unlockWindow := (imageWord bits 9).toNat
  lockCount := (imageByte bits 11).toNat
  settleCount := ((imageWord bits 12).extractLsb' 12 4).toNat
  kp := ((imageWord bits 12).extractLsb' 0 12).toNat
  linkErrLimit := ((imageWord bits 14).extractLsb' 10 6).toNat
  ki := ((imageWord bits 14).extractLsb' 0 10).toNat
  trimMax := (imageWord bits 16).toNat
  acqStep := (imageWord bits 18).toNat
  fineStep := (imageWord bits 20).toNat
  slotStep := (imageWord bits 22).toNat
  deadBand := (imageWord bits 24).toNat
  dutyMin := (imageWord bits 26).toNat
  dutyMax := (imageWord bits 28).toNat
  holdoverMax := (imageWord bits 30).toNat

end Sys2Proof.Machine

namespace Sys2Proof

/-- The range or check of each field, by its number (12.2, R180). Bounds written as fractions of P
are truncated. -/
def Image.fieldOk (i : Image) (number : Nat) : Bool :=
  match number with
  | 2 => decide (2 ≤ i.staleLimit ∧ i.staleLimit ≤ 15)
  | 3 => decide (4096 ≤ i.period ∧ i.period ≤ 65535)
  | 4 => decide (8 ≤ i.bitTicks ∧ i.bitTicks ≤ 255 ∧ 1184 * i.bitTicks ≤ i.period)
  | 5 => decide (i.lineDelay ≤ i.period / 16)
  | 6 => decide (2 ≤ i.listenCycles ∧ i.listenCycles ≤ 255)
  | 8 => decide (i.reserved = 0)
  | 9 => decide (1 ≤ i.lockWindow ∧ i.lockWindow ≤ i.period / 64)
  | 10 => decide (i.lockWindow ≤ i.unlockWindow ∧ i.unlockWindow ≤ i.period / 16)
  | 11 => decide (1 ≤ i.lockCount ∧ i.lockCount ≤ 255)
  | 12 => decide (1 ≤ i.settleCount ∧ i.settleCount ≤ 15)
  | 13 => decide (i.kp ≤ 4095)
  | 14 => decide (1 ≤ i.linkErrLimit ∧ i.linkErrLimit ≤ 63)
  | 15 => decide (i.ki ≤ 1023)
  | 16 => decide (1 ≤ i.trimMax ∧ i.trimMax ≤ 2048)
  | 17 => decide (1 ≤ i.acqStep ∧ i.acqStep ≤ i.period / 16)
  | 18 => decide (1 ≤ i.fineStep ∧ i.fineStep ≤ i.acqStep)
  | 19 => decide (1 ≤ i.slotStep ∧ i.slotStep ≤ i.period / 16)
  | 20 => decide (i.deadBand ≤ i.period / 32)
  | 21 => decide (i.deadBand ≤ i.dutyMin ∧ i.dutyMin ≤ i.dutyMax)
  | 22 => decide (i.dutyMax + i.deadBand ≤ 7 * i.period / 8)
  | 23 => decide (i.holdoverMax ≤ 65535)
  | _ => true

/-- The number of the first field that fails, in the order of the numbers (R180). -/
def Image.firstBadField (i : Image) : Option Nat :=
  (List.range 24).find? fun n => !i.fieldOk n

/-- An image that passes every field test. -/
def Image.legal (i : Image) : Bool := i.firstBadField.isNone

end Sys2Proof

namespace Sys2Proof.Machine

/-- No response: all 34 bytes are 0xFF, or all are 0x00 (R178). -/
def noResponse (bits : ImageBits) : Bool := bits == 0 || bits == BitVec.allOnes 272

/-- The image bytes match the two check bytes that follow them (R179). -/
def imageCheckOk (bits : ImageBits) : Bool :=
  imageCrc (wordBits (bits.extractLsb' 16 256)) == bits.extractLsb' 0 16

/-- How one read attempt is judged (R178 to R180). -/
inductive ImageVerdict
  | noResponse
  | badCheck
  | badField (number : Nat)
  | good (image : Image)
  deriving DecidableEq, Repr

/-- The judgement, in the order of the rules. -/
def judgeImage (bits : ImageBits) : ImageVerdict :=
  if noResponse bits then .noResponse
  else if !imageCheckOk bits then .badCheck
  else match (decodeImage bits).firstBadField with
    | some n => .badField n
    | none => .good (decodeImage bits)

/-! ### Frames as received (2.4 to 2.6) -/

/-- The kind that a bit string carries, once its kind code is in (R26). -/
def kindOf (bits : List Bit) : Option FrameKind :=
  if 4 ≤ bits.length then FrameKind.ofCode (bitsToNat (field bits 1 3)) else none

/-- The sender that a bit string carries. -/
def senderOf (bits : List Bit) : Identity :=
  ⟨bitsToNat (field bits 4 4) % 16, Nat.mod_lt _ (by decide)⟩

/-- The frame that the bits of a whole frame of the given kind spell; none where a code is a format
error (R27). -/
def parseFrame (kind : FrameKind) (bits : List Bit) : Option Frame :=
  match kind with
  | .fault =>
    (LocalCause.ofCode (bitsToNat (field bits 8 3))).map fun c => ⟨senderOf bits, .fault c⟩
  | .leave => some ⟨senderOf bits, .leave⟩
  | .claim => some ⟨senderOf bits, .claim (BitVec.ofNat 16 (bitsToNat (field bits 8 16)))⟩
  | .beacon =>
    (SenderState.ofCode (bitsToNat (field bits 56 2))).map fun st =>
      ⟨senderOf bits, .beacon (BitVec.ofNat 16 (bitsToNat (field bits 8 16)))
        (BitVec.ofNat 16 (bitsToNat (field bits 24 16)))
        (BitVec.ofNat 16 (bitsToNat (field bits 40 16))) st⟩

/-- What the receiver knows after a bit: the frame goes on, fails a check, or is valid. -/
inductive Verdict
  | more
  | error
  | valid (frame : Frame)
  deriving DecidableEq, Repr

/-- The checks of R30, each at the sample point at which it can first be made. `bits` are the bits
sampled so far with the SOF, the last of them just sampled; `crc` is the check register. -/
def verdict (bits : List Bit) (crc : Byte) : Verdict :=
  if bits.length < 4 then .more
  else match kindOf bits with
    | none => .error
    | some k =>
      let n := bits.length
      if k = .fault ∧ n = 11 ∧ LocalCause.ofCode (bitsToNat (field bits 8 3)) = none then .error
      else if k = .beacon ∧ n = 58 ∧ SenderState.ofCode (bitsToNat (field bits 56 2)) = none then
        .error
      else if n = k.endAt ∧ field bits k.checkAt 8 ≠ wordBits crc then .error
      else if k.endAt < n ∧ bits.getLastD true = false then .error
      else if n = k.total then
        match parseFrame k bits with
        | some f => .valid f
        | none => .error
      else .more

end Sys2Proof.Machine
end

