-- ==== Sys2Proof/Machine/Flags.lean ====
section
/-! DEFINITION. The conditions and flags that the blocks read: what each sync state permits, the published maps, completeness, agreement and settlement of the view, usability of a record, the clean report, the lock conditions, the gate outputs of a tick, and the output pins that follow from state. -/

namespace Sys2Proof.Machine

/-! ### What the sync state permits (8.2) -/

/-- The carrier and the receiver run: every state but LOAD and BLOCKED with a CONFIG reason (R1). -/
def SyncState.runs : SyncState → Bool
  | .load => false
  | .blocked .configNoMemory => false
  | .blocked .configCheck => false
  | .blocked .configValue => false
  | .blocked .idConflict => true
  | .parked => true
  | .listen => true
  | .join => true
  | .acquire => true
  | .locked => true
  | .holdover => true

/-- BLOCKED with a CONFIG reason (R138). -/
def SyncState.configBlocked : SyncState → Bool
  | .load => false
  | .blocked .configNoMemory => true
  | .blocked .configCheck => true
  | .blocked .configValue => true
  | .blocked .idConflict => false
  | .parked => false
  | .listen => false
  | .join => false
  | .acquire => false
  | .locked => false
  | .holdover => false

/-- LISTEN, JOIN, ACQUIRE, LOCKED or HOLDOVER: the roster and capture act (R57, R71), conflicts and
mismatches are reported (R36, R137). -/
def SyncState.actsOnPeers : SyncState → Bool
  | .load => false
  | .blocked _ => false
  | .parked => false
  | .listen => true
  | .join => true
  | .acquire => true
  | .locked => true
  | .holdover => true

/-- JOIN, ACQUIRE, LOCKED or HOLDOVER: the transmit queue takes offers and the station may start a
frame (R40, R48). -/
def SyncState.transmits : SyncState → Bool
  | .load => false
  | .blocked _ => false
  | .parked => false
  | .listen => false
  | .join => true
  | .acquire => true
  | .locked => true
  | .holdover => true

/-- ACQUIRE, LOCKED or HOLDOVER: members, beacons and slewing (R76, R98, R126). -/
def SyncState.grouped : SyncState → Bool
  | .load => false
  | .blocked _ => false
  | .parked => false
  | .listen => false
  | .join => false
  | .acquire => true
  | .locked => true
  | .holdover => true

/-- ACQUIRE or LOCKED: the servo and the settle counter work (R93, R107). -/
def SyncState.measuring : SyncState → Bool
  | .load => false
  | .blocked _ => false
  | .parked => false
  | .listen => false
  | .join => false
  | .acquire => true
  | .locked => true
  | .holdover => false

/-- The sender state that a BEACON stamped in this state carries. A BEACON entry stands in the queue
in ACQUIRE, LOCKED and HOLDOVER alone (R46); the answer for the other states is never sent. -/
def SyncState.asSender : SyncState → SenderState
  | .load => .acquire
  | .blocked _ => .acquire
  | .parked => .acquire
  | .listen => .acquire
  | .join => .acquire
  | .acquire => .acquire
  | .locked => .locked
  | .holdover => .holdover

/-! ### Parameters -/

/-- The configuration in force: the accepted image, blank before one is (assumption 7). -/
def State.cfg (s : State) : Image := s.image.getD Image.blank

/-- The station's own identity. -/
def State.own (s : State) : Identity := s.cfg.stationId

/-- A boundary is due: the carrier runs and c has reached or passed Pc (R8). -/
def State.boundaryDue (s : State) : Bool := s.seq.sync.runs && decide (s.carrier.pc ≤ s.carrier.c)

/-- The phase sample of this instant (R16, R18). -/
def State.sample (s : State) : PhaseSample := ⟨s.carrier.g, s.carrier.cycle, s.carrier.stepTotal⟩

/-! ### Published maps and the view (R83, R84, R92, R95) -/

/-- The heard map: the own identity with every HEARD or MEMBER identity. -/
def State.heardMap (s : State) : StationMap :=
  mapOf fun i => decide (i = s.own) || s.roster[i].presence == .heard
    || s.roster[i].presence == .member

/-- The member map: the own identity with every MEMBER identity. -/
def State.memberMap (s : State) : StationMap :=
  mapOf fun i => decide (i = s.own) || s.roster[i].presence == .member

/-- The view is complete: no entry is HEARD (R84). -/
def State.complete (s : State) : Bool :=
  (List.finRange 16).all fun i => s.roster[i].presence != .heard

/-- Every MEMBER entry carries a last member map equal to the given map (R92). -/
def membersAgree (roster : Vector RosterEntry 16) (m : StationMap) : Bool :=
  (List.finRange 16).all fun i =>
    roster[i].presence != .member || roster[i].last.map LastBeacon.memberMap == some m

/-- An agreeing cycle (R92). -/
def State.agreeing (s : State) : Bool :=
  membersAgree s.roster s.memberMap && s.memberMap == s.view.previous

/-- The view is settled (R95). -/
def State.settled (s : State) : Bool :=
  decide (s.cfg.settleCount ≤ s.view.settle) && s.view.adopted == s.memberMap

/-! ### Records, link and queue -/

/-- The table of R61: which sender states a station counts, by its own sync state. -/
def countsSender : SyncState → SenderState → Bool
  | .acquire, .acquire => true
  | .acquire, .locked => true
  | .acquire, .holdover => false
  | .locked, .acquire => false
  | .locked, .locked => true
  | .locked, .holdover => false
  | .load, _ => false
  | .blocked _, _ => false
  | .parked, _ => false
  | .listen, _ => false
  | .join, _ => false
  | .holdover, _ => false

/-- A LEAVE is pending: the queue holds a LEAVE entry (R120). -/
def State.leavePending (s : State) : Bool := s.tx.queue.leave

/-- The clean report: the link error counter is 0 and the beacon-sent flag is set (R55). -/
def State.clean (s : State) : Bool := decide (s.tx.linkErr = 0) && s.tx.beaconSent

/-- The link error counter stands at its limit: link down (R54). -/
def State.linkAtLimit (s : State) : Bool := decide (s.cfg.linkErrLimit ≤ s.tx.linkErr)

/-- One more error brings the counter to its limit, where it does not stand yet (R54). -/
def State.errorReachesLimit (s : State) : Bool :=
  decide (s.tx.linkErr < s.cfg.linkErrLimit) && decide (s.cfg.linkErrLimit ≤ s.tx.linkErr + 1)

/-- The queue holds at least one entry. -/
def TxQueue.nonempty (q : TxQueue) : Bool := q.fault.isSome || q.leave || q.claim || q.beacon

/-- The conditions of R40 and R41 for driving an SOF, but for the queue: the line is idle to this
station, LINE_RX reads recessive, nothing is in flight, and the sync state transmits. -/
def State.mayDrive (s : State) : Bool :=
  s.tx.lineIdle && s.line.mode == .hunt && s.pins.lineRx && s.tx.inFlight.isNone
    && s.seq.sync.transmits

/-- A frame stands in flight as an abort: its mark is being driven (R44). -/
def State.aborting (s : State) : Bool :=
  match s.tx.inFlight with
  | some f => f.abort
  | none => false

/-- The gate permission that the sequencer's state calls for (R132). -/
def permissionRule (cfg : Image) (sync : SyncState) (expired : Bool) : Bool :=
  sync == .locked || (sync == .holdover && cfg.gateInHoldover && !expired)

/-! ### Gate outputs (R150, R151) -/

/-- HI and LO of a tick, from c, Pc and the active duty, with the outputs of the previous tick. -/
def gateOutputs (cfg : Image) (c pc : Nat) (g : Gate) : Gate :=
  if g.state = .running then
    let held : Bool := decide (1 ≤ cfg.deadBand)
    { g with
      hi := decide (cfg.deadBand ≤ c ∧ c < g.activeDuty) && !(held && g.loPrev)
      lo := decide (g.activeDuty + cfg.deadBand ≤ c ∧ c < pc) && !(held && g.hiPrev) }
  else { g with hi := false, lo := false }

/-! ### Output pins that follow from state -/

/-- ATTN is active exactly while the event queue holds a record (R172, R175). -/
def State.attn (s : State) : Bool := !s.events.isEmpty

/-- CFG_SEL is asserted throughout an attempt (R177). -/
def State.cfgSel (s : State) : Bool :=
  match s.loader.phase with
  | .reading _ _ => true
  | .held => false
  | .waiting _ _ => false
  | .finished => false

/-- CFG_CLK is low in the first four ticks of a bit and high in the last four (R177). -/
def State.cfgClk (s : State) : Bool :=
  match s.loader.phase with
  | .reading _ t => decide (4 ≤ t % 8)
  | .held => false
  | .waiting _ _ => false
  | .finished => false

/-- CFG_DO carries the read command 0x03 and a two-byte address of 0, then 0 (R177). Outside an attempt
the manual gives no level; the model's is 0 (DESIGN CHOICE, assumption 8). -/
def State.cfgDo (s : State) : Bool :=
  match s.loader.phase with
  | .reading _ t => (0x030000#24).getMsbD (t / 8)
  | .held => false
  | .waiting _ _ => false
  | .finished => false

end Sys2Proof.Machine
end

