-- ==== Sys2Proof/WellFormed.lean ====
section
/-! DEFINITION. Which commands the block can meet: the operands that no type bounds are within what their rule allows. A command that is not well formed reports something that cannot happen; its meaning leaves the state as it is (assumption 1). -/

namespace Sys2Proof

/-- The request codes of the request table (Chapter 11, 11.2). -/
def requestCodes : List Byte :=
  [0x01, 0x02, 0x03, 0x04, 0x05, 0x10, 0x11, 0x12, 0x13, 0x14, 0x18, 0x19]

/-- A receive error falls at a bit after the SOF and not after bit 67, the last bit of the longest
frame (R26, R30). -/
def rxErrorBitsOk (bits : List Bit) : Bool := 1 ≤ bits.length && bits.length ≤ 67

/-- Arbitration is lost in the kind or sender field, bits 1 to 7 (R43). -/
def lostBitOk (bit : Nat) : Bool := 1 ≤ bit && bit ≤ 7

/-- A transmit error falls within a frame, bits 0 to 67 (R42, R44). -/
def errorBitOk (bit : Nat) : Bool := bit ≤ 67

/-- The operands of a link error are those of the error it names. -/
def LinkError.wellFormed : LinkError → Bool
  | .receive bits => rxErrorBitsOk bits
  | .dominantRun => true
  | .transmit bit => errorBitOk bit

/-- The check of each command's operands. -/
def Instr.wellFormed : Instr → Bool
  | .deviceReset => true
  | .loadStart => true
  | .configAttemptEnd _ => true
  | .configRetryWaitEnd => true
  | .countTick => true
  | .cycleBoundary => true
  | .syncPulseEnd => true
  | .listenComplete => true
  | .lockReached => true
  | .unlockReached => true
  | .viewAdoption => true
  | .peerStale _ => true
  | .holdoverExpiry => true
  | .sofEdge _ => true
  | .rxBeacon _ _ _ _ _ => true
  | .rxClaim _ _ => true
  | .rxLeave _ => true
  | .rxFault _ _ => true
  | .rxFrameError bits => rxErrorBitsOk bits
  | .recoverIdle => true
  | .dominantRunError => true
  | .lineIdle => true
  | .txFrameStart => true
  | .arbitrationLost bit => lostBitOk bit
  | .transmitError bit => errorBitOk bit
  | .abortMarkEnd => true
  | .frameComplete => true
  | .linkDown error => error.wellFormed
  | .tripPinAssert => true
  | .tripPinRelease => true
  | .status => true
  | .servo => true
  | .roster _ => true
  | .log _ => true
  | .event => true
  | .duty _ => true
  | .start => true
  | .stop => true
  | .trip => true
  | .clear => true
  | .detach => true
  | .attach => true
  | .unknownRequest code => !requestCodes.contains code
  | .lpSelRelease => true

end Sys2Proof
end

