-- ==== Sys2Proof/Machine/Ops.lean ====
section
/-! DEFINITION. The named operations that the commands share: raising events, the transmit queue, gate permission and trips, the clearing entry, the link error counter with link down, the roster and arrival capture, the receiver's samples and deliveries, and the reply of the local port. -/

namespace Sys2Proof.Machine

/-! ### Free orders -/

/-- The elements of a list in the order that the number `k` picks: every order is some number's, and
0 keeps the list as it stands. -/
def arrange {α : Type} (k : Nat) : List α → List α
  | [] => []
  | [x] => [x]
  | x :: y :: l =>
    (arrange (k / (l.length + 2)) (y :: l)).insertIdx (k % (l.length + 2)) x

/-! ### The event queue (R172) -/

/-- An event to be raised. -/
def eventOf (kind : EventKind) (subject : Option Identity) (detail : Byte) (stamp : Cycle) :
    EventRecord := ⟨kind, subject, detail, stamp, false⟩

/-- The more-lost flag of the newest record set. -/
def markNewest : List EventRecord → List EventRecord
  | [] => []
  | [e] => [{ e with moreLost := true }]
  | e :: f :: l => e :: markNewest (f :: l)

/-- One offer to the event queue: it joins the end, its flag clear, or is discarded when the queue
holds 8 records, and the newest record's flag is set. -/
def offerEvent (q : List EventRecord) (e : EventRecord) : List EventRecord :=
  if q.length < 8 then q ++ [{ e with moreLost := false }] else markNewest q

/-- Raise one event. -/
def State.raise (s : State) (e : EventRecord) : State := { s with events := offerEvent s.events e }

/-- Raise the events of one instant. Two or more are offered in a free order (R172, assumption 5). -/
def State.raiseAll (s : State) : List EventRecord → State
  | [] => s
  | [e] => s.raise e
  | e :: f :: l =>
    { s with
      events := (arrange (Config.eventOrder s.free) (e :: f :: l)).foldl offerEvent s.events
      free := s.free + 1 }

/-! ### The transmit queue (R48, R49, R50) -/

/-- The answer to an offer of a FAULT: an entry keeps its first cause. -/
def TxQueue.offerFault (q : TxQueue) (c : LocalCause) : TxQueue :=
  { q with fault := some (q.fault.getD c) }

/-- The answer to an offer of a LEAVE: BEACON and CLAIM entries are removed when it is added. -/
def TxQueue.offerLeave (q : TxQueue) : TxQueue :=
  if q.leave then q else { q with leave := true, claim := false, beacon := false }

/-- The answer to an offer of a CLAIM: refused while a LEAVE is held. -/
def TxQueue.offerClaim (q : TxQueue) : TxQueue := if q.leave then q else { q with claim := true }

/-- The answer to an offer of a BEACON: refused while a LEAVE is held. -/
def TxQueue.offerBeacon (q : TxQueue) : TxQueue := if q.leave then q else { q with beacon := true }

/-- The queue without its entry of a kind (R45). -/
def TxQueue.remove (q : TxQueue) : FrameKind → TxQueue
  | .fault => { q with fault := none }
  | .leave => { q with leave := false }
  | .claim => { q with claim := false }
  | .beacon => { q with beacon := false }

/-- The frame that a start takes: the first entry in kind order, with the fields of R46 and R47. -/
def State.nextPayload (s : State) : Option Payload :=
  match s.tx.queue.fault with
  | some c => some (.fault c)
  | none =>
    if s.tx.queue.leave then some .leave
    else if s.tx.queue.claim then some (.claim (BitVec.ofNat 16 s.cfg.period))
    else if s.tx.queue.beacon then
      some (.beacon (BitVec.ofNat 16 s.carrier.g) s.heardMap s.memberMap s.seq.sync.asSender)
    else none

/-! ### Gate generator and fault unit (R145, R147, R155, R157 to R159, R162) -/

/-- The generator when permission is withdrawn: RUNNING becomes ARMED, its outputs inactive. -/
def Gate.withdraw (g : Gate) : Gate :=
  if g.state = .running then { g with state := .armed, hi := false, lo := false } else g

/-- The generator when a fault is taken. -/
def Gate.tripped (g : Gate) : Gate := { g with state := .tripped, hi := false, lo := false }

/-- The generator taken to OFF. -/
def Gate.stopped (g : Gate) : Gate := { g with state := .off, hi := false, lo := false }

/-- Gate permission withdrawn (R132, R145). -/
def State.withdraw (s : State) : State :=
  { s with seq := { s.seq with permission := false }, gate := s.gate.withdraw }

/-- A fault acts on the gate state and the fault record: it trips the stage and fills the record, or
raises the repeat count of a stage that is tripped (R155, R157, R162). -/
def State.takeFault (s : State) (cause : FaultCause) : State :=
  if s.gate.state = .tripped then
    { s with fault := { s.fault with repeats := min 15 (s.fault.repeats + 1) } }
  else
    { s with
      gate := s.gate.tripped
      fault := { s.fault with cause := cause, stamp := s.carrier.cycle, repeats := 0 } }

/-- The cause a local fault leaves in the record. -/
def LocalCause.asFault : LocalCause → FaultCause
  | .pin => .pin
  | .command => .command

/-- A code in the detail byte of an event. -/
def causeDetail (c : LocalCause) : Byte := c.code.setWidth 8

/-- A local fault: the gate state and the record (R157), the FAULT_LOCAL event, but not in LOAD
(R158), and the offer of a FAULT where the state transmits (R159). -/
def State.localFault (s : State) (c : LocalCause) : State :=
  let s1 := s.takeFault (LocalCause.asFault c)
  let s2 :=
    if s.seq.sync = .load then s1
    else s1.raise (eventOf .faultLocal none (causeDetail c) s.carrier.cycle)
  if s.seq.sync.transmits then
    { s2 with tx := { s2.tx with queue := s2.tx.queue.offerFault c } }
  else s2

/-- The TRIP pin read active: an assertion, and a local fault, when it read inactive before; a pin that
stays active makes no further fault (R156). -/
def State.assertTripPin (s : State) : State :=
  if s.fault.pin then s else { s with fault := { s.fault with pin := true } }.localFault .pin

/-! ### Entering a state that clears (R122) -/

/-- The entry to LISTEN, PARKED or BLOCKED, made known to every block that clears on it: transmit
queue (R51), roster (R85), arrival log (R65), view (R101), servo (R117), accumulator (R6), the
sequencer's counts and the gate permission (R122), and, in LISTEN, the link error counter (R53). -/
def State.enterClearing (s : State) (sync : SyncState) : State :=
  { s with
    carrier := { s.carrier with acc := 0 }
    tx := { s.tx with
      queue := TxQueue.empty
      linkErr := if sync = .listen then 0 else s.tx.linkErr }
    log := []
    roster := clearedRoster s.own
    view := ⟨ownMap s.own, 0, ownMap s.own, slotTarget s.cfg.period (ownMap s.own) s.own⟩
    servo := { s.servo with
      integ := 0, trim := 0, captureDone := false, lock := 0, unlock := 0 }
    seq := ⟨sync, 0, 0, false, false⟩
    gate := s.gate.withdraw }

/-- The entry to PARKED with its event (R133, R134). -/
def State.park (s : State) (detail : Byte) : State :=
  (s.enterClearing .parked).raise (eventOf .parked none detail s.carrier.cycle)

/-- The entry to HOLDOVER on link down in LOCKED, without its event (R117, R129). -/
def State.enterHoldover (s : State) : State :=
  let expired : Bool := decide (s.cfg.holdoverMax = 0)
  let kept : Bool := s.cfg.gateInHoldover && !expired
  { s with
    servo := { s.servo with lock := 0 }
    seq := { s.seq with sync := .holdover, holdover := 0, expired := expired, permission := kept }
    gate := if kept then s.gate else s.gate.withdraw }

/-! ### The link error counter (R53, R54) -/

/-- The sequencer's answer to link down by its state: the new state and the events it raises
(R123, R125, R127, R129, R134, R135, R138). -/
def State.answerLinkDown (s : State) : State × List EventRecord :=
  let parkedEvent := eventOf .parked none 2 s.carrier.cycle
  match s.seq.sync with
  | .load => (s, [])
  | .blocked _ => (s, [])
  | .parked => (s, [])
  | .listen => ({ s with seq := { s.seq with listen := 0 } }, [])
  | .join => (s.enterClearing .listen, [])
  | .acquire =>
    if s.leavePending then (s.enterClearing .parked, [parkedEvent])
    else (s.enterClearing .listen, [])
  | .locked =>
    if s.leavePending then (s.enterClearing .parked, [parkedEvent])
    else (s.enterHoldover,
      if s.cfg.holdoverMax = 0 then [eventOf .holdoverExpired none 0 s.carrier.cycle] else [])
  | .holdover =>
    if s.leavePending then (s.enterClearing .parked, [parkedEvent]) else (s, [])

/-- Link down: the signal to the sequencer and one LINK_DOWN event; `detail` is 0 for a receive error
and 1 for a transmit error (R54). -/
def State.linkDown (s : State) (detail : Byte) : State :=
  let e := eventOf .linkDown none detail s.carrier.cycle
  s.answerLinkDown.1.raiseAll (e :: s.answerLinkDown.2)

/-- An error counted: the counter rises by 1, not above its limit, and link down follows when it
reaches the limit (R53, R54). -/
def State.countError (s : State) (detail : Byte) : State :=
  if s.linkAtLimit then s
  else
    let s1 := { s with tx := { s.tx with linkErr := s.tx.linkErr + 1 } }
    if s.errorReachesLimit then s1.linkDown detail else s1

/-! ### Samples of the line (R25, R39) -/

/-- The idle count at a sample point; `inBody` says that the sample lies in a frame before its end
field, where R39 leaves open whether a recessive sample counts (assumption 9). -/
def Contention.sampled (t : Contention) (inBody : Bool) (b : Bit) : Contention :=
  if b then
    if inBody && !Config.idleCountsFrameBits then t
    else { t with idleCount := min 8 (t.idleCount + 1) }
  else { t with idleCount := 0, lineIdle := false }

/-- LINE_RX reads `b` at a sample point of the grid. -/
def State.atSample (s : State) (b : Bit) : State :=
  { s with
    pins := { s.pins with lineRx := b }
    line := { s.line with rxPrev := b, grid := s.cfg.bitTicks / 2 } }

/-- The last of these bits lies before the end field of its frame. -/
def inFrameBody (bits : List Bit) : Bool :=
  match kindOf bits with
  | none => true
  | some k => decide (bits.length ≤ k.endAt)

/-- Whether the bit at position `n`, after these bits, is fed into the check: the kind, sender and
payload bits are (R28). -/
def feedsCheck (bits : List Bit) : Bool :=
  decide (bits.length < 8) ||
    match kindOf bits with
    | none => false
    | some k => decide (bits.length < k.checkAt)

/-- The frame record after one more sampled bit; the SOF sets the check register (R28). -/
def RxRecord.feed (r : RxRecord) (b : Bit) : RxRecord :=
  { r with
    bits := r.bits ++ [b]
    crc := if r.bits = [] then 0xFF else if feedsCheck r.bits then frameCrcStep r.crc b else r.crc }

/-- A foreign frame fails a check: the record is dropped, RECOVER is entered with both run counts 0,
and the error is counted once (R30). -/
def State.rejectFrame (s : State) : State :=
  { s with line := { s.line with mode := .recover 0 0 } }.countError 0

/-- Further bits of a foreign frame, the last of which is the first to fail a check: the contention
block's state after them; none when no bit fails or one before the last does (R30). Bit 0 is checked
like the others here, by its place in the wire and not as a false start (assumption 25). -/
def errorAfter (r : RxRecord) (t : Contention) : List Bit → Option Contention
  | [] => none
  | b :: l =>
    let r' := r.feed b
    let t' := t.sampled (inFrameBody r'.bits) b
    match verdict r'.bits r'.crc with
    | .more => errorAfter r' t' l
    | .error => if l.isEmpty then some t' else none
    | .valid _ => none

/-- The idle count after the last end bit of a whole frame (R39, assumption 9). -/
def idleAfterFrame (f : Frame) : Nat :=
  if Config.idleCountsFrameBits then min 8 (f.wire.reverse.takeWhile id).length else 2

/-- The carrier `c` stands in the instant of the carrier `d`: no tick has made counts between them, and at
most one boundary of that tick has been worked. -/
def Carrier.sameInstant (c d : Carrier) : Bool :=
  c.acc == d.acc && ((c.cycle == d.cycle && c.c == d.c)
    || (c.cycle == d.cycle + 1 && c.c + d.pc == d.c))

/-- The frame record that an error has dropped in this very instant as it took the station to LISTEN: the
receiver stands in RECOVER with both run counts 0, as the error left it, and no abort mark is driven. -/
def State.droppedNow (s : State) : Option RxRecord :=
  match s.line.mode with
  | .recover 0 0 =>
    if s.aborting then none
    else (s.dropped.filter fun d => s.carrier.sameInstant d.carrier).map DroppedRecord.record
  | .recover _ _ => none
  | .receive _ => none
  | .off => none
  | .hunt => none

/-- The foreign frame record that this frame's bits continue: the receiver's, or one that an entry to LISTEN
has dropped in this instant, for a delivery may be taken after that entry (R65, R85, assumption 27). -/
def State.foreignRecord (s : State) (f : Frame) : Option RxRecord :=
  let record : Option RxRecord :=
    match s.line.mode with
    | .receive r => some r
    | .off => none
    | .recover _ _ => s.droppedNow
    | .hunt => none
  record.filter fun r => !r.own && r.bits.isPrefixOf f.wire

/-- The last end bit of a valid foreign frame: the record is dropped, HUNT is entered, and the link
error counter returns to 0 (R23, R34, R53). -/
def State.endOfFrame (s : State) (idle : Nat) : State :=
  let s1 := s.atSample true
  { s1 with
    line := { s1.line with mode := .hunt }
    tx := { s1.tx with idleCount := idle, linkErr := 0 } }

/-! ### Identity conflict and period checks (R35, R36, R137) -/

/-- An identity conflict, reported at a validation instant, with the frame's kind code. -/
def State.identityConflict (s : State) (kind : FrameKind) : State :=
  if s.seq.sync.actsOnPeers then
    (s.enterClearing (.blocked .idConflict)).raise
      (eventOf .idConflict (some s.own) (kind.code.setWidth 8) s.carrier.cycle)
  else s

/-- A period mismatch (R36). -/
def State.periodMismatch (s : State) (sender : Identity) (kind : FrameKind) : State :=
  if s.seq.sync.actsOnPeers then
    s.raise (eventOf .periodMismatch (some sender) (kind.code.setWidth 8) s.carrier.cycle)
  else s

/-! ### Roster arrivals (R72 to R78) -/

/-- What every handled frame does first: the flag is set, the miss count 0 (R72). -/
def RosterEntry.touch (e : RosterEntry) : RosterEntry := { e with flag := true, misses := 0 }

/-- The presence a CLAIM or a FAULT gives (R73, R78). -/
def Presence.onHeard : Presence → Presence
  | .absent => .heard
  | .heard => .heard
  | .member => .member
  | .self => .self

/-- The presence a BEACON gives: in LISTEN and JOIN R75, in ACQUIRE, LOCKED and HOLDOVER the table of
R76, where `lists` says that its heard map lists this station. -/
def Presence.onBeacon (p : Presence) (sync : SyncState) (lists : Bool) : Presence :=
  match p with
  | .self => .self
  | .absent => if sync.grouped && lists then .member else .heard
  | .heard => if sync.grouped && lists then .member else .heard
  | .member => if sync.grouped && !lists then .heard else .member

/-- One roster entry replaced. -/
def State.setEntry (s : State) (i : Identity) (e : RosterEntry) : State :=
  { s with roster := s.roster.set i.val e }

/-- The event of a presence change by a BEACON (R76, R87). -/
def beaconEvents (sender : Identity) (before after : Presence) (st : SenderState) (stamp : Cycle) :
    List EventRecord :=
  if before ≠ .member ∧ after = .member then
    [eventOf .peerMember (some sender) (st.code.setWidth 8) stamp]
  else if before = .member ∧ after ≠ .member then
    [eventOf .peerDropped (some sender) 2 stamp]
  else []

/-! ### Arrival capture (R57 to R63) -/

/-- The measured error of a beacon (R58). -/
def measuredError (p lineDelay sentPhase arrivalPhase : Nat) : Int :=
  wrapped p ((reduce p ((sentPhase + lineDelay : Nat) : Int) : Int) - arrivalPhase)

/-- The stored error: the measured error less the phase steps of the boundaries crossed (R59). -/
def storedError (p : Nat) (measured : Int) (totalThen totalNow : Nat) : Int :=
  wrapped p (measured - (reduce p ((totalNow : Int) - totalThen) : Int))

/-- The record that capture forms from a beacon at its validation instant; `after` is the presence
that the roster's handling of this beacon leaves (R61). -/
def State.captureRecord (s : State) (sample : PhaseSample) (sender : Identity) (sentPhase : Nat)
    (heardMap memberMap : StationMap) (st : SenderState) (after : Presence) : ArrivalRecord where
  sender := sender
  state := st
  sentPhase := sentPhase
  arrivalPhase := sample.g
  error := storedError s.cfg.period
    (measuredError s.cfg.period s.cfg.lineDelay sentPhase sample.g)
    sample.stepTotal s.carrier.stepTotal
  heardMap := heardMap
  memberMap := memberMap
  usable := after == .member && countsSender s.seq.sync st
  crossBoundary := s.carrier.cycle != sample.cycle

/-- A record stored: it replaces its sender's record in place, or joins the end (R62). -/
def storeRecord (log : List ArrivalRecord) (r : ArrivalRecord) : List ArrivalRecord :=
  if log.any fun x => x.sender = r.sender then
    log.map fun x => if x.sender = r.sender then r else x
  else log ++ [r]

/-! ### Deliveries of a valid foreign frame (R34), after `endOfFrame` -/

/-- A BEACON delivered: identity conflict, period mismatch, or roster and capture. -/
def State.deliverBeacon (s : State) (sample : PhaseSample) (sender : Identity)
    (sentPhase : BitVec 16) (heardMap memberMap : StationMap) (st : SenderState) : State :=
  if sender = s.own then s.identityConflict .beacon
  else if s.cfg.period ≤ sentPhase.toNat then s.periodMismatch sender .beacon
  else if s.seq.sync.actsOnPeers then
    let before := s.roster[sender]
    let after := before.presence.onBeacon s.seq.sync (lists heardMap s.own)
    let r := s.captureRecord sample sender sentPhase.toNat heardMap memberMap st after
    let e : RosterEntry :=
      { before.touch with presence := after, last := some ⟨st, heardMap, memberMap, r.error⟩ }
    ({ s.setEntry sender e with log := storeRecord s.log r }).raiseAll
      (beaconEvents sender before.presence after st s.carrier.cycle)
  else s

/-- A CLAIM delivered (R36, R73). -/
def State.deliverClaim (s : State) (sender : Identity) (period : BitVec 16) : State :=
  if sender = s.own then s.identityConflict .claim
  else if period.toNat ≠ s.cfg.period then s.periodMismatch sender .claim
  else if s.seq.sync.actsOnPeers then
    let e := s.roster[sender]
    s.setEntry sender { e.touch with presence := e.presence.onHeard }
  else s

/-- A LEAVE delivered (R77): the entry is ABSENT after it. -/
def State.deliverLeave (s : State) (sender : Identity) : State :=
  if sender = s.own then s.identityConflict .leave
  else if s.seq.sync.actsOnPeers then
    (s.setEntry sender RosterEntry.absent).raiseAll
      (if s.roster[sender].presence = .member then
        [eventOf .peerDropped (some sender) 1 s.carrier.cycle] else [])
  else s

/-- A FAULT delivered to the roster (R78) and to the fault unit (R161, R162). -/
def State.deliverFault (s : State) (sender : Identity) (cause : LocalCause) : State :=
  if sender = s.own then s.identityConflict .fault
  else if s.seq.sync.actsOnPeers then
    let e := s.roster[sender]
    let s1 := s.setEntry sender { e.touch with presence := e.presence.onHeard }
    if s.seq.sync.transmits then
      let s2 := if s.cfg.groupTrip then s1.takeFault (.remote sender) else s1
      s2.raise (eventOf .faultRemote (some sender) (causeDetail cause) s.carrier.cycle)
    else s1
  else s

/-- The delivery of a valid frame by its kind. -/
def State.deliver (s : State) (sample : PhaseSample) (f : Frame) : State :=
  match f.payload with
  | .fault c => s.deliverFault f.sender c
  | .leave => s.deliverLeave f.sender
  | .claim p => s.deliverClaim f.sender p
  | .beacon ph h m st => s.deliverBeacon sample f.sender ph h m st

/-! ### The reply of the local port (R166, R168) -/

/-- The answer of a request at its instant of taking; the port has every bit of the code and its
arguments then, and LP_DO is 0 until the status byte. -/
def State.reply (s : State) (code : Byte) (args : BitVec 16) (status : StatusCode)
    (response : List Byte) : State :=
  { s with
    pins := { s.pins with lpSel := true }
    port := { s.port with
      selPrev := true
      active := true
      bits := 8 * (1 + argumentBytes code)
      code := code
      args := args
      answer := some ⟨status, response⟩
      lpDo := false } }

/-- The answers that come before the owning chapter's: NOT_READY in LOAD, and REFUSED_STATE in
BLOCKED with a CONFIG reason (R169). -/
def State.portRefusal (s : State) : Option StatusCode :=
  if s.seq.sync = .load then some .notReady
  else if s.seq.sync.configBlocked then some .refusedState
  else none

end Sys2Proof.Machine
end

