-- ==== Sys2Proof/Machine/GroupTime.lean ====
section
/-! DEFINITION. Group time between boundaries (Chapter 1): COUNT_TICK with the gate outputs of the tick, and SYNC_PULSE_END. -/

namespace Sys2Proof.Machine

/-! ### COUNT_TICK (R3, R4, R19, R150, R151) -/

/-- The counts that a tick makes and the accumulator it leaves, from the applied trim and the
accumulator (the table of R3). -/
def countsOf (trim : Int) (acc : Nat) : Nat × Nat :=
  let sum : Int := acc + trim
  if 65536 ≤ sum then (2, (sum - 65536).toNat)
  else if sum < 0 then (0, (sum + 65536).toNat)
  else (1, sum.toNat)

/-- The gate outputs decided again from what now stands, with the outputs of the previous tick
(R150: once per tick, after every event taken in the tick). -/
def State.decideOutputs (s : State) : State :=
  { s with gate := gateOutputs s.cfg s.carrier.c s.carrier.pc s.gate }

/-- One tick of the carrier. A tick whose predecessor has left a boundary due makes no counts: that
boundary belongs to the tick before it (R8, assumption 14). The command makes a tick's counts alone: it
does not age a SYNC pulse, which the idle step's tick does (DESIGN CHOICE, assumption 24). -/
def onCountTick (s : State) : State :=
  if s.seq.sync.runs && decide (s.carrier.c < s.carrier.pc) then
    let n := (countsOf s.servo.trim s.carrier.acc).1
    { s with
      carrier := { s.carrier with
        g := (s.carrier.g + n) % s.cfg.period
        c := s.carrier.c + n
        acc := (countsOf s.servo.trim s.carrier.acc).2 }
      gate := { s.gate with hiPrev := s.gate.hi, loPrev := s.gate.lo } }.decideOutputs
  else s

def execCountTick (s : State) : Host.Outcome State Fault Refusal := .next (onCountTick s)

/-! ### SYNC_PULSE_END (R15) -/

/-- The end of the SYNC pulse, 8 ticks after it began. The command carries those ticks and ends a pulse
of any age (DESIGN CHOICE, assumption 24). -/
def onSyncPulseEnd (s : State) : State :=
  if s.carrier.sync then { s with carrier := { s.carrier with sync := false, syncAge := 0 } } else s

def execSyncPulseEnd (s : State) : Host.Outcome State Fault Refusal := .next (onSyncPulseEnd s)

end Sys2Proof.Machine
end

