-- ==== Sys2Proof/Machine/Boundary.lean ====
section
/-! DEFINITION. The cycle boundary: the work of each block (Chapters 1, 3 to 9), each reading what stood when the cycle ended, and the commands CYCLE_BOUNDARY, LISTEN_COMPLETE, LOCK_REACHED, UNLOCK_REACHED, VIEW_ADOPTION, PEER_STALE and HOLDOVER_EXPIRY. The last six are boundaries at which what they name comes about (assumption 6): a boundary is one step (R8, R20). -/

namespace Sys2Proof.Machine

/-! ### Phase servo (R107 to R116) -/

/-- k, the number of usable records (R108). -/
def usableCount (log : List ArrivalRecord) : Nat := log.countP fun r => r.usable

/-- The mean error ē: the usable errors' sum divided by k + 1, truncated toward zero (R108). -/
def meanError (log : List ArrivalRecord) : Int :=
  (((log.filter fun r => r.usable).map ArrivalRecord.error).sum).tdiv (usableCount log + 1)

/-- The usable record from a LOCKED sender whose sender has the lowest identity (R112). -/
def captureReference (log : List ArrivalRecord) : Option ArrivalRecord :=
  (log.filter fun r => r.usable && r.state == .locked).foldl
    (fun best r =>
      match best with
      | none => some r
      | some b => if r.sender < b.sender then some r else some b)
    none

/-- The integrator after an error (R109). -/
def nextInteg (cfg : Image) (integ e : Int) : Int :=
  clampTo cfg.trimMax (integ + ((cfg.ki : Int) * e).tdiv 256)

/-- The trim from an error and the updated integrator (R110). -/
def nextTrim (cfg : Image) (integ e : Int) : Int :=
  clampTo cfg.trimMax (((cfg.kp : Int) * e).tdiv 16 + integ)

/-- The conditions under which an ACQUIRE boundary without a capture counts toward lock (R114). -/
def State.qualifies (s : State) : Bool :=
  decide ((meanError s.log).natAbs ≤ s.cfg.lockWindow) && s.complete && s.settled
    && (decide (1 ≤ usableCount s.log) || s.memberMap == ownMap s.own)

/-- The record of the coarse capture that this boundary applies, if it applies one (R112). -/
def State.capture (s : State) : Option ArrivalRecord :=
  if s.seq.sync = .acquire ∧ s.servo.captureDone = false then captureReference s.log else none

/-- The phase step s of this boundary (R111, R112). -/
def State.phaseStep (s : State) : Int :=
  match s.seq.sync with
  | .acquire =>
    match s.capture with
    | some r => r.error
    | none => clampTo s.cfg.acqStep (meanError s.log)
  | .locked => clampTo s.cfg.fineStep (meanError s.log)
  | .load => 0
  | .blocked _ => 0
  | .parked => 0
  | .listen => 0
  | .join => 0
  | .holdover => 0

/-- The lock counter after its update at an ACQUIRE boundary (R112, R114). -/
def State.nextLock (s : State) : Nat :=
  if s.capture.isSome then 0 else if s.qualifies then min 255 (s.servo.lock + 1) else 0

/-- The unlock counter after its update at a LOCKED boundary (R116). -/
def State.nextUnlock (s : State) : Nat :=
  if s.cfg.unlockWindow < (meanError s.log).natAbs then min 255 (s.servo.unlock + 1) else 0

/-- Lock is reached at this boundary (R115). -/
def State.reachesLock (s : State) : Bool :=
  s.seq.sync == .acquire && decide (s.cfg.lockCount ≤ s.nextLock)

/-- Unlock is reached at this boundary (R116). -/
def State.reachesUnlock (s : State) : Bool :=
  s.seq.sync == .locked && decide (s.cfg.lockCount ≤ s.nextUnlock)

/-- The servo after the work of a boundary, before any change of sync state (the table of R107). -/
def State.servoWork (s : State) : Servo :=
  let e := meanError s.log
  match s.seq.sync with
  | .acquire =>
    match s.capture with
    | some r =>
      { s.servo with meanError := e, lastStep := r.error, captureDone := true, lock := 0 }
    | none =>
      { s.servo with
        integ := nextInteg s.cfg s.servo.integ e
        trim := nextTrim s.cfg (nextInteg s.cfg s.servo.integ e) e
        meanError := e
        lastStep := s.phaseStep
        captureDone := s.servo.captureDone || s.reachesLock
        lock := s.nextLock }
  | .locked =>
    { s.servo with
      integ := nextInteg s.cfg s.servo.integ e
      trim := nextTrim s.cfg (nextInteg s.cfg s.servo.integ e) e
      meanError := e
      lastStep := s.phaseStep
      unlock := s.nextUnlock }
  | .load => { s.servo with meanError := 0, lastStep := 0 }
  | .blocked _ => { s.servo with meanError := 0, lastStep := 0 }
  | .parked => { s.servo with meanError := 0, lastStep := 0 }
  | .listen => { s.servo with meanError := 0, lastStep := 0 }
  | .join => { s.servo with meanError := 0, lastStep := 0 }
  | .holdover => { s.servo with meanError := 0, lastStep := 0 }

/-! ### View and slot (R91 to R94, R98) -/

/-- The slot step δ of this boundary (R98). -/
def State.slotStep (s : State) : Int :=
  if s.seq.sync.grouped then
    clampTo s.cfg.slotStep (wrapped s.cfg.period ((s.view.target : Int) - s.carrier.o))
  else 0

/-- The settle counter after its update (the table of R91, R93). -/
def State.nextSettle (s : State) : Nat :=
  match s.seq.sync with
  | .acquire => if s.agreeing then min 15 (s.view.settle + 1) else 0
  | .locked => if s.agreeing then min 15 (s.view.settle + 1) else 0
  | .listen => 0
  | .join => 0
  | .load => s.view.settle
  | .blocked _ => s.view.settle
  | .parked => s.view.settle
  | .holdover => s.view.settle

/-- The member map becomes the adopted view at this boundary (R94). -/
def State.adopts (s : State) : Bool :=
  s.seq.sync.measuring && decide (s.cfg.settleCount ≤ s.nextSettle)
    && s.memberMap != s.view.adopted

/-- The view block after the work of a boundary. -/
def State.viewWork (s : State) : View where
  adopted := if s.adopts then s.memberMap else s.view.adopted
  settle := s.nextSettle
  previous := s.memberMap
  target := if s.adopts then slotTarget s.cfg.period s.memberMap s.own else s.view.target

/-- The VIEW_ADOPTED event (R94); `stamp` is the number of the cycle that begins. -/
def State.viewEvents (s : State) (stamp : Cycle) : List EventRecord :=
  if s.adopts then [eventOf .viewAdopted none (byteOf (countOf s.memberMap)) stamp] else []

/-! ### Roster (R80, R81) -/

/-- The states whose boundaries count misses (the table of R80). -/
def SyncState.countsMisses : SyncState → Bool
  | .listen => true
  | .join => true
  | .acquire => true
  | .locked => true
  | .load => false
  | .blocked _ => false
  | .parked => false
  | .holdover => false

/-- A boundary that counts misses takes this entry to StaleLimit (R80, R81). -/
def RosterEntry.goesStale (limit : Nat) (e : RosterEntry) : Bool :=
  (e.presence == .heard || e.presence == .member) && !e.flag && decide (limit ≤ e.misses + 1)

/-- An entry after a boundary that counts misses (R80, R81). -/
def RosterEntry.missed (limit : Nat) (e : RosterEntry) : RosterEntry :=
  if e.goesStale limit then RosterEntry.absent
  else if (e.presence == .heard || e.presence == .member) && !e.flag then
    { e with misses := e.misses + 1 }
  else { e with flag := false }

/-- The entry of this identity goes stale at this boundary. -/
def State.stale (s : State) (i : Identity) : Bool :=
  s.seq.sync.countsMisses && s.roster[i].goesStale s.cfg.staleLimit

/-- The roster after the work of a boundary (the table of R80). -/
def State.rosterWork (s : State) : Vector RosterEntry 16 :=
  if s.seq.sync.countsMisses then s.roster.map (RosterEntry.missed s.cfg.staleLimit)
  else if s.seq.sync = .holdover then s.roster.map fun e => { e with flag := false }
  else s.roster

/-- The PEER_DROPPED events of the MEMBER entries that go stale (R81). -/
def State.staleEvents (s : State) (stamp : Cycle) : List EventRecord :=
  ((List.finRange 16).filter fun i => s.stale i && s.roster[i].presence == .member).map fun i =>
    eventOf .peerDropped (some i) 0 stamp

/-! ### Sequencer (R123, R124, R126 to R128, R130) -/

/-- LISTEN is complete at this boundary (R123). -/
def State.reachesJoin (s : State) : Bool :=
  s.seq.sync == .listen && decide (s.cfg.listenCycles ≤ s.seq.listen + 1)

/-- The holdover count after a boundary that is not clean (R130). -/
def State.nextHoldover (s : State) : Nat := min 65535 (s.seq.holdover + 1)

/-- Holdover expires at this boundary (R130). -/
def State.reachesExpiry (s : State) : Bool :=
  s.seq.sync == .holdover && !s.clean && !s.seq.expired
    && decide (s.cfg.holdoverMax ≤ s.nextHoldover)

/-- The sequencer after the work of a boundary; gate permission is R132's. -/
def State.sequencerWork (s : State) : Sequencer :=
  match s.seq.sync with
  | .listen =>
    { s.seq with
      listen := s.seq.listen + 1
      sync := if s.reachesJoin then .join else .listen }
  | .acquire =>
    if s.reachesLock then { s.seq with sync := .locked, permission := true } else s.seq
  | .locked =>
    if s.reachesUnlock then { s.seq with sync := .acquire, permission := false } else s.seq
  | .holdover =>
    if s.clean then
      { s.seq with sync := .acquire, holdover := 0, expired := false, permission := false }
    else if s.reachesExpiry then
      { s.seq with holdover := s.nextHoldover, expired := true, permission := false }
    else { s.seq with holdover := s.nextHoldover }
  | .load => s.seq
  | .blocked _ => s.seq
  | .parked => s.seq
  | .join => s.seq

/-- The sequencer's events at a boundary (R140). -/
def State.sequencerEvents (s : State) (stamp : Cycle) : List EventRecord :=
  match s.seq.sync with
  | .acquire =>
    if s.reachesLock then
      [eventOf .lockGained none (byteOf (countOf s.viewWork.adopted)) stamp] else []
  | .locked =>
    if s.reachesUnlock then
      [eventOf .lockLost none (detailByte (meanError s.log).natAbs) stamp] else []
  | .holdover =>
    if s.clean then [eventOf .linkUp none (detailByte s.seq.holdover) stamp]
    else if s.reachesExpiry then [eventOf .holdoverExpired none 0 stamp] else []
  | .load => []
  | .blocked _ => []
  | .parked => []
  | .listen => []
  | .join => []

/-- The offers to the transmit queue at a boundary: the CLAIM at the entry to JOIN (R124), a BEACON
where ACQUIRE, LOCKED or HOLDOVER ended the cycle (R126). -/
def State.queueWork (s : State) : TxQueue :=
  if s.reachesJoin then s.tx.queue.offerClaim
  else if s.seq.sync.grouped then s.tx.queue.offerBeacon
  else s.tx.queue

/-- The servo's counters at an entry that the boundary makes (R117). -/
def Servo.entered (v : Servo) (before after : SyncState) : Servo :=
  if before = after then v else { v with lock := 0, unlock := 0 }

/-! ### Gate generator (R144, R145, R149) -/

/-- The generator after the work of a boundary: the pending duty is copied, and the state follows
permission as the boundary leaves it. -/
def Gate.atBoundary (g : Gate) (permission : Bool) : Gate :=
  let g1 := { g with activeDuty := g.pendingDuty }
  if permission then (if g1.state = .armed then { g1 with state := .running } else g1)
  else g1.withdraw

/-! ### The boundary (R8 to R15) -/

/-- The events of one boundary, each stamped with the number of the cycle that begins. -/
def State.boundaryEvents (s : State) : List EventRecord :=
  let stamp := s.carrier.cycle + 1
  s.staleEvents stamp ++ s.viewEvents stamp ++ s.sequencerEvents stamp

/-- The whole work of a cycle boundary: every block reads what stood when the cycle ended. -/
def State.boundary (s : State) : State :=
  let p := s.cfg.period
  let seq := s.sequencerWork
  ({ s with
    carrier := { s.carrier with
      g := reduce p (s.carrier.g + s.phaseStep)
      o := reduce p (s.carrier.o + s.slotStep)
      c := s.carrier.c - s.carrier.pc
      pc := ((p : Int) - s.phaseStep + s.slotStep).toNat
      cycle := s.carrier.cycle + 1
      stepTotal := reduce p (s.carrier.stepTotal + s.phaseStep)
      sync := true
      syncAge := 0 }
    tx := { s.tx with queue := s.queueWork, beaconSent := false }
    log := []
    roster := s.rosterWork
    view := s.viewWork
    servo := s.servoWork.entered s.seq.sync seq.sync
    seq := seq
    gate := s.gate.atBoundary seq.permission }.decideOutputs).raiseAll s.boundaryEvents

/-! ### The commands -/

/-- CYCLE_BOUNDARY: the boundary, when it is due. -/
def onCycleBoundary (s : State) : State := if s.boundaryDue then s.boundary else s

def execCycleBoundary (s : State) : Host.Outcome State Fault Refusal := .next (onCycleBoundary s)

/-- LISTEN_COMPLETE: the boundary at which the listen count reaches ListenCycles (R123, R124). -/
def onListenComplete (s : State) : State :=
  if s.boundaryDue && s.reachesJoin then s.boundary else s

def execListenComplete (s : State) : Host.Outcome State Fault Refusal := .next (onListenComplete s)

/-- LOCK_REACHED: the boundary at which the lock counter reaches LockCount (R115, R127). -/
def onLockReached (s : State) : State :=
  if s.boundaryDue && s.reachesLock then s.boundary else s

def execLockReached (s : State) : Host.Outcome State Fault Refusal := .next (onLockReached s)

/-- UNLOCK_REACHED: the boundary at which the unlock counter reaches LockCount (R116, R128). -/
def onUnlockReached (s : State) : State :=
  if s.boundaryDue && s.reachesUnlock then s.boundary else s

def execUnlockReached (s : State) : Host.Outcome State Fault Refusal := .next (onUnlockReached s)

/-- VIEW_ADOPTION: the boundary at which the member map becomes the adopted view (R94). -/
def onViewAdoption (s : State) : State := if s.boundaryDue && s.adopts then s.boundary else s

def execViewAdoption (s : State) : Host.Outcome State Fault Refusal := .next (onViewAdoption s)

/-- PEER_STALE: the boundary at which this peer's miss count reaches StaleLimit (R81). -/
def onPeerStale (peer : Identity) (s : State) : State :=
  if s.boundaryDue && s.stale peer then s.boundary else s

def execPeerStale (peer : Identity) (s : State) : Host.Outcome State Fault Refusal :=
  .next (onPeerStale peer s)

/-- HOLDOVER_EXPIRY: the boundary at which the holdover count reaches HoldoverMax (R130). -/
def onHoldoverExpiry (s : State) : State :=
  if s.boundaryDue && s.reachesExpiry then s.boundary else s

def execHoldoverExpiry (s : State) : Host.Outcome State Fault Refusal :=
  .next (onHoldoverExpiry s)

end Sys2Proof.Machine
end

