-- ==== Sys2Proof/Machine/Faults.lean ====
section
/-! DEFINITION. The TRIP pin (Chapter 10): TRIP_PIN_ASSERT and TRIP_PIN_RELEASE. -/

namespace Sys2Proof.Machine

/-- The TRIP pin goes active. The pin is read from the end of device reset on (R156); an assertion
before that stands on the pin until LOAD_START reads it. -/
def onTripPinAssert (s : State) : State :=
  let s1 := { s with pins := { s.pins with trip := true } }
  if s.loader.phase = .held then s1 else s1.assertTripPin

def execTripPinAssert (s : State) : Host.Outcome State Fault Refusal := .next (onTripPinAssert s)

/-- The TRIP pin goes inactive: no fault, and a later CLEAR may be accepted (R156). -/
def onTripPinRelease (s : State) : State :=
  { s with pins := { s.pins with trip := false }, fault := { s.fault with pin := false } }

def execTripPinRelease (s : State) : Host.Outcome State Fault Refusal := .next (onTripPinRelease s)

end Sys2Proof.Machine
end

