-- ==== Sys2Proof/Machine/LocalPort.lean ====
section
/-! DEFINITION. The requests of the local port, each at its instant of taking (Chapter 11, with the owning chapters' answers), and LP_SEL_RELEASE. -/

namespace Sys2Proof.Machine

/-! ### STATUS (R170) -/

/-- The STATUS record (11.5). In BLOCKED with a CONFIG reason every field that an image would start
reads 0. -/
def statusRecord (s : State) : List Byte :=
  let started := !s.seq.sync.configBlocked
  let live (l : List Byte) : List Byte := if started then l else l.map fun _ => 0
  [s.seq.sync.code, s.seq.sync.reasonCode, s.gate.state.code]
    ++ live ([byteOf (countOf s.view.adopted), byteOf (rankIn s.view.adopted s.own)]
      ++ be16 s.view.adopted ++ be16 s.memberMap
      ++ [byteOf s.tx.linkErr, byteOf s.view.settle, byteOf s.servo.lock, byteOf s.servo.unlock])
    ++ [s.fault.cause.code, identityByte s.fault.cause.originator, byteOf s.fault.repeats]
    ++ be32 s.fault.stamp ++ [byteOf s.events.length] ++ live (be32 s.carrier.cycle)

/-- STATUS is answered in every state but LOAD, and changes nothing. -/
def onStatus (s : State) : State :=
  if s.seq.sync = .load then s.reply 0x01 0 .notReady [] else s.reply 0x01 0 .done (statusRecord s)

def execStatus (s : State) : Host.Outcome State Fault Refusal := .next (onStatus s)

/-! ### SERVO (R119) -/

/-- The SERVO record (11.5). -/
def servoRecord (s : State) : List Byte :=
  signed16 s.servo.trim ++ signed16 s.servo.integ ++ signed16 s.servo.meanError
    ++ signed16 s.servo.lastStep ++ count16 s.carrier.o ++ count16 s.view.target
    ++ be24 (BitVec.ofNat 24 s.carrier.pc) ++ [flagByte s.servo.captureDone]

def onServo (s : State) : State :=
  match s.portRefusal with
  | some c => s.reply 0x02 0 c []
  | none => s.reply 0x02 0 .done (servoRecord s)

def execServo (s : State) : Host.Outcome State Fault Refusal := .next (onServo s)

/-! ### ROSTER (R88) -/

/-- The ROSTER record of an identity (11.5); at the own identity the maps the station publishes. -/
def rosterRecord (s : State) (i : Identity) : List Byte :=
  if i = s.own then
    [byteOf i.val, Presence.self.code, 0, 0, 2, 0] ++ be16 s.heardMap ++ be16 s.memberMap
      ++ signed16 0
  else
    let e := s.roster[i]
    [byteOf i.val, e.presence.code, flagByte e.flag, byteOf e.misses] ++
      match e.last with
      | some b =>
        [1, b.state.code.setWidth 8] ++ be16 b.heardMap ++ be16 b.memberMap ++ signed16 b.error
      | none => [0, 0] ++ be16 0 ++ be16 0 ++ signed16 0

def onRoster (identity : Byte) (s : State) : State :=
  let args : BitVec 16 := identity.setWidth 16
  match s.portRefusal with
  | some c => s.reply 0x03 args c []
  | none =>
    if h : identity.toNat < 16 then
      s.reply 0x03 args .done (rosterRecord s ⟨identity.toNat, h⟩)
    else s.reply 0x03 args .badArgument []

def execRoster (identity : Byte) (s : State) : Host.Outcome State Fault Refusal :=
  .next (onRoster identity s)

/-! ### LOG (R67, R68) -/

/-- What every LOG answer carries: the length and the cycle counter. -/
def logHead (s : State) : List Byte := byteOf s.log.length :: be32 s.carrier.cycle

/-- An arrival record (11.5). -/
def logRecord (r : ArrivalRecord) : List Byte :=
  [byteOf r.sender.val, r.state.code.setWidth 8] ++ count16 r.sentPhase ++ count16 r.arrivalPhase
    ++ signed16 r.error ++ be16 r.heardMap ++ be16 r.memberMap
    ++ [byteOf (r.usable.toNat + 2 * r.crossBoundary.toNat)]

def onLog (index : Byte) (s : State) : State :=
  let args : BitVec 16 := index.setWidth 16
  match s.portRefusal with
  | some c => s.reply 0x04 args c []
  | none =>
    match s.log[index.toNat]? with
    | some r => s.reply 0x04 args .done (logHead s ++ logRecord r)
    | none => s.reply 0x04 args .empty (logHead s)

def execLog (index : Byte) (s : State) : Host.Outcome State Fault Refusal := .next (onLog index s)

/-! ### EVENT (R174) -/

/-- The EVENT record (11.5): the records left after removal, and the record removed. -/
def eventRecordBytes (left : Nat) (e : EventRecord) : List Byte :=
  [byteOf left, e.kind.code, identityByte e.subject, e.detail] ++ be32 e.stamp
    ++ [flagByte e.moreLost]

/-- EVENT is answered in every state but LOAD; it takes the oldest record. -/
def onEvent (s : State) : State :=
  if s.seq.sync = .load then s.reply 0x05 0 .notReady []
  else
    match s.events with
    | [] => s.reply 0x05 0 .empty [0]
    | e :: l => { s with events := l }.reply 0x05 0 .done (eventRecordBytes l.length e)

def execEvent (s : State) : Host.Outcome State Fault Refusal := .next (onEvent s)

/-! ### DUTY (R148, R176) -/

/-- The pending duty that a DUTY value sets. -/
def dutyAs (cfg : Image) (value : BitVec 16) : Nat :=
  if value.toNat < cfg.dutyMin then cfg.dutyMin
  else if cfg.dutyMax < value.toNat then cfg.dutyMax
  else value.toNat

def onDuty (value : BitVec 16) (s : State) : State :=
  match s.portRefusal with
  | some c => s.reply 0x10 value c []
  | none =>
    let d := dutyAs s.cfg value
    { s with gate := { s.gate with pendingDuty := d } }.reply 0x10 value
      (if d = value.toNat then .done else .clamped) (count16 d)

def execDuty (value : BitVec 16) (s : State) : Host.Outcome State Fault Refusal :=
  .next (onDuty value s)

/-! ### START and STOP (R143, R146) -/

def onStart (s : State) : State :=
  match s.portRefusal with
  | some c => s.reply 0x11 0 c []
  | none =>
    match s.gate.state with
    | .off => { s with gate := { s.gate with state := .armed } }.reply 0x11 0 .done []
    | .armed => s.reply 0x11 0 .already []
    | .running => s.reply 0x11 0 .already []
    | .tripped => s.reply 0x11 0 .refusedTrip []

def execStart (s : State) : Host.Outcome State Fault Refusal := .next (onStart s)

def onStop (s : State) : State :=
  match s.portRefusal with
  | some c => s.reply 0x12 0 c []
  | none =>
    match s.gate.state with
    | .off => s.reply 0x12 0 .already []
    | .armed => { s with gate := s.gate.stopped }.reply 0x12 0 .done []
    | .running => { s with gate := s.gate.stopped }.reply 0x12 0 .done []
    | .tripped => s.reply 0x12 0 .refusedTrip []

def execStop (s : State) : Host.Outcome State Fault Refusal := .next (onStop s)

/-! ### TRIP and CLEAR (R160, R163) -/

/-- The TRIP request is a local fault with cause COMMAND. -/
def onTrip (s : State) : State :=
  match s.portRefusal with
  | some c => s.reply 0x13 0 c []
  | none => (s.localFault .command).reply 0x13 0 .done []

def execTrip (s : State) : Host.Outcome State Fault Refusal := .next (onTrip s)

/-- CLEAR: TRIPPED becomes OFF and the record empty, unless the TRIP pin is active. -/
def onClear (s : State) : State :=
  match s.portRefusal with
  | some c => s.reply 0x14 0 c []
  | none =>
    if s.gate.state = .tripped then
      if s.fault.pin then s.reply 0x14 0 .refusedTrip []
      else
        { s with
          gate := s.gate.stopped
          fault := { s.fault with cause := .none, stamp := 0, repeats := 0 } }.reply 0x14 0 .done []
    else s.reply 0x14 0 .already []

def execClear (s : State) : Host.Outcome State Fault Refusal := .next (onClear s)

/-! ### DETACH and ATTACH (R133, R136) -/

/-- DETACH with no LEAVE pending in ACQUIRE, LOCKED or HOLDOVER: the LEAVE is offered. -/
def State.offerLeave (s : State) : State :=
  { s with tx := { s.tx with queue := s.tx.queue.offerLeave } }

/-- The table of R133. -/
def onDetach (s : State) : State :=
  match s.seq.sync with
  | .load => s.reply 0x18 0 .notReady []
  | .blocked _ => s.reply 0x18 0 .refusedState []
  | .parked => s.reply 0x18 0 .already []
  | .listen => (s.park 0).reply 0x18 0 .done []
  | .join => (s.park 0).reply 0x18 0 .done []
  | .acquire =>
    if s.leavePending then s.reply 0x18 0 .already [] else s.offerLeave.reply 0x18 0 .done []
  | .locked =>
    if s.leavePending then s.reply 0x18 0 .already [] else s.offerLeave.reply 0x18 0 .done []
  | .holdover =>
    if s.leavePending then s.reply 0x18 0 .already []
    else if s.linkAtLimit then (s.park 2).reply 0x18 0 .done []
    else s.offerLeave.reply 0x18 0 .done []

def execDetach (s : State) : Host.Outcome State Fault Refusal := .next (onDetach s)

/-- The table of R136. -/
def onAttach (s : State) : State :=
  match s.seq.sync with
  | .load => s.reply 0x19 0 .notReady []
  | .blocked .configNoMemory => s.reply 0x19 0 .refusedState []
  | .blocked .configCheck => s.reply 0x19 0 .refusedState []
  | .blocked .configValue => s.reply 0x19 0 .refusedState []
  | .blocked .idConflict => (s.enterClearing .listen).reply 0x19 0 .done []
  | .parked => (s.enterClearing .listen).reply 0x19 0 .done []
  | .listen => s.reply 0x19 0 .already []
  | .join => s.reply 0x19 0 .already []
  | .acquire => s.reply 0x19 0 .already []
  | .locked => s.reply 0x19 0 .already []
  | .holdover => s.reply 0x19 0 .already []

def execAttach (s : State) : Host.Outcome State Fault Refusal := .next (onAttach s)

/-! ### UNKNOWN_REQUEST (R169) -/

/-- A code that is no request: NOT_READY in LOAD, UNKNOWN in every other state. -/
def onUnknownRequest (code : Byte) (s : State) : State :=
  if requestCodes.contains code then s
  else if s.seq.sync = .load then s.reply code 0 .notReady []
  else s.reply code 0 .unknown []

def execUnknownRequest (code : Byte) (s : State) : Host.Outcome State Fault Refusal :=
  .next (onUnknownRequest code s)

/-! ### LP_SEL_RELEASE (R166, R167, R168) -/

/-- The select is released: the transaction ends at once, the bits of a request not yet taken and the
answer not yet read are gone, and LP_DO is 0. -/
def onLpSelRelease (s : State) : State :=
  { s with
    pins := { s.pins with lpSel := false }
    port := { s.port with
      selPrev := false, active := false, bits := 0, code := 0, args := 0, answer := none
      lpDo := false } }

def execLpSelRelease (s : State) : Host.Outcome State Fault Refusal := .next (onLpSelRelease s)

end Sys2Proof.Machine
end

