-- ==== Sys2Proof/Machine/Transmit.lean ====
section
/-! DEFINITION. The transmitting side of the line (Chapter 3): LINE_IDLE, TX_FRAME_START, ARBITRATION_LOST, TRANSMIT_ERROR, ABORT_MARK_END, FRAME_COMPLETE. -/

namespace Sys2Proof.Machine

/-! ### LINE_IDLE (R39, R40) -/

/-- The idle count reaches 8, and the bit in which it does ends. The line is idle only to a receiver in
HUNT (R40): where it stood in RECOVER, the eight recessive samples have brought it there (R31,
assumption 2). -/
def State.lineRests (s : State) : State :=
  { s with
    pins := { s.pins with lineRx := true }
    line := ⟨.hunt, 0, true⟩
    tx := { s.tx with idleCount := 8, lineIdle := true } }

/-- The line becomes idle; in the middle of a frame, or while this station drives an abort mark, it does
not (R33, R44). Nor can it while an own SOF is driven and not read back, which set the count to 0 (R39);
that the command is taken there all the same is the model's choice (DESIGN CHOICE, assumption 25). -/
def onLineIdle (s : State) : State :=
  match s.line.mode with
  | .hunt => if s.aborting then s else s.lineRests
  | .recover _ _ => if s.aborting then s else s.lineRests
  | .off => s
  | .receive _ => s

def execLineIdle (s : State) : Host.Outcome State Fault Refusal := .next (onLineIdle s)

/-! ### TX_FRAME_START (R40, R41, R46, R47, R52) -/

/-- The SOF driven: the highest-priority entry becomes the frame in flight with its stamped fields. -/
def onTxFrameStart (s : State) : State :=
  if s.mayDrive then
    match s.nextPayload with
    | some p =>
      { s with
        tx := { s.tx with
          lineTx := true
          idleCount := 0
          lineIdle := false
          inFlight := some ⟨⟨s.own, p⟩, s.sample, some 0, 0, false⟩ } }
    | none => s
  else s

def execTxFrameStart (s : State) : Host.Outcome State Fault Refusal := .next (onTxFrameStart s)

/-! ### ARBITRATION_LOST (R33, R43) -/

/-- The bits of a frame as read up to a bit of its arbitration field that was lost. -/
def lostBits (f : Frame) (bit : Nat) : List Bit := f.wire.take bit ++ [false]

/-- The frame record, foreign from the bit of the loss on: the receiver's own record of the frame, or,
where no SOF_EDGE was commanded for the station's own edge, one with the sample of the driving tick
(assumption 12). Its SOF edge lies the ticks of the bits passed back from the sample of the loss. -/
def State.lostRecord (s : State) (f : InFlight) (bit : Nat) : RxRecord :=
  let sample : PhaseSample :=
    match s.line.mode with
    | .receive r => r.sample
    | .off => f.sample
    | .recover _ _ => f.sample
    | .hunt => f.sample
  (lostBits f.frame bit).foldl RxRecord.feed
    ⟨s.cfg.bitTicks * bit + s.cfg.bitTicks / 2, sample, false, [], 0⟩

/-- Arbitration is lost at this bit of the frame in flight: the frame in flight is dropped, its entry
stays, and the receiver takes the rest as a foreign frame. -/
def State.loseArbitration (s : State) (f : InFlight) (bit : Nat) : State :=
  let s1 := s.atSample false
  { s1 with
    line := { s1.line with mode := .receive (s.lostRecord f bit) }
    tx := { s1.tx with idleCount := 0, lineIdle := false, inFlight := none, lineTx := false } }

/-- Sending recessive and reading dominant in the kind or sender field. The bit is not compared with the
position that an own frame record has reached: a loss at a bit already read as good is taken too (DESIGN
CHOICE, assumption 25). -/
def onArbitrationLost (bit : Nat) (s : State) : State :=
  match s.tx.inFlight with
  | some f =>
    if !f.abort && lostBitOk bit && f.frame.bitAt bit then s.loseArbitration f bit else s
  | none => s

def execArbitrationLost (bit : Nat) (s : State) : Host.Outcome State Fault Refusal :=
  .next (onArbitrationLost bit s)

/-! ### TRANSMIT_ERROR (R24, R33, R44) -/

/-- A mismatch at this bit is a transmit error, not a loss: any bit of the frame, but in the kind and
sender fields one that was sent dominant (R42). -/
def isTransmitError (f : Frame) (bit : Nat) : Bool :=
  decide (bit < f.payload.kind.total) && !(lostBitOk bit && f.bitAt bit)

/-- A transmit error found at the sample point of this bit: sending stops, the frame stays in flight
as an abort, the receiver enters RECOVER, and the error is counted once. LINE_TX keeps the level of the
bit in error to the end of that bit (R42); that it is not released at the sample point, where R44 has
the sending stop, is the model's choice (DESIGN CHOICE, assumption 22). -/
def State.failTransmit (s : State) (f : InFlight) (bit : Nat) : State :=
  let read := !f.frame.bitAt bit
  let s1 := s.atSample read
  let inBody : Bool := decide (bit < f.frame.payload.kind.endAt)
  { s1 with
    line := { s1.line with mode := .recover 0 0 }
    tx := { s1.tx.sampled inBody read with
      inFlight := some { f with awaiting := none, bit := bit, abort := true } } }.countError 1

/-- The abort mark starts with the next bit: LINE_TX is asserted, unless the error was in bit 67 and
the mark is empty. -/
def State.startMark (s : State) (bit : Nat) : State :=
  { s with
    tx := { s.tx with
      lineTx := decide (bit < 67)
      inFlight := s.tx.inFlight.map fun f => { f with bit := bit + 1 } }
    line := { s.line with grid := 0 } }

/-- The transmit error with the start of its abort mark. As for a loss, the bit is not compared with the
position that an own frame record has reached (DESIGN CHOICE, assumption 25). -/
def State.transmitError (s : State) (bit : Nat) : State :=
  match s.tx.inFlight with
  | some f =>
    if !f.abort && isTransmitError f.frame bit then (s.failTransmit f bit).startMark bit else s
  | none => s

def onTransmitError (bit : Nat) (s : State) : State := s.transmitError bit

def execTransmitError (bit : Nat) (s : State) : Host.Outcome State Fault Refusal :=
  .next (onTransmitError bit s)

/-! ### ABORT_MARK_END (R44, R52) -/

/-- The samples of the abort mark that are still to come: the bit reached, when its sample point lies
ahead, and the bits after it up to bit 67. -/
def State.markSamplesLeft (s : State) (f : InFlight) : Nat :=
  if s.line.grid < s.cfg.bitTicks / 2 then 68 - f.bit else 67 - f.bit

/-- The receiver after `n` further dominant samples of this station's own mark, at its end: no recessive
sample of the mark counts toward HUNT, and no mark reaches a run of 68 (R31, R33). -/
def RxMode.afterMark (n : Nat) : RxMode → RxMode
  | .recover _ d => .recover 0 (min 67 (d + n))
  | .off => .off
  | .hunt => .hunt
  | .receive r => .receive r

/-- The end of bit 67 of an aborted frame, after `n` further samples of its mark: the line is released,
the frame in flight dropped, and the eight recessive samples that make the line idle are counted from
here (R33, R44, assumption 23). -/
def State.endMark (s : State) (n : Nat) : State :=
  { s with
    pins := { s.pins with lineRx := s.pins.lineRx && decide (n = 0) }
    line := ⟨s.line.mode.afterMark n, 0, s.line.rxPrev && decide (n = 0)⟩
    tx := { s.tx with idleCount := 0, lineIdle := false, lineTx := false, inFlight := none } }

/-- The abort mark ends; the samples of it that are still to come read the mark (assumption 2). -/
def onAbortMarkEnd (s : State) : State :=
  match s.tx.inFlight with
  | some f => if f.abort then s.endMark (s.markSamplesLeft f) else s
  | none => s

def execAbortMarkEnd (s : State) : Host.Outcome State Fault Refusal := .next (onAbortMarkEnd s)

/-! ### FRAME_COMPLETE (R45, R125, R134) -/

/-- The sequencer's answer to the completion of an own frame: a CLAIM in JOIN takes the station to
ACQUIRE, a LEAVE to PARKED; other completions change nothing. A LEAVE completed in a state that can
have none pending changes nothing either. -/
def State.answerCompletion (s : State) (k : FrameKind) : State :=
  match k with
  | .claim =>
    if s.seq.sync = .join then
      { s with
        seq := { s.seq with sync := .acquire }
        servo := { s.servo with lock := 0, unlock := 0 } }
    else s
  | .leave => if s.seq.sync.grouped then s.park 1 else s
  | .fault => s
  | .beacon => s

/-- An own frame good to its last end bit. -/
def State.completeFrame (s : State) (f : InFlight) : State :=
  let k := f.frame.payload.kind
  let s1 := s.endOfFrame (idleAfterFrame f.frame)
  { s1 with
    tx := { s1.tx with
      queue := s1.tx.queue.remove k
      inFlight := none
      beaconSent := s1.tx.beaconSent || k == FrameKind.beacon
      lineTx := false } }.answerCompletion k

def onFrameComplete (s : State) : State :=
  match s.tx.inFlight with
  | some f => if f.abort then s else s.completeFrame f
  | none => s

def execFrameComplete (s : State) : Host.Outcome State Fault Refusal := .next (onFrameComplete s)

end Sys2Proof.Machine
end

