-- ==== Sys2Proof/Machine/Receive.lean ====
section
/-! DEFINITION. The receiving side of the line (Chapters 2, 4, 5): SOF_EDGE, RX_BEACON, RX_CLAIM, RX_LEAVE, RX_FAULT, RX_FRAME_ERROR, RECOVER_IDLE, DOMINANT_RUN_ERROR, and LINK_DOWN, which is the error that reaches the limit. -/

namespace Sys2Proof.Machine

/-! ### SOF_EDGE (R24, R39) -/

/-- An edge that the receiver finds in HUNT: a frame record is opened with the phase sample, marked
provisionally own when this station drove the edge, and the bit grid runs from it. The check register is
not yet set (2.10); that it holds 0 until bit 0 is sampled, where R28 sets it, is the model's choice
(DESIGN CHOICE, assumption 26). -/
def State.openFrame (s : State) : State :=
  let own : Bool :=
    match s.tx.inFlight with
    | some f => f.awaiting.isSome
    | none => false
  { s with
    pins := { s.pins with lineRx := false }
    line := { s.line with mode := .receive ⟨0, s.sample, own, [], 0⟩, grid := 0, rxPrev := false }
    tx := { s.tx with
      idleCount := 0
      lineIdle := false
      inFlight := s.tx.inFlight.map fun f =>
        { f with awaiting := none, bit := if own then 0 else f.bit } } }

/-- The sample point of bit 0: dominant confirms the SOF; recessive is a transmit error on an edge
this station drove, and on any other edge a false start, which drops the record (R24). -/
def State.sampleSof (s : State) (r : RxRecord) (b : Bit) : State :=
  if b then
    if r.own then s.transmitError 0
    else
      let s1 := s.atSample true
      { s1 with
        line := { s1.line with mode := .hunt }
        tx := s1.tx.sampled false true }
  else
    let s1 := s.atSample false
    { s1 with
      line := { s1.line with
        mode := .receive ({ r with age := s.cfg.bitTicks / 2 }.feed false) }
      tx := s1.tx.sampled true false }

/-- The edge and the sample of bit 0. -/
def onSofEdge (bit0 : Bit) (s : State) : State :=
  match s.line.mode with
  | .hunt =>
    match s.openFrame.line.mode with
    | .receive r => s.openFrame.sampleSof r bit0
    | .off => s
    | .recover _ _ => s
    | .hunt => s
  | .off => s
  | .recover _ _ => s
  | .receive _ => s

def execSofEdge (bit0 : Bit) (s : State) : Host.Outcome State Fault Refusal :=
  .next (onSofEdge bit0 s)

/-! ### RX_BEACON, RX_CLAIM, RX_LEAVE, RX_FAULT (R34) -/

/-- A valid foreign BEACON at its validation instant (R56 to R63, R74 to R76). -/
def onRxBeacon (sender : Identity) (sentPhase : BitVec 16) (heardMap memberMap : StationMap)
    (state : SenderState) (s : State) : State :=
  let f : Frame := ⟨sender, .beacon sentPhase heardMap memberMap state⟩
  match s.foreignRecord f with
  | some r =>
    (s.endOfFrame (idleAfterFrame f)).deliverBeacon r.sample sender sentPhase heardMap memberMap state
  | none => s

def execRxBeacon (sender : Identity) (sentPhase : BitVec 16) (heardMap memberMap : StationMap)
    (state : SenderState) (s : State) : Host.Outcome State Fault Refusal :=
  .next (onRxBeacon sender sentPhase heardMap memberMap state s)

/-- A valid foreign CLAIM at its validation instant (R73). -/
def onRxClaim (sender : Identity) (period : BitVec 16) (s : State) : State :=
  let f : Frame := ⟨sender, .claim period⟩
  match s.foreignRecord f with
  | some _ => (s.endOfFrame (idleAfterFrame f)).deliverClaim sender period
  | none => s

def execRxClaim (sender : Identity) (period : BitVec 16) (s : State) :
    Host.Outcome State Fault Refusal := .next (onRxClaim sender period s)

/-- A valid foreign LEAVE at its validation instant (R77). -/
def onRxLeave (sender : Identity) (s : State) : State :=
  let f : Frame := ⟨sender, .leave⟩
  match s.foreignRecord f with
  | some _ => (s.endOfFrame (idleAfterFrame f)).deliverLeave sender
  | none => s

def execRxLeave (sender : Identity) (s : State) : Host.Outcome State Fault Refusal :=
  .next (onRxLeave sender s)

/-- A valid foreign FAULT at its validation instant (R78, R161, R162). -/
def onRxFault (sender : Identity) (cause : LocalCause) (s : State) : State :=
  let f : Frame := ⟨sender, .fault cause⟩
  match s.foreignRecord f with
  | some _ => (s.endOfFrame (idleAfterFrame f)).deliverFault sender cause
  | none => s

def execRxFault (sender : Identity) (cause : LocalCause) (s : State) :
    Host.Outcome State Fault Refusal := .next (onRxFault sender cause s)

/-! ### RX_FRAME_ERROR (R30) -/

/-- The state after a receive error, with the frame record it dropped kept where the error took the station
from another state to LISTEN: a delivery of that instant may be taken after the entry (R65, R85,
assumption 27). -/
def State.keepDropped (s before : State) (r : RxRecord) : State :=
  if before.seq.sync ≠ .listen ∧ s.seq.sync = .listen then { s with dropped := some ⟨r, s.carrier⟩ }
  else s

/-- The foreign frame in progress goes on with these bits, and the last of them fails a check. A recessive
first bit of a record whose bit 0 is not sampled yet would be a false start (R24) and not an error; that
the command is taken as a receive error there too is the model's choice (DESIGN CHOICE, assumption 25). -/
def State.frameError (s : State) (bits : List Bit) : State :=
  match s.line.mode with
  | .receive r =>
    if r.own then s
    else
      match errorAfter r s.tx bits with
      | some t => ({ s.atSample (bits.getLastD true) with tx := t }.rejectFrame).keepDropped s r
      | none => s
  | .off => s
  | .recover _ _ => s
  | .hunt => s

def onRxFrameError (bits : List Bit) (s : State) : State := s.frameError bits

def execRxFrameError (bits : List Bit) (s : State) : Host.Outcome State Fault Refusal :=
  .next (onRxFrameError bits s)

/-! ### RECOVER_IDLE and DOMINANT_RUN_ERROR (R31) -/

/-- The 8th consecutive recessive sample in RECOVER. The contention block samples the same grid, so
its idle count is 8 as well (R39). -/
def State.recovered (s : State) : State :=
  let s1 := s.atSample true
  { s1 with
    line := { s1.line with mode := .hunt }
    tx := { s1.tx with idleCount := 8 } }

/-- RECOVER ends; not while this station drives an abort mark (R33). -/
def onRecoverIdle (s : State) : State :=
  match s.line.mode with
  | .recover _ _ => if s.aborting then s else s.recovered
  | .off => s
  | .hunt => s
  | .receive _ => s

def execRecoverIdle (s : State) : Host.Outcome State Fault Refusal := .next (onRecoverIdle s)

/-- The 68th consecutive dominant sample in RECOVER: one receive error, and the count starts again. While
this station drives an abort mark it cannot come about (a mark has at most 67 bits); that the command is
taken there too is the model's choice (DESIGN CHOICE, assumption 25). -/
def State.dominantRun (s : State) : State :=
  match s.line.mode with
  | .recover _ _ =>
    let s1 := s.atSample false
    { s1 with
      line := { s1.line with mode := .recover 0 0 }
      tx := s1.tx.sampled false false }.countError 0
  | .off => s
  | .hunt => s
  | .receive _ => s

def onDominantRunError (s : State) : State := s.dominantRun

def execDominantRunError (s : State) : Host.Outcome State Fault Refusal :=
  .next (onDominantRunError s)

/-! ### LINK_DOWN (R54) -/

/-- The error that brings the link error counter to LinkErrLimit: what the error itself does, link
down with it. An error that does not reach the limit is none (assumption 6). -/
def onLinkDown (error : LinkError) (s : State) : State :=
  if s.errorReachesLimit then
    match error with
    | .receive bits => s.frameError bits
    | .dominantRun => s.dominantRun
    | .transmit bit => s.transmitError bit
  else s

def execLinkDown (error : LinkError) (s : State) : Host.Outcome State Fault Refusal :=
  .next (onLinkDown error s)

end Sys2Proof.Machine
end

