-- ==== Sys2Proof/Machine/StartUp.lean ====
section
/-! DEFINITION. Device reset and start-up (Chapter 12): DEVICE_RESET, LOAD_START, CONFIG_ATTEMPT_END, CONFIG_RETRY_WAIT_END. -/

namespace Sys2Proof.Machine

/-! ### DEVICE_RESET (R1, R38, R65, R85, R90, R106, R121, R141, R155, R167, R172, R177) -/

/-- Device reset: every block at its reset value, whatever it was doing. The input pins are the
outside's; a select that is active starts no transaction (R167), and LOAD_START reads it again. The waiting commands
and the count of free choices are not the part's own (assumption 8). -/
def onDeviceReset (s : State) : State :=
  { State.reset with
    pins := s.pins
    port := { State.reset.port with selPrev := s.pins.lpSel }
    free := s.free
    pending := s.pending }

def execDeviceReset (s : State) : Host.Outcome State Fault Refusal := .next (onDeviceReset s)

/-! ### LOAD_START (R141, R156, R177) -/

/-- Device reset ends: the loader begins attempt 1, and a TRIP pin that reads active at this first
tick is an assertion of it. A select that reads active at it is active as reset ends and starts no
transaction (R167, assumption 17). -/
def onLoadStart (s : State) : State :=
  if s.loader.phase = .held then
    let s1 := { s with
      pins := { s.pins with reset := false }
      port := { s.port with selPrev := s.pins.lpSel }
      loader := { s.loader with phase := .reading 1 0 } }
    if s1.pins.trip then s1.assertTripPin else s1
  else s

def execLoadStart (s : State) : Host.Outcome State Fault Refusal := .next (onLoadStart s)

/-! ### CONFIG_ATTEMPT_END (R177 to R182) -/

/-- LOAD completes with a good image: every block starts from the values its chapter gives, the
sync state is entered by AutoJoin, and CONFIG_LOADED is raised (R2, R23, R38, R141, R181). -/
def State.startBlocks (s : State) (i : Image) : State :=
  let s1 := { s with
    image := some i
    carrier := ⟨0, 0, 0, 0, i.period, 0, 0, false, 0⟩
    line := { s.line with mode := .recover 0 0, grid := 0 }
    gate := { s.gate with pendingDuty := i.dutyMin, activeDuty := i.dutyMin }
    loader := { s.loader with phase := .finished } }
  (s1.enterClearing (if i.autoJoin then .listen else .parked)).raise
    (eventOf .configLoaded (some i.stationId)
      (byteOf (4 * i.autoJoin.toNat + 2 * i.groupTrip.toNat + i.gateInHoldover.toNat)) 0)

/-- LOAD ends with a bad image: BLOCKED with the reason, and CONFIG_BAD (R182). -/
def State.endLoadBad (s : State) (r : BlockedReason) (fieldNumber : Nat) : State :=
  ({ s with loader := { s.loader with phase := .finished } }.enterClearing (.blocked r)).raise
    (eventOf .configBad none (byteOf fieldNumber) 0)

/-- The end of a read attempt: CFG_SEL is released and the 34 bytes are judged. -/
def onConfigAttemptEnd (bytes : ImageBits) (s : State) : State :=
  match s.loader.phase with
  | .reading attempt _ =>
    let s1 := { s with loader := { s.loader with buffer := bytes } }
    match judgeImage bytes with
    | .noResponse =>
      if attempt < 3 then { s1 with loader := { s1.loader with phase := .waiting attempt 0 } }
      else s1.endLoadBad .configNoMemory 0
    | .badCheck => s1.endLoadBad .configCheck 0
    | .badField n => s1.endLoadBad .configValue n
    | .good i => s1.startBlocks i
  | .held => s
  | .waiting _ _ => s
  | .finished => s

def execConfigAttemptEnd (bytes : ImageBits) (s : State) : Host.Outcome State Fault Refusal :=
  .next (onConfigAttemptEnd bytes s)

/-! ### CONFIG_RETRY_WAIT_END (R178) -/

/-- The 1000-tick wait expires: the attempt number is raised by one and the attempt starts. -/
def onConfigRetryWaitEnd (s : State) : State :=
  match s.loader.phase with
  | .waiting attempt _ => { s with loader := { s.loader with phase := .reading (attempt + 1) 0 } }
  | .held => s
  | .reading _ _ => s
  | .finished => s

def execConfigRetryWaitEnd (s : State) : Host.Outcome State Fault Refusal :=
  .next (onConfigRetryWaitEnd s)

end Sys2Proof.Machine
end

