-- ==== Sys2Proof/Machine/Tick.lean ====
section
/-! DEFINITION. One tick of the reference clock, which is what a step does when no command waits (assumption 3): the blocks read the input pins, the counters and grids advance, and the steps of the table come about where their conditions arise, in a free order where several fall in one tick (assumption 4). -/

namespace Sys2Proof.Machine

/-! ### Configuration loader (R177, R178) -/

/-- The loader's next tick: CFG_DI is sampled at tick 8b + 4 of bit b from bit 24 on, and a wait of
1000 ticks ends in the next attempt. -/
def State.tickLoader (s : State) : State :=
  match s.loader.phase with
  | .reading attempt t =>
    let t' := t + 1
    let samples : Bool := decide (t' % 8 = 4 ∧ 24 ≤ t' / 8 ∧ t' < 2368)
    { s with
      loader := {
        phase := .reading attempt t'
        buffer :=
          if samples then (s.loader.buffer <<< 1) ||| BitVec.ofNat 272 s.pins.cfgDi.toNat
          else s.loader.buffer } }
  | .waiting attempt t =>
    if 1000 ≤ t + 1 then onConfigRetryWaitEnd s
    else { s with loader := { s.loader with phase := .waiting attempt (t + 1) } }
  | .held => s
  | .finished => s

/-- The attempt has lasted its 2368 ticks. -/
def State.attemptOver (s : State) : Bool :=
  match s.loader.phase with
  | .reading _ t => decide (2368 ≤ t)
  | .held => false
  | .waiting _ _ => false
  | .finished => false

/-- The judgement at the end of an attempt. -/
def stepLoader (s : State) : State :=
  if s.attemptOver then onConfigAttemptEnd s.loader.buffer s else s

/-! ### SYNC (R15) -/

/-- The SYNC pulse lasts 8 ticks, the boundary's own tick the first. -/
def State.tickSync (s : State) : State :=
  if s.carrier.sync then
    if 8 ≤ s.carrier.syncAge + 1 then onSyncPulseEnd s
    else { s with carrier := { s.carrier with syncAge := s.carrier.syncAge + 1 } }
  else s

/-! ### The bit grid (R25, R39, R40, R42, R44) -/

/-- The frame record one tick older. -/
def RxMode.older : RxMode → RxMode
  | .receive r => .receive { r with age := r.age + 1 }
  | .off => .off
  | .recover a b => .recover a b
  | .hunt => .hunt

/-- What a bit's start brings: the frame in flight drives its next bit or its abort mark, which ends
after bit 67, and the line is idle when the idle count reached 8 in the bit before. Where the count reached
8 outside HUNT (the list of R39, assumption 9), the flag is set there and the line is idle from the tick
in which HUNT is entered, in the middle of a bit; R40 speaks of a receiver that stays in HUNT alone
(DESIGN CHOICE, assumption 28). -/
def State.startBit (s : State) : State :=
  let s1 := { s with
    tx := { s.tx with lineIdle := s.tx.lineIdle || decide (s.tx.idleCount = 8) } }
  match s1.tx.inFlight with
  | some f =>
    if f.awaiting.isSome then s1
    else if f.abort && decide (68 ≤ f.bit + 1) then s1.endMark 0
    else
      { s1 with
        tx := { s1.tx with
          lineTx := f.abort || !f.frame.bitAt (f.bit + 1)
          inFlight := some { f with bit := f.bit + 1 } } }
  | none => s1

/-- The frame record and the SOF not yet read back are one tick older, and the grid moves on. -/
def State.moveGrid (s : State) : State :=
  { s with
    line := { s.line with
      grid := (s.line.grid + 1) % s.cfg.bitTicks, mode := s.line.mode.older }
    tx := { s.tx with
      inFlight := s.tx.inFlight.map fun f =>
        { f with awaiting := f.awaiting.map fun n => n + 1 } } }

/-- The mark of the aborted frame is empty: the error was in bit 67, and that bit has ended. -/
def State.markEmpty (s : State) : Bool :=
  match s.tx.inFlight with
  | some f => f.abort && decide (68 ≤ f.bit)
  | none => false

/-- The line's grid advances by one tick while the receiver runs. -/
def State.tickGrid (s : State) : State :=
  if s.seq.sync.runs then
    let s1 := (if s.markEmpty then s.endMark 0 else s).moveGrid
    if s1.line.grid = 0 then s1.startBit else s1
  else s

/-! ### The receiver's tick (R23, R24, R30, R31, R33, R40, R42) -/

/-- An SOF edge: LINE_RX reads dominant after reading recessive at the tick before. -/
def State.sofEdgeNow (s : State) : Bool :=
  s.line.mode == .hunt && !s.pins.lineRx && s.line.rxPrev

/-- The own SOF has not come back floor(BitTicks/2) ticks after it was driven (R40). -/
def State.loopFails (s : State) : Bool :=
  match s.tx.inFlight with
  | some f =>
    match f.awaiting with
    | some n => decide (s.cfg.bitTicks / 2 ≤ n)
    | none => false
  | none => false

/-- A sample point of the grid. -/
def State.samplePoint (s : State) : Bool := decide (s.line.grid = s.cfg.bitTicks / 2)

/-- A sampled bit of an own frame, compared with the bit sent (R42). -/
def State.compareBit (s : State) (r : RxRecord) (f : InFlight) (b : Bit) : State :=
  let k := r.bits.length
  if b = f.frame.bitAt k then
    if k + 1 = f.frame.payload.kind.total then s.completeFrame f
    else
      let r' := r.feed b
      { s with
        line := { s.line with mode := .receive r' }
        tx := s.tx.sampled (inFrameBody r'.bits) b }
  else if lostBitOk k && f.frame.bitAt k then s.loseArbitration f k
  else s.failTransmit f k

/-- A sampled bit of a foreign frame, judged as R30 states. -/
def State.receiveBit (s : State) (r : RxRecord) (b : Bit) : State :=
  if r.bits = [] then s.sampleSof r b
  else
    let r' := r.feed b
    match verdict r'.bits r'.crc with
    | .more =>
      { s with
        line := { s.line with mode := .receive r' }
        tx := s.tx.sampled (inFrameBody r'.bits) b }
    | .error => { s with tx := s.tx.sampled (inFrameBody r'.bits) b }.rejectFrame
    | .valid f => (s.endOfFrame (idleAfterFrame f)).deliver r.sample f

/-- A sample in RECOVER (R31). While this station drives an abort mark no recessive sample counts toward
HUNT, which the receiver enters after the mark and 8 recessive samples (R33, assumption 23). -/
def State.recoverSample (s : State) (recessiveRun dominantRun : Nat) (b : Bit) : State :=
  if b then
    if s.aborting then
      { s with
        line := { s.line with mode := .recover 0 0 }
        tx := s.tx.sampled false b }
    else if 8 ≤ recessiveRun + 1 then s.recovered
    else
      { s with
        line := { s.line with mode := .recover (recessiveRun + 1) 0 }
        tx := s.tx.sampled false b }
  else
    if 68 ≤ dominantRun + 1 then s.dominantRun
    else
      { s with
        line := { s.line with mode := .recover 0 (dominantRun + 1) }
        tx := s.tx.sampled false b }

/-- A sample point, by the receiver's mode. -/
def State.sampleLine (s : State) : State :=
  let b := s.pins.lineRx
  match s.line.mode with
  | .off => s
  | .hunt => { s with tx := s.tx.sampled false b }
  | .recover a d => s.recoverSample a d b
  | .receive r =>
    match r.own, s.tx.inFlight with
    | true, some f => s.compareBit r f b
    | true, none => s
    | false, _ => s.receiveBit r b

/-- The line interface's part of a tick. -/
def stepLine (s : State) : State :=
  if s.seq.sync.runs then
    if s.sofEdgeNow then s.openFrame
    else if s.loopFails then
      match s.tx.inFlight with
      | some f => s.failTransmit f 0
      | none => s
    else if s.samplePoint then s.sampleLine
    else s
  else s

/-! ### The local port's tick (R166, R167, R168) -/

/-- The request that a code and its argument bytes spell, taken. -/
def takeRequest (code : Byte) (args : BitVec 16) (s : State) : State :=
  if code = 0x01 then onStatus s
  else if code = 0x02 then onServo s
  else if code = 0x03 then onRoster (args.extractLsb' 0 8) s
  else if code = 0x04 then onLog (args.extractLsb' 0 8) s
  else if code = 0x05 then onEvent s
  else if code = 0x10 then onDuty args s
  else if code = 0x11 then onStart s
  else if code = 0x12 then onStop s
  else if code = 0x13 then onTrip s
  else if code = 0x14 then onClear s
  else if code = 0x18 then onDetach s
  else if code = 0x19 then onAttach s
  else onUnknownRequest code s

/-- A rising edge of LP_CLK: LP_DI is taken as the next bit, and the request is taken with the last
bit of its last argument byte. -/
def State.takePortBit (s : State) : State :=
  let p := s.port
  let code := if p.bits < 8 then (p.code <<< 1) ||| byteOf s.pins.lpDi.toNat else p.code
  let inArgs : Bool := decide (8 ≤ p.bits ∧ p.bits < 8 * (1 + argumentBytes p.code))
  let args := if inArgs then (p.args <<< 1) ||| BitVec.ofNat 16 s.pins.lpDi.toNat else p.args
  let s1 := { s with port := { p with bits := p.bits + 1, code := code, args := args } }
  if p.answer.isNone && decide (p.bits + 1 = 8 * (1 + argumentBytes code)) then
    takeRequest code args s1
  else s1

/-- The bit that stands on LP_DO when `n` bits have been taken: 0 up to the end of the turnaround
byte, then the status byte and the response, then 0 (R166). -/
def portOutput (p : Port) : Bool :=
  match p.answer with
  | some a =>
    let start := 8 * (2 + argumentBytes p.code)
    if p.bits < start then false
    else ((a.status.code :: a.response).getD ((p.bits - start) / 8) 0).getMsbD
      ((p.bits - start) % 8)
  | none => false

/-- LP_SEL or LP_CLK has changed since the tick before. -/
def State.portMoves (s : State) : Bool :=
  s.pins.lpSel != s.port.selPrev || s.pins.lpClk != s.port.clkPrev

/-- An assertion of LP_SEL starts a transaction at bit 0, a release ends it. -/
def State.readSelect (s : State) : State :=
  if s.pins.lpSel && !s.port.selPrev then
    { s with port := { s.port with
        active := true, bits := 0, code := 0, args := 0, answer := none, lpDo := false } }
  else if !s.pins.lpSel && s.port.selPrev then onLpSelRelease s
  else s

/-- An edge of LP_CLK in a transaction: a bit taken at a rising edge, LP_DO set at a falling edge. -/
def State.readClock (s : State) : State :=
  if s.pins.lpSel && s.port.active then
    if s.pins.lpClk && !s.port.clkPrev then s.takePortBit
    else if !s.pins.lpClk && s.port.clkPrev then
      { s with port := { s.port with lpDo := portOutput s.port } }
    else s
  else s

/-- The port's part of a tick. -/
def stepPort (s : State) : State := if s.portMoves then s.readSelect.readClock else s

/-! ### The TRIP pin's tick (R156) -/

/-- The pin reads otherwise than at the tick before. -/
def State.pinMoves (s : State) : Bool := s.pins.trip != s.fault.pin

/-- The fault unit's part of a tick. -/
def stepPin (s : State) : State :=
  if s.pins.trip then s.assertTripPin
  else if s.fault.pin then onTripPinRelease s
  else s

/-! ### The start of a frame (R40) -/

/-- The line would let this station start, and something in this tick may put an entry in its queue or
has put one there. The receiver must be in HUNT as the tick's events begin: where it enters HUNT in this
tick with the line already idle (assumption 28), the start falls in the next tick, in either order of this
one's events (DESIGN CHOICE, assumption 28). -/
def State.startMayFall (s : State) : Bool :=
  s.tx.lineIdle && s.line.mode == .hunt && s.pins.lineRx && s.tx.inFlight.isNone
    && (s.tx.queue.nonempty || s.boundaryDue || s.portMoves || s.pinMoves)

/-! ### The tick -/

/-- The parts of a tick that have something to do in it. -/
def State.tickParts (s : State) : List (State → State) :=
  ([(s.boundaryDue, onCycleBoundary), (s.seq.sync.runs && (s.sofEdgeNow || s.loopFails ||
      s.samplePoint), stepLine), (s.startMayFall, onTxFrameStart), (s.portMoves, stepPort),
    (s.pinMoves, stepPin), (s.attemptOver, stepLoader)].filter fun x => x.1).map fun x => x.2

/-- The number of free choices raised by one. -/
def State.chosen (s : State) : State := { s with free := s.free + 1 }

/-- The parts of a tick in order; two or more are taken in a free order (assumption 4). The order's own
number is counted besides those that the parts have used, so no two orders of one constant share a number
(R172, assumptions 4 and 5). -/
def State.runParts (s : State) (parts : List (State → State)) : State :=
  match parts with
  | [] => s
  | [f] => f s
  | f :: g :: l =>
    ((arrange (Config.tickOrder s.free) (f :: g :: l)).foldl (fun x h => h x) s).chosen

/-- The end of a tick: the gate outputs are decided after every event (R150), and the levels read are
kept for the next tick. -/
def State.closeTick (s : State) : State :=
  { s.decideOutputs with
    line := { s.line with rxPrev := s.pins.lineRx }
    port := { s.port with selPrev := s.pins.lpSel, clkPrev := s.pins.lpClk } }

/-- The time-driven work that opens a tick. -/
def State.openTick (s : State) : State :=
  if s.loader.phase = .held then onLoadStart s
  else (onCountTick s.tickLoader.tickSync).tickGrid

/-- One tick of the reference clock: device reset while RESET is active, else the tick's work. -/
def tick (s : State) : State :=
  if s.pins.reset then onDeviceReset s
  else (s.openTick.runParts s.openTick.tickParts).closeTick

end Sys2Proof.Machine
end

