-- ==== Sys2Proof/Machine/Dispatch.lean ====
section
/-! DEFINITION. The dispatch: one arm per command. -/

namespace Sys2Proof.Machine

def exec (i : Instr) (s : State) : Host.Outcome State Fault Refusal :=
  match i with
  | .deviceReset => Sys2Proof.Machine.execDeviceReset s
  | .loadStart => Sys2Proof.Machine.execLoadStart s
  | .configAttemptEnd bytes => Sys2Proof.Machine.execConfigAttemptEnd bytes s
  | .configRetryWaitEnd => Sys2Proof.Machine.execConfigRetryWaitEnd s
  | .countTick => Sys2Proof.Machine.execCountTick s
  | .cycleBoundary => Sys2Proof.Machine.execCycleBoundary s
  | .syncPulseEnd => Sys2Proof.Machine.execSyncPulseEnd s
  | .listenComplete => Sys2Proof.Machine.execListenComplete s
  | .lockReached => Sys2Proof.Machine.execLockReached s
  | .unlockReached => Sys2Proof.Machine.execUnlockReached s
  | .viewAdoption => Sys2Proof.Machine.execViewAdoption s
  | .peerStale peer => Sys2Proof.Machine.execPeerStale peer s
  | .holdoverExpiry => Sys2Proof.Machine.execHoldoverExpiry s
  | .sofEdge bit0 => Sys2Proof.Machine.execSofEdge bit0 s
  | .rxBeacon sender sentPhase heardMap memberMap state => Sys2Proof.Machine.execRxBeacon sender sentPhase heardMap memberMap state s
  | .rxClaim sender period => Sys2Proof.Machine.execRxClaim sender period s
  | .rxLeave sender => Sys2Proof.Machine.execRxLeave sender s
  | .rxFault sender cause => Sys2Proof.Machine.execRxFault sender cause s
  | .rxFrameError bits => Sys2Proof.Machine.execRxFrameError bits s
  | .recoverIdle => Sys2Proof.Machine.execRecoverIdle s
  | .dominantRunError => Sys2Proof.Machine.execDominantRunError s
  | .lineIdle => Sys2Proof.Machine.execLineIdle s
  | .txFrameStart => Sys2Proof.Machine.execTxFrameStart s
  | .arbitrationLost bit => Sys2Proof.Machine.execArbitrationLost bit s
  | .transmitError bit => Sys2Proof.Machine.execTransmitError bit s
  | .abortMarkEnd => Sys2Proof.Machine.execAbortMarkEnd s
  | .frameComplete => Sys2Proof.Machine.execFrameComplete s
  | .linkDown error => Sys2Proof.Machine.execLinkDown error s
  | .tripPinAssert => Sys2Proof.Machine.execTripPinAssert s
  | .tripPinRelease => Sys2Proof.Machine.execTripPinRelease s
  | .status => Sys2Proof.Machine.execStatus s
  | .servo => Sys2Proof.Machine.execServo s
  | .roster identity => Sys2Proof.Machine.execRoster identity s
  | .log index => Sys2Proof.Machine.execLog index s
  | .event => Sys2Proof.Machine.execEvent s
  | .duty value => Sys2Proof.Machine.execDuty value s
  | .start => Sys2Proof.Machine.execStart s
  | .stop => Sys2Proof.Machine.execStop s
  | .trip => Sys2Proof.Machine.execTrip s
  | .clear => Sys2Proof.Machine.execClear s
  | .detach => Sys2Proof.Machine.execDetach s
  | .attach => Sys2Proof.Machine.execAttach s
  | .unknownRequest code => Sys2Proof.Machine.execUnknownRequest code s
  | .lpSelRelease => Sys2Proof.Machine.execLpSelRelease s

end Sys2Proof.Machine
end

