-- ==== Sys2Proof/Safety.lean ====
section
/-! DEFINITION. What counts as a sound state of the part, in the terms the statements use: the invariants that the manual gives, grouped by the blocks they speak of. -/

namespace Sys2Proof.Machine

/-- The image and the sync state agree (R2, R121, R180 to R182): an accepted image is legal, the
carrier runs only with an image, and the loader is at work only in LOAD, before there is one. -/
structure ConfigInv (s : State) : Prop where
  legal : ∀ i, s.image = some i → i.legal = true
  runsWithImage : s.seq.sync.runs = true → s.image.isSome = true
  loadingWithout : s.loader.phase ≠ .finished → s.image = none ∧ s.seq.sync = .load

/-- The records of the log hold wrapped differences (4.2). -/
def logInRange (p : Nat) (log : List ArrivalRecord) : Prop :=
  ∀ r ∈ log, -(p : Int) ≤ 2 * r.error ∧ 2 * r.error < p

/-- Group time is sound (R3, R4, R7, R8, R110, 1.1): while the carrier runs, g, o and the step total
lie in 0..P−1, the accumulator in 0..65535, the integrator and the trim within TrimMax, c is at most
one past Pc, and the carrier's relation of R7 holds, written with Pc = P − s + δ. -/
structure TimingInv (s : State) : Prop where
  config : ConfigInv s
  phase : s.seq.sync.runs = true → s.carrier.g < s.cfg.period
  offset : s.seq.sync.runs = true → s.carrier.o < s.cfg.period
  steps : s.seq.sync.runs = true → s.carrier.stepTotal < s.cfg.period
  fraction : s.carrier.acc < 65536
  trim : s.servo.trim.natAbs ≤ s.cfg.trimMax
  integ : s.servo.integ.natAbs ≤ s.cfg.trimMax
  errors : s.seq.sync.runs = true → logInRange s.cfg.period s.log
  counter : s.seq.sync.runs = true → 1 ≤ s.carrier.pc ∧ s.carrier.c ≤ s.carrier.pc + 1
  relation : s.seq.sync.runs = true →
    (s.carrier.g + s.carrier.pc) % s.cfg.period = (s.carrier.o + s.carrier.c) % s.cfg.period

/-- Gates and faults are sound (R132, R144, R145, R150, R151, R155, R156): permission is what the
sync state calls for, only a permitted generator runs, only a running one drives an output, never
both outputs, the fault record has a cause exactly while TRIPPED, and an active TRIP pin holds the
stage tripped. -/
structure GateInv (s : State) : Prop where
  permission : s.seq.permission = permissionRule s.cfg s.seq.sync s.seq.expired
  permitted : s.gate.state = .running → s.seq.permission = true
  driven : (s.gate.hi || s.gate.lo) = true → s.gate.state = .running
  apart : (s.gate.hi && s.gate.lo) = false
  recorded : s.fault.cause ≠ .none ↔ s.gate.state = .tripped
  pinHolds : s.fault.pin = true → s.gate.state = .tripped
  repeats : s.fault.repeats ≤ 15

/-- The transmit queue is sound (R46, R48, R120): empty where the state does not transmit, a BEACON
and a LEAVE only where the station is grouped, LINE_TX asserted only for a frame in flight (R22), and
the receiver in RECOVER for as long as an abort mark is driven (R33, R44). -/
structure QueueInv (s : State) : Prop where
  emptied : s.seq.sync.transmits = false → s.tx.queue = TxQueue.empty
  groupedOnly : s.seq.sync.grouped = false → s.tx.queue.beacon = false ∧ s.tx.queue.leave = false
  drives : s.tx.lineTx = true → s.tx.inFlight.isSome = true
  idle : s.tx.idleCount ≤ 8
  aborts : s.aborting = true → ∃ a d, s.line.mode = .recover a d

/-- A roster entry is sound (R70, R76): an ABSENT entry holds nothing, a MEMBER entry has its optional
fields, and a miss count stands below StaleLimit. -/
structure EntryInv (limit : Nat) (e : RosterEntry) : Prop where
  absent : e.presence = .absent → e = RosterEntry.absent
  member : e.presence = .member → e.last.isSome = true
  misses : e.presence = .heard ∨ e.presence = .member → e.misses < limit

/-- The roster and the arrival log are sound (R62, R70, R76, R85): SELF stands at the own identity
alone, entries are sound, members are held in ACQUIRE, LOCKED and HOLDOVER alone, every entry but SELF
is ABSENT in LOAD, PARKED and BLOCKED, and the log holds at most one record a sender and none of the
station's own. -/
structure RosterInv (s : State) : Prop where
  config : ConfigInv s
  self : ∀ i : Identity, s.roster[i].presence = .self ↔ i = s.own
  entries : s.seq.sync.runs = true → ∀ i : Identity, EntryInv s.cfg.staleLimit s.roster[i]
  members : s.seq.sync.grouped = false → ∀ i : Identity, s.roster[i].presence ≠ .member
  cleared : s.seq.sync.actsOnPeers = false → s.roster = clearedRoster s.own
  senders : (s.log.map ArrivalRecord.sender).Nodup
  foreign : ∀ r ∈ s.log, r.sender ≠ s.own

/-- The view is sound (R90, R96, R97, 6.1): the adopted view and the previous member map hold the own
identity, the settle counter is at most 15, and the slot target is the adopted view's. -/
structure ViewInv (s : State) : Prop where
  adoptedOwn : lists s.view.adopted s.own = true
  previousOwn : lists s.view.previous s.own = true
  settle : s.view.settle ≤ 15
  target : s.view.target = slotTarget s.cfg.period s.view.adopted s.own

/-- What a clearing entry leaves (R6, R51, R65, R85, R101, R117, R122). -/
structure Cleared (s : State) : Prop where
  queue : s.tx.queue = TxQueue.empty
  roster : s.roster = clearedRoster s.own
  log : s.log = []
  adopted : s.view.adopted = ownMap s.own
  previous : s.view.previous = ownMap s.own
  settle : s.view.settle = 0
  target : s.view.target = 0
  servo : s.servo.integ = 0 ∧ s.servo.trim = 0 ∧ s.servo.captureDone = false
    ∧ s.servo.lock = 0 ∧ s.servo.unlock = 0
  fraction : s.carrier.acc = 0
  counts : s.seq.listen = 0 ∧ s.seq.holdover = 0 ∧ s.seq.expired = false
  permission : s.seq.permission = false

/-- What a clearing entry leaves alone (R122): loader, image, fault record, port and waiting commands as
they stood; of the carrier only the accumulator, of the servo not the two records, and of the generator
only that a running one becomes ARMED with both outputs inactive. The line's side is the command's. -/
structure ClearingFrame (s t : State) : Prop where
  carrier : t.carrier = { s.carrier with acc := 0 }
  servo : t.servo.meanError = s.servo.meanError ∧ t.servo.lastStep = s.servo.lastStep
  gate : t.gate = if s.gate.state = .running then
      { s.gate with state := .armed, hi := false, lo := false } else s.gate
  rest : t = { s with
    pins := t.pins, line := t.line, tx := t.tx, carrier := t.carrier, log := t.log, roster := t.roster
    view := t.view, servo := t.servo, seq := t.seq, gate := t.gate, events := t.events, free := t.free }

/-- Duties and cycle lengths are sound (R141, R148, R149, R152): while the carrier runs both duties lie
in DutyMin..DutyMax, and a cycle under RUNNING lasts 7P/8 to 9P/8 counts and has room for the active
duty and a dead band. -/
structure RunningInv (s : State) : Prop where
  timing : TimingInv s
  gate : GateInv s
  pending : s.seq.sync.runs = true →
    s.cfg.dutyMin ≤ s.gate.pendingDuty ∧ s.gate.pendingDuty ≤ s.cfg.dutyMax
  active : s.seq.sync.runs = true →
    s.cfg.dutyMin ≤ s.gate.activeDuty ∧ s.gate.activeDuty ≤ s.cfg.dutyMax
  length : s.gate.state = .running →
    7 * s.cfg.period ≤ 8 * s.carrier.pc ∧ 8 * s.carrier.pc ≤ 9 * s.cfg.period
      ∧ s.gate.activeDuty + s.cfg.deadBand ≤ s.carrier.pc

/-- Every step keeps what `inv` says. -/
def Keeps (inv : State → Prop) : Prop := ∀ s t, inv s → step s = .next t → inv t

/-! ### Words of the statements -/

/-- `t` is `u` with a request answered at the local port (R166, R168): the code, its arguments, the
status and the response stand in the port, LP_DO is still 0, and nothing else differs. -/
structure Answered (u t : State) (code : Byte) (args : BitVec 16) (status : StatusCode)
    (response : List Byte) : Prop where
  answer : t.port.answer = some ⟨status, response⟩
  request : t.port.code = code ∧ t.port.args = args ∧ t.port.active = true ∧ t.port.lpDo = false
  taken : t.port.bits = 8 * (1 + argumentBytes code)
  rest : t = { u with pins := { u.pins with lpSel := true }, port := t.port }

/-- An agreeing cycle (R92): every MEMBER entry carries a last member map equal to the own one, and so
was the own one recorded at the boundary before. -/
def Agrees (s : State) : Prop :=
  (∀ i : Identity, s.roster[i].presence = .member →
    ∃ b, s.roster[i].last = some b ∧ b.memberMap = s.memberMap) ∧ s.view.previous = s.memberMap

/-- A boundary that ACQUIRE ended counts toward lock: the five conditions of R114, each as it stood when
the cycle ended or as the boundary forms it (R84, R95, R112). -/
structure CountsTowardLock (s : State) : Prop where
  error : (meanError s.log).natAbs ≤ s.cfg.lockWindow
  complete : ∀ i : Identity, s.roster[i].presence ≠ .heard
  settled : s.cfg.settleCount ≤ s.view.settle ∧ s.view.adopted = s.memberMap
  heard : (∃ r ∈ s.log, r.usable = true) ∨ s.memberMap = ownMap s.own
  noCapture : s.servo.captureDone = true ∨ ∀ r ∈ s.log, ¬ (r.usable = true ∧ r.state = .locked)

/-- `t` has the roster and the view that a boundary which ACQUIRE or LOCKED ended leaves of those of `s`
(R80, R81, R91 to R94): misses counted and flags cleared, the settle counter, the map recorded, and the
adopted view with its target. -/
structure MeasuredBoundary (s t : State) : Prop where
  roster : ∀ i : Identity, t.roster[i] =
    if (s.roster[i].presence = .heard ∨ s.roster[i].presence = .member) ∧ s.roster[i].flag = false then
      if s.cfg.staleLimit ≤ s.roster[i].misses + 1 then ⟨.absent, false, 0, none⟩
      else { s.roster[i] with misses := s.roster[i].misses + 1 }
    else { s.roster[i] with flag := false }
  agreed : Agrees s → t.view.settle = min 15 (s.view.settle + 1)
  disagreed : ¬ Agrees s → t.view.settle = 0
  previous : t.view.previous = s.memberMap
  adopts : s.cfg.settleCount ≤ t.view.settle → s.memberMap ≠ s.view.adopted →
    t.view.adopted = s.memberMap ∧ t.view.target = slotTarget s.cfg.period s.memberMap s.own
  keeps : ¬ (s.cfg.settleCount ≤ t.view.settle ∧ s.memberMap ≠ s.view.adopted) →
    t.view.adopted = s.view.adopted ∧ t.view.target = s.view.target

/-- The counts made by `n` ticks under one trim, and the accumulator they leave (R3). -/
def runCounts (trim : Int) (acc : Nat) : Nat → Nat × Nat
  | 0 => (0, acc)
  | n + 1 =>
    let r := runCounts trim acc n
    let c := countsOf trim r.2
    (r.1 + c.1, c.2)

/-- The slot offset after one boundary of a slew (R10, R98). -/
def slewOnce (p slotStep target o : Nat) : Nat :=
  reduce p ((o : Int) + clampTo slotStep (wrapped p ((target : Int) - o)))

/-- The slot offset after `n` boundaries of a slew. -/
def slew (p slotStep target o : Nat) : Nat → Nat
  | 0 => o
  | n + 1 => slewOnce p slotStep target (slew p slotStep target o n)

/-- In the next tick the part has nothing to do but its counts and what the local port's pins call for:
the loader is done, no boundary comes due, the TRIP pin reads as before, and the line, where the receiver
runs, is recessive, not idle, between the points of its grid, and without a frame in flight. -/
structure PortAlone (s : State) : Prop where
  waiting : s.pending = []
  noReset : s.pins.reset = false
  loaded : s.loader.phase = .finished
  pin : s.pins.trip = s.fault.pin
  lineBusy : s.tx.lineIdle = false
  notDue : s.seq.sync.runs = true →
    s.carrier.c + (countsOf s.servo.trim s.carrier.acc).1 < s.carrier.pc
  line : s.seq.sync.runs = true → s.pins.lineRx = true ∧ s.tx.inFlight = none ∧
    (s.line.grid + 1) % s.cfg.bitTicks ≠ 0 ∧
    (s.line.grid + 1) % s.cfg.bitTicks ≠ s.cfg.bitTicks / 2

/-- The frame record after further bits, and the verdict on it (R30). -/
def verdictAfter (r : RxRecord) (bits : List Bit) : Verdict :=
  verdict (bits.foldl RxRecord.feed r).bits (bits.foldl RxRecord.feed r).crc

/-- The command that reports a valid foreign frame. -/
def receiveCommand (f : Frame) : Instr :=
  match f.payload with
  | .fault c => .rxFault f.sender c
  | .leave => .rxLeave f.sender
  | .claim p => .rxClaim f.sender p
  | .beacon ph h m st => .rxBeacon f.sender ph h m st

/-- A foreign frame is in progress, and the bits read so far are this frame's. -/
def Receiving (s : State) (f : Frame) (r : RxRecord) : Prop :=
  s.line.mode = .receive r ∧ r.own = false ∧ r.bits <+: f.wire

/-- What every valid foreign frame does at its last end bit, whatever it carries (R23, R39, R53): the
receiver returns to HUNT and the link error counter to 0. -/
def State.afterValidFrame (s : State) (f : Frame) : State :=
  { s with
    pins := { s.pins with lineRx := true }
    line := { mode := .hunt, grid := s.cfg.bitTicks / 2, rxPrev := true }
    tx := { s.tx with idleCount := idleAfterFrame f, linkErr := 0 } }

/-- The errors of R53, where they arise; the number is the detail of LINK_DOWN (R54). -/
def ErrorArises (s : State) (detail : Byte) : LinkError → Prop
  | .receive bits => detail = 0 ∧ bits ≠ [] ∧ ∃ r, s.line.mode = .receive r ∧ r.own = false ∧
      verdictAfter r bits = .error ∧ ∀ n, 0 < n → n < bits.length → verdictAfter r (bits.take n) = .more
  | .dominantRun => detail = 0 ∧ ∃ a d, s.line.mode = .recover a d
  | .transmit bit => detail = 1 ∧ ∃ f, s.tx.inFlight = some f ∧ f.abort = false ∧
      bit < f.frame.payload.kind.total ∧
      ¬ (1 ≤ bit ∧ bit ≤ 7 ∧ f.frame.bitAt bit = true)

/-- An event record with its more-lost flag left aside. -/
def EventRecord.unflagged (e : EventRecord) : EventRecord := { e with moreLost := false }

/-- The commands that are cycle boundaries (R8). -/
def isBoundaryCommand : Instr → Bool
  | .cycleBoundary => true
  | .listenComplete => true
  | .lockReached => true
  | .unlockReached => true
  | .viewAdoption => true
  | .peerStale _ => true
  | .holdoverExpiry => true
  | _ => false

/-- The commands that can count a link error (R53). -/
def isErrorCommand : Instr → Bool
  | .sofEdge _ => true
  | .rxFrameError _ => true
  | .dominantRunError => true
  | .transmitError _ => true
  | .linkDown _ => true
  | _ => false

/-- The commands that deliver a valid foreign frame (R34). -/
def isDelivery : Instr → Bool
  | .rxBeacon _ _ _ _ _ => true
  | .rxClaim _ _ => true
  | .rxLeave _ => true
  | .rxFault _ _ => true
  | _ => false

/-- The changes of sync state that the manual gives each command (R121, R123, R125, R127 to R130, R133,
R134, R136, R137). -/
def syncMove (c : Instr) (before after : SyncState) : Bool :=
  match before, after with
  | _, .load => c == .deviceReset
  | .load, .listen => match c with
    | .configAttemptEnd _ => true
    | _ => false
  | .load, .parked => match c with
    | .configAttemptEnd _ => true
    | _ => false
  | .load, .blocked r => match c with
    | .configAttemptEnd _ => r != .idConflict
    | _ => false
  | .parked, .listen => c == .attach
  | .blocked .idConflict, .listen => c == .attach
  | .listen, .join => isBoundaryCommand c
  | .acquire, .locked => isBoundaryCommand c
  | .locked, .acquire => isBoundaryCommand c
  | .holdover, .acquire => isBoundaryCommand c
  | .join, .acquire => c == .frameComplete
  | .join, .listen => isErrorCommand c
  | .acquire, .listen => isErrorCommand c
  | .locked, .holdover => isErrorCommand c
  | .listen, .parked => c == .detach
  | .join, .parked => c == .detach
  | .acquire, .parked => c == .frameComplete || isErrorCommand c
  | .locked, .parked => c == .frameComplete || isErrorCommand c
  | .holdover, .parked => c == .frameComplete || isErrorCommand c || c == .detach
  | .listen, .blocked .idConflict => isDelivery c
  | .join, .blocked .idConflict => isDelivery c
  | .acquire, .blocked .idConflict => isDelivery c
  | .locked, .blocked .idConflict => isDelivery c
  | .holdover, .blocked .idConflict => isDelivery c
  | _, _ => false

end Sys2Proof.Machine
end

