-- ==== Sys2Proof/Certificates/Slice0/Obligations.lean ====
section
/-! DEFINITION. The statements about the PS16 for the provers, in the order of the manual's chapters after the step itself. -/

open Sys2Proof Sys2Proof.Machine

/-! ### The step -/

/-- A step runs the command at the front of the queue on the state with the rest of the queue. The
queue is the model's own; the manual takes its steps one at a time, each whole and indivisible. -/
def Obligations.StepRunsFrontCommand : Prop :=
  ∀ (c : Instr) (rest : List Instr) (s : State),
    step { s with pending := c :: rest } = exec c { s with pending := rest }

/-! ### Device reset and start-up (Chapter 12) -/

/-- Device reset puts every block at its reset value whatever it was doing, releases the line,
clears the outputs and drops the image; the input pins stay the outside's. The manual gives each
value but those of the model's choice: the identity 0 of a part without an image (assumption 7), and
the pins, the waiting commands, the line grid and the dropped record (assumption 8). -/
def Obligations.DeviceResetClearsEveryBlock : Prop :=
  ∀ s : State, ∃ t, exec .deviceReset s = .next t ∧
    t.seq = ⟨.load, 0, 0, false, false⟩ ∧ t.image = none ∧ t.loader = ⟨.held, 0⟩ ∧
    t.carrier = ⟨0, 0, 0, 0, 0, 0, 0, false, 0⟩ ∧ t.line.mode = .off ∧
    t.tx = ⟨0, false, ⟨none, false, false, false⟩, none, 0, false, false⟩ ∧
    t.log = [] ∧ (∀ i : Identity, i ≠ t.own → t.roster[i] = ⟨.absent, false, 0, none⟩) ∧
    t.view.settle = 0 ∧ t.view.target = 0 ∧ t.view.adopted = ownMap t.own ∧
    t.view.previous = ownMap t.own ∧ t.servo = ⟨0, 0, 0, 0, false, 0, 0⟩ ∧
    t.gate = ⟨.off, 0, 0, false, false, false, false⟩ ∧ t.fault = ⟨.none, 0, 0, false⟩ ∧
    t.events = [] ∧ t.attn = false ∧ t.cfgSel = false ∧
    t.port = ⟨s.pins.lpSel, false, false, 0, 0, 0, none, false⟩ ∧
    t.pins = s.pins ∧ t.dropped = none ∧ t.pending = s.pending

/-- When device reset ends the loader begins attempt 1; a TRIP pin that is active then trips the
stage with cause PIN and the cycle stamp of the stopped carrier, without an event or an offer. The level
of LP_SEL is read too, so a select that is active then starts no transaction. That this command is the
tick that reads both pins is the model's choice (assumption 17). -/
def Obligations.LoadStartReadsTheTripPin : Prop :=
  ∀ s : State, s.loader.phase = .held → s.seq.sync = .load → s.fault.pin = false →
    s.gate.state ≠ .tripped →
    (s.pins.trip = false → exec .loadStart s = .next
      { s with
        pins := { s.pins with reset := false }
        port := { s.port with selPrev := s.pins.lpSel }
        loader := { s.loader with phase := .reading 1 0 } }) ∧
    (s.pins.trip = true → exec .loadStart s = .next
      { s with
        pins := { s.pins with reset := false }
        port := { s.port with selPrev := s.pins.lpSel }
        loader := { s.loader with phase := .reading 1 0 }
        gate := { s.gate with state := .tripped, hi := false, lo := false }
        fault := ⟨.pin, s.carrier.cycle, 0, true⟩ })

/-- An attempt whose 34 bytes are all 0x00 or all 0xFF is retried twice after a wait, and the third
such attempt blocks the station with CONFIG_NO_MEMORY; the wait's end starts the next attempt. Tick by
tick an attempt lasts 2368 ticks and a wait 1000: CFG_SEL is asserted for the attempt, CFG_CLK is high
in the last four ticks of each bit, CFG_DO sends 0x03 and two bytes of 0, and CFG_DI is taken at tick
8b + 4 of each bit b from 24 on. That a step on an empty queue is a tick is the model's choice
(assumption 3). -/
def Obligations.NoResponseIsRetriedTwice : Prop :=
  (∀ (s : State) (bytes : ImageBits) (attempt tick : Nat),
    s.loader.phase = .reading attempt tick → (bytes = 0 ∨ bytes = BitVec.allOnes 272) →
    (attempt < 3 → exec (.configAttemptEnd bytes) s = .next
      { s with loader := ⟨.waiting attempt 0, bytes⟩ }) ∧
    (3 ≤ attempt → ∃ t, exec (.configAttemptEnd bytes) s = .next t ∧
      t.seq = ⟨.blocked .configNoMemory, 0, 0, false, false⟩ ∧
      t.events = offerEvent s.events ⟨.configBad, none, 0, 0, false⟩ ∧ Cleared t ∧
      ClearingFrame { s with loader := ⟨.finished, bytes⟩ } t ∧ t.line = s.line ∧
      t.tx = { s.tx with queue := TxQueue.empty } ∧ t.pins = s.pins ∧ t.free = s.free)) ∧
  (∀ (s : State) (attempt tick : Nat), s.loader.phase = .waiting attempt tick →
    exec .configRetryWaitEnd s = .next
      { s with loader := { s.loader with phase := .reading (attempt + 1) 0 } }) ∧
  (∀ (s : State) (attempt n : Nat), s.pending = [] → s.pins.reset = false →
    s.loader.phase = .reading attempt n → ∃ t, step s = .next t ∧
      (n + 1 < 2368 → t.loader = ⟨.reading attempt (n + 1),
        if (n + 1) % 8 = 4 ∧ 24 ≤ (n + 1) / 8 then
          (s.loader.buffer <<< 1) ||| (if s.pins.cfgDi then 1 else 0)
        else s.loader.buffer⟩) ∧
      (n + 1 = 2368 → t.loader =
        ⟨if (s.loader.buffer = 0 ∨ s.loader.buffer = BitVec.allOnes 272) ∧ attempt < 3 then
            .waiting attempt 0 else .finished, s.loader.buffer⟩)) ∧
  (∀ (s : State) (attempt n : Nat), s.pending = [] → s.pins.reset = false →
    s.loader.phase = .waiting attempt n → ∃ t, step s = .next t ∧
      (n + 1 < 1000 → t.loader = { s.loader with phase := .waiting attempt (n + 1) }) ∧
      (n + 1 = 1000 → t.loader = { s.loader with phase := .reading (attempt + 1) 0 })) ∧
  (∀ s : State,
    (∀ attempt n, s.loader.phase = .reading attempt n → s.cfgSel = true ∧
      (s.cfgClk = true ↔ 4 ≤ n % 8) ∧ (s.cfgDo = true ↔ n / 8 = 6 ∨ n / 8 = 7)) ∧
    ((∀ attempt n, s.loader.phase ≠ .reading attempt n) → s.cfgSel = false ∧ s.cfgClk = false))

/-- An attempt that answers, matches its check and passes every field test completes LOAD: the blocks
start from their good-image values, the sync state follows AutoJoin, and CONFIG_LOADED is raised with
the StationId and the three flags. The gate state is kept (the generator cannot run in LOAD). The fields
are read from the bytes by the image table, most significant byte first. That the grid starts at 0 is
the model's reading (assumption 11). -/
def Obligations.GoodImageStartsTheStation : Prop :=
  (∀ bytes : ImageBits,
    let i := decodeImage bytes
    let byte (k : Nat) : Nat := bytes.toNat / 256 ^ (33 - k) % 256
    let word (k : Nat) : Nat := 256 * byte k + byte (k + 1)
    i.stationId.val = byte 0 / 16 ∧ i.staleLimit = byte 0 % 16 ∧ i.period = word 1 ∧
    i.bitTicks = byte 3 ∧ i.lineDelay = word 4 ∧ i.listenCycles = byte 6 ∧
    (i.autoJoin = true ↔ byte 7 / 128 = 1) ∧ (i.groupTrip = true ↔ byte 7 / 64 % 2 = 1) ∧
    (i.gateInHoldover = true ↔ byte 7 / 32 % 2 = 1) ∧ i.reserved = byte 7 / 4 % 8 ∧
    i.lockWindow = word 7 % 1024 ∧ i.unlockWindow = word 9 ∧ i.lockCount = byte 11 ∧
    i.settleCount = byte 12 / 16 ∧ i.kp = word 12 % 4096 ∧ i.linkErrLimit = byte 14 / 4 ∧
    i.ki = word 14 % 1024 ∧ i.trimMax = word 16 ∧ i.acqStep = word 18 ∧ i.fineStep = word 20 ∧
    i.slotStep = word 22 ∧ i.deadBand = word 24 ∧ i.dutyMin = word 26 ∧ i.dutyMax = word 28 ∧
    i.holdoverMax = word 30) ∧
  ∀ (s : State) (bytes : ImageBits) (attempt tick : Nat),
    s.loader.phase = .reading attempt tick → s.gate.state ≠ .running →
    bytes ≠ 0 → bytes ≠ BitVec.allOnes 272 → imageCheckOk bytes = true →
    (∀ n, n ≤ 23 → (decodeImage bytes).fieldOk n = true) →
    ∃ t, exec (.configAttemptEnd bytes) s = .next t ∧
      t.seq = ⟨if (decodeImage bytes).autoJoin then .listen else .parked, 0, 0, false, false⟩ ∧
      t.line = ⟨.recover 0 0, 0, s.line.rxPrev⟩ ∧
      ClearingFrame { s with
        image := some (decodeImage bytes)
        loader := ⟨.finished, bytes⟩
        carrier := ⟨0, 0, 0, 0, (decodeImage bytes).period, 0, 0, false, 0⟩
        gate := { s.gate with
          pendingDuty := (decodeImage bytes).dutyMin
          activeDuty := (decodeImage bytes).dutyMin } } t ∧
      t.tx = { s.tx with
        queue := TxQueue.empty
        linkErr := if (decodeImage bytes).autoJoin then 0 else s.tx.linkErr } ∧
      t.events = offerEvent s.events ⟨.configLoaded, some (decodeImage bytes).stationId,
        (if (decodeImage bytes).autoJoin then 4 else 0)
          + (if (decodeImage bytes).groupTrip then 2 else 0)
          + (if (decodeImage bytes).gateInHoldover then 1 else 0), 0, false⟩ ∧
      Cleared t ∧ t.own = (decodeImage bytes).stationId ∧ t.pins = s.pins ∧ t.free = s.free

/-- An attempt that answers but fails its check blocks the station with CONFIG_CHECK, and one whose
check matches but whose fields do not pass with CONFIG_VALUE and the number of the first field that
fails; no image is handed to any block. The check is the register that the 256 image bits, in the
order received, leave of 0xFFFF under the generator 0x1021; the fields pass as the image table says. -/
def Obligations.BadImageBlocksTheStation : Prop :=
  (∀ bytes : ImageBits, imageCheckOk bytes = true ↔ ∃ register : Nat → BitVec 16,
    register 0 = 0xFFFF ∧
    (∀ n, n < 256 → register (n + 1) =
      if bytes.getMsbD n = (register n).msb then register n <<< 1
      else (register n <<< 1) ^^^ 0x1021) ∧
    register 256 = bytes.extractLsb' 0 16) ∧
  (∀ i : Image,
    (i.fieldOk 2 = true ↔ 2 ≤ i.staleLimit ∧ i.staleLimit ≤ 15) ∧
    (i.fieldOk 3 = true ↔ 4096 ≤ i.period ∧ i.period ≤ 65535) ∧
    (i.fieldOk 4 = true ↔ 8 ≤ i.bitTicks ∧ i.bitTicks ≤ 255 ∧ 1184 * i.bitTicks ≤ i.period) ∧
    (i.fieldOk 5 = true ↔ i.lineDelay ≤ i.period / 16) ∧
    (i.fieldOk 6 = true ↔ 2 ≤ i.listenCycles ∧ i.listenCycles ≤ 255) ∧
    (i.fieldOk 8 = true ↔ i.reserved = 0) ∧
    (i.fieldOk 9 = true ↔ 1 ≤ i.lockWindow ∧ i.lockWindow ≤ i.period / 64) ∧
    (i.fieldOk 10 = true ↔ i.lockWindow ≤ i.unlockWindow ∧ i.unlockWindow ≤ i.period / 16) ∧
    (i.fieldOk 11 = true ↔ 1 ≤ i.lockCount ∧ i.lockCount ≤ 255) ∧
    (i.fieldOk 12 = true ↔ 1 ≤ i.settleCount ∧ i.settleCount ≤ 15) ∧
    (i.fieldOk 14 = true ↔ 1 ≤ i.linkErrLimit ∧ i.linkErrLimit ≤ 63) ∧
    (i.fieldOk 16 = true ↔ 1 ≤ i.trimMax ∧ i.trimMax ≤ 2048) ∧
    (i.fieldOk 17 = true ↔ 1 ≤ i.acqStep ∧ i.acqStep ≤ i.period / 16) ∧
    (i.fieldOk 18 = true ↔ 1 ≤ i.fineStep ∧ i.fineStep ≤ i.acqStep) ∧
    (i.fieldOk 19 = true ↔ 1 ≤ i.slotStep ∧ i.slotStep ≤ i.period / 16) ∧
    (i.fieldOk 20 = true ↔ i.deadBand ≤ i.period / 32) ∧
    (i.fieldOk 21 = true ↔ i.deadBand ≤ i.dutyMin ∧ i.dutyMin ≤ i.dutyMax) ∧
    (i.fieldOk 22 = true ↔ i.dutyMax + i.deadBand ≤ 7 * i.period / 8)) ∧
  (∀ (bytes : ImageBits) (n : Nat), n = 1 ∨ n = 7 ∨ n = 13 ∨ n = 15 ∨ n = 23 →
    (decodeImage bytes).fieldOk n = true) ∧
  ∀ (s : State) (bytes : ImageBits) (attempt tick : Nat),
    s.loader.phase = .reading attempt tick → bytes ≠ 0 → bytes ≠ BitVec.allOnes 272 →
    (imageCheckOk bytes = false → ∃ t, exec (.configAttemptEnd bytes) s = .next t ∧
      t.seq = ⟨.blocked .configCheck, 0, 0, false, false⟩ ∧
      t.events = offerEvent s.events ⟨.configBad, none, 0, 0, false⟩ ∧ Cleared t ∧
      ClearingFrame { s with loader := ⟨.finished, bytes⟩ } t ∧ t.line = s.line ∧
      t.tx = { s.tx with queue := TxQueue.empty } ∧ t.pins = s.pins ∧ t.free = s.free) ∧
    (∀ n, imageCheckOk bytes = true → n ≤ 23 → (decodeImage bytes).fieldOk n = false →
      (∀ m, m < n → (decodeImage bytes).fieldOk m = true) →
      ∃ t, exec (.configAttemptEnd bytes) s = .next t ∧
        t.seq = ⟨.blocked .configValue, 0, 0, false, false⟩ ∧
        t.events = offerEvent s.events ⟨.configBad, none, BitVec.ofNat 8 n, 0, false⟩ ∧
        Cleared t ∧ ClearingFrame { s with loader := ⟨.finished, bytes⟩ } t ∧ t.line = s.line ∧
        t.tx = { s.tx with queue := TxQueue.empty } ∧ t.pins = s.pins ∧ t.free = s.free)

/-! ### Group time and the carrier (Chapter 1) -/

/-- The table of R3 for one tick, the range of the sum, its formula for a run of `n` ticks under one
trim, and the tick of a running carrier that makes those counts and leaves that accumulator. -/
def Obligations.CountsFollowTheTrim : Prop :=
  (∀ (trimMax : Nat) (trim : Int) (acc : Nat),
    trimMax ≤ 2048 → trim.natAbs ≤ trimMax → acc < 65536 →
    (-2048 ≤ acc + trim ∧ acc + trim ≤ 67583) ∧
    (65536 ≤ acc + trim → 0 < trim ∧ (countsOf trim acc).1 = 2 ∧
      ((countsOf trim acc).2 : Int) = acc + trim - 65536) ∧
    (acc + trim < 0 → trim < 0 ∧ (countsOf trim acc).1 = 0 ∧
      ((countsOf trim acc).2 : Int) = acc + trim + 65536) ∧
    (0 ≤ acc + trim → acc + trim < 65536 → (countsOf trim acc).1 = 1 ∧
      ((countsOf trim acc).2 : Int) = acc + trim) ∧
    (countsOf trim acc).2 < 65536 ∧ (trim = 0 → countsOf trim acc = (1, acc)) ∧
    ∀ n : Nat,
      ((runCounts trim acc n).1 : Int) = n + Int.fdiv (acc + n * trim) 65536 ∧
      ((runCounts trim acc n).2 : Int) = Int.emod (acc + n * trim) 65536) ∧
  ∀ s : State, s.seq.sync.runs = true → s.carrier.c < s.carrier.pc →
    ∃ t, exec .countTick s = .next t ∧
      t.carrier.c = s.carrier.c + (countsOf s.servo.trim s.carrier.acc).1 ∧
      t.carrier.acc = (countsOf s.servo.trim s.carrier.acc).2

/-- A tick of the carrier advances g and c together by the counts of the tick and decides the gate
outputs from the new c; a stopped carrier makes no counts. A tick that finds a boundary still due makes
none either (the model's choice, assumption 14: that boundary belongs to the tick before). The end of
a SYNC pulse moves SYNC alone; that the command ends a pulse of any age, and that with SYNC inactive
it is none, are the model's choices (assumptions 24 and 1). Tick by tick, a step on an empty queue
(assumption 3), a pulse is active for 8 ticks, the tick of the boundary the first of them. -/
def Obligations.CountTickAdvancesGroupTime : Prop :=
  (∀ s : State, s.pending = [] → s.pins.reset = false → s.loader.phase = .finished →
    s.seq.sync.runs = true → s.carrier.c < s.carrier.pc →
    ∃ t, step s = .next t ∧
      (s.carrier.c + (countsOf s.servo.trim s.carrier.acc).1 < s.carrier.pc →
        t.carrier.sync = (s.carrier.sync && decide (s.carrier.syncAge + 1 < 8)) ∧
        (t.carrier.sync = true → t.carrier.syncAge = s.carrier.syncAge + 1)) ∧
      (s.carrier.pc ≤ s.carrier.c + (countsOf s.servo.trim s.carrier.acc).1 →
        t.carrier.sync = true ∧ t.carrier.syncAge = 0)) ∧
  ∀ s : State,
    (s.seq.sync.runs = true → s.carrier.c < s.carrier.pc →
      ∃ t, exec .countTick s = .next t ∧
        t = { s with carrier := t.carrier, gate := t.gate } ∧
        t.carrier = { s.carrier with
          g := (s.carrier.g + (countsOf s.servo.trim s.carrier.acc).1) % s.cfg.period
          c := s.carrier.c + (countsOf s.servo.trim s.carrier.acc).1
          acc := (countsOf s.servo.trim s.carrier.acc).2 } ∧
        t.gate = { s.gate with
          hi := t.gate.hi, lo := t.gate.lo, hiPrev := s.gate.hi, loPrev := s.gate.lo } ∧
        (s.gate.state ≠ .running → t.gate.hi = false ∧ t.gate.lo = false) ∧
        (s.gate.state = .running →
          (t.gate.hi = true ↔ s.cfg.deadBand ≤ t.carrier.c ∧ t.carrier.c < s.gate.activeDuty ∧
            ¬ (1 ≤ s.cfg.deadBand ∧ s.gate.lo = true)) ∧
          (t.gate.lo = true ↔ s.gate.activeDuty + s.cfg.deadBand ≤ t.carrier.c ∧
            t.carrier.c < s.carrier.pc ∧ ¬ (1 ≤ s.cfg.deadBand ∧ s.gate.hi = true)))) ∧
    (s.seq.sync.runs = false ∨ s.carrier.pc ≤ s.carrier.c → exec .countTick s = .next s) ∧
    (s.carrier.sync = true → exec .syncPulseEnd s = .next
      { s with carrier := { s.carrier with sync := false, syncAge := 0 } }) ∧
    (s.carrier.sync = false → exec .syncPulseEnd s = .next s)

/-- A boundary that is due restarts c, adds the phase step to g and to the step total and the slot step
to o, sets Pc to P − s + δ, numbers the new cycle and starts the SYNC pulse; it empties the arrival
log, clears the beacon-sent flag and touches nothing outside the blocks that have boundary work. A
boundary that is not due is none (the model's choice, assumption 1). Under a legal configuration Pc lies
between floor(P/2) + 1 − SlotStep and P + floor(P/2) + SlotStep, and so in 4145..102397. -/
def Obligations.BoundaryStepsTheCarrier : Prop :=
  ∀ s : State,
    (s.seq.sync.runs = true → s.carrier.pc ≤ s.carrier.c →
      ∃ t, exec .cycleBoundary s = .next t ∧
        t.carrier.c + s.carrier.pc = s.carrier.c ∧
        t.carrier.g = reduce s.cfg.period (s.carrier.g + s.phaseStep) ∧
        t.carrier.stepTotal = reduce s.cfg.period (s.carrier.stepTotal + s.phaseStep) ∧
        t.carrier.o = reduce s.cfg.period (s.carrier.o + s.slotStep) ∧
        (s.phaseStep ≤ s.cfg.period + s.slotStep →
          (t.carrier.pc : Int) = s.cfg.period - s.phaseStep + s.slotStep) ∧
        t.carrier.cycle = s.carrier.cycle + 1 ∧ t.carrier.sync = true ∧
        t.carrier.acc = s.carrier.acc ∧ t.log = [] ∧ t.tx.beaconSent = false ∧
        t.servo.lastStep = s.phaseStep ∧
        t = { s with
          carrier := t.carrier
          tx := { s.tx with queue := t.tx.queue, beaconSent := false }
          log := [], roster := t.roster, view := t.view, servo := t.servo, seq := t.seq
          gate := t.gate, events := t.events, free := t.free }) ∧
    (s.seq.sync.runs = false ∨ s.carrier.c < s.carrier.pc → exec .cycleBoundary s = .next s) ∧
    (TimingInv s → s.boundaryDue = true → ∀ t, exec .cycleBoundary s = .next t →
      s.cfg.period / 2 + 1 ≤ t.carrier.pc + s.cfg.slotStep ∧
      t.carrier.pc ≤ s.cfg.period + s.cfg.period / 2 + s.cfg.slotStep ∧
      4145 ≤ t.carrier.pc ∧ t.carrier.pc ≤ 102397)

/-- Group time stays sound in every step: the carrier's relation g − o ≡ c + s − δ holds at every
count, the quantities stay in their ranges, and the trim and the integrator within TrimMax. -/
def Obligations.StepKeepsGroupTime : Prop := Keeps TimingInv

/-! ### Frames on the group line (Chapter 2) -/

/-- A frame is laid out by the frame layout table: a dominant SOF, the kind code, the sender, the payload,
the check and two recessive end bits, each field most significant bit first. The check is what a register
set to 0xFF holds after the kind, sender and payload bits, under the generator 0x2F. A receiver that
reads a frame as its sender sends it, whatever its kind and fields, finds no error at any bit and
validates exactly that frame at its last end bit. -/
def Obligations.EveryWholeFrameValidates : Prop :=
  (∀ f : Frame, ∃ register : Nat → BitVec 8,
    let bit (k : Nat) : Bit := f.wire.getD k false
    let kind : Nat := match f.payload with
      | .fault _ => 0
      | .leave => 1
      | .claim _ => 2
      | .beacon _ _ _ _ => 3
    let length : Nat := match f.payload with
      | .fault _ => 3
      | .leave => 0
      | .claim _ => 16
      | .beacon _ _ _ _ => 50
    f.wire.length = 18 + length ∧ f.payload.kind.total = 18 + length ∧
    f.payload.kind.code.toNat = kind ∧
    bit 0 = false ∧
    (∀ j, j < 3 → bit (1 + j) = kind.testBit (2 - j)) ∧
    (∀ j, j < 4 → bit (4 + j) = f.sender.val.testBit (3 - j)) ∧
    (match f.payload with
      | .fault c =>
          c.code = (match c with
            | .pin => 1
            | .command => 2) ∧
          ∀ j, j < 3 → bit (8 + j) = c.code.getMsbD j
      | .leave => True
      | .claim p => ∀ j, j < 16 → bit (8 + j) = p.getMsbD j
      | .beacon phase heard member st =>
          (∀ j, j < 16 → bit (8 + j) = phase.getMsbD j ∧ bit (24 + j) = heard.getMsbD j ∧
            bit (40 + j) = member.getMsbD j) ∧
          st.code = (match st with
            | .acquire => 0
            | .locked => 1
            | .holdover => 2) ∧
          ∀ j, j < 2 → bit (56 + j) = st.code.getMsbD j) ∧
    register 0 = 0xFF ∧
    (∀ j, j < 7 + length → register (j + 1) =
      if bit (1 + j) = (register j).msb then register j <<< 1
      else (register j <<< 1) ^^^ 0x2F) ∧
    (∀ j, j < 8 → bit (8 + length + j) = (register (7 + length)).getMsbD j) ∧
    bit (16 + length) = true ∧ bit (17 + length) = true) ∧
  ∀ (f : Frame) (r : RxRecord), r.bits = [] →
    (∀ n, n < f.wire.length → verdictAfter r (f.wire.take n) = .more) ∧
    verdictAfter r f.wire = .valid f

/-- An SOF edge found in HUNT opens a frame record with the phase sample of its tick, own when this
station drove it. Dominant at bit 0 confirms it; recessive drops the record of a foreign edge without
an error, and is a transmit error at bit 0 on an own edge. That the first bit of the abort mark starts
with the command is the model's choice (assumption 2). -/
def Obligations.SofEdgeOpensAFrame : Prop :=
  ∀ s : State, s.line.mode = .hunt →
    (exec (.sofEdge false) s = .next
      { s with
        pins := { s.pins with lineRx := false }
        line := {
          mode := .receive ⟨s.cfg.bitTicks / 2, s.sample,
            s.tx.inFlight.any fun f => f.awaiting.isSome, [false], 0xFF⟩
          grid := s.cfg.bitTicks / 2
          rxPrev := false }
        tx := { s.tx with
          idleCount := 0
          lineIdle := false
          inFlight := s.tx.inFlight.map fun f =>
            { f with awaiting := none, bit := if f.awaiting.isSome then 0 else f.bit } } }) ∧
    ((∀ f, s.tx.inFlight = some f → f.awaiting = none) →
      exec (.sofEdge true) s = .next
        { s with
          pins := { s.pins with lineRx := true }
          line := { mode := .hunt, grid := s.cfg.bitTicks / 2, rxPrev := true }
          tx := { s.tx with idleCount := 1, lineIdle := false } }) ∧
    (∀ f n, s.tx.inFlight = some f → f.awaiting = some n → f.abort = false →
      ∃ t, exec (.sofEdge true) s = .next t ∧ t.line.mode = .recover 0 0 ∧
        t.tx.inFlight = some { f with awaiting := none, bit := 1, abort := true } ∧
        t.tx.lineTx = true)

/-- A receive error drops the frame record, enters RECOVER with both run counts 0 and counts once;
the 68th dominant sample in RECOVER counts once and stays there. (An error that reaches LinkErrLimit
is the LINK_DOWN statement's.) The 8th recessive sample in RECOVER enters HUNT, and the line is idle
from the end of the bit in which the idle count reached 8, to a receiver that is then in HUNT; neither
comes about while this station drives an abort mark (the model's reading of R33 and R44, assumption 23).
That each command brings the samples that lead to it is the model's choice (assumptions 2 and 19), and so
is a report of what cannot come about: a dominant run during the own abort mark, a recessive bit 0, an
idle line while the own SOF is driven and not read back (assumption 25). -/
def Obligations.ReceiverErrorsAndRecovery : Prop :=
  (∀ (s : State) (bits : List Bit), s.errorReachesLimit = false →
    ErrorArises s 0 (.receive bits) →
    ∃ t, exec (.rxFrameError bits) s = .next t ∧
      t.line = ⟨.recover 0 0, s.cfg.bitTicks / 2, bits.getLastD true⟩ ∧
      t.tx = { s.tx with
        idleCount := t.tx.idleCount
        lineIdle := t.tx.lineIdle
        linkErr := if s.tx.linkErr < s.cfg.linkErrLimit then s.tx.linkErr + 1 else s.tx.linkErr } ∧
      t = { s with pins := { s.pins with lineRx := bits.getLastD true }, line := t.line, tx := t.tx }) ∧
  (∀ (s : State) (a d : Nat), s.errorReachesLimit = false → s.line.mode = .recover a d →
    exec .dominantRunError s = .next
      { s with
        pins := { s.pins with lineRx := false }
        line := ⟨.recover 0 0, s.cfg.bitTicks / 2, false⟩
        tx := { s.tx with
          idleCount := 0
          lineIdle := false
          linkErr := if s.tx.linkErr < s.cfg.linkErrLimit then s.tx.linkErr + 1
            else s.tx.linkErr } }) ∧
  (∀ (s : State) (a d : Nat), s.line.mode = .recover a d →
    (∀ f, s.tx.inFlight = some f → f.abort = false) →
    exec .recoverIdle s = .next
      { s with
        pins := { s.pins with lineRx := true }
        line := ⟨.hunt, s.cfg.bitTicks / 2, true⟩
        tx := { s.tx with idleCount := 8 } }) ∧
  (∀ s : State, (s.line.mode = .hunt ∨ ∃ a d, s.line.mode = .recover a d) →
    (∀ f, s.tx.inFlight = some f → f.abort = false) →
    exec .lineIdle s = .next
      { s with
        pins := { s.pins with lineRx := true }
        line := ⟨.hunt, 0, true⟩
        tx := { s.tx with idleCount := 8, lineIdle := true } }) ∧
  (∀ (s : State) (f : InFlight), s.tx.inFlight = some f → f.abort = true →
    exec .recoverIdle s = .next s ∧ exec .lineIdle s = .next s)

/-- A valid foreign frame of any kind that bears the own identity blocks the station with ID_CONFLICT
in LISTEN, JOIN, ACQUIRE, LOCKED and HOLDOVER, clears the blocks and reaches neither roster, capture
nor fault unit; in the other states it does nothing but what every valid frame does on the line. -/
def Obligations.IdentityConflictBlocks : Prop :=
  ∀ (s : State) (f : Frame) (r : RxRecord), Receiving s f r → f.sender = s.own →
    (s.seq.sync.actsOnPeers = true → ∃ t, exec (receiveCommand f) s = .next t ∧
      t.seq = ⟨.blocked .idConflict, 0, 0, false, false⟩ ∧ Cleared t ∧
      t.events = offerEvent s.events
        ⟨.idConflict, some s.own, f.payload.kind.code.setWidth 8, s.carrier.cycle, false⟩ ∧
      ClearingFrame s t ∧ t.pins = (s.afterValidFrame f).pins ∧ t.line = (s.afterValidFrame f).line ∧
      t.tx = { (s.afterValidFrame f).tx with queue := TxQueue.empty } ∧ t.free = s.free) ∧
    (s.seq.sync.actsOnPeers = false → exec (receiveCommand f) s = .next (s.afterValidFrame f))

/-- A CLAIM with another period, or a BEACON whose sent phase is P or more, raises PERIOD_MISMATCH in
the states that act on peers and reaches neither roster nor capture; the frame still counts as
valid. -/
def Obligations.PeriodMismatchIsReported : Prop :=
  ∀ (s : State) (f : Frame) (r : RxRecord), Receiving s f r → f.sender ≠ s.own →
    (match f.payload with
      | .claim p => p.toNat ≠ s.cfg.period
      | .beacon phase _ _ _ => s.cfg.period ≤ phase.toNat
      | .leave => False
      | .fault _ => False) →
    exec (receiveCommand f) s = .next
      { s.afterValidFrame f with
        events :=
          if s.seq.sync.actsOnPeers then offerEvent s.events
            ⟨.periodMismatch, some f.sender, f.payload.kind.code.setWidth 8, s.carrier.cycle, false⟩
          else s.events }

/-! ### Contention and the transmit queue (Chapter 3) -/

/-- The queue answers each offer by its kind and what it holds: a second FAULT keeps the first cause,
a LEAVE removes the BEACON and the CLAIM, and a CLAIM or BEACON is refused beside a LEAVE. The offers
are those of TRIP, DETACH, the boundary that ends LISTEN and the boundaries of a grouped station. -/
def Obligations.QueueAnswersOffers : Prop :=
  (∀ s t : State, exec .trip s = .next t →
    t.tx.queue = (if s.seq.sync.transmits then
      { s.tx.queue with fault := some (match s.tx.queue.fault with
        | some c => c
        | none => .command) } else s.tx.queue)) ∧
  (∀ s t : State, exec .detach s = .next t → s.seq.sync.grouped = true →
    s.tx.linkErr < s.cfg.linkErrLimit →
    t.tx.queue = (if s.tx.queue.leave then s.tx.queue
      else ⟨s.tx.queue.fault, true, false, false⟩)) ∧
  (∀ s t : State, exec .cycleBoundary s = .next t → s.boundaryDue = true →
    (s.seq.sync.grouped = true →
      t.tx.queue = (if s.tx.queue.leave then s.tx.queue else { s.tx.queue with beacon := true })) ∧
    (s.seq.sync = .listen → s.cfg.listenCycles ≤ s.seq.listen + 1 →
      t.tx.queue = (if s.tx.queue.leave then s.tx.queue else { s.tx.queue with claim := true })) ∧
    (s.seq.sync = .listen → s.seq.listen + 1 < s.cfg.listenCycles → t.tx.queue = s.tx.queue) ∧
    (s.seq.sync.grouped = false → s.seq.sync ≠ .listen → t.tx.queue = s.tx.queue))

/-- On an idle line the station takes the first entry of its queue in kind order, stamps its fields at
this tick, drives the SOF and keeps the entry; with an empty queue nothing starts (assumption 1). A
BEACON carries the two published maps, each the own identity with those of its grades, and the sync
state as its sender state; that a BEACON entry in JOIN, which no run brings about, would carry ACQUIRE
is the model's choice (assumption 16). -/
def Obligations.FrameStartTakesTheFirstEntry : Prop :=
  (∀ (s : State) (i : Identity),
    (lists s.heardMap i = true ↔
      i = s.own ∨ s.roster[i].presence = .heard ∨ s.roster[i].presence = .member) ∧
    (lists s.memberMap i = true ↔ i = s.own ∨ s.roster[i].presence = .member)) ∧
  (∀ s : State, (s.seq.sync = .acquire → s.seq.sync.asSender = .acquire) ∧
    (s.seq.sync = .locked → s.seq.sync.asSender = .locked) ∧
    (s.seq.sync = .holdover → s.seq.sync.asSender = .holdover)) ∧
  ∀ s : State, s.tx.lineIdle = true → s.line.mode = .hunt → s.pins.lineRx = true →
    s.tx.inFlight = none → s.seq.sync.transmits = true →
    (∀ p : Payload,
      (match s.tx.queue.fault with
        | some c => p = .fault c
        | none =>
          if s.tx.queue.leave = true then p = .leave
          else if s.tx.queue.claim = true then p = .claim (BitVec.ofNat 16 s.cfg.period)
          else s.tx.queue.beacon = true ∧
            p = .beacon (BitVec.ofNat 16 s.carrier.g) s.heardMap s.memberMap s.seq.sync.asSender) →
      exec .txFrameStart s = .next
        { s with tx := { s.tx with
          lineTx := true
          idleCount := 0
          lineIdle := false
          inFlight := some ⟨⟨s.own, p⟩, ⟨s.carrier.g, s.carrier.cycle, s.carrier.stepTotal⟩,
            some 0, 0, false⟩ } }) ∧
    (s.tx.queue = TxQueue.empty → exec .txFrameStart s = .next s)

/-- A loss in the kind or sender field drops the frame in flight and its stamp, keeps the queue
entry, the link error counter and the beacon-sent flag, releases the line, and leaves a foreign
frame record with the bits read so far, their check, the tick of its SOF edge and the phase sample of
the edge. Where no SOF_EDGE was commanded for the station's own edge the sample is that of the driving
tick: the model's choice (assumption 12). So is a loss at a bit already read as good, which is taken like
any other (assumption 25). -/
def Obligations.LossTurnsTheFrameForeign : Prop :=
  ∀ (s : State) (f : InFlight) (bit : Nat), s.tx.inFlight = some f → f.abort = false →
    1 ≤ bit → bit ≤ 7 → f.frame.bitAt bit = true →
    ∃ t r, exec (.arbitrationLost bit) s = .next t ∧
      t.line = ⟨.receive r, s.cfg.bitTicks / 2, false⟩ ∧ r.own = false ∧
      r.bits = f.frame.wire.take bit ++ [false] ∧ r.crc = frameCrc (r.bits.drop 1) ∧
      r.age = s.cfg.bitTicks * bit + s.cfg.bitTicks / 2 ∧
      (∀ r0, s.line.mode = .receive r0 → r.sample = r0.sample) ∧
      ((∀ r0, s.line.mode ≠ .receive r0) → r.sample = f.sample) ∧
      t = { s with
        pins := { s.pins with lineRx := false }
        line := t.line
        tx := { s.tx with idleCount := 0, lineIdle := false, inFlight := none, lineTx := false } }

/-- A transmit error keeps the frame in flight as an abort, drives the abort mark from the next bit
(none after bit 67), takes the receiver to RECOVER and counts once, keeping the queue; the end of
the mark drops the frame, releases the line and counts the 8 recessive samples to HUNT and to the idle
line from there. That the first bit of the mark starts with the command, and that the end of the mark
brings the samples of it that are still to come, is the model's choice (assumptions 2 and 23), and so is
an error at a bit already read as good, which is taken like any other (assumption 25). -/
def Obligations.TransmitErrorDrivesTheMark : Prop :=
  (∀ (s : State) (f : InFlight) (bit : Nat), s.errorReachesLimit = false →
    ErrorArises s 1 (.transmit bit) → s.tx.inFlight = some f →
    ∃ t, exec (.transmitError bit) s = .next t ∧
      t.line = ⟨.recover 0 0, 0, !f.frame.bitAt bit⟩ ∧
      t.tx = { s.tx with
        idleCount := t.tx.idleCount
        lineIdle := t.tx.lineIdle
        linkErr := if s.tx.linkErr < s.cfg.linkErrLimit then s.tx.linkErr + 1 else s.tx.linkErr
        inFlight := some { f with awaiting := none, bit := bit + 1, abort := true }
        lineTx := decide (bit < 67) } ∧
      t = { s with
        pins := { s.pins with lineRx := !f.frame.bitAt bit }, line := t.line, tx := t.tx }) ∧
  (∀ (s : State) (f : InFlight) (left : Nat), s.tx.inFlight = some f → f.abort = true →
    left = (if s.line.grid < s.cfg.bitTicks / 2 then 68 - f.bit else 67 - f.bit) →
    ∃ t, exec .abortMarkEnd s = .next t ∧
      (∀ a d, s.line.mode = .recover a d → t.line.mode = .recover 0 (min 67 (d + left))) ∧
      ((∀ a d, s.line.mode ≠ .recover a d) → t.line.mode = s.line.mode) ∧
      t = { s with
        pins := { s.pins with lineRx := if left = 0 then s.pins.lineRx else false }
        line := ⟨t.line.mode, 0, if left = 0 then s.line.rxPrev else false⟩
        tx := { s.tx with idleCount := 0, lineIdle := false, lineTx := false, inFlight := none } })

/-- An own frame good to its last end bit removes its queue entry, returns the link error counter to
0 and, a BEACON, sets the beacon-sent flag. A CLAIM completed in JOIN enters ACQUIRE with both lock
counters 0, a LEAVE completed in ACQUIRE, LOCKED or HOLDOVER parks the station with detail 1, and
every other completion moves no other block. That a LEAVE completed in another state moves nothing
is the model's choice (assumption 16). -/
def Obligations.CompletionReportsTheFrame : Prop :=
  ∀ (s : State) (f : InFlight), s.tx.inFlight = some f → f.abort = false →
    ∃ t, exec .frameComplete s = .next t ∧
      t.tx.inFlight = none ∧ t.tx.lineTx = false ∧ t.tx.linkErr = 0 ∧
      t.tx.beaconSent = (s.tx.beaconSent || f.frame.payload.kind == .beacon) ∧
      t.line = ⟨.hunt, s.cfg.bitTicks / 2, true⟩ ∧
      (¬ (f.frame.payload.kind = .leave ∧ s.seq.sync.grouped = true) →
        t.tx.queue = s.tx.queue.remove f.frame.payload.kind ∧
        t = { s with
          pins := { s.pins with lineRx := true }
          line := t.line
          tx := t.tx
          servo :=
            if f.frame.payload.kind = .claim ∧ s.seq.sync = .join then
              { s.servo with lock := 0, unlock := 0 } else s.servo
          seq :=
            if f.frame.payload.kind = .claim ∧ s.seq.sync = .join then
              { s.seq with sync := .acquire } else s.seq }) ∧
      (f.frame.payload.kind = .leave → s.seq.sync.grouped = true →
        t.seq = ⟨.parked, 0, 0, false, false⟩ ∧ Cleared t ∧
        t.events = offerEvent s.events ⟨.parked, none, 1, s.carrier.cycle, false⟩ ∧
        ClearingFrame s t ∧ t.pins = { s.pins with lineRx := true } ∧ t.free = s.free)

/-- The error that brings the link error counter to LinkErrLimit raises LINK_DOWN with the detail of
its side, and the sequencer answers by its state: LISTEN starts its count again; JOIN and ACQUIRE go
to LISTEN; a station with a LEAVE pending parks with detail 2; LOCKED goes to HOLDOVER, expired at
once with HoldoverMax 0; HOLDOVER, PARKED and BLOCKED keep their state. Two events of the one
instant stand in either order. That LINK_DOWN is the whole error is the model's choice (assumption
6), and so are the first bit of an abort mark that starts with the command (assumption 2), LOAD, which
no error reaches (assumption 16), an error commanded where none can come about (assumption 25), and the
record of a foreign frame that is kept, with its instant, as JOIN or ACQUIRE goes to LISTEN (assumption 27). -/
def Obligations.LinkDownByState : Prop :=
  ∀ (s : State) (e : LinkError) (detail : Byte), s.errorReachesLimit = true →
    ErrorArises s detail e →
    ∃ t, exec (.linkDown e) s = .next t ∧
      t.line = ⟨.recover 0 0, t.line.grid, t.line.rxPrev⟩ ∧
      t.pins = { s.pins with lineRx := t.line.rxPrev } ∧
      t.tx = { s.tx with
        idleCount := t.tx.idleCount, lineIdle := t.tx.lineIdle, queue := t.tx.queue
        inFlight := t.tx.inFlight, linkErr := t.tx.linkErr, lineTx := t.tx.lineTx } ∧
      (match e with
        | .transmit bit => t.line.grid = 0 ∧ t.tx.lineTx = decide (bit < 67) ∧
            t.tx.inFlight = s.tx.inFlight.map fun f =>
              { f with awaiting := none, bit := bit + 1, abort := true }
        | .receive _ => t.line.grid = s.cfg.bitTicks / 2 ∧ t.tx.lineTx = s.tx.lineTx ∧
            t.tx.inFlight = s.tx.inFlight
        | .dominantRun => t.line.grid = s.cfg.bitTicks / 2 ∧ t.tx.lineTx = s.tx.lineTx ∧
            t.tx.inFlight = s.tx.inFlight) ∧
      (let down : EventRecord := ⟨.linkDown, none, detail, s.carrier.cycle, false⟩
       let parked : EventRecord := ⟨.parked, none, 2, s.carrier.cycle, false⟩
       let expired : EventRecord := ⟨.holdoverExpired, none, 0, s.carrier.cycle, false⟩
       let parks : Prop :=
         t.seq = ⟨.parked, 0, 0, false, false⟩ ∧ t.tx.linkErr = s.cfg.linkErrLimit ∧ Cleared t ∧
         ClearingFrame s t ∧
         (t.events = offerEvent (offerEvent s.events down) parked ∨
           t.events = offerEvent (offerEvent s.events parked) down)
       let listens : Prop :=
         t.seq = ⟨.listen, 0, 0, false, false⟩ ∧ t.tx.linkErr = 0 ∧ Cleared t ∧
         ClearingFrame { s with dropped := t.dropped } t ∧
         (∀ bits r, e = .receive bits → s.line.mode = .receive r → t.dropped = some ⟨r, t.carrier⟩) ∧
         ((∀ bits, e ≠ .receive bits) → t.dropped = s.dropped) ∧
         t.events = offerEvent s.events down
       let stays : Prop := t.tx.linkErr = s.cfg.linkErrLimit ∧ t.tx.queue = s.tx.queue ∧
         t = { s with
           pins := t.pins, line := t.line, tx := t.tx, seq := t.seq
           events := offerEvent s.events down }
       match s.seq.sync with
       | .listen => stays ∧ t.seq = { s.seq with listen := 0 }
       | .join => listens
       | .acquire => (s.tx.queue.leave = true → parks) ∧ (s.tx.queue.leave = false → listens)
       | .locked => (s.tx.queue.leave = true → parks) ∧
         (s.tx.queue.leave = false →
           t.seq = ⟨.holdover, s.seq.listen, 0, decide (s.cfg.holdoverMax = 0),
             s.cfg.gateInHoldover && decide (s.cfg.holdoverMax ≠ 0)⟩ ∧
           t.gate = (if s.gate.state = .running ∧ t.seq.permission = false then
             { s.gate with state := .armed, hi := false, lo := false } else s.gate) ∧
           t.tx.linkErr = s.cfg.linkErrLimit ∧ t.tx.queue = s.tx.queue ∧
           t = { s with
             pins := t.pins, line := t.line, tx := t.tx, seq := t.seq, gate := t.gate
             servo := { s.servo with lock := 0 }, events := t.events, free := t.free } ∧
           (s.cfg.holdoverMax ≠ 0 → t.events = offerEvent s.events down) ∧
           (s.cfg.holdoverMax = 0 →
             t.events = offerEvent (offerEvent s.events down) expired ∨
             t.events = offerEvent (offerEvent s.events expired) down))
       | .holdover => (s.tx.queue.leave = true → parks) ∧
         (s.tx.queue.leave = false → stays ∧ t.seq = s.seq)
       | .load => stays ∧ t.seq = s.seq
       | .blocked _ => stays ∧ t.seq = s.seq
       | .parked => stays ∧ t.seq = s.seq)

/-- The transmit queue stays sound in every step: empty outside JOIN, ACQUIRE, LOCKED and HOLDOVER, a
BEACON or LEAVE only where the station is grouped, the line driven only for a frame in flight, and the
receiver in RECOVER for as long as an abort mark is driven (the model's reading of R33 and R44, assumption
23). -/
def Obligations.StepKeepsTheTransmitQueue : Prop := Keeps QueueInv

/-! ### Arrival capture (Chapter 4) and the roster (Chapter 5) -/

/-- The measured error is the wrapped difference of sent phase plus LineDelay less the arrival phase;
the stored error is the one that would have been measured had the SOF come after the phase steps taken
since, and equals the measured error when there were none. -/
def Obligations.StoredErrorIsTheErrorAfterTheSteps : Prop :=
  ∀ (p lineDelay sentPhase arrival totalThen totalNow : Nat), 0 < p →
    (∀ e, e = measuredError p lineDelay sentPhase arrival →
      -(p : Int) ≤ 2 * e ∧ 2 * e < p ∧
        (p : Int) ∣ ((sentPhase : Int) + lineDelay - arrival) - e) ∧
    storedError p (measuredError p lineDelay sentPhase arrival) totalThen totalNow =
      measuredError p lineDelay sentPhase
        (reduce p ((arrival : Int) + ((totalNow : Int) - totalThen))) ∧
    storedError p (measuredError p lineDelay sentPhase arrival) totalThen totalThen =
      measuredError p lineDelay sentPhase arrival

/-- A valid foreign BEACON of another station within P, in a state that acts on peers: the entry is
refreshed with the beacon's four fields and graded by the tables of R75 and R76, the record takes the
place of its sender's record in the log or, where there is none, joins the end, with its usable flag by
the table of R61, and the change to or from MEMBER raises its event. In the other states it only counts as
a valid frame. Where it validates in the instant in which link down takes JOIN or ACQUIRE to LISTEN, and
that entry is taken first, its record is formed under LISTEN: it is the one record of the log, not usable,
and its sender is HEARD. How the two commands of that instant meet is the model's choice (assumption 27). -/
def Obligations.BeaconFillsRosterAndLog : Prop :=
  ∀ (s : State) (sender : Identity) (phase : BitVec 16) (heard member : StationMap)
      (st : SenderState) (r : RxRecord),
    RosterInv s → Receiving s ⟨sender, .beacon phase heard member st⟩ r → sender ≠ s.own →
    phase.toNat < s.cfg.period →
    (s.seq.sync.actsOnPeers = true →
      (let before := s.roster[sender].presence
       let after : Presence :=
         if s.seq.sync.grouped = true ∧ lists heard s.own = true then .member else .heard
       let error := storedError s.cfg.period
         (measuredError s.cfg.period s.cfg.lineDelay phase.toNat r.sample.g)
         r.sample.stepTotal s.carrier.stepTotal
       let usable : Bool := decide (after = .member ∧
         ((s.seq.sync = .acquire ∧ st ≠ .holdover) ∨ (s.seq.sync = .locked ∧ st = .locked)))
       let stored : ArrivalRecord := ⟨sender, st, phase.toNat, r.sample.g, error, heard, member,
         usable, decide (s.carrier.cycle ≠ r.sample.cycle)⟩
       ∃ log,
       (∀ l x m, s.log = l ++ x :: m → x.sender = sender → log = l ++ stored :: m) ∧
       ((∀ x ∈ s.log, x.sender ≠ sender) → log = s.log ++ [stored]) ∧
       exec (.rxBeacon sender phase heard member st) s = .next
         { s.afterValidFrame ⟨sender, .beacon phase heard member st⟩ with
           roster := s.roster.set sender.val ⟨after, true, 0, some ⟨st, heard, member, error⟩⟩
           log := log
           events :=
             if before ≠ .member ∧ after = .member then
               offerEvent s.events ⟨.peerMember, some sender, st.code.setWidth 8, s.carrier.cycle, false⟩
             else if before = .member ∧ after ≠ .member then
               offerEvent s.events ⟨.peerDropped, some sender, 2, s.carrier.cycle, false⟩
             else s.events })) ∧
    (s.seq.sync.actsOnPeers = false → exec (.rxBeacon sender phase heard member st) s = .next
      (s.afterValidFrame ⟨sender, .beacon phase heard member st⟩)) ∧
    (∀ bits, (s.seq.sync = .join ∨ (s.seq.sync = .acquire ∧ s.tx.queue.leave = false)) →
      (∀ f, s.tx.inFlight = some f → f.abort = false) → s.errorReachesLimit = true →
      ErrorArises s 0 (.receive bits) →
      (let error := storedError s.cfg.period
         (measuredError s.cfg.period s.cfg.lineDelay phase.toNat r.sample.g)
         r.sample.stepTotal s.carrier.stepTotal
       ∃ t, exec (.linkDown (.receive bits)) s = .next t ∧
         t.seq = ⟨.listen, 0, 0, false, false⟩ ∧ Cleared t ∧
         t.events = offerEvent s.events ⟨.linkDown, none, 0, s.carrier.cycle, false⟩ ∧
         exec (.rxBeacon sender phase heard member st) t = .next
           { t.afterValidFrame ⟨sender, .beacon phase heard member st⟩ with
             roster := (clearedRoster s.own).set sender.val
               ⟨.heard, true, 0, some ⟨st, heard, member, error⟩⟩
             log := [⟨sender, st, phase.toNat, r.sample.g, error, heard, member, false,
               decide (s.carrier.cycle ≠ r.sample.cycle)⟩] }))

/-- A valid foreign CLAIM of another station with the right period marks its sender HEARD where it was
ABSENT, keeps a higher grade and the optional fields, sets the flag and zeroes the miss count. -/
def Obligations.ClaimMarksItsSenderHeard : Prop :=
  ∀ (s : State) (sender : Identity) (r : RxRecord),
    Receiving s ⟨sender, .claim (BitVec.ofNat 16 s.cfg.period)⟩ r → s.cfg.period < 65536 →
    sender ≠ s.own →
    exec (.rxClaim sender (BitVec.ofNat 16 s.cfg.period)) s = .next
      { s.afterValidFrame ⟨sender, .claim (BitVec.ofNat 16 s.cfg.period)⟩ with
        roster :=
          if s.seq.sync.actsOnPeers then
            s.roster.set sender.val { s.roster[sender] with
              presence := if s.roster[sender].presence = .absent then .heard
                else s.roster[sender].presence
              flag := true
              misses := 0 }
          else s.roster }

/-- A valid foreign LEAVE of another station returns its entry to ABSENT and raises PEER_DROPPED with
reason LEAVE if it was MEMBER; the log and the adopted view are left as they stand. -/
def Obligations.LeaveDropsItsSender : Prop :=
  ∀ (s : State) (sender : Identity) (r : RxRecord), Receiving s ⟨sender, .leave⟩ r →
    sender ≠ s.own →
    exec (.rxLeave sender) s = .next
      { s.afterValidFrame ⟨sender, .leave⟩ with
        roster := if s.seq.sync.actsOnPeers then
          s.roster.set sender.val ⟨.absent, false, 0, none⟩ else s.roster
        events :=
          if s.seq.sync.actsOnPeers = true ∧ s.roster[sender].presence = .member then
            offerEvent s.events ⟨.peerDropped, some sender, 1, s.carrier.cycle, false⟩
          else s.events }

/-- A boundary that counts misses raises the miss count of every HEARD or MEMBER entry whose flag is
clear, returns those that reach StaleLimit to ABSENT and clears every flag; in HOLDOVER only the
flags are cleared, and in PARKED and BLOCKED with ID_CONFLICT nothing is done. PEER_STALE is such a
boundary at which the named peer goes stale: PEER_DROPPED with reason STALE for a MEMBER, no event for
a HEARD peer. That PEER_STALE is the whole boundary is the model's choice (assumption 6). -/
def Obligations.BoundaryCountsMisses : Prop :=
  ∀ (s : State) (peer : Identity), s.boundaryDue = true →
    (s.seq.sync = .listen ∨ s.seq.sync = .join ∨ s.seq.sync = .acquire ∨ s.seq.sync = .locked →
      s.roster[peer].presence = .heard ∨ s.roster[peer].presence = .member →
      s.roster[peer].flag = false → s.cfg.staleLimit ≤ s.roster[peer].misses + 1 →
      ∃ t, exec (.peerStale peer) s = .next t ∧ exec .cycleBoundary s = .next t ∧
        t.roster[peer] = ⟨.absent, false, 0, none⟩ ∧
        (s.roster[peer].presence = .member → s.boundaryEvents.length + s.events.length ≤ 8 →
          ⟨.peerDropped, some peer, 0, s.carrier.cycle + 1, false⟩
            ∈ t.events.map EventRecord.unflagged) ∧
        (s.roster[peer].presence = .heard → ∀ e : EventRecord, e.kind = .peerDropped →
          e.subject = some peer → e ∈ t.events.map EventRecord.unflagged →
          e ∈ s.events.map EventRecord.unflagged)) ∧
    (∃ t, exec .cycleBoundary s = .next t ∧ ∀ i : Identity,
      (s.seq.sync = .listen ∨ s.seq.sync = .join ∨ s.seq.sync = .acquire ∨ s.seq.sync = .locked →
        (s.roster[i].presence = .heard ∨ s.roster[i].presence = .member →
          s.roster[i].flag = false → s.roster[i].misses + 1 < s.cfg.staleLimit →
          t.roster[i] = { s.roster[i] with misses := s.roster[i].misses + 1 }) ∧
        (s.roster[i].flag = true → t.roster[i] = { s.roster[i] with flag := false }) ∧
        (s.roster[i].presence = .absent ∨ s.roster[i].presence = .self →
          t.roster[i] = { s.roster[i] with flag := false })) ∧
      (s.seq.sync = .holdover → t.roster[i] = { s.roster[i] with flag := false }) ∧
      (s.seq.sync = .parked ∨ s.seq.sync = .blocked .idConflict → t.roster[i] = s.roster[i]))

/-- The roster and the log stay sound in every step: SELF at the own identity alone, ABSENT entries
empty, MEMBER entries with their fields and only in ACQUIRE, LOCKED and HOLDOVER, miss counts below
StaleLimit, every entry but SELF ABSENT in LOAD, PARKED and BLOCKED, and at most one record a sender in
the log. -/
def Obligations.StepKeepsTheRoster : Prop := Keeps RosterInv

/-! ### Views and slots (Chapter 6) -/

/-- A map lists the identities whose bits are set. N is the number of identities it lists and the rank the
number of those below the own one, the slot target is floor(rank × P / N) and lies in 0..P−1, the lowest
identity of a view takes slot 0, and a station alone has target 0. -/
def Obligations.SlotTargetFromRank : Prop :=
  (∀ (m : StationMap) (i : Identity), lists m i = true ↔ m.toNat / 2 ^ i.val % 2 = 1) ∧
  (∀ (m : StationMap) (own : Identity) (listed below : List Identity), listed.Nodup → below.Nodup →
    (∀ i, i ∈ listed ↔ lists m i = true) → (∀ i, i ∈ below ↔ lists m i = true ∧ i < own) →
    countOf m = listed.length ∧ rankIn m own = below.length) ∧
  ∀ (p : Nat) (m : StationMap) (own : Identity), 0 < p → lists m own = true →
    1 ≤ countOf m ∧ countOf m ≤ 16 ∧ rankIn m own < countOf m ∧
    slotTarget p m own = rankIn m own * p / countOf m ∧ slotTarget p m own < p ∧
    (rankIn m own = 0 ↔ ∀ i : Identity, lists m i = true → own ≤ i) ∧
    (rankIn m own = 0 → slotTarget p m own = 0) ∧ slotTarget p (ownMap own) own = 0

/-- The slot step of a boundary is the wrapped difference of the target minus o, clamped to SlotStep,
where ACQUIRE, LOCKED or HOLDOVER ended the cycle, and 0 elsewhere; it is 0 exactly when o is already
at the target. -/
def Obligations.SlotStepTowardTheTarget : Prop :=
  ∀ s : State,
    (s.seq.sync.grouped = true →
      s.slotStep = max (-(s.cfg.slotStep : Int)) (min (s.cfg.slotStep : Int)
        (wrapped s.cfg.period ((s.view.target : Int) - s.carrier.o))) ∧
      -(s.cfg.slotStep : Int) ≤ s.slotStep ∧ s.slotStep ≤ s.cfg.slotStep ∧
      (0 < s.cfg.period →
        -(s.cfg.period : Int) ≤ 2 * wrapped s.cfg.period ((s.view.target : Int) - s.carrier.o) ∧
        2 * wrapped s.cfg.period ((s.view.target : Int) - s.carrier.o) < s.cfg.period) ∧
      (1 ≤ s.cfg.slotStep → s.view.target < s.cfg.period → s.carrier.o < s.cfg.period →
        (s.slotStep = 0 ↔ s.carrier.o = s.view.target))) ∧
    (s.seq.sync.grouped = false → s.slotStep = 0) ∧
    (s.boundaryDue = true → ∃ t, exec .cycleBoundary s = .next t ∧
      t.carrier.o = reduce s.cfg.period (s.carrier.o + s.slotStep) ∧
      t.carrier.pc = ((s.cfg.period : Int) - s.phaseStep + s.slotStep).toNat)

/-- A slew reaches its target after ceil(d / SlotStep) boundaries and not before, d being the magnitude
of the wrapped difference at its start, and stays there. Each boundary that ACQUIRE, LOCKED or HOLDOVER
ended moves o by one step of the slew toward the target as it stood when the cycle ended. -/
def Obligations.SlewReachesItsTarget : Prop :=
  (∀ (p slotStep target o n : Nat), target < p → o < p → 1 ≤ slotStep → 2 * slotStep < p →
    (let d := (wrapped p ((target : Int) - o)).natAbs
     (slew p slotStep target o n = target ↔ (d + slotStep - 1) / slotStep ≤ n) ∧
     slew p slotStep target o n < p)) ∧
  (∀ s : State, s.boundaryDue = true →
    s.seq.sync = .acquire ∨ s.seq.sync = .locked ∨ s.seq.sync = .holdover →
    ∃ t, exec .cycleBoundary s = .next t ∧
      t.carrier.o = slewOnce s.cfg.period s.cfg.slotStep s.view.target s.carrier.o ∧
      t.cfg = s.cfg)

/-- At a boundary that ACQUIRE or LOCKED ended, the settle counter rises by one, not above 15, when
every member's last member map and the previous own map equal the own map, and returns to 0
otherwise; at SettleCount or more with a differing map the own member map is adopted, with its
target and VIEW_ADOPTED. VIEW_ADOPTION is a boundary that adopts. Elsewhere no view is adopted. That
VIEW_ADOPTION is the whole boundary is the model's choice (assumption 6). -/
def Obligations.BoundarySettlesAndAdopts : Prop :=
  ∀ s : State, s.boundaryDue = true →
    (s.seq.sync = .acquire ∨ s.seq.sync = .locked →
      ∀ settle : Nat,
        ((∀ i : Identity, s.roster[i].presence = .member →
            ∃ b, s.roster[i].last = some b ∧ b.memberMap = s.memberMap) ∧
            s.view.previous = s.memberMap → settle = min 15 (s.view.settle + 1)) →
        (¬ ((∀ i : Identity, s.roster[i].presence = .member →
            ∃ b, s.roster[i].last = some b ∧ b.memberMap = s.memberMap) ∧
            s.view.previous = s.memberMap) → settle = 0) →
        ∃ t, exec .cycleBoundary s = .next t ∧ t.view.settle = settle ∧
        t.view.previous = s.memberMap ∧
        (s.cfg.settleCount ≤ settle ∧ s.memberMap ≠ s.view.adopted →
          exec .viewAdoption s = .next t ∧ t.view.adopted = s.memberMap ∧
          t.view.target = slotTarget s.cfg.period s.memberMap s.own ∧
          (s.boundaryEvents.length + s.events.length ≤ 8 →
            ⟨.viewAdopted, none, BitVec.ofNat 8 (countOf s.memberMap), s.carrier.cycle + 1, false⟩
              ∈ t.events.map EventRecord.unflagged)) ∧
        (¬ (s.cfg.settleCount ≤ settle ∧ s.memberMap ≠ s.view.adopted) →
          t.view.adopted = s.view.adopted ∧ t.view.target = s.view.target)) ∧
    (s.seq.sync ≠ .acquire → s.seq.sync ≠ .locked →
      ∃ t, exec .cycleBoundary s = .next t ∧ t.view.adopted = s.view.adopted ∧
        t.view.target = s.view.target ∧ t.view.previous = s.memberMap ∧
        t.view.settle = (if s.seq.sync = .listen ∨ s.seq.sync = .join then 0 else s.view.settle))

/-- The view stays sound in every step: the own identity in the adopted view and the previous member
map, the settle counter at most 15, and the target that of the adopted view. -/
def Obligations.StepKeepsTheView : Prop := Keeps ViewInv

/-! ### The phase servo (Chapter 7) -/

/-- The mean error is the sum of the usable errors divided by k + 1, truncated toward zero; it is 0
without a usable record, depends on neither the other records nor the order, and stays in the range of
a wrapped difference. A boundary that ACQUIRE or LOCKED ended records it. -/
def Obligations.MeanErrorOfTheUsableRecords : Prop :=
  (∀ log : List ArrivalRecord,
    meanError log = Int.tdiv ((log.filter (·.usable)).map (·.error)).sum
      ((log.filter (·.usable)).length + 1) ∧
    (log.filter (·.usable) = [] → meanError log = 0) ∧
    (∀ other, (log.filter (·.usable)).Perm (other.filter (·.usable)) →
      meanError other = meanError log) ∧
    (∀ p : Nat, 0 < p → logInRange p log →
      -(p : Int) ≤ 2 * meanError log ∧ 2 * meanError log < p)) ∧
  (∀ s : State, s.boundaryDue = true → s.seq.sync = .acquire ∨ s.seq.sync = .locked →
    ∃ t, exec .cycleBoundary s = .next t ∧ t.servo.meanError = meanError s.log)

/-- An ordinary ACQUIRE boundary that does not reach lock, for it does not count toward lock or its count
stays below LockCount: integrator, trim and clamped step from the mean error, and the lock counter raised
when every condition of R114 holds and set to 0 otherwise. -/
def Obligations.AcquireBoundaryWorksTheServo : Prop :=
  ∀ s : State, s.boundaryDue = true → s.seq.sync = .acquire →
    (s.servo.captureDone = true ∨ ∀ r ∈ s.log, ¬ (r.usable = true ∧ r.state = .locked)) →
    1 ≤ s.cfg.lockCount →
    (CountsTowardLock s → min 255 (s.servo.lock + 1) < s.cfg.lockCount) →
    (let e := meanError s.log
     let integ := clampTo s.cfg.trimMax (s.servo.integ + Int.tdiv (s.cfg.ki * e) 256)
     ∃ t, exec .cycleBoundary s = .next t ∧ t.seq = s.seq ∧
       t.servo.integ = integ ∧
       t.servo.trim = clampTo s.cfg.trimMax (Int.tdiv (s.cfg.kp * e) 16 + integ) ∧
       t.servo.lastStep = clampTo s.cfg.acqStep e ∧ t.servo.meanError = e ∧
       t.servo.captureDone = s.servo.captureDone ∧ t.servo.unlock = s.servo.unlock ∧
       (CountsTowardLock s → t.servo.lock = min 255 (s.servo.lock + 1)) ∧
       (¬ CountsTowardLock s → t.servo.lock = 0))

/-- A boundary that ACQUIRE ended with the capture-done flag clear and a usable LOCKED record in the
log applies the stored error of the one with the lowest identity, unclamped, keeps integrator and trim,
sets the flag and the lock counter to 0, and does not lock. -/
def Obligations.CoarseCaptureStepsOnce : Prop :=
  ∀ (s : State) (r : ArrivalRecord), s.boundaryDue = true → s.seq.sync = .acquire →
    s.servo.captureDone = false → RosterInv s → 1 ≤ s.cfg.lockCount →
    r ∈ s.log → r.usable = true → r.state = .locked →
    (∀ x ∈ s.log, x.usable = true → x.state = .locked → r.sender ≤ x.sender) →
    ∃ t, exec .cycleBoundary s = .next t ∧ t.seq = s.seq ∧
      t.servo = { s.servo with
        meanError := meanError s.log, lastStep := r.error, captureDone := true, lock := 0 } ∧
      t.carrier.g = reduce s.cfg.period (s.carrier.g + r.error) ∧
      t.carrier.stepTotal = reduce s.cfg.period (s.carrier.stepTotal + r.error)

/-- A LOCKED boundary that does not reach unlock works integrator, trim and a step clamped to FineStep,
and counts toward unlock when the mean error is outside UnlockWindow. A boundary that any other state
than ACQUIRE and LOCKED ended records 0 and 0, keeps integrator and trim and gives no step. -/
def Obligations.LockedAndIdleServoWork : Prop :=
  ∀ s : State, s.boundaryDue = true →
    (s.seq.sync = .locked → s.nextUnlock < s.cfg.lockCount →
      (let e := meanError s.log
       let integ := clampTo s.cfg.trimMax (s.servo.integ + Int.tdiv (s.cfg.ki * e) 256)
       ∃ t, exec .cycleBoundary s = .next t ∧ t.seq = s.seq ∧
         t.servo = { s.servo with
           integ := integ
           trim := clampTo s.cfg.trimMax (Int.tdiv (s.cfg.kp * e) 16 + integ)
           meanError := e
           lastStep := clampTo s.cfg.fineStep e
           unlock := if s.cfg.unlockWindow < e.natAbs then min 255 (s.servo.unlock + 1) else 0 })) ∧
    (s.seq.sync ≠ .acquire → s.seq.sync ≠ .locked →
      ∃ t, exec .cycleBoundary s = .next t ∧ t.servo.meanError = 0 ∧ t.servo.lastStep = 0 ∧
        t.servo.integ = s.servo.integ ∧ t.servo.trim = s.servo.trim ∧
        t.servo.captureDone = s.servo.captureDone ∧ s.phaseStep = 0)

/-- Lock reached: the boundary that counts toward lock by every condition of R114, and brings the lock
counter to LockCount or above, takes the station to LOCKED with permission, both lock counters 0, the
capture-done flag set, integrator, trim and step as computed under ACQUIRE, roster and view worked as at
any boundary, and LOCK_GAINED with N of the view as the boundary leaves it; an ARMED generator
starts. That LOCK_REACHED is the whole boundary is the model's choice (assumption 6). -/
def Obligations.LockReachedGrantsPermission : Prop :=
  ∀ s : State, s.boundaryDue = true → s.seq.sync = .acquire → CountsTowardLock s →
    s.cfg.lockCount ≤ min 255 (s.servo.lock + 1) →
    ∃ t, exec .lockReached s = .next t ∧ exec .cycleBoundary s = .next t ∧
      t.seq = { s.seq with sync := .locked, permission := true } ∧
      (let e := meanError s.log
       let integ := clampTo s.cfg.trimMax (s.servo.integ + Int.tdiv (s.cfg.ki * e) 256)
       t.servo = ⟨integ, clampTo s.cfg.trimMax (Int.tdiv (s.cfg.kp * e) 16 + integ), e,
         clampTo s.cfg.acqStep e, true, 0, 0⟩) ∧
      MeasuredBoundary s t ∧
      (s.gate.state = .armed → t.gate.state = .running) ∧
      (s.gate.state = .off ∨ s.gate.state = .tripped → t.gate.state = s.gate.state) ∧
      (s.boundaryEvents.length + s.events.length ≤ 8 →
        ⟨.lockGained, none, BitVec.ofNat 8 (countOf t.view.adopted), s.carrier.cycle + 1, false⟩
          ∈ t.events.map EventRecord.unflagged)

/-- Unlock reached: the boundary at which the unlock counter, raised because the mean error is outside
UnlockWindow, stands at LockCount or above returns the station to ACQUIRE, withdraws permission, sets
both lock counters to 0, leaves integrator, trim and step as worked under LOCKED and the capture-done
flag as it stood, works roster and view as at any boundary, stops a running stage and raises LOCK_LOST
with the magnitude of the mean error, at most 255. That UNLOCK_REACHED is the whole boundary is the model's choice (assumption 6). -/
def Obligations.UnlockReachedWithdrawsPermission : Prop :=
  ∀ s : State, s.boundaryDue = true → s.seq.sync = .locked →
    s.cfg.lockCount ≤ (if s.cfg.unlockWindow < (meanError s.log).natAbs then
      min 255 (s.servo.unlock + 1) else 0) →
    ∃ t, exec .unlockReached s = .next t ∧ exec .cycleBoundary s = .next t ∧
      t.seq = { s.seq with sync := .acquire, permission := false } ∧
      (let e := meanError s.log
       let integ := clampTo s.cfg.trimMax (s.servo.integ + Int.tdiv (s.cfg.ki * e) 256)
       t.servo = ⟨integ, clampTo s.cfg.trimMax (Int.tdiv (s.cfg.kp * e) 16 + integ), e,
         clampTo s.cfg.fineStep e, s.servo.captureDone, 0, 0⟩) ∧
      MeasuredBoundary s t ∧
      (s.gate.state ≠ .running → t.gate.state = s.gate.state) ∧
      (s.gate.state = .running → t.gate.state = .armed ∧ t.gate.hi = false ∧ t.gate.lo = false) ∧
      (s.boundaryEvents.length + s.events.length ≤ 8 →
        ⟨.lockLost, none, BitVec.ofNat 8 (min (meanError s.log).natAbs 255), s.carrier.cycle + 1,
          false⟩ ∈ t.events.map EventRecord.unflagged)

/-! ### Station sequence (Chapter 8) -/

/-- At a boundary that LISTEN ended the listen count rises; when it reaches ListenCycles the station
enters JOIN and offers its CLAIM, and before that it stays in LISTEN. That LISTEN_COMPLETE is the
whole boundary is the model's choice (assumption 6). -/
def Obligations.ListenCompletesIntoJoin : Prop :=
  ∀ s : State, s.boundaryDue = true → s.seq.sync = .listen →
    (s.cfg.listenCycles ≤ s.seq.listen + 1 → s.tx.queue.leave = false →
      ∃ t, exec .listenComplete s = .next t ∧ exec .cycleBoundary s = .next t ∧
        t.seq = { s.seq with sync := .join, listen := s.seq.listen + 1 } ∧
        t.tx.queue = { s.tx.queue with claim := true } ∧
        t.servo.lock = 0 ∧ t.servo.unlock = 0 ∧ t.view.settle = 0) ∧
    (s.seq.listen + 1 < s.cfg.listenCycles →
      ∃ t, exec .cycleBoundary s = .next t ∧
        t.seq = { s.seq with listen := s.seq.listen + 1 } ∧ t.tx.queue = s.tx.queue)

/-- A boundary that HOLDOVER ended: a clean one returns the station to ACQUIRE with LINK_UP; one
that is not clean counts, and at HoldoverMax sets the expired flag, withdraws permission and raises
HOLDOVER_EXPIRED once. That HOLDOVER_EXPIRY is the whole boundary is the model's choice (assumption
6), and so is a count above HoldoverMax, which expires as one at it does (assumption 16). -/
def Obligations.HoldoverBoundary : Prop :=
  ∀ s : State, s.boundaryDue = true → s.seq.sync = .holdover →
    (s.tx.linkErr = 0 → s.tx.beaconSent = true →
      ∃ t, exec .cycleBoundary s = .next t ∧
        t.seq = { s.seq with
          sync := .acquire, holdover := 0, expired := false, permission := false } ∧
        t.servo.lock = 0 ∧ t.servo.unlock = 0 ∧ t.servo.trim = s.servo.trim ∧
        t.servo.integ = s.servo.integ ∧ t.view.adopted = s.view.adopted ∧
        (s.events.length < 8 → ⟨.linkUp, none, BitVec.ofNat 8 (min s.seq.holdover 255),
          s.carrier.cycle + 1, false⟩ ∈ t.events)) ∧
    (¬ (s.tx.linkErr = 0 ∧ s.tx.beaconSent = true) → s.seq.expired = false →
      s.cfg.holdoverMax ≤ min 65535 (s.seq.holdover + 1) →
      ∃ t, exec .holdoverExpiry s = .next t ∧ exec .cycleBoundary s = .next t ∧
        t.seq = { s.seq with
          holdover := min 65535 (s.seq.holdover + 1), expired := true, permission := false } ∧
        (s.gate.state = .running → t.gate.state = .armed ∧ t.gate.hi = false ∧ t.gate.lo = false) ∧
        (s.events.length < 8 → ⟨.holdoverExpired, none, 0, s.carrier.cycle + 1, false⟩ ∈ t.events)) ∧
    (¬ (s.tx.linkErr = 0 ∧ s.tx.beaconSent = true) →
      s.seq.expired = true ∨ min 65535 (s.seq.holdover + 1) < s.cfg.holdoverMax →
      ∃ t, exec .cycleBoundary s = .next t ∧
        t.seq = { s.seq with holdover := min 65535 (s.seq.holdover + 1) } ∧ t.events = s.events)

/-- DETACH by the sync state, as its table gives it. -/
def Obligations.DetachByState : Prop :=
  ∀ s : State,
    (s.seq.sync = .load → ∃ t, exec .detach s = .next t ∧ Answered s t 0x18 0 .notReady []) ∧
    (∀ reason, s.seq.sync = .blocked reason →
      ∃ t, exec .detach s = .next t ∧ Answered s t 0x18 0 .refusedState []) ∧
    (s.seq.sync = .parked → ∃ t, exec .detach s = .next t ∧ Answered s t 0x18 0 .already []) ∧
    (s.seq.sync = .listen ∨ s.seq.sync = .join →
      ∃ u t, exec .detach s = .next t ∧ Answered u t 0x18 0 .done [] ∧
        u.seq = ⟨.parked, 0, 0, false, false⟩ ∧ Cleared u ∧
        u.events = offerEvent s.events ⟨.parked, none, 0, s.carrier.cycle, false⟩ ∧
        u.tx = { s.tx with queue := TxQueue.empty } ∧ ClearingFrame s u ∧
        u.line = s.line ∧ u.pins = s.pins ∧ u.free = s.free) ∧
    (s.seq.sync.grouped = true → s.tx.queue.leave = true →
      ∃ t, exec .detach s = .next t ∧ Answered s t 0x18 0 .already []) ∧
    (s.seq.sync.grouped = true → s.tx.queue.leave = false → s.tx.linkErr < s.cfg.linkErrLimit →
      ∃ t, exec .detach s = .next t ∧ Answered
        { s with tx := { s.tx with queue := ⟨s.tx.queue.fault, true, false, false⟩ } } t
        0x18 0 .done []) ∧
    (s.seq.sync = .holdover → s.tx.queue.leave = false → s.cfg.linkErrLimit ≤ s.tx.linkErr →
      ∃ u t, exec .detach s = .next t ∧ Answered u t 0x18 0 .done [] ∧
        u.seq = ⟨.parked, 0, 0, false, false⟩ ∧ Cleared u ∧
        u.events = offerEvent s.events ⟨.parked, none, 2, s.carrier.cycle, false⟩ ∧
        u.tx = { s.tx with queue := TxQueue.empty } ∧ ClearingFrame s u ∧
        u.line = s.line ∧ u.pins = s.pins ∧ u.free = s.free)

/-- ATTACH by the sync state, as its table gives it; the entry to LISTEN clears, and a pending LEAVE is
not cancelled. -/
def Obligations.AttachByState : Prop :=
  ∀ s : State,
    (s.seq.sync = .load → ∃ t, exec .attach s = .next t ∧ Answered s t 0x19 0 .notReady []) ∧
    (s.seq.sync.configBlocked = true →
      ∃ t, exec .attach s = .next t ∧ Answered s t 0x19 0 .refusedState []) ∧
    (s.seq.sync = .parked ∨ s.seq.sync = .blocked .idConflict →
      ∃ u t, exec .attach s = .next t ∧ Answered u t 0x19 0 .done [] ∧
        u.seq = ⟨.listen, 0, 0, false, false⟩ ∧ Cleared u ∧
        u.tx = { s.tx with queue := TxQueue.empty, linkErr := 0 } ∧ ClearingFrame s u ∧
        u.events = s.events ∧ u.line = s.line ∧ u.pins = s.pins ∧ u.free = s.free) ∧
    (s.seq.sync.actsOnPeers = true →
      ∃ t, exec .attach s = .next t ∧ Answered s t 0x19 0 .already [])

/-- A command moves the sync state only along the edges the manual gives and only as it gives them for
each: LOAD is entered by device reset alone and left by the end of a read attempt alone, LOCKED is
entered at boundaries alone, HOLDOVER on a link error alone, and so on. -/
def Obligations.SyncStateMovesAsGiven : Prop :=
  ∀ (c : Instr) (s t : State), ConfigInv s → exec c s = .next t → t.seq.sync ≠ s.seq.sync →
    syncMove c s.seq.sync t.seq.sync = true

/-! ### Gate generation (Chapter 9) -/

/-- At a boundary the active duty takes the pending duty, an ARMED generator starts exactly when
permission holds as the boundary leaves it, a RUNNING one whose permission is gone becomes ARMED with
both outputs inactive, and OFF and TRIPPED stay. -/
def Obligations.BoundaryRunsTheGates : Prop :=
  ∀ s : State, s.boundaryDue = true →
    ∃ t, exec .cycleBoundary s = .next t ∧
      t.gate.activeDuty = s.gate.pendingDuty ∧ t.gate.pendingDuty = s.gate.pendingDuty ∧
      t.gate.hiPrev = s.gate.hiPrev ∧ t.gate.loPrev = s.gate.loPrev ∧
      (s.gate.state = .off ∨ s.gate.state = .tripped → t.gate.state = s.gate.state) ∧
      (s.gate.state = .armed ∨ s.gate.state = .running →
        t.gate.state = if t.seq.permission then .running else .armed) ∧
      (t.gate.state ≠ .running → t.gate.hi = false ∧ t.gate.lo = false) ∧
      (t.gate.hi = true → s.cfg.deadBand ≤ t.carrier.c ∧ t.carrier.c < s.gate.pendingDuty) ∧
      (t.gate.lo = true →
        s.gate.pendingDuty + s.cfg.deadBand ≤ t.carrier.c ∧ t.carrier.c < t.carrier.pc)

/-- START arms an OFF generator and changes nothing else; STOP takes an ARMED or RUNNING one to OFF
with both outputs inactive; each answers ALREADY where the state asked for holds and REFUSED_TRIP in
TRIPPED. -/
def Obligations.StartAndStop : Prop :=
  ∀ s : State, s.seq.sync ≠ .load → s.seq.sync.configBlocked = false →
    (s.gate.state = .off → ∃ t, exec .start s = .next t ∧
      Answered { s with gate := { s.gate with state := .armed } } t 0x11 0 .done []) ∧
    (s.gate.state = .armed ∨ s.gate.state = .running →
      ∃ t, exec .start s = .next t ∧ Answered s t 0x11 0 .already []) ∧
    (s.gate.state = .tripped →
      ∃ t, exec .start s = .next t ∧ Answered s t 0x11 0 .refusedTrip []) ∧
    (s.gate.state = .armed ∨ s.gate.state = .running → ∃ t, exec .stop s = .next t ∧
      Answered { s with gate := { s.gate with state := .off, hi := false, lo := false } } t
        0x12 0 .done []) ∧
    (s.gate.state = .off → ∃ t, exec .stop s = .next t ∧ Answered s t 0x12 0 .already []) ∧
    (s.gate.state = .tripped →
      ∃ t, exec .stop s = .next t ∧ Answered s t 0x12 0 .refusedTrip [])

/-- DUTY sets the pending duty, brought into DutyMin..DutyMax, answers DONE or CLAMPED with the value
as set, and leaves the active duty and everything else alone. LOAD answers NOT_READY, BLOCKED with a
CONFIG reason REFUSED_STATE. -/
def Obligations.DutySetsThePendingDuty : Prop :=
  ∀ (s : State) (v : BitVec 16),
    (s.seq.sync = .load → ∃ t, exec (.duty v) s = .next t ∧ Answered s t 0x10 v .notReady []) ∧
    (s.seq.sync.configBlocked = true →
      ∃ t, exec (.duty v) s = .next t ∧ Answered s t 0x10 v .refusedState []) ∧
    (s.seq.sync ≠ .load → s.seq.sync.configBlocked = false → s.cfg.dutyMin ≤ s.cfg.dutyMax →
    ∃ t d, exec (.duty v) s = .next t ∧
      Answered { s with gate := { s.gate with pendingDuty := d } } t 0x10 v
        (if v.toNat < s.cfg.dutyMin ∨ s.cfg.dutyMax < v.toNat then .clamped else .done)
        [(BitVec.ofNat 16 d).extractLsb' 8 8, (BitVec.ofNat 16 d).extractLsb' 0 8] ∧
      (v.toNat < s.cfg.dutyMin → d = s.cfg.dutyMin) ∧
      (s.cfg.dutyMax < v.toNat → d = s.cfg.dutyMax) ∧
      (s.cfg.dutyMin ≤ v.toNat → v.toNat ≤ s.cfg.dutyMax → d = v.toNat))

/-- Every change of the gate state by a command is one that the manual gives: TRIPPED is entered by a fault (the TRIP
pin, TRIP, a FAULT received with GroupTrip) and left to OFF by CLEAR or device reset; RUNNING is entered
from ARMED by a boundary that is due and leaves permission granted; ARMED is entered from OFF by START
and from RUNNING where permission is withdrawn; OFF is entered by STOP from ARMED or RUNNING, by CLEAR
from TRIPPED and by device reset. LOAD_START makes the fault of a pin that is active as reset ends
(assumption 17). -/
def Obligations.GateStateMovesAsGiven : Prop :=
  ∀ (c : Instr) (s t : State), exec c s = .next t → t.gate.state ≠ s.gate.state →
    (match t.gate.state with
      | .tripped => t.gate.hi = false ∧ t.gate.lo = false ∧
          (c = .tripPinAssert ∨ c = .trip ∨ (c = .loadStart ∧ s.pins.trip = true) ∨
            ((∃ sender cause, c = .rxFault sender cause) ∧ s.cfg.groupTrip = true ∧
              s.seq.sync.transmits = true))
      | .running => isBoundaryCommand c = true ∧ s.boundaryDue = true ∧ s.gate.state = .armed ∧
          t.seq.permission = true
      | .armed => (s.gate.state = .running ∧ t.gate.hi = false ∧ t.gate.lo = false ∧
            t.seq.permission = false) ∨ (c = .start ∧ s.gate.state = .off)
      | .off => t.gate.hi = false ∧ t.gate.lo = false ∧
          (c = .deviceReset ∨ (c = .clear ∧ s.gate.state = .tripped) ∨
            (c = .stop ∧ (s.gate.state = .armed ∨ s.gate.state = .running)))) ∧
    (s.gate.state = .tripped → c = .clear ∨ c = .deviceReset) ∧
    (s.gate.state = .off → t.gate.state = .armed → c = .start)

/-- Gates and faults stay sound in every step: permission follows the sync state, only a permitted
generator runs and only a running one drives an output, HI and LO are never active together, the fault
record has a cause exactly while TRIPPED, and an active TRIP pin holds the stage TRIPPED. -/
def Obligations.StepKeepsGatesAndFaults : Prop := Keeps GateInv

/-- Every cycle under RUNNING lasts at least 7P/8 and at most 9P/8 counts and has room for the active
duty and a dead band, and both duties stay in DutyMin..DutyMax, in every step. -/
def Obligations.StepKeepsRunningCycles : Prop := Keeps RunningInv

/-! ### Faults and group trip (Chapter 10) -/

/-- An assertion of the TRIP pin after reset is one local fault: it trips the stage and fills the
record, or raises the repeat count of a stage that is tripped; it raises FAULT_LOCAL except in LOAD and
offers a FAULT in JOIN, ACQUIRE, LOCKED and HOLDOVER. A pin that stays active makes no further fault,
and its release makes none. -/
def Obligations.TripPinIsALocalFault : Prop :=
  ∀ s : State, s.loader.phase ≠ .held →
    (s.fault.pin = false → exec .tripPinAssert s = .next
      { s with
        pins := { s.pins with trip := true }
        gate :=
          if s.gate.state = .tripped then s.gate
          else { s.gate with state := .tripped, hi := false, lo := false }
        fault :=
          if s.gate.state = .tripped then
            { s.fault with pin := true, repeats := min 15 (s.fault.repeats + 1) }
          else ⟨.pin, s.carrier.cycle, 0, true⟩
        events :=
          if s.seq.sync = .load then s.events
          else offerEvent s.events ⟨.faultLocal, none, 1, s.carrier.cycle, false⟩
        tx :=
          if s.seq.sync.transmits then
            { s.tx with queue := { s.tx.queue with fault := some (s.tx.queue.fault.getD .pin) } }
          else s.tx }) ∧
    (s.fault.pin = true → exec .tripPinAssert s = .next
      { s with pins := { s.pins with trip := true } }) ∧
    exec .tripPinRelease s = .next
      { s with pins := { s.pins with trip := false }, fault := { s.fault with pin := false } }

/-- A valid foreign FAULT of another station: in JOIN, ACQUIRE, LOCKED and HOLDOVER it raises
FAULT_REMOTE and, with GroupTrip set, trips the stage with cause REMOTE and its sender or raises the
repeat count; it marks an ABSENT sender HEARD in LISTEN as well, offers nothing to the queue, and does
nothing in the other states. -/
def Obligations.RemoteFaultTripsWithGroupTrip : Prop :=
  ∀ (s : State) (sender : Identity) (cause : LocalCause) (r : RxRecord),
    Receiving s ⟨sender, .fault cause⟩ r → sender ≠ s.own →
    exec (.rxFault sender cause) s = .next
      { s.afterValidFrame ⟨sender, .fault cause⟩ with
        roster :=
          if s.seq.sync.actsOnPeers then
            s.roster.set sender.val { s.roster[sender] with
              presence := if s.roster[sender].presence = .absent then .heard
                else s.roster[sender].presence
              flag := true
              misses := 0 }
          else s.roster
        gate :=
          if s.seq.sync.transmits = true ∧ s.cfg.groupTrip = true ∧ s.gate.state ≠ .tripped then
            { s.gate with state := .tripped, hi := false, lo := false } else s.gate
        fault :=
          if s.seq.sync.transmits = true ∧ s.cfg.groupTrip = true then
            if s.gate.state = .tripped then
              { s.fault with repeats := min 15 (s.fault.repeats + 1) }
            else { s.fault with cause := .remote sender, stamp := s.carrier.cycle, repeats := 0 }
          else s.fault
        events :=
          if s.seq.sync.transmits then
            offerEvent s.events ⟨.faultRemote, some sender, cause.code.setWidth 8, s.carrier.cycle,
              false⟩
          else s.events }

/-- TRIP is a local fault with cause COMMAND, answered DONE in every gate state. CLEAR takes a TRIPPED
stage to OFF with an empty record when the TRIP pin is inactive, is refused while it is active, and
answers ALREADY elsewhere. In LOAD both are answered NOT_READY, in BLOCKED with a CONFIG reason
REFUSED_STATE. -/
def Obligations.TripAndClear : Prop :=
  ∀ s : State,
    (s.seq.sync = .load →
      (∃ t, exec .trip s = .next t ∧ Answered s t 0x13 0 .notReady []) ∧
      ∃ t, exec .clear s = .next t ∧ Answered s t 0x14 0 .notReady []) ∧
    (s.seq.sync.configBlocked = true →
      (∃ t, exec .trip s = .next t ∧ Answered s t 0x13 0 .refusedState []) ∧
      ∃ t, exec .clear s = .next t ∧ Answered s t 0x14 0 .refusedState []) ∧
    (s.seq.sync ≠ .load → s.seq.sync.configBlocked = false →
    (∃ t, exec .trip s = .next t ∧ Answered
      { s with
        gate :=
          if s.gate.state = .tripped then s.gate
          else { s.gate with state := .tripped, hi := false, lo := false }
        fault :=
          if s.gate.state = .tripped then
            { s.fault with repeats := min 15 (s.fault.repeats + 1) }
          else ⟨.command, s.carrier.cycle, 0, s.fault.pin⟩
        events := offerEvent s.events ⟨.faultLocal, none, 2, s.carrier.cycle, false⟩
        tx :=
          if s.seq.sync.transmits then
            { s.tx with queue :=
              { s.tx.queue with fault := some (s.tx.queue.fault.getD .command) } }
          else s.tx } t 0x13 0 .done []) ∧
    (s.gate.state = .tripped → s.fault.pin = false → ∃ t, exec .clear s = .next t ∧ Answered
      { s with
        gate := { s.gate with state := .off, hi := false, lo := false }
        fault := ⟨.none, 0, 0, false⟩ } t 0x14 0 .done []) ∧
    (s.gate.state = .tripped → s.fault.pin = true →
      ∃ t, exec .clear s = .next t ∧ Answered s t 0x14 0 .refusedTrip []) ∧
    (s.gate.state ≠ .tripped → ∃ t, exec .clear s = .next t ∧ Answered s t 0x14 0 .already []))

/-! ### The local port and the event queue (Chapter 11) -/

/-- In LOAD every request is answered NOT_READY; elsewhere a code that is no request is answered
UNKNOWN; in BLOCKED with a CONFIG reason every request but STATUS and EVENT is answered REFUSED_STATE;
none of these answers carries a response or has an effect. -/
def Obligations.RefusalsComeInOrder : Prop :=
  ∀ (s : State) (code : Byte) (args : BitVec 16),
    (s.seq.sync = .load →
      (requestCodes.contains code = true → argumentBytes code = 2 ∨ args.toNat < 256 →
        ∃ t, exec (decodeRequest code args) s = .next t ∧
          Answered s t code (if argumentBytes code = 0 then 0 else args) .notReady []) ∧
      (requestCodes.contains code = false →
        ∃ t, exec (decodeRequest code args) s = .next t ∧ Answered s t code 0 .notReady [])) ∧
    (s.seq.sync ≠ .load → requestCodes.contains code = false →
      ∃ t, exec (.unknownRequest code) s = .next t ∧ Answered s t code 0 .unknown []) ∧
    (s.seq.sync.configBlocked = true → requestCodes.contains code = true → code ≠ 0x01 →
      code ≠ 0x05 → argumentBytes code = 2 ∨ args.toNat < 256 →
      ∃ t, exec (decodeRequest code args) s = .next t ∧
        Answered s t code (if argumentBytes code = 0 then 0 else args) .refusedState [])

/-- STATUS and SERVO answer DONE with a record whose fields read as the state stands, byte by byte as
the layout tables place them, in the codes of 11.5, and change nothing. In BLOCKED with a CONFIG reason the STATUS fields of
the blocks that never started read 0. -/
def Obligations.StatusAndServoReport : Prop :=
  ∀ s : State, s.seq.sync ≠ .load →
    (∃ t r, exec .status s = .next t ∧ Answered s t 0x01 0 .done r ∧ r.length = 25 ∧
      r.getD 0 0 = (match s.seq.sync with
        | .load => 0
        | .blocked _ => 1
        | .parked => 2
        | .listen => 3
        | .join => 4
        | .acquire => 5
        | .locked => 6
        | .holdover => 7) ∧
      ((∀ reason, s.seq.sync ≠ .blocked reason) → r.getD 1 0 = 0) ∧
      (∀ reason, s.seq.sync = .blocked reason → r.getD 1 0 = (match reason with
        | .configNoMemory => 1
        | .configCheck => 2
        | .configValue => 3
        | .idConflict => 4)) ∧
      r.getD 2 0 = (match s.gate.state with
        | .off => 0
        | .armed => 1
        | .running => 2
        | .tripped => 3) ∧
      r.getD 13 0 = (match s.fault.cause with
        | .none => 0
        | .pin => 1
        | .command => 2
        | .remote _ => 3) ∧
      r.getD 14 0 = (match s.fault.cause with
        | .remote i => BitVec.ofNat 8 i.val
        | _ => 0xFF) ∧
      r.getD 15 0 = BitVec.ofNat 8 s.fault.repeats ∧
      r.getD 16 0 ++ r.getD 17 0 ++ r.getD 18 0 ++ r.getD 19 0 = s.fault.stamp ∧
      r.getD 20 0 = BitVec.ofNat 8 s.events.length ∧
      (s.seq.sync.configBlocked = false →
        r.getD 3 0 = BitVec.ofNat 8 (countOf s.view.adopted) ∧
        r.getD 4 0 = BitVec.ofNat 8 (rankIn s.view.adopted s.own) ∧
        r.getD 5 0 ++ r.getD 6 0 = s.view.adopted ∧ r.getD 7 0 ++ r.getD 8 0 = s.memberMap ∧
        r.getD 9 0 = BitVec.ofNat 8 s.tx.linkErr ∧ r.getD 10 0 = BitVec.ofNat 8 s.view.settle ∧
        r.getD 11 0 = BitVec.ofNat 8 s.servo.lock ∧ r.getD 12 0 = BitVec.ofNat 8 s.servo.unlock ∧
        r.getD 21 0 ++ r.getD 22 0 ++ r.getD 23 0 ++ r.getD 24 0 = s.carrier.cycle) ∧
      (s.seq.sync.configBlocked = true → ∀ n, 3 ≤ n ∧ n ≤ 12 ∨ 21 ≤ n → r.getD n 0 = 0)) ∧
    (s.seq.sync.configBlocked = false →
      ∃ t r, exec .servo s = .next t ∧ Answered s t 0x02 0 .done r ∧ r.length = 16 ∧
        r.getD 0 0 ++ r.getD 1 0 = BitVec.ofInt 16 s.servo.trim ∧
        r.getD 2 0 ++ r.getD 3 0 = BitVec.ofInt 16 s.servo.integ ∧
        r.getD 4 0 ++ r.getD 5 0 = BitVec.ofInt 16 s.servo.meanError ∧
        r.getD 6 0 ++ r.getD 7 0 = BitVec.ofInt 16 s.servo.lastStep ∧
        r.getD 8 0 ++ r.getD 9 0 = BitVec.ofNat 16 s.carrier.o ∧
        r.getD 10 0 ++ r.getD 11 0 = BitVec.ofNat 16 s.view.target ∧
        r.getD 12 0 ++ r.getD 13 0 ++ r.getD 14 0 = BitVec.ofNat 24 s.carrier.pc ∧
        r.getD 15 0 = (if s.servo.captureDone then 1 else 0))

/-- ROSTER answers DONE with the entry of the identity asked for, the published maps (the own identity
with the HEARD and MEMBER ones, and with the MEMBER ones) in SELF's place, and BAD_ARGUMENT above 15;
LOG answers DONE with the record at an index below the log's length and EMPTY with the length and the
cycle at any other. The codes are those of 11.5. Neither changes anything. -/
def Obligations.RosterAndLogReport : Prop :=
  ∀ (s : State) (arg : Byte), s.seq.sync ≠ .load → s.seq.sync.configBlocked = false →
    (16 ≤ arg.toNat →
      ∃ t, exec (.roster arg) s = .next t ∧ Answered s t 0x03 (arg.setWidth 16) .badArgument []) ∧
    (∀ i : Identity, arg.toNat = i.val →
      ∃ t r, exec (.roster arg) s = .next t ∧ Answered s t 0x03 (arg.setWidth 16) .done r ∧
        r.length = 12 ∧ r.getD 0 0 = arg ∧
        (i = s.own → r.getD 1 0 = 3 ∧ r.getD 2 0 = 0 ∧ r.getD 3 0 = 0 ∧ r.getD 4 0 = 2 ∧
          r.getD 5 0 = 0 ∧ r.getD 6 0 ++ r.getD 7 0 = s.heardMap ∧
          r.getD 8 0 ++ r.getD 9 0 = s.memberMap ∧ r.getD 10 0 = 0 ∧ r.getD 11 0 = 0 ∧
          ∀ j : Identity,
            (lists (r.getD 6 0 ++ r.getD 7 0) j = true ↔
              j = s.own ∨ s.roster[j].presence = .heard ∨ s.roster[j].presence = .member) ∧
            (lists (r.getD 8 0 ++ r.getD 9 0) j = true ↔
              j = s.own ∨ s.roster[j].presence = .member)) ∧
        (i ≠ s.own → r.getD 1 0 = (match s.roster[i].presence with
            | .absent => 0
            | .heard => 1
            | .member => 2
            | .self => 3) ∧
          r.getD 2 0 = (if s.roster[i].flag then 1 else 0) ∧
          r.getD 3 0 = BitVec.ofNat 8 s.roster[i].misses ∧
          (s.roster[i].last = none → ∀ n, 4 ≤ n → r.getD n 0 = 0) ∧
          (∀ b, s.roster[i].last = some b → r.getD 4 0 = 1 ∧
            r.getD 5 0 = (match b.state with
              | .acquire => 0
              | .locked => 1
              | .holdover => 2) ∧
            r.getD 6 0 ++ r.getD 7 0 = b.heardMap ∧ r.getD 8 0 ++ r.getD 9 0 = b.memberMap ∧
            r.getD 10 0 ++ r.getD 11 0 = BitVec.ofInt 16 b.error))) ∧
    (s.log.length ≤ arg.toNat →
      ∃ t r, exec (.log arg) s = .next t ∧ Answered s t 0x04 (arg.setWidth 16) .empty r ∧
        r.length = 5 ∧ r.getD 0 0 = BitVec.ofNat 8 s.log.length ∧
        r.getD 1 0 ++ r.getD 2 0 ++ r.getD 3 0 ++ r.getD 4 0 = s.carrier.cycle) ∧
    (∀ x, s.log[arg.toNat]? = some x →
      ∃ t r, exec (.log arg) s = .next t ∧ Answered s t 0x04 (arg.setWidth 16) .done r ∧
        r.length = 18 ∧ r.getD 0 0 = BitVec.ofNat 8 s.log.length ∧
        r.getD 1 0 ++ r.getD 2 0 ++ r.getD 3 0 ++ r.getD 4 0 = s.carrier.cycle ∧
        r.getD 5 0 = BitVec.ofNat 8 x.sender.val ∧
        r.getD 6 0 = (match x.state with
          | .acquire => 0
          | .locked => 1
          | .holdover => 2) ∧
        r.getD 7 0 ++ r.getD 8 0 = BitVec.ofNat 16 x.sentPhase ∧
        r.getD 9 0 ++ r.getD 10 0 = BitVec.ofNat 16 x.arrivalPhase ∧
        r.getD 11 0 ++ r.getD 12 0 = BitVec.ofInt 16 x.error ∧
        r.getD 13 0 ++ r.getD 14 0 = x.heardMap ∧ r.getD 15 0 ++ r.getD 16 0 = x.memberMap ∧
        (r.getD 17 0).getLsbD 0 = x.usable ∧ (r.getD 17 0).getLsbD 1 = x.crossBoundary ∧
        ∀ n, 2 ≤ n → (r.getD 17 0).getLsbD n = false)

/-- EVENT takes the oldest record from the queue, the others keeping their order and flags, and answers
it, its kind by the code table of 11.5, with the number left; on an empty queue it answers EMPTY with a length of 0. -/
def Obligations.EventTakesTheOldest : Prop :=
  ∀ s : State, s.seq.sync ≠ .load →
    (s.events = [] → ∃ t, exec .event s = .next t ∧ Answered s t 0x05 0 .empty [0]) ∧
    (∀ e rest, s.events = e :: rest →
      ∃ t r, exec .event s = .next t ∧ Answered { s with events := rest } t 0x05 0 .done r ∧
        r.length = 9 ∧ r.getD 0 0 = BitVec.ofNat 8 rest.length ∧
        r.getD 1 0 = (match e.kind with
          | .configLoaded => 1
          | .configBad => 2
          | .viewAdopted => 3
          | .peerMember => 4
          | .peerDropped => 5
          | .lockGained => 6
          | .lockLost => 7
          | .linkDown => 8
          | .linkUp => 9
          | .holdoverExpired => 10
          | .faultLocal => 11
          | .faultRemote => 12
          | .idConflict => 13
          | .periodMismatch => 14
          | .parked => 15) ∧
        r.getD 2 0 = (match e.subject with
          | some i => BitVec.ofNat 8 i.val
          | none => 0xFF) ∧
        r.getD 3 0 = e.detail ∧
        r.getD 4 0 ++ r.getD 5 0 ++ r.getD 6 0 ++ r.getD 7 0 = e.stamp ∧
        r.getD 8 0 = (if e.moreLost then 1 else 0))

/-- The release of LP_SEL ends the transaction, drops the bits and the answer of a request, makes LP_DO
0, and touches no other block: a request taken before keeps its effect. Tick by tick (a step on an empty
queue, assumption 3) an assertion starts a transaction at bit 0, a rising edge of LP_CLK takes LP_DI as
the next bit, the last bit of the code and its arguments takes the request, and a falling edge puts the
next bit of the status, by the code table of 11.2, and the response on LP_DO, after 0 up to the end of
the turnaround byte. A select that is active as reset ends starts none: the first tick after reset reads its
level alone (assumption 17). A tick that takes a request and has nothing else to do is the command that the
code and its arguments spell, taken on the state that the tick's counts leave, with the outputs HI and LO
decided after it. -/
def Obligations.SelectReleaseEndsTheTransaction : Prop :=
  (∀ s : State, exec .lpSelRelease s = .next
    { s with
      pins := { s.pins with lpSel := false }
      port := ⟨false, s.port.clkPrev, false, 0, 0, 0, none, false⟩ }) ∧
  (∀ (s : State) (code : Byte) (args : BitVec 16),
    exec (decodeRequest code args) s = .next (takeRequest code args s)) ∧
  (∀ x : StatusCode, x.code = (match x with
    | .done => 0x00
    | .already => 0x01
    | .clamped => 0x02
    | .empty => 0x03
    | .notReady => 0x80
    | .refusedState => 0x81
    | .refusedTrip => 0x82
    | .badArgument => 0x83
    | .unknown => 0x84)) ∧
  (∀ s : State, PortAlone s → s.pins.lpSel = true → s.port.selPrev = true → s.port.active = true →
    s.pins.lpClk = true → s.port.clkPrev = false → s.port.answer = none →
    (let n := s.port.bits
     let bit : Nat := if s.pins.lpDi then 1 else 0
     let code : Byte := if n < 8 then (s.port.code <<< 1) ||| BitVec.ofNat 8 bit else s.port.code
     let args : BitVec 16 :=
       if n < 8 then s.port.args else (s.port.args <<< 1) ||| BitVec.ofNat 16 bit
     n + 1 = 8 * (1 + argumentBytes code) →
     ∃ t u v, step s = .next t ∧ exec (decodeRequest code args) u = .next v ∧
       u = { s with
         carrier := { s.carrier with
           g := u.carrier.g, c := u.carrier.c, acc := u.carrier.acc, sync := u.carrier.sync
           syncAge := u.carrier.syncAge }
         gate := { s.gate with
           hi := u.gate.hi, lo := u.gate.lo, hiPrev := u.gate.hiPrev, loPrev := u.gate.loPrev }
         line := u.line, port := u.port } ∧
       (s.seq.sync.runs = true →
         u.carrier.c = s.carrier.c + (countsOf s.servo.trim s.carrier.acc).1) ∧
       t = { v with
         gate := { v.gate with hi := t.gate.hi, lo := t.gate.lo }
         line := t.line
         port := { v.port with selPrev := true, clkPrev := true } })) ∧
  (∀ s : State, s.pending = [] → s.pins.reset = false → s.loader.phase = .held →
    s.port.active = false → ∃ t, step s = .next t ∧
      t.port = { s.port with selPrev := s.pins.lpSel, clkPrev := s.pins.lpClk }) ∧
  (∀ s : State, s.pending = [] → s.pins.reset = false → s.loader.phase ≠ .held →
    ∃ t, step s = .next t ∧
    (s.pins.lpSel = true → s.port.selPrev = false → s.pins.lpClk = s.port.clkPrev →
      t.port = ⟨true, s.pins.lpClk, true, 0, 0, 0, none, false⟩) ∧
    (s.pins.lpSel = false → s.port.selPrev = true →
      t.port = ⟨false, s.pins.lpClk, false, 0, 0, 0, none, false⟩) ∧
    (s.pins.lpSel = false → s.port.selPrev = false →
      t.port = { s.port with clkPrev := s.pins.lpClk }) ∧
    (s.pins.lpSel = true → s.port.selPrev = true → s.pins.lpClk = s.port.clkPrev →
      t.port = s.port) ∧
    (s.pins.lpSel = true → s.port.selPrev = true → s.port.active = true →
      s.pins.lpClk = true → s.port.clkPrev = false →
      (let n := s.port.bits
       let bit : Nat := if s.pins.lpDi then 1 else 0
       let code : Byte := if n < 8 then (s.port.code <<< 1) ||| BitVec.ofNat 8 bit else s.port.code
       t.port.bits = n + 1 ∧ t.port.code = code ∧
       (n + 1 = 8 * (1 + argumentBytes code) → t.port.answer.isSome = true) ∧
       (n + 1 ≠ 8 * (1 + argumentBytes code) →
         t.port.answer = s.port.answer ∧ t.port.lpDo = s.port.lpDo) ∧
       (8 ≤ n → n + 1 < 8 * (1 + argumentBytes code) →
         t.port.args = (s.port.args <<< 1) ||| BitVec.ofNat 16 bit))) ∧
    (s.pins.lpSel = true → s.port.selPrev = true → s.port.active = true →
      s.pins.lpClk = false → s.port.clkPrev = true →
      t.port = { s.port with clkPrev := false, lpDo := t.port.lpDo } ∧
      (∀ a n k, s.port.answer = some a → k < 8 →
        s.port.bits = 8 * (2 + argumentBytes s.port.code) + 8 * n + k →
        t.port.lpDo = ((a.status.code :: a.response).getD n 0).getMsbD k) ∧
      (s.port.answer = none ∨ s.port.bits < 8 * (2 + argumentBytes s.port.code) →
        t.port.lpDo = false)))

/-- The event queue never holds more than 8 records, and its records keep their order: apart from
EVENT and device reset, what it held stands in front of what a command raises, whatever becomes of the
more-lost flags. ATTN is active exactly while it holds a record. An event offered joins the end with its flag clear; offered to 8 records it is
discarded, and the flag of the newest record is set. -/
def Obligations.StepKeepsTheEventQueue : Prop :=
  Keeps (fun s => s.events.length ≤ 8) ∧
  (∀ (c : Instr) (s t : State), exec c s = .next t → c ≠ .event → c ≠ .deviceReset →
    s.events.map EventRecord.unflagged <+: t.events.map EventRecord.unflagged) ∧
  (∀ s : State, s.attn = true ↔ s.events ≠ []) ∧
  (∀ (q : List EventRecord) (e : EventRecord),
    (q.length < 8 → offerEvent q e = q ++ [⟨e.kind, e.subject, e.detail, e.stamp, false⟩]) ∧
    (∀ older newest, q = older ++ [newest] → 8 ≤ q.length →
      offerEvent q e =
        older ++ [⟨newest.kind, newest.subject, newest.detail, newest.stamp, true⟩]))

/-! ### The invariants at reset -/

/-- Every invariant holds right after device reset. The reset values that the manual does not give
are the model's choice (assumptions 7 and 8). -/
def Obligations.ResetMeetsTheInvariants : Prop :=
  ConfigInv State.reset ∧ TimingInv State.reset ∧ GateInv State.reset ∧ QueueInv State.reset ∧
    RosterInv State.reset ∧ ViewInv State.reset ∧ RunningInv State.reset ∧
    State.reset.events.length ≤ 8 ∧ State.reset.pending = []
end

