-- ==== Sys2Proof/Laws/State.lean ====
section
/-! SUPPORT. What each named update of the state leaves as it stands: one lemma a field, so that no later proof unfolds a record update; and what the updates that are one record write set. -/

namespace Sys2Proof.Machine

variable (s : State)

/-! ### The configuration follows the image -/

theorem cfg_of_image {s t : State} (h : t.image = s.image) : t.cfg = s.cfg := by
  simp only [State.cfg, h]

theorem own_of_image {s t : State} (h : t.image = s.image) : t.own = s.own := by
  simp only [State.own, cfg_of_image h]

@[simp] theorem raise_pins (e : EventRecord) : (s.raise e).pins = s.pins := rfl

@[simp] theorem raise_loader (e : EventRecord) : (s.raise e).loader = s.loader := rfl

@[simp] theorem raise_image (e : EventRecord) : (s.raise e).image = s.image := rfl

@[simp] theorem raise_carrier (e : EventRecord) : (s.raise e).carrier = s.carrier := rfl

@[simp] theorem raise_line (e : EventRecord) : (s.raise e).line = s.line := rfl

@[simp] theorem raise_tx (e : EventRecord) : (s.raise e).tx = s.tx := rfl

@[simp] theorem raise_log (e : EventRecord) : (s.raise e).log = s.log := rfl

@[simp] theorem raise_roster (e : EventRecord) : (s.raise e).roster = s.roster := rfl

@[simp] theorem raise_view (e : EventRecord) : (s.raise e).view = s.view := rfl

@[simp] theorem raise_servo (e : EventRecord) : (s.raise e).servo = s.servo := rfl

@[simp] theorem raise_seq (e : EventRecord) : (s.raise e).seq = s.seq := rfl

@[simp] theorem raise_gate (e : EventRecord) : (s.raise e).gate = s.gate := rfl

@[simp] theorem raise_fault (e : EventRecord) : (s.raise e).fault = s.fault := rfl

@[simp] theorem raise_port (e : EventRecord) : (s.raise e).port = s.port := rfl

@[simp] theorem raise_free (e : EventRecord) : (s.raise e).free = s.free := rfl

@[simp] theorem raise_dropped (e : EventRecord) : (s.raise e).dropped = s.dropped := rfl

@[simp] theorem raise_pending (e : EventRecord) : (s.raise e).pending = s.pending := rfl

@[simp] theorem raise_cfg (e : EventRecord) : (s.raise e).cfg = s.cfg := cfg_of_image (by simp)

@[simp] theorem raise_own (e : EventRecord) : (s.raise e).own = s.own := own_of_image (by simp)

@[simp] theorem raiseAll_pins (l : List EventRecord) : (s.raiseAll l).pins = s.pins := by
  rcases l with _ | ⟨e, _ | ⟨f, l⟩⟩ <;> rfl

@[simp] theorem raiseAll_loader (l : List EventRecord) : (s.raiseAll l).loader = s.loader := by
  rcases l with _ | ⟨e, _ | ⟨f, l⟩⟩ <;> rfl

@[simp] theorem raiseAll_image (l : List EventRecord) : (s.raiseAll l).image = s.image := by
  rcases l with _ | ⟨e, _ | ⟨f, l⟩⟩ <;> rfl

@[simp] theorem raiseAll_carrier (l : List EventRecord) : (s.raiseAll l).carrier = s.carrier := by
  rcases l with _ | ⟨e, _ | ⟨f, l⟩⟩ <;> rfl

@[simp] theorem raiseAll_line (l : List EventRecord) : (s.raiseAll l).line = s.line := by
  rcases l with _ | ⟨e, _ | ⟨f, l⟩⟩ <;> rfl

@[simp] theorem raiseAll_tx (l : List EventRecord) : (s.raiseAll l).tx = s.tx := by
  rcases l with _ | ⟨e, _ | ⟨f, l⟩⟩ <;> rfl

@[simp] theorem raiseAll_log (l : List EventRecord) : (s.raiseAll l).log = s.log := by
  rcases l with _ | ⟨e, _ | ⟨f, l⟩⟩ <;> rfl

@[simp] theorem raiseAll_roster (l : List EventRecord) : (s.raiseAll l).roster = s.roster := by
  rcases l with _ | ⟨e, _ | ⟨f, l⟩⟩ <;> rfl

@[simp] theorem raiseAll_view (l : List EventRecord) : (s.raiseAll l).view = s.view := by
  rcases l with _ | ⟨e, _ | ⟨f, l⟩⟩ <;> rfl

@[simp] theorem raiseAll_servo (l : List EventRecord) : (s.raiseAll l).servo = s.servo := by
  rcases l with _ | ⟨e, _ | ⟨f, l⟩⟩ <;> rfl

@[simp] theorem raiseAll_seq (l : List EventRecord) : (s.raiseAll l).seq = s.seq := by
  rcases l with _ | ⟨e, _ | ⟨f, l⟩⟩ <;> rfl

@[simp] theorem raiseAll_gate (l : List EventRecord) : (s.raiseAll l).gate = s.gate := by
  rcases l with _ | ⟨e, _ | ⟨f, l⟩⟩ <;> rfl

@[simp] theorem raiseAll_fault (l : List EventRecord) : (s.raiseAll l).fault = s.fault := by
  rcases l with _ | ⟨e, _ | ⟨f, l⟩⟩ <;> rfl

@[simp] theorem raiseAll_port (l : List EventRecord) : (s.raiseAll l).port = s.port := by
  rcases l with _ | ⟨e, _ | ⟨f, l⟩⟩ <;> rfl

@[simp] theorem raiseAll_dropped (l : List EventRecord) : (s.raiseAll l).dropped = s.dropped := by
  rcases l with _ | ⟨e, _ | ⟨f, l⟩⟩ <;> rfl

@[simp] theorem raiseAll_pending (l : List EventRecord) : (s.raiseAll l).pending = s.pending := by
  rcases l with _ | ⟨e, _ | ⟨f, l⟩⟩ <;> rfl

@[simp] theorem raiseAll_cfg (l : List EventRecord) : (s.raiseAll l).cfg = s.cfg := cfg_of_image (by simp)

@[simp] theorem raiseAll_own (l : List EventRecord) : (s.raiseAll l).own = s.own := own_of_image (by simp)

@[simp] theorem withdraw_pins : (s.withdraw).pins = s.pins := rfl

@[simp] theorem withdraw_loader : (s.withdraw).loader = s.loader := rfl

@[simp] theorem withdraw_image : (s.withdraw).image = s.image := rfl

@[simp] theorem withdraw_carrier : (s.withdraw).carrier = s.carrier := rfl

@[simp] theorem withdraw_line : (s.withdraw).line = s.line := rfl

@[simp] theorem withdraw_tx : (s.withdraw).tx = s.tx := rfl

@[simp] theorem withdraw_log : (s.withdraw).log = s.log := rfl

@[simp] theorem withdraw_roster : (s.withdraw).roster = s.roster := rfl

@[simp] theorem withdraw_view : (s.withdraw).view = s.view := rfl

@[simp] theorem withdraw_servo : (s.withdraw).servo = s.servo := rfl

@[simp] theorem withdraw_fault : (s.withdraw).fault = s.fault := rfl

@[simp] theorem withdraw_port : (s.withdraw).port = s.port := rfl

@[simp] theorem withdraw_events : (s.withdraw).events = s.events := rfl

@[simp] theorem withdraw_free : (s.withdraw).free = s.free := rfl

@[simp] theorem withdraw_dropped : (s.withdraw).dropped = s.dropped := rfl

@[simp] theorem withdraw_pending : (s.withdraw).pending = s.pending := rfl

@[simp] theorem withdraw_cfg : (s.withdraw).cfg = s.cfg := cfg_of_image (by simp)

@[simp] theorem withdraw_own : (s.withdraw).own = s.own := own_of_image (by simp)

@[simp] theorem takeFault_pins (c : FaultCause) : (s.takeFault c).pins = s.pins := by
  unfold State.takeFault; split <;> rfl

@[simp] theorem takeFault_loader (c : FaultCause) : (s.takeFault c).loader = s.loader := by
  unfold State.takeFault; split <;> rfl

@[simp] theorem takeFault_image (c : FaultCause) : (s.takeFault c).image = s.image := by
  unfold State.takeFault; split <;> rfl

@[simp] theorem takeFault_carrier (c : FaultCause) : (s.takeFault c).carrier = s.carrier := by
  unfold State.takeFault; split <;> rfl

@[simp] theorem takeFault_line (c : FaultCause) : (s.takeFault c).line = s.line := by
  unfold State.takeFault; split <;> rfl

@[simp] theorem takeFault_tx (c : FaultCause) : (s.takeFault c).tx = s.tx := by
  unfold State.takeFault; split <;> rfl

@[simp] theorem takeFault_log (c : FaultCause) : (s.takeFault c).log = s.log := by
  unfold State.takeFault; split <;> rfl

@[simp] theorem takeFault_roster (c : FaultCause) : (s.takeFault c).roster = s.roster := by
  unfold State.takeFault; split <;> rfl

@[simp] theorem takeFault_view (c : FaultCause) : (s.takeFault c).view = s.view := by
  unfold State.takeFault; split <;> rfl

@[simp] theorem takeFault_servo (c : FaultCause) : (s.takeFault c).servo = s.servo := by
  unfold State.takeFault; split <;> rfl

@[simp] theorem takeFault_seq (c : FaultCause) : (s.takeFault c).seq = s.seq := by
  unfold State.takeFault; split <;> rfl

@[simp] theorem takeFault_port (c : FaultCause) : (s.takeFault c).port = s.port := by
  unfold State.takeFault; split <;> rfl

@[simp] theorem takeFault_events (c : FaultCause) : (s.takeFault c).events = s.events := by
  unfold State.takeFault; split <;> rfl

@[simp] theorem takeFault_free (c : FaultCause) : (s.takeFault c).free = s.free := by
  unfold State.takeFault; split <;> rfl

@[simp] theorem takeFault_dropped (c : FaultCause) : (s.takeFault c).dropped = s.dropped := by
  unfold State.takeFault; split <;> rfl

@[simp] theorem takeFault_pending (c : FaultCause) : (s.takeFault c).pending = s.pending := by
  unfold State.takeFault; split <;> rfl

@[simp] theorem takeFault_cfg (c : FaultCause) : (s.takeFault c).cfg = s.cfg := cfg_of_image (by simp)

@[simp] theorem takeFault_own (c : FaultCause) : (s.takeFault c).own = s.own := own_of_image (by simp)

@[simp] theorem localFault_pins (c : LocalCause) : (s.localFault c).pins = s.pins := by
  unfold State.localFault; split <;> split <;> simp

@[simp] theorem localFault_loader (c : LocalCause) : (s.localFault c).loader = s.loader := by
  unfold State.localFault; split <;> split <;> simp

@[simp] theorem localFault_image (c : LocalCause) : (s.localFault c).image = s.image := by
  unfold State.localFault; split <;> split <;> simp

@[simp] theorem localFault_carrier (c : LocalCause) : (s.localFault c).carrier = s.carrier := by
  unfold State.localFault; split <;> split <;> simp

@[simp] theorem localFault_line (c : LocalCause) : (s.localFault c).line = s.line := by
  unfold State.localFault; split <;> split <;> simp

@[simp] theorem localFault_log (c : LocalCause) : (s.localFault c).log = s.log := by
  unfold State.localFault; split <;> split <;> simp

@[simp] theorem localFault_roster (c : LocalCause) : (s.localFault c).roster = s.roster := by
  unfold State.localFault; split <;> split <;> simp

@[simp] theorem localFault_view (c : LocalCause) : (s.localFault c).view = s.view := by
  unfold State.localFault; split <;> split <;> simp

@[simp] theorem localFault_servo (c : LocalCause) : (s.localFault c).servo = s.servo := by
  unfold State.localFault; split <;> split <;> simp

@[simp] theorem localFault_seq (c : LocalCause) : (s.localFault c).seq = s.seq := by
  unfold State.localFault; split <;> split <;> simp

@[simp] theorem localFault_port (c : LocalCause) : (s.localFault c).port = s.port := by
  unfold State.localFault; split <;> split <;> simp

@[simp] theorem localFault_free (c : LocalCause) : (s.localFault c).free = s.free := by
  unfold State.localFault; split <;> split <;> simp

@[simp] theorem localFault_dropped (c : LocalCause) : (s.localFault c).dropped = s.dropped := by
  unfold State.localFault; split <;> split <;> simp

@[simp] theorem localFault_pending (c : LocalCause) : (s.localFault c).pending = s.pending := by
  unfold State.localFault; split <;> split <;> simp

@[simp] theorem localFault_cfg (c : LocalCause) : (s.localFault c).cfg = s.cfg := cfg_of_image (by simp)

@[simp] theorem localFault_own (c : LocalCause) : (s.localFault c).own = s.own := own_of_image (by simp)

@[simp] theorem assertTripPin_pins : (s.assertTripPin).pins = s.pins := by
  unfold State.assertTripPin; split <;> simp

@[simp] theorem assertTripPin_loader : (s.assertTripPin).loader = s.loader := by
  unfold State.assertTripPin; split <;> simp

@[simp] theorem assertTripPin_image : (s.assertTripPin).image = s.image := by
  unfold State.assertTripPin; split <;> simp

@[simp] theorem assertTripPin_carrier : (s.assertTripPin).carrier = s.carrier := by
  unfold State.assertTripPin; split <;> simp

@[simp] theorem assertTripPin_line : (s.assertTripPin).line = s.line := by
  unfold State.assertTripPin; split <;> simp

@[simp] theorem assertTripPin_log : (s.assertTripPin).log = s.log := by
  unfold State.assertTripPin; split <;> simp

@[simp] theorem assertTripPin_roster : (s.assertTripPin).roster = s.roster := by
  unfold State.assertTripPin; split <;> simp

@[simp] theorem assertTripPin_view : (s.assertTripPin).view = s.view := by
  unfold State.assertTripPin; split <;> simp

@[simp] theorem assertTripPin_servo : (s.assertTripPin).servo = s.servo := by
  unfold State.assertTripPin; split <;> simp

@[simp] theorem assertTripPin_seq : (s.assertTripPin).seq = s.seq := by
  unfold State.assertTripPin; split <;> simp

@[simp] theorem assertTripPin_port : (s.assertTripPin).port = s.port := by
  unfold State.assertTripPin; split <;> simp

@[simp] theorem assertTripPin_free : (s.assertTripPin).free = s.free := by
  unfold State.assertTripPin; split <;> simp

@[simp] theorem assertTripPin_dropped : (s.assertTripPin).dropped = s.dropped := by
  unfold State.assertTripPin; split <;> simp

@[simp] theorem assertTripPin_pending : (s.assertTripPin).pending = s.pending := by
  unfold State.assertTripPin; split <;> simp

@[simp] theorem assertTripPin_cfg : (s.assertTripPin).cfg = s.cfg := cfg_of_image (by simp)

@[simp] theorem assertTripPin_own : (s.assertTripPin).own = s.own := own_of_image (by simp)

@[simp] theorem enterClearing_pins (x : SyncState) : (s.enterClearing x).pins = s.pins := rfl

@[simp] theorem enterClearing_loader (x : SyncState) : (s.enterClearing x).loader = s.loader := rfl

@[simp] theorem enterClearing_image (x : SyncState) : (s.enterClearing x).image = s.image := rfl

@[simp] theorem enterClearing_line (x : SyncState) : (s.enterClearing x).line = s.line := rfl

@[simp] theorem enterClearing_fault (x : SyncState) : (s.enterClearing x).fault = s.fault := rfl

@[simp] theorem enterClearing_port (x : SyncState) : (s.enterClearing x).port = s.port := rfl

@[simp] theorem enterClearing_events (x : SyncState) : (s.enterClearing x).events = s.events := rfl

@[simp] theorem enterClearing_free (x : SyncState) : (s.enterClearing x).free = s.free := rfl

@[simp] theorem enterClearing_dropped (x : SyncState) : (s.enterClearing x).dropped = s.dropped := rfl

@[simp] theorem enterClearing_pending (x : SyncState) : (s.enterClearing x).pending = s.pending := rfl

@[simp] theorem enterClearing_cfg (x : SyncState) : (s.enterClearing x).cfg = s.cfg := cfg_of_image (by simp)

@[simp] theorem enterClearing_own (x : SyncState) : (s.enterClearing x).own = s.own := own_of_image (by simp)

@[simp] theorem park_pins (d : Byte) : (s.park d).pins = s.pins := by simp [State.park]

@[simp] theorem park_loader (d : Byte) : (s.park d).loader = s.loader := by simp [State.park]

@[simp] theorem park_image (d : Byte) : (s.park d).image = s.image := by simp [State.park]

@[simp] theorem park_line (d : Byte) : (s.park d).line = s.line := by simp [State.park]

@[simp] theorem park_fault (d : Byte) : (s.park d).fault = s.fault := by simp [State.park]

@[simp] theorem park_port (d : Byte) : (s.park d).port = s.port := by simp [State.park]

@[simp] theorem park_free (d : Byte) : (s.park d).free = s.free := by simp [State.park]

@[simp] theorem park_dropped (d : Byte) : (s.park d).dropped = s.dropped := by simp [State.park]

@[simp] theorem park_pending (d : Byte) : (s.park d).pending = s.pending := by simp [State.park]

@[simp] theorem park_cfg (d : Byte) : (s.park d).cfg = s.cfg := cfg_of_image (by simp)

@[simp] theorem park_own (d : Byte) : (s.park d).own = s.own := own_of_image (by simp)

@[simp] theorem enterHoldover_pins : (s.enterHoldover).pins = s.pins := rfl

@[simp] theorem enterHoldover_loader : (s.enterHoldover).loader = s.loader := rfl

@[simp] theorem enterHoldover_image : (s.enterHoldover).image = s.image := rfl

@[simp] theorem enterHoldover_carrier : (s.enterHoldover).carrier = s.carrier := rfl

@[simp] theorem enterHoldover_line : (s.enterHoldover).line = s.line := rfl

@[simp] theorem enterHoldover_tx : (s.enterHoldover).tx = s.tx := rfl

@[simp] theorem enterHoldover_log : (s.enterHoldover).log = s.log := rfl

@[simp] theorem enterHoldover_roster : (s.enterHoldover).roster = s.roster := rfl

@[simp] theorem enterHoldover_view : (s.enterHoldover).view = s.view := rfl

@[simp] theorem enterHoldover_fault : (s.enterHoldover).fault = s.fault := rfl

@[simp] theorem enterHoldover_port : (s.enterHoldover).port = s.port := rfl

@[simp] theorem enterHoldover_events : (s.enterHoldover).events = s.events := rfl

@[simp] theorem enterHoldover_free : (s.enterHoldover).free = s.free := rfl

@[simp] theorem enterHoldover_dropped : (s.enterHoldover).dropped = s.dropped := rfl

@[simp] theorem enterHoldover_pending : (s.enterHoldover).pending = s.pending := rfl

@[simp] theorem enterHoldover_cfg : (s.enterHoldover).cfg = s.cfg := cfg_of_image (by simp)

@[simp] theorem enterHoldover_own : (s.enterHoldover).own = s.own := own_of_image (by simp)

@[simp] theorem answerLinkDown_pins : (s.answerLinkDown.1).pins = s.pins := by
  unfold State.answerLinkDown; split <;> (try split) <;> simp

@[simp] theorem answerLinkDown_loader : (s.answerLinkDown.1).loader = s.loader := by
  unfold State.answerLinkDown; split <;> (try split) <;> simp

@[simp] theorem answerLinkDown_image : (s.answerLinkDown.1).image = s.image := by
  unfold State.answerLinkDown; split <;> (try split) <;> simp

@[simp] theorem answerLinkDown_line : (s.answerLinkDown.1).line = s.line := by
  unfold State.answerLinkDown; split <;> (try split) <;> simp

@[simp] theorem answerLinkDown_fault : (s.answerLinkDown.1).fault = s.fault := by
  unfold State.answerLinkDown; split <;> (try split) <;> simp

@[simp] theorem answerLinkDown_port : (s.answerLinkDown.1).port = s.port := by
  unfold State.answerLinkDown; split <;> (try split) <;> simp

@[simp] theorem answerLinkDown_events : (s.answerLinkDown.1).events = s.events := by
  unfold State.answerLinkDown; split <;> (try split) <;> simp

@[simp] theorem answerLinkDown_free : (s.answerLinkDown.1).free = s.free := by
  unfold State.answerLinkDown; split <;> (try split) <;> simp

@[simp] theorem answerLinkDown_dropped : (s.answerLinkDown.1).dropped = s.dropped := by
  unfold State.answerLinkDown; split <;> (try split) <;> simp

@[simp] theorem answerLinkDown_pending : (s.answerLinkDown.1).pending = s.pending := by
  unfold State.answerLinkDown; split <;> (try split) <;> simp

@[simp] theorem answerLinkDown_cfg : (s.answerLinkDown.1).cfg = s.cfg := cfg_of_image (by simp)

@[simp] theorem answerLinkDown_own : (s.answerLinkDown.1).own = s.own := own_of_image (by simp)

@[simp] theorem linkDown_pins (d : Byte) : (s.linkDown d).pins = s.pins := by
  simp [State.linkDown]

@[simp] theorem linkDown_loader (d : Byte) : (s.linkDown d).loader = s.loader := by
  simp [State.linkDown]

@[simp] theorem linkDown_image (d : Byte) : (s.linkDown d).image = s.image := by
  simp [State.linkDown]

@[simp] theorem linkDown_line (d : Byte) : (s.linkDown d).line = s.line := by
  simp [State.linkDown]

@[simp] theorem linkDown_fault (d : Byte) : (s.linkDown d).fault = s.fault := by
  simp [State.linkDown]

@[simp] theorem linkDown_port (d : Byte) : (s.linkDown d).port = s.port := by
  simp [State.linkDown]

@[simp] theorem linkDown_dropped (d : Byte) : (s.linkDown d).dropped = s.dropped := by
  simp [State.linkDown]

@[simp] theorem linkDown_pending (d : Byte) : (s.linkDown d).pending = s.pending := by
  simp [State.linkDown]

@[simp] theorem linkDown_cfg (d : Byte) : (s.linkDown d).cfg = s.cfg := cfg_of_image (by simp)

@[simp] theorem linkDown_own (d : Byte) : (s.linkDown d).own = s.own := own_of_image (by simp)

@[simp] theorem countError_pins (d : Byte) : (s.countError d).pins = s.pins := by
  unfold State.countError; split <;> (try split) <;> simp

@[simp] theorem countError_loader (d : Byte) : (s.countError d).loader = s.loader := by
  unfold State.countError; split <;> (try split) <;> simp

@[simp] theorem countError_image (d : Byte) : (s.countError d).image = s.image := by
  unfold State.countError; split <;> (try split) <;> simp

@[simp] theorem countError_line (d : Byte) : (s.countError d).line = s.line := by
  unfold State.countError; split <;> (try split) <;> simp

@[simp] theorem countError_fault (d : Byte) : (s.countError d).fault = s.fault := by
  unfold State.countError; split <;> (try split) <;> simp

@[simp] theorem countError_port (d : Byte) : (s.countError d).port = s.port := by
  unfold State.countError; split <;> (try split) <;> simp

@[simp] theorem countError_dropped (d : Byte) : (s.countError d).dropped = s.dropped := by
  unfold State.countError; split <;> (try split) <;> simp

@[simp] theorem countError_pending (d : Byte) : (s.countError d).pending = s.pending := by
  unfold State.countError; split <;> (try split) <;> simp

@[simp] theorem countError_cfg (d : Byte) : (s.countError d).cfg = s.cfg := cfg_of_image (by simp)

@[simp] theorem countError_own (d : Byte) : (s.countError d).own = s.own := own_of_image (by simp)

@[simp] theorem atSample_loader (b : Bit) : (s.atSample b).loader = s.loader := rfl

@[simp] theorem atSample_image (b : Bit) : (s.atSample b).image = s.image := rfl

@[simp] theorem atSample_carrier (b : Bit) : (s.atSample b).carrier = s.carrier := rfl

@[simp] theorem atSample_tx (b : Bit) : (s.atSample b).tx = s.tx := rfl

@[simp] theorem atSample_log (b : Bit) : (s.atSample b).log = s.log := rfl

@[simp] theorem atSample_roster (b : Bit) : (s.atSample b).roster = s.roster := rfl

@[simp] theorem atSample_view (b : Bit) : (s.atSample b).view = s.view := rfl

@[simp] theorem atSample_servo (b : Bit) : (s.atSample b).servo = s.servo := rfl

@[simp] theorem atSample_seq (b : Bit) : (s.atSample b).seq = s.seq := rfl

@[simp] theorem atSample_gate (b : Bit) : (s.atSample b).gate = s.gate := rfl

@[simp] theorem atSample_fault (b : Bit) : (s.atSample b).fault = s.fault := rfl

@[simp] theorem atSample_port (b : Bit) : (s.atSample b).port = s.port := rfl

@[simp] theorem atSample_events (b : Bit) : (s.atSample b).events = s.events := rfl

@[simp] theorem atSample_free (b : Bit) : (s.atSample b).free = s.free := rfl

@[simp] theorem atSample_dropped (b : Bit) : (s.atSample b).dropped = s.dropped := rfl

@[simp] theorem atSample_pending (b : Bit) : (s.atSample b).pending = s.pending := rfl

@[simp] theorem atSample_cfg (b : Bit) : (s.atSample b).cfg = s.cfg := cfg_of_image (by simp)

@[simp] theorem atSample_own (b : Bit) : (s.atSample b).own = s.own := own_of_image (by simp)

@[simp] theorem endOfFrame_loader (n : Nat) : (s.endOfFrame n).loader = s.loader := rfl

@[simp] theorem endOfFrame_image (n : Nat) : (s.endOfFrame n).image = s.image := rfl

@[simp] theorem endOfFrame_carrier (n : Nat) : (s.endOfFrame n).carrier = s.carrier := rfl

@[simp] theorem endOfFrame_log (n : Nat) : (s.endOfFrame n).log = s.log := rfl

@[simp] theorem endOfFrame_roster (n : Nat) : (s.endOfFrame n).roster = s.roster := rfl

@[simp] theorem endOfFrame_view (n : Nat) : (s.endOfFrame n).view = s.view := rfl

@[simp] theorem endOfFrame_servo (n : Nat) : (s.endOfFrame n).servo = s.servo := rfl

@[simp] theorem endOfFrame_seq (n : Nat) : (s.endOfFrame n).seq = s.seq := rfl

@[simp] theorem endOfFrame_gate (n : Nat) : (s.endOfFrame n).gate = s.gate := rfl

@[simp] theorem endOfFrame_fault (n : Nat) : (s.endOfFrame n).fault = s.fault := rfl

@[simp] theorem endOfFrame_port (n : Nat) : (s.endOfFrame n).port = s.port := rfl

@[simp] theorem endOfFrame_events (n : Nat) : (s.endOfFrame n).events = s.events := rfl

@[simp] theorem endOfFrame_free (n : Nat) : (s.endOfFrame n).free = s.free := rfl

@[simp] theorem endOfFrame_dropped (n : Nat) : (s.endOfFrame n).dropped = s.dropped := rfl

@[simp] theorem endOfFrame_pending (n : Nat) : (s.endOfFrame n).pending = s.pending := rfl

@[simp] theorem endOfFrame_cfg (n : Nat) : (s.endOfFrame n).cfg = s.cfg := cfg_of_image (by simp)

@[simp] theorem endOfFrame_own (n : Nat) : (s.endOfFrame n).own = s.own := own_of_image (by simp)

@[simp] theorem rejectFrame_pins : (s.rejectFrame).pins = s.pins := by
  simp [State.rejectFrame]

@[simp] theorem rejectFrame_loader : (s.rejectFrame).loader = s.loader := by
  simp [State.rejectFrame]

@[simp] theorem rejectFrame_image : (s.rejectFrame).image = s.image := by
  simp [State.rejectFrame]

@[simp] theorem rejectFrame_fault : (s.rejectFrame).fault = s.fault := by
  simp [State.rejectFrame]

@[simp] theorem rejectFrame_port : (s.rejectFrame).port = s.port := by
  simp [State.rejectFrame]

@[simp] theorem rejectFrame_dropped : (s.rejectFrame).dropped = s.dropped := by
  simp [State.rejectFrame]

@[simp] theorem rejectFrame_pending : (s.rejectFrame).pending = s.pending := by
  simp [State.rejectFrame]

@[simp] theorem rejectFrame_cfg : (s.rejectFrame).cfg = s.cfg := cfg_of_image (by simp)

@[simp] theorem rejectFrame_own : (s.rejectFrame).own = s.own := own_of_image (by simp)

@[simp] theorem identityConflict_pins (k : FrameKind) : (s.identityConflict k).pins = s.pins := by
  unfold State.identityConflict; split <;> simp

@[simp] theorem identityConflict_loader (k : FrameKind) : (s.identityConflict k).loader = s.loader := by
  unfold State.identityConflict; split <;> simp

@[simp] theorem identityConflict_image (k : FrameKind) : (s.identityConflict k).image = s.image := by
  unfold State.identityConflict; split <;> simp

@[simp] theorem identityConflict_line (k : FrameKind) : (s.identityConflict k).line = s.line := by
  unfold State.identityConflict; split <;> simp

@[simp] theorem identityConflict_fault (k : FrameKind) : (s.identityConflict k).fault = s.fault := by
  unfold State.identityConflict; split <;> simp

@[simp] theorem identityConflict_port (k : FrameKind) : (s.identityConflict k).port = s.port := by
  unfold State.identityConflict; split <;> simp

@[simp] theorem identityConflict_free (k : FrameKind) : (s.identityConflict k).free = s.free := by
  unfold State.identityConflict; split <;> simp

@[simp] theorem identityConflict_dropped (k : FrameKind) : (s.identityConflict k).dropped = s.dropped := by
  unfold State.identityConflict; split <;> simp

@[simp] theorem identityConflict_pending (k : FrameKind) : (s.identityConflict k).pending = s.pending := by
  unfold State.identityConflict; split <;> simp

@[simp] theorem identityConflict_cfg (k : FrameKind) : (s.identityConflict k).cfg = s.cfg := cfg_of_image (by simp)

@[simp] theorem identityConflict_own (k : FrameKind) : (s.identityConflict k).own = s.own := own_of_image (by simp)

@[simp] theorem periodMismatch_pins (i : Identity) (k : FrameKind) : (s.periodMismatch i k).pins = s.pins := by
  unfold State.periodMismatch; split <;> simp

@[simp] theorem periodMismatch_loader (i : Identity) (k : FrameKind) : (s.periodMismatch i k).loader = s.loader := by
  unfold State.periodMismatch; split <;> simp

@[simp] theorem periodMismatch_image (i : Identity) (k : FrameKind) : (s.periodMismatch i k).image = s.image := by
  unfold State.periodMismatch; split <;> simp

@[simp] theorem periodMismatch_carrier (i : Identity) (k : FrameKind) : (s.periodMismatch i k).carrier = s.carrier := by
  unfold State.periodMismatch; split <;> simp

@[simp] theorem periodMismatch_line (i : Identity) (k : FrameKind) : (s.periodMismatch i k).line = s.line := by
  unfold State.periodMismatch; split <;> simp

@[simp] theorem periodMismatch_tx (i : Identity) (k : FrameKind) : (s.periodMismatch i k).tx = s.tx := by
  unfold State.periodMismatch; split <;> simp

@[simp] theorem periodMismatch_log (i : Identity) (k : FrameKind) : (s.periodMismatch i k).log = s.log := by
  unfold State.periodMismatch; split <;> simp

@[simp] theorem periodMismatch_roster (i : Identity) (k : FrameKind) : (s.periodMismatch i k).roster = s.roster := by
  unfold State.periodMismatch; split <;> simp

@[simp] theorem periodMismatch_view (i : Identity) (k : FrameKind) : (s.periodMismatch i k).view = s.view := by
  unfold State.periodMismatch; split <;> simp

@[simp] theorem periodMismatch_servo (i : Identity) (k : FrameKind) : (s.periodMismatch i k).servo = s.servo := by
  unfold State.periodMismatch; split <;> simp

@[simp] theorem periodMismatch_seq (i : Identity) (k : FrameKind) : (s.periodMismatch i k).seq = s.seq := by
  unfold State.periodMismatch; split <;> simp

@[simp] theorem periodMismatch_gate (i : Identity) (k : FrameKind) : (s.periodMismatch i k).gate = s.gate := by
  unfold State.periodMismatch; split <;> simp

@[simp] theorem periodMismatch_fault (i : Identity) (k : FrameKind) : (s.periodMismatch i k).fault = s.fault := by
  unfold State.periodMismatch; split <;> simp

@[simp] theorem periodMismatch_port (i : Identity) (k : FrameKind) : (s.periodMismatch i k).port = s.port := by
  unfold State.periodMismatch; split <;> simp

@[simp] theorem periodMismatch_free (i : Identity) (k : FrameKind) : (s.periodMismatch i k).free = s.free := by
  unfold State.periodMismatch; split <;> simp

@[simp] theorem periodMismatch_dropped (i : Identity) (k : FrameKind) : (s.periodMismatch i k).dropped = s.dropped := by
  unfold State.periodMismatch; split <;> simp

@[simp] theorem periodMismatch_pending (i : Identity) (k : FrameKind) : (s.periodMismatch i k).pending = s.pending := by
  unfold State.periodMismatch; split <;> simp

@[simp] theorem periodMismatch_cfg (i : Identity) (k : FrameKind) : (s.periodMismatch i k).cfg = s.cfg := cfg_of_image (by simp)

@[simp] theorem periodMismatch_own (i : Identity) (k : FrameKind) : (s.periodMismatch i k).own = s.own := own_of_image (by simp)

@[simp] theorem setEntry_pins (i : Identity) (e : RosterEntry) : (s.setEntry i e).pins = s.pins := rfl

@[simp] theorem setEntry_loader (i : Identity) (e : RosterEntry) : (s.setEntry i e).loader = s.loader := rfl

@[simp] theorem setEntry_image (i : Identity) (e : RosterEntry) : (s.setEntry i e).image = s.image := rfl

@[simp] theorem setEntry_carrier (i : Identity) (e : RosterEntry) : (s.setEntry i e).carrier = s.carrier := rfl

@[simp] theorem setEntry_line (i : Identity) (e : RosterEntry) : (s.setEntry i e).line = s.line := rfl

@[simp] theorem setEntry_tx (i : Identity) (e : RosterEntry) : (s.setEntry i e).tx = s.tx := rfl

@[simp] theorem setEntry_log (i : Identity) (e : RosterEntry) : (s.setEntry i e).log = s.log := rfl

@[simp] theorem setEntry_view (i : Identity) (e : RosterEntry) : (s.setEntry i e).view = s.view := rfl

@[simp] theorem setEntry_servo (i : Identity) (e : RosterEntry) : (s.setEntry i e).servo = s.servo := rfl

@[simp] theorem setEntry_seq (i : Identity) (e : RosterEntry) : (s.setEntry i e).seq = s.seq := rfl

@[simp] theorem setEntry_gate (i : Identity) (e : RosterEntry) : (s.setEntry i e).gate = s.gate := rfl

@[simp] theorem setEntry_fault (i : Identity) (e : RosterEntry) : (s.setEntry i e).fault = s.fault := rfl

@[simp] theorem setEntry_port (i : Identity) (e : RosterEntry) : (s.setEntry i e).port = s.port := rfl

@[simp] theorem setEntry_events (i : Identity) (e : RosterEntry) : (s.setEntry i e).events = s.events := rfl

@[simp] theorem setEntry_free (i : Identity) (e : RosterEntry) : (s.setEntry i e).free = s.free := rfl

@[simp] theorem setEntry_dropped (i : Identity) (e : RosterEntry) : (s.setEntry i e).dropped = s.dropped := rfl

@[simp] theorem setEntry_pending (i : Identity) (e : RosterEntry) : (s.setEntry i e).pending = s.pending := rfl

@[simp] theorem setEntry_cfg (i : Identity) (e : RosterEntry) : (s.setEntry i e).cfg = s.cfg := cfg_of_image (by simp)

@[simp] theorem setEntry_own (i : Identity) (e : RosterEntry) : (s.setEntry i e).own = s.own := own_of_image (by simp)

@[simp] theorem deliverBeacon_pins (x : PhaseSample) (i : Identity) (p : BitVec 16) (h m : StationMap) (st : SenderState) : (s.deliverBeacon x i p h m st).pins = s.pins := by
  unfold State.deliverBeacon; split <;> (try split) <;> (try split) <;> simp

@[simp] theorem deliverBeacon_loader (x : PhaseSample) (i : Identity) (p : BitVec 16) (h m : StationMap) (st : SenderState) : (s.deliverBeacon x i p h m st).loader = s.loader := by
  unfold State.deliverBeacon; split <;> (try split) <;> (try split) <;> simp

@[simp] theorem deliverBeacon_image (x : PhaseSample) (i : Identity) (p : BitVec 16) (h m : StationMap) (st : SenderState) : (s.deliverBeacon x i p h m st).image = s.image := by
  unfold State.deliverBeacon; split <;> (try split) <;> (try split) <;> simp

@[simp] theorem deliverBeacon_line (x : PhaseSample) (i : Identity) (p : BitVec 16) (h m : StationMap) (st : SenderState) : (s.deliverBeacon x i p h m st).line = s.line := by
  unfold State.deliverBeacon; split <;> (try split) <;> (try split) <;> simp

@[simp] theorem deliverBeacon_fault (x : PhaseSample) (i : Identity) (p : BitVec 16) (h m : StationMap) (st : SenderState) : (s.deliverBeacon x i p h m st).fault = s.fault := by
  unfold State.deliverBeacon; split <;> (try split) <;> (try split) <;> simp

@[simp] theorem deliverBeacon_port (x : PhaseSample) (i : Identity) (p : BitVec 16) (h m : StationMap) (st : SenderState) : (s.deliverBeacon x i p h m st).port = s.port := by
  unfold State.deliverBeacon; split <;> (try split) <;> (try split) <;> simp

@[simp] theorem deliverBeacon_dropped (x : PhaseSample) (i : Identity) (p : BitVec 16) (h m : StationMap) (st : SenderState) : (s.deliverBeacon x i p h m st).dropped = s.dropped := by
  unfold State.deliverBeacon; split <;> (try split) <;> (try split) <;> simp

@[simp] theorem deliverBeacon_pending (x : PhaseSample) (i : Identity) (p : BitVec 16) (h m : StationMap) (st : SenderState) : (s.deliverBeacon x i p h m st).pending = s.pending := by
  unfold State.deliverBeacon; split <;> (try split) <;> (try split) <;> simp

@[simp] theorem deliverBeacon_cfg (x : PhaseSample) (i : Identity) (p : BitVec 16) (h m : StationMap) (st : SenderState) : (s.deliverBeacon x i p h m st).cfg = s.cfg := cfg_of_image (by simp)

@[simp] theorem deliverBeacon_own (x : PhaseSample) (i : Identity) (p : BitVec 16) (h m : StationMap) (st : SenderState) : (s.deliverBeacon x i p h m st).own = s.own := own_of_image (by simp)

@[simp] theorem deliverClaim_pins (i : Identity) (p : BitVec 16) : (s.deliverClaim i p).pins = s.pins := by
  unfold State.deliverClaim; split <;> (try split) <;> (try split) <;> simp

@[simp] theorem deliverClaim_loader (i : Identity) (p : BitVec 16) : (s.deliverClaim i p).loader = s.loader := by
  unfold State.deliverClaim; split <;> (try split) <;> (try split) <;> simp

@[simp] theorem deliverClaim_image (i : Identity) (p : BitVec 16) : (s.deliverClaim i p).image = s.image := by
  unfold State.deliverClaim; split <;> (try split) <;> (try split) <;> simp

@[simp] theorem deliverClaim_line (i : Identity) (p : BitVec 16) : (s.deliverClaim i p).line = s.line := by
  unfold State.deliverClaim; split <;> (try split) <;> (try split) <;> simp

@[simp] theorem deliverClaim_fault (i : Identity) (p : BitVec 16) : (s.deliverClaim i p).fault = s.fault := by
  unfold State.deliverClaim; split <;> (try split) <;> (try split) <;> simp

@[simp] theorem deliverClaim_port (i : Identity) (p : BitVec 16) : (s.deliverClaim i p).port = s.port := by
  unfold State.deliverClaim; split <;> (try split) <;> (try split) <;> simp

@[simp] theorem deliverClaim_free (i : Identity) (p : BitVec 16) : (s.deliverClaim i p).free = s.free := by
  unfold State.deliverClaim; split <;> (try split) <;> (try split) <;> simp

@[simp] theorem deliverClaim_dropped (i : Identity) (p : BitVec 16) : (s.deliverClaim i p).dropped = s.dropped := by
  unfold State.deliverClaim; split <;> (try split) <;> (try split) <;> simp

@[simp] theorem deliverClaim_pending (i : Identity) (p : BitVec 16) : (s.deliverClaim i p).pending = s.pending := by
  unfold State.deliverClaim; split <;> (try split) <;> (try split) <;> simp

@[simp] theorem deliverClaim_cfg (i : Identity) (p : BitVec 16) : (s.deliverClaim i p).cfg = s.cfg := cfg_of_image (by simp)

@[simp] theorem deliverClaim_own (i : Identity) (p : BitVec 16) : (s.deliverClaim i p).own = s.own := own_of_image (by simp)

@[simp] theorem deliverLeave_pins (i : Identity) : (s.deliverLeave i).pins = s.pins := by
  unfold State.deliverLeave; split <;> (try split) <;> simp

@[simp] theorem deliverLeave_loader (i : Identity) : (s.deliverLeave i).loader = s.loader := by
  unfold State.deliverLeave; split <;> (try split) <;> simp

@[simp] theorem deliverLeave_image (i : Identity) : (s.deliverLeave i).image = s.image := by
  unfold State.deliverLeave; split <;> (try split) <;> simp

@[simp] theorem deliverLeave_line (i : Identity) : (s.deliverLeave i).line = s.line := by
  unfold State.deliverLeave; split <;> (try split) <;> simp

@[simp] theorem deliverLeave_fault (i : Identity) : (s.deliverLeave i).fault = s.fault := by
  unfold State.deliverLeave; split <;> (try split) <;> simp

@[simp] theorem deliverLeave_port (i : Identity) : (s.deliverLeave i).port = s.port := by
  unfold State.deliverLeave; split <;> (try split) <;> simp

@[simp] theorem deliverLeave_dropped (i : Identity) : (s.deliverLeave i).dropped = s.dropped := by
  unfold State.deliverLeave; split <;> (try split) <;> simp

@[simp] theorem deliverLeave_pending (i : Identity) : (s.deliverLeave i).pending = s.pending := by
  unfold State.deliverLeave; split <;> (try split) <;> simp

@[simp] theorem deliverLeave_cfg (i : Identity) : (s.deliverLeave i).cfg = s.cfg := cfg_of_image (by simp)

@[simp] theorem deliverLeave_own (i : Identity) : (s.deliverLeave i).own = s.own := own_of_image (by simp)

@[simp] theorem deliverFault_pins (i : Identity) (c : LocalCause) : (s.deliverFault i c).pins = s.pins := by
  unfold State.deliverFault; split <;> (try split) <;> (try split) <;> (try split) <;> simp

@[simp] theorem deliverFault_loader (i : Identity) (c : LocalCause) : (s.deliverFault i c).loader = s.loader := by
  unfold State.deliverFault; split <;> (try split) <;> (try split) <;> (try split) <;> simp

@[simp] theorem deliverFault_image (i : Identity) (c : LocalCause) : (s.deliverFault i c).image = s.image := by
  unfold State.deliverFault; split <;> (try split) <;> (try split) <;> (try split) <;> simp

@[simp] theorem deliverFault_line (i : Identity) (c : LocalCause) : (s.deliverFault i c).line = s.line := by
  unfold State.deliverFault; split <;> (try split) <;> (try split) <;> (try split) <;> simp

@[simp] theorem deliverFault_port (i : Identity) (c : LocalCause) : (s.deliverFault i c).port = s.port := by
  unfold State.deliverFault; split <;> (try split) <;> (try split) <;> (try split) <;> simp

@[simp] theorem deliverFault_free (i : Identity) (c : LocalCause) : (s.deliverFault i c).free = s.free := by
  unfold State.deliverFault; split <;> (try split) <;> (try split) <;> (try split) <;> simp

@[simp] theorem deliverFault_dropped (i : Identity) (c : LocalCause) : (s.deliverFault i c).dropped = s.dropped := by
  unfold State.deliverFault; split <;> (try split) <;> (try split) <;> (try split) <;> simp

@[simp] theorem deliverFault_pending (i : Identity) (c : LocalCause) : (s.deliverFault i c).pending = s.pending := by
  unfold State.deliverFault; split <;> (try split) <;> (try split) <;> (try split) <;> simp

@[simp] theorem deliverFault_cfg (i : Identity) (c : LocalCause) : (s.deliverFault i c).cfg = s.cfg := cfg_of_image (by simp)

@[simp] theorem deliverFault_own (i : Identity) (c : LocalCause) : (s.deliverFault i c).own = s.own := own_of_image (by simp)

@[simp] theorem reply_loader (c : Byte) (a : BitVec 16) (x : StatusCode) (r : List Byte) : (s.reply c a x r).loader = s.loader := rfl

@[simp] theorem reply_image (c : Byte) (a : BitVec 16) (x : StatusCode) (r : List Byte) : (s.reply c a x r).image = s.image := rfl

@[simp] theorem reply_carrier (c : Byte) (a : BitVec 16) (x : StatusCode) (r : List Byte) : (s.reply c a x r).carrier = s.carrier := rfl

@[simp] theorem reply_line (c : Byte) (a : BitVec 16) (x : StatusCode) (r : List Byte) : (s.reply c a x r).line = s.line := rfl

@[simp] theorem reply_tx (c : Byte) (a : BitVec 16) (x : StatusCode) (r : List Byte) : (s.reply c a x r).tx = s.tx := rfl

@[simp] theorem reply_log (c : Byte) (a : BitVec 16) (x : StatusCode) (r : List Byte) : (s.reply c a x r).log = s.log := rfl

@[simp] theorem reply_roster (c : Byte) (a : BitVec 16) (x : StatusCode) (r : List Byte) : (s.reply c a x r).roster = s.roster := rfl

@[simp] theorem reply_view (c : Byte) (a : BitVec 16) (x : StatusCode) (r : List Byte) : (s.reply c a x r).view = s.view := rfl

@[simp] theorem reply_servo (c : Byte) (a : BitVec 16) (x : StatusCode) (r : List Byte) : (s.reply c a x r).servo = s.servo := rfl

@[simp] theorem reply_seq (c : Byte) (a : BitVec 16) (x : StatusCode) (r : List Byte) : (s.reply c a x r).seq = s.seq := rfl

@[simp] theorem reply_gate (c : Byte) (a : BitVec 16) (x : StatusCode) (r : List Byte) : (s.reply c a x r).gate = s.gate := rfl

@[simp] theorem reply_fault (c : Byte) (a : BitVec 16) (x : StatusCode) (r : List Byte) : (s.reply c a x r).fault = s.fault := rfl

@[simp] theorem reply_events (c : Byte) (a : BitVec 16) (x : StatusCode) (r : List Byte) : (s.reply c a x r).events = s.events := rfl

@[simp] theorem reply_free (c : Byte) (a : BitVec 16) (x : StatusCode) (r : List Byte) : (s.reply c a x r).free = s.free := rfl

@[simp] theorem reply_dropped (c : Byte) (a : BitVec 16) (x : StatusCode) (r : List Byte) : (s.reply c a x r).dropped = s.dropped := rfl

@[simp] theorem reply_pending (c : Byte) (a : BitVec 16) (x : StatusCode) (r : List Byte) : (s.reply c a x r).pending = s.pending := rfl

@[simp] theorem reply_cfg (c : Byte) (a : BitVec 16) (x : StatusCode) (r : List Byte) : (s.reply c a x r).cfg = s.cfg := cfg_of_image (by simp)

@[simp] theorem reply_own (c : Byte) (a : BitVec 16) (x : StatusCode) (r : List Byte) : (s.reply c a x r).own = s.own := own_of_image (by simp)

@[simp] theorem decideOutputs_pins : (s.decideOutputs).pins = s.pins := rfl

@[simp] theorem decideOutputs_loader : (s.decideOutputs).loader = s.loader := rfl

@[simp] theorem decideOutputs_image : (s.decideOutputs).image = s.image := rfl

@[simp] theorem decideOutputs_carrier : (s.decideOutputs).carrier = s.carrier := rfl

@[simp] theorem decideOutputs_line : (s.decideOutputs).line = s.line := rfl

@[simp] theorem decideOutputs_tx : (s.decideOutputs).tx = s.tx := rfl

@[simp] theorem decideOutputs_log : (s.decideOutputs).log = s.log := rfl

@[simp] theorem decideOutputs_roster : (s.decideOutputs).roster = s.roster := rfl

@[simp] theorem decideOutputs_view : (s.decideOutputs).view = s.view := rfl

@[simp] theorem decideOutputs_servo : (s.decideOutputs).servo = s.servo := rfl

@[simp] theorem decideOutputs_seq : (s.decideOutputs).seq = s.seq := rfl

@[simp] theorem decideOutputs_fault : (s.decideOutputs).fault = s.fault := rfl

@[simp] theorem decideOutputs_port : (s.decideOutputs).port = s.port := rfl

@[simp] theorem decideOutputs_events : (s.decideOutputs).events = s.events := rfl

@[simp] theorem decideOutputs_free : (s.decideOutputs).free = s.free := rfl

@[simp] theorem decideOutputs_dropped : (s.decideOutputs).dropped = s.dropped := rfl

@[simp] theorem decideOutputs_pending : (s.decideOutputs).pending = s.pending := rfl

@[simp] theorem decideOutputs_cfg : (s.decideOutputs).cfg = s.cfg := cfg_of_image (by simp)

@[simp] theorem decideOutputs_own : (s.decideOutputs).own = s.own := own_of_image (by simp)

@[simp] theorem boundary_pins : (s.boundary).pins = s.pins := by
  simp [State.boundary]

@[simp] theorem boundary_loader : (s.boundary).loader = s.loader := by
  simp [State.boundary]

@[simp] theorem boundary_image : (s.boundary).image = s.image := by
  simp [State.boundary]

@[simp] theorem boundary_line : (s.boundary).line = s.line := by
  simp [State.boundary]

@[simp] theorem boundary_fault : (s.boundary).fault = s.fault := by
  simp [State.boundary]

@[simp] theorem boundary_port : (s.boundary).port = s.port := by
  simp [State.boundary]

@[simp] theorem boundary_dropped : (s.boundary).dropped = s.dropped := by
  simp [State.boundary]

@[simp] theorem boundary_pending : (s.boundary).pending = s.pending := by
  simp [State.boundary]

@[simp] theorem boundary_cfg : (s.boundary).cfg = s.cfg := cfg_of_image (by simp)

@[simp] theorem boundary_own : (s.boundary).own = s.own := own_of_image (by simp)

@[simp] theorem openFrame_loader : (s.openFrame).loader = s.loader := rfl

@[simp] theorem openFrame_image : (s.openFrame).image = s.image := rfl

@[simp] theorem openFrame_carrier : (s.openFrame).carrier = s.carrier := rfl

@[simp] theorem openFrame_log : (s.openFrame).log = s.log := rfl

@[simp] theorem openFrame_roster : (s.openFrame).roster = s.roster := rfl

@[simp] theorem openFrame_view : (s.openFrame).view = s.view := rfl

@[simp] theorem openFrame_servo : (s.openFrame).servo = s.servo := rfl

@[simp] theorem openFrame_seq : (s.openFrame).seq = s.seq := rfl

@[simp] theorem openFrame_gate : (s.openFrame).gate = s.gate := rfl

@[simp] theorem openFrame_fault : (s.openFrame).fault = s.fault := rfl

@[simp] theorem openFrame_port : (s.openFrame).port = s.port := rfl

@[simp] theorem openFrame_events : (s.openFrame).events = s.events := rfl

@[simp] theorem openFrame_free : (s.openFrame).free = s.free := rfl

@[simp] theorem openFrame_dropped : (s.openFrame).dropped = s.dropped := rfl

@[simp] theorem openFrame_pending : (s.openFrame).pending = s.pending := rfl

@[simp] theorem openFrame_cfg : (s.openFrame).cfg = s.cfg := cfg_of_image (by simp)

@[simp] theorem openFrame_own : (s.openFrame).own = s.own := own_of_image (by simp)

@[simp] theorem startMark_pins (n : Nat) : (s.startMark n).pins = s.pins := rfl

@[simp] theorem startMark_loader (n : Nat) : (s.startMark n).loader = s.loader := rfl

@[simp] theorem startMark_image (n : Nat) : (s.startMark n).image = s.image := rfl

@[simp] theorem startMark_carrier (n : Nat) : (s.startMark n).carrier = s.carrier := rfl

@[simp] theorem startMark_log (n : Nat) : (s.startMark n).log = s.log := rfl

@[simp] theorem startMark_roster (n : Nat) : (s.startMark n).roster = s.roster := rfl

@[simp] theorem startMark_view (n : Nat) : (s.startMark n).view = s.view := rfl

@[simp] theorem startMark_servo (n : Nat) : (s.startMark n).servo = s.servo := rfl

@[simp] theorem startMark_seq (n : Nat) : (s.startMark n).seq = s.seq := rfl

@[simp] theorem startMark_gate (n : Nat) : (s.startMark n).gate = s.gate := rfl

@[simp] theorem startMark_fault (n : Nat) : (s.startMark n).fault = s.fault := rfl

@[simp] theorem startMark_port (n : Nat) : (s.startMark n).port = s.port := rfl

@[simp] theorem startMark_events (n : Nat) : (s.startMark n).events = s.events := rfl

@[simp] theorem startMark_free (n : Nat) : (s.startMark n).free = s.free := rfl

@[simp] theorem startMark_dropped (n : Nat) : (s.startMark n).dropped = s.dropped := rfl

@[simp] theorem startMark_pending (n : Nat) : (s.startMark n).pending = s.pending := rfl

@[simp] theorem startMark_cfg (n : Nat) : (s.startMark n).cfg = s.cfg := cfg_of_image (by simp)

@[simp] theorem startMark_own (n : Nat) : (s.startMark n).own = s.own := own_of_image (by simp)

@[simp] theorem failTransmit_loader (f : InFlight) (n : Nat) : (s.failTransmit f n).loader = s.loader := by
  simp [State.failTransmit]

@[simp] theorem failTransmit_image (f : InFlight) (n : Nat) : (s.failTransmit f n).image = s.image := by
  simp [State.failTransmit]

@[simp] theorem failTransmit_fault (f : InFlight) (n : Nat) : (s.failTransmit f n).fault = s.fault := by
  simp [State.failTransmit]

@[simp] theorem failTransmit_port (f : InFlight) (n : Nat) : (s.failTransmit f n).port = s.port := by
  simp [State.failTransmit]

@[simp] theorem failTransmit_dropped (f : InFlight) (n : Nat) : (s.failTransmit f n).dropped = s.dropped := by
  simp [State.failTransmit]

@[simp] theorem failTransmit_pending (f : InFlight) (n : Nat) : (s.failTransmit f n).pending = s.pending := by
  simp [State.failTransmit]

@[simp] theorem failTransmit_cfg (f : InFlight) (n : Nat) : (s.failTransmit f n).cfg = s.cfg := cfg_of_image (by simp)

@[simp] theorem failTransmit_own (f : InFlight) (n : Nat) : (s.failTransmit f n).own = s.own := own_of_image (by simp)

@[simp] theorem transmitError_loader (n : Nat) : (s.transmitError n).loader = s.loader := by
  unfold State.transmitError; split <;> (try split) <;> simp

@[simp] theorem transmitError_image (n : Nat) : (s.transmitError n).image = s.image := by
  unfold State.transmitError; split <;> (try split) <;> simp

@[simp] theorem transmitError_fault (n : Nat) : (s.transmitError n).fault = s.fault := by
  unfold State.transmitError; split <;> (try split) <;> simp

@[simp] theorem transmitError_port (n : Nat) : (s.transmitError n).port = s.port := by
  unfold State.transmitError; split <;> (try split) <;> simp

@[simp] theorem transmitError_dropped (n : Nat) : (s.transmitError n).dropped = s.dropped := by
  unfold State.transmitError; split <;> (try split) <;> simp

@[simp] theorem transmitError_pending (n : Nat) : (s.transmitError n).pending = s.pending := by
  unfold State.transmitError; split <;> (try split) <;> simp

@[simp] theorem transmitError_cfg (n : Nat) : (s.transmitError n).cfg = s.cfg := cfg_of_image (by simp)

@[simp] theorem transmitError_own (n : Nat) : (s.transmitError n).own = s.own := own_of_image (by simp)

@[simp] theorem loseArbitration_loader (f : InFlight) (n : Nat) : (s.loseArbitration f n).loader = s.loader := rfl

@[simp] theorem loseArbitration_image (f : InFlight) (n : Nat) : (s.loseArbitration f n).image = s.image := rfl

@[simp] theorem loseArbitration_carrier (f : InFlight) (n : Nat) : (s.loseArbitration f n).carrier = s.carrier := rfl

@[simp] theorem loseArbitration_log (f : InFlight) (n : Nat) : (s.loseArbitration f n).log = s.log := rfl

@[simp] theorem loseArbitration_roster (f : InFlight) (n : Nat) : (s.loseArbitration f n).roster = s.roster := rfl

@[simp] theorem loseArbitration_view (f : InFlight) (n : Nat) : (s.loseArbitration f n).view = s.view := rfl

@[simp] theorem loseArbitration_servo (f : InFlight) (n : Nat) : (s.loseArbitration f n).servo = s.servo := rfl

@[simp] theorem loseArbitration_seq (f : InFlight) (n : Nat) : (s.loseArbitration f n).seq = s.seq := rfl

@[simp] theorem loseArbitration_gate (f : InFlight) (n : Nat) : (s.loseArbitration f n).gate = s.gate := rfl

@[simp] theorem loseArbitration_fault (f : InFlight) (n : Nat) : (s.loseArbitration f n).fault = s.fault := rfl

@[simp] theorem loseArbitration_port (f : InFlight) (n : Nat) : (s.loseArbitration f n).port = s.port := rfl

@[simp] theorem loseArbitration_events (f : InFlight) (n : Nat) : (s.loseArbitration f n).events = s.events := rfl

@[simp] theorem loseArbitration_free (f : InFlight) (n : Nat) : (s.loseArbitration f n).free = s.free := rfl

@[simp] theorem loseArbitration_dropped (f : InFlight) (n : Nat) : (s.loseArbitration f n).dropped = s.dropped := rfl

@[simp] theorem loseArbitration_pending (f : InFlight) (n : Nat) : (s.loseArbitration f n).pending = s.pending := rfl

@[simp] theorem loseArbitration_cfg (f : InFlight) (n : Nat) : (s.loseArbitration f n).cfg = s.cfg := cfg_of_image (by simp)

@[simp] theorem loseArbitration_own (f : InFlight) (n : Nat) : (s.loseArbitration f n).own = s.own := own_of_image (by simp)

@[simp] theorem answerCompletion_pins (k : FrameKind) : (s.answerCompletion k).pins = s.pins := by
  unfold State.answerCompletion; split <;> (try split) <;> simp

@[simp] theorem answerCompletion_loader (k : FrameKind) : (s.answerCompletion k).loader = s.loader := by
  unfold State.answerCompletion; split <;> (try split) <;> simp

@[simp] theorem answerCompletion_image (k : FrameKind) : (s.answerCompletion k).image = s.image := by
  unfold State.answerCompletion; split <;> (try split) <;> simp

@[simp] theorem answerCompletion_line (k : FrameKind) : (s.answerCompletion k).line = s.line := by
  unfold State.answerCompletion; split <;> (try split) <;> simp

@[simp] theorem answerCompletion_fault (k : FrameKind) : (s.answerCompletion k).fault = s.fault := by
  unfold State.answerCompletion; split <;> (try split) <;> simp

@[simp] theorem answerCompletion_port (k : FrameKind) : (s.answerCompletion k).port = s.port := by
  unfold State.answerCompletion; split <;> (try split) <;> simp

@[simp] theorem answerCompletion_free (k : FrameKind) : (s.answerCompletion k).free = s.free := by
  unfold State.answerCompletion; split <;> (try split) <;> simp

@[simp] theorem answerCompletion_dropped (k : FrameKind) : (s.answerCompletion k).dropped = s.dropped := by
  unfold State.answerCompletion; split <;> (try split) <;> simp

@[simp] theorem answerCompletion_pending (k : FrameKind) : (s.answerCompletion k).pending = s.pending := by
  unfold State.answerCompletion; split <;> (try split) <;> simp

@[simp] theorem answerCompletion_cfg (k : FrameKind) : (s.answerCompletion k).cfg = s.cfg := cfg_of_image (by simp)

@[simp] theorem answerCompletion_own (k : FrameKind) : (s.answerCompletion k).own = s.own := own_of_image (by simp)

@[simp] theorem completeFrame_loader (f : InFlight) : (s.completeFrame f).loader = s.loader := by
  simp [State.completeFrame]

@[simp] theorem completeFrame_image (f : InFlight) : (s.completeFrame f).image = s.image := by
  simp [State.completeFrame]

@[simp] theorem completeFrame_fault (f : InFlight) : (s.completeFrame f).fault = s.fault := by
  simp [State.completeFrame]

@[simp] theorem completeFrame_port (f : InFlight) : (s.completeFrame f).port = s.port := by
  simp [State.completeFrame]

@[simp] theorem completeFrame_free (f : InFlight) : (s.completeFrame f).free = s.free := by
  simp [State.completeFrame]

@[simp] theorem completeFrame_dropped (f : InFlight) : (s.completeFrame f).dropped = s.dropped := by
  simp [State.completeFrame]

@[simp] theorem completeFrame_pending (f : InFlight) : (s.completeFrame f).pending = s.pending := by
  simp [State.completeFrame]

@[simp] theorem completeFrame_cfg (f : InFlight) : (s.completeFrame f).cfg = s.cfg := cfg_of_image (by simp)

@[simp] theorem completeFrame_own (f : InFlight) : (s.completeFrame f).own = s.own := own_of_image (by simp)

@[simp] theorem lineRests_loader : (s.lineRests).loader = s.loader := rfl

@[simp] theorem lineRests_image : (s.lineRests).image = s.image := rfl

@[simp] theorem lineRests_carrier : (s.lineRests).carrier = s.carrier := rfl

@[simp] theorem lineRests_log : (s.lineRests).log = s.log := rfl

@[simp] theorem lineRests_roster : (s.lineRests).roster = s.roster := rfl

@[simp] theorem lineRests_view : (s.lineRests).view = s.view := rfl

@[simp] theorem lineRests_servo : (s.lineRests).servo = s.servo := rfl

@[simp] theorem lineRests_seq : (s.lineRests).seq = s.seq := rfl

@[simp] theorem lineRests_gate : (s.lineRests).gate = s.gate := rfl

@[simp] theorem lineRests_fault : (s.lineRests).fault = s.fault := rfl

@[simp] theorem lineRests_port : (s.lineRests).port = s.port := rfl

@[simp] theorem lineRests_events : (s.lineRests).events = s.events := rfl

@[simp] theorem lineRests_free : (s.lineRests).free = s.free := rfl

@[simp] theorem lineRests_dropped : (s.lineRests).dropped = s.dropped := rfl

@[simp] theorem lineRests_pending : (s.lineRests).pending = s.pending := rfl

@[simp] theorem lineRests_cfg : (s.lineRests).cfg = s.cfg := cfg_of_image (by simp)

@[simp] theorem lineRests_own : (s.lineRests).own = s.own := own_of_image (by simp)

@[simp] theorem recovered_loader : (s.recovered).loader = s.loader := rfl

@[simp] theorem recovered_image : (s.recovered).image = s.image := rfl

@[simp] theorem recovered_carrier : (s.recovered).carrier = s.carrier := rfl

@[simp] theorem recovered_log : (s.recovered).log = s.log := rfl

@[simp] theorem recovered_roster : (s.recovered).roster = s.roster := rfl

@[simp] theorem recovered_view : (s.recovered).view = s.view := rfl

@[simp] theorem recovered_servo : (s.recovered).servo = s.servo := rfl

@[simp] theorem recovered_seq : (s.recovered).seq = s.seq := rfl

@[simp] theorem recovered_gate : (s.recovered).gate = s.gate := rfl

@[simp] theorem recovered_fault : (s.recovered).fault = s.fault := rfl

@[simp] theorem recovered_port : (s.recovered).port = s.port := rfl

@[simp] theorem recovered_events : (s.recovered).events = s.events := rfl

@[simp] theorem recovered_free : (s.recovered).free = s.free := rfl

@[simp] theorem recovered_dropped : (s.recovered).dropped = s.dropped := rfl

@[simp] theorem recovered_pending : (s.recovered).pending = s.pending := rfl

@[simp] theorem recovered_cfg : (s.recovered).cfg = s.cfg := cfg_of_image (by simp)

@[simp] theorem recovered_own : (s.recovered).own = s.own := own_of_image (by simp)

@[simp] theorem endMark_loader (n : Nat) : (s.endMark n).loader = s.loader := rfl

@[simp] theorem endMark_image (n : Nat) : (s.endMark n).image = s.image := rfl

@[simp] theorem endMark_carrier (n : Nat) : (s.endMark n).carrier = s.carrier := rfl

@[simp] theorem endMark_log (n : Nat) : (s.endMark n).log = s.log := rfl

@[simp] theorem endMark_roster (n : Nat) : (s.endMark n).roster = s.roster := rfl

@[simp] theorem endMark_view (n : Nat) : (s.endMark n).view = s.view := rfl

@[simp] theorem endMark_servo (n : Nat) : (s.endMark n).servo = s.servo := rfl

@[simp] theorem endMark_seq (n : Nat) : (s.endMark n).seq = s.seq := rfl

@[simp] theorem endMark_gate (n : Nat) : (s.endMark n).gate = s.gate := rfl

@[simp] theorem endMark_fault (n : Nat) : (s.endMark n).fault = s.fault := rfl

@[simp] theorem endMark_port (n : Nat) : (s.endMark n).port = s.port := rfl

@[simp] theorem endMark_events (n : Nat) : (s.endMark n).events = s.events := rfl

@[simp] theorem endMark_free (n : Nat) : (s.endMark n).free = s.free := rfl

@[simp] theorem endMark_dropped (n : Nat) : (s.endMark n).dropped = s.dropped := rfl

@[simp] theorem endMark_pending (n : Nat) : (s.endMark n).pending = s.pending := rfl

@[simp] theorem endMark_cfg (n : Nat) : (s.endMark n).cfg = s.cfg := cfg_of_image (by simp)

@[simp] theorem endMark_own (n : Nat) : (s.endMark n).own = s.own := own_of_image (by simp)

@[simp] theorem moveGrid_pins : (s.moveGrid).pins = s.pins := rfl

@[simp] theorem moveGrid_loader : (s.moveGrid).loader = s.loader := rfl

@[simp] theorem moveGrid_image : (s.moveGrid).image = s.image := rfl

@[simp] theorem moveGrid_carrier : (s.moveGrid).carrier = s.carrier := rfl

@[simp] theorem moveGrid_log : (s.moveGrid).log = s.log := rfl

@[simp] theorem moveGrid_roster : (s.moveGrid).roster = s.roster := rfl

@[simp] theorem moveGrid_view : (s.moveGrid).view = s.view := rfl

@[simp] theorem moveGrid_servo : (s.moveGrid).servo = s.servo := rfl

@[simp] theorem moveGrid_seq : (s.moveGrid).seq = s.seq := rfl

@[simp] theorem moveGrid_gate : (s.moveGrid).gate = s.gate := rfl

@[simp] theorem moveGrid_fault : (s.moveGrid).fault = s.fault := rfl

@[simp] theorem moveGrid_port : (s.moveGrid).port = s.port := rfl

@[simp] theorem moveGrid_events : (s.moveGrid).events = s.events := rfl

@[simp] theorem moveGrid_free : (s.moveGrid).free = s.free := rfl

@[simp] theorem moveGrid_dropped : (s.moveGrid).dropped = s.dropped := rfl

@[simp] theorem moveGrid_pending : (s.moveGrid).pending = s.pending := rfl

@[simp] theorem moveGrid_cfg : (s.moveGrid).cfg = s.cfg := cfg_of_image (by simp)

@[simp] theorem moveGrid_own : (s.moveGrid).own = s.own := own_of_image (by simp)

@[simp] theorem chosen_pins : (s.chosen).pins = s.pins := rfl

@[simp] theorem chosen_loader : (s.chosen).loader = s.loader := rfl

@[simp] theorem chosen_image : (s.chosen).image = s.image := rfl

@[simp] theorem chosen_carrier : (s.chosen).carrier = s.carrier := rfl

@[simp] theorem chosen_line : (s.chosen).line = s.line := rfl

@[simp] theorem chosen_tx : (s.chosen).tx = s.tx := rfl

@[simp] theorem chosen_log : (s.chosen).log = s.log := rfl

@[simp] theorem chosen_roster : (s.chosen).roster = s.roster := rfl

@[simp] theorem chosen_view : (s.chosen).view = s.view := rfl

@[simp] theorem chosen_servo : (s.chosen).servo = s.servo := rfl

@[simp] theorem chosen_seq : (s.chosen).seq = s.seq := rfl

@[simp] theorem chosen_gate : (s.chosen).gate = s.gate := rfl

@[simp] theorem chosen_fault : (s.chosen).fault = s.fault := rfl

@[simp] theorem chosen_port : (s.chosen).port = s.port := rfl

@[simp] theorem chosen_events : (s.chosen).events = s.events := rfl

@[simp] theorem chosen_dropped : (s.chosen).dropped = s.dropped := rfl

@[simp] theorem chosen_pending : (s.chosen).pending = s.pending := rfl

@[simp] theorem chosen_cfg : (s.chosen).cfg = s.cfg := cfg_of_image (by simp)

@[simp] theorem chosen_own : (s.chosen).own = s.own := own_of_image (by simp)

@[simp] theorem offerLeave_pins : (s.offerLeave).pins = s.pins := rfl

@[simp] theorem offerLeave_loader : (s.offerLeave).loader = s.loader := rfl

@[simp] theorem offerLeave_image : (s.offerLeave).image = s.image := rfl

@[simp] theorem offerLeave_carrier : (s.offerLeave).carrier = s.carrier := rfl

@[simp] theorem offerLeave_line : (s.offerLeave).line = s.line := rfl

@[simp] theorem offerLeave_log : (s.offerLeave).log = s.log := rfl

@[simp] theorem offerLeave_roster : (s.offerLeave).roster = s.roster := rfl

@[simp] theorem offerLeave_view : (s.offerLeave).view = s.view := rfl

@[simp] theorem offerLeave_servo : (s.offerLeave).servo = s.servo := rfl

@[simp] theorem offerLeave_seq : (s.offerLeave).seq = s.seq := rfl

@[simp] theorem offerLeave_gate : (s.offerLeave).gate = s.gate := rfl

@[simp] theorem offerLeave_fault : (s.offerLeave).fault = s.fault := rfl

@[simp] theorem offerLeave_port : (s.offerLeave).port = s.port := rfl

@[simp] theorem offerLeave_events : (s.offerLeave).events = s.events := rfl

@[simp] theorem offerLeave_free : (s.offerLeave).free = s.free := rfl

@[simp] theorem offerLeave_dropped : (s.offerLeave).dropped = s.dropped := rfl

@[simp] theorem offerLeave_pending : (s.offerLeave).pending = s.pending := rfl

@[simp] theorem offerLeave_cfg : (s.offerLeave).cfg = s.cfg := cfg_of_image (by simp)

@[simp] theorem offerLeave_own : (s.offerLeave).own = s.own := own_of_image (by simp)

/-- A record kept moves nothing but `dropped`. -/
theorem keepDropped_frame (b : State) (r : RxRecord) :
    s.keepDropped b r = { s with dropped := (s.keepDropped b r).dropped } := by
  unfold State.keepDropped; split <;> rfl

@[simp] theorem keepDropped_pins (b : State) (r : RxRecord) : (s.keepDropped b r).pins = s.pins := by
  rw [keepDropped_frame]

@[simp] theorem keepDropped_loader (b : State) (r : RxRecord) : (s.keepDropped b r).loader = s.loader := by
  rw [keepDropped_frame]

@[simp] theorem keepDropped_image (b : State) (r : RxRecord) : (s.keepDropped b r).image = s.image := by
  rw [keepDropped_frame]

@[simp] theorem keepDropped_carrier (b : State) (r : RxRecord) : (s.keepDropped b r).carrier = s.carrier := by
  rw [keepDropped_frame]

@[simp] theorem keepDropped_line (b : State) (r : RxRecord) : (s.keepDropped b r).line = s.line := by
  rw [keepDropped_frame]

@[simp] theorem keepDropped_tx (b : State) (r : RxRecord) : (s.keepDropped b r).tx = s.tx := by
  rw [keepDropped_frame]

@[simp] theorem keepDropped_log (b : State) (r : RxRecord) : (s.keepDropped b r).log = s.log := by
  rw [keepDropped_frame]

@[simp] theorem keepDropped_roster (b : State) (r : RxRecord) : (s.keepDropped b r).roster = s.roster := by
  rw [keepDropped_frame]

@[simp] theorem keepDropped_view (b : State) (r : RxRecord) : (s.keepDropped b r).view = s.view := by
  rw [keepDropped_frame]

@[simp] theorem keepDropped_servo (b : State) (r : RxRecord) : (s.keepDropped b r).servo = s.servo := by
  rw [keepDropped_frame]

@[simp] theorem keepDropped_seq (b : State) (r : RxRecord) : (s.keepDropped b r).seq = s.seq := by
  rw [keepDropped_frame]

@[simp] theorem keepDropped_gate (b : State) (r : RxRecord) : (s.keepDropped b r).gate = s.gate := by
  rw [keepDropped_frame]

@[simp] theorem keepDropped_fault (b : State) (r : RxRecord) : (s.keepDropped b r).fault = s.fault := by
  rw [keepDropped_frame]

@[simp] theorem keepDropped_port (b : State) (r : RxRecord) : (s.keepDropped b r).port = s.port := by
  rw [keepDropped_frame]

@[simp] theorem keepDropped_events (b : State) (r : RxRecord) : (s.keepDropped b r).events = s.events := by
  rw [keepDropped_frame]

@[simp] theorem keepDropped_free (b : State) (r : RxRecord) : (s.keepDropped b r).free = s.free := by
  rw [keepDropped_frame]

@[simp] theorem keepDropped_pending (b : State) (r : RxRecord) : (s.keepDropped b r).pending = s.pending := by
  rw [keepDropped_frame]

@[simp] theorem keepDropped_cfg (b : State) (r : RxRecord) : (s.keepDropped b r).cfg = s.cfg :=
  cfg_of_image (by simp)

@[simp] theorem keepDropped_own (b : State) (r : RxRecord) : (s.keepDropped b r).own = s.own :=
  own_of_image (by simp)

/-! ### What the simple updates set -/

@[simp] theorem raise_events (e : EventRecord) : (s.raise e).events = offerEvent s.events e := rfl

@[simp] theorem withdraw_seq : s.withdraw.seq = { s.seq with permission := false } := rfl

@[simp] theorem withdraw_gate : s.withdraw.gate = s.gate.withdraw := rfl

@[simp] theorem setEntry_roster (i : Identity) (e : RosterEntry) :
    (s.setEntry i e).roster = s.roster.set i.val e := rfl

@[simp] theorem reply_answer (c : Byte) (a : BitVec 16) (x : StatusCode) (r : List Byte) :
    (s.reply c a x r).port.answer = some ⟨x, r⟩ := rfl

@[simp] theorem atSample_lineRx (b : Bit) : (s.atSample b).pins.lineRx = b := rfl

@[simp] theorem endOfFrame_mode (n : Nat) : (s.endOfFrame n).line.mode = .hunt := rfl

@[simp] theorem endOfFrame_tx (n : Nat) :
    (s.endOfFrame n).tx = { s.tx with idleCount := n, linkErr := 0 } := rfl

@[simp] theorem enterClearing_seq (x : SyncState) :
    (s.enterClearing x).seq = ⟨x, 0, 0, false, false⟩ := rfl

@[simp] theorem enterClearing_carrier (x : SyncState) :
    (s.enterClearing x).carrier = { s.carrier with acc := 0 } := rfl

@[simp] theorem enterClearing_log (x : SyncState) : (s.enterClearing x).log = [] := rfl

@[simp] theorem enterClearing_roster (x : SyncState) :
    (s.enterClearing x).roster = clearedRoster s.own := rfl

@[simp] theorem enterClearing_gate (x : SyncState) :
    (s.enterClearing x).gate = s.gate.withdraw := rfl

@[simp] theorem enterClearing_queue (x : SyncState) :
    (s.enterClearing x).tx.queue = TxQueue.empty := rfl

@[simp] theorem park_seq (d : Byte) : (s.park d).seq = ⟨.parked, 0, 0, false, false⟩ := rfl

@[simp] theorem enterHoldover_sync : s.enterHoldover.seq.sync = .holdover := rfl

end Sys2Proof.Machine
end

