-- ==== Sys2Proof/Laws/Operations.lean ====
section
/-! SUPPORT. What each shared operation can do, said once: free orders, the event queue, maps, phases, faults, the clearing entry, the link error counter and what follows it. -/

namespace Sys2Proof.Machine

/-! ### Free orders and the event queue (R172) -/

theorem arrange_perm {α : Type} (k : Nat) (l : List α) : (arrange k l).Perm l := by
  induction l generalizing k with
  | nil => exact List.Perm.refl _
  | cons x l ih =>
    cases l with
    | nil => exact List.Perm.refl _
    | cons y l =>
      simp only [arrange]
      refine (List.perm_insertIdx x _ ?_).trans ((ih _).cons x)
      have h := (ih (k / (l.length + 2))).length_eq
      have : k % (l.length + 2) < l.length + 2 := Nat.mod_lt k (by omega)
      simp only [List.length_cons] at h
      omega

theorem markNewest_length (q : List EventRecord) : (markNewest q).length = q.length := by
  induction q with
  | nil => rfl
  | cons e q ih => cases q with
    | nil => rfl
    | cons f q => simpa [markNewest] using ih

theorem markNewest_unflagged (q : List EventRecord) :
    (markNewest q).map EventRecord.unflagged = q.map EventRecord.unflagged := by
  induction q with
  | nil => rfl
  | cons e q ih => cases q with
    | nil => rfl
    | cons f q => simpa [markNewest] using ih

theorem offerEvent_length_le {q : List EventRecord} (e : EventRecord) (h : q.length ≤ 8) :
    (offerEvent q e).length ≤ 8 := by
  unfold offerEvent
  split
  · simp; omega
  · rwa [markNewest_length]

theorem offerEvent_keeps_order (q : List EventRecord) (e : EventRecord) :
    q.map EventRecord.unflagged <+: (offerEvent q e).map EventRecord.unflagged := by
  unfold offerEvent
  split
  · simp
  · rw [markNewest_unflagged]

theorem offerEvent_of_room {q : List EventRecord} (e : EventRecord) (h : q.length < 8) :
    offerEvent q e = q ++ [{ e with moreLost := false }] := by simp [offerEvent, h]

theorem offers_length_le (l : List EventRecord) {q : List EventRecord} (h : q.length ≤ 8) :
    (l.foldl offerEvent q).length ≤ 8 := by
  induction l generalizing q with
  | nil => exact h
  | cons e l ih => exact ih (offerEvent_length_le e h)

theorem offers_keep_order (l q : List EventRecord) :
    q.map EventRecord.unflagged <+: (l.foldl offerEvent q).map EventRecord.unflagged := by
  induction l generalizing q with
  | nil => exact List.prefix_rfl
  | cons e l ih => exact (offerEvent_keeps_order q e).trans (ih _)

theorem offers_of_room (l : List EventRecord) {q : List EventRecord} (h : l.length + q.length ≤ 8) :
    l.foldl offerEvent q = q ++ l.map EventRecord.unflagged := by
  induction l generalizing q with
  | nil => simp
  | cons e l ih =>
    simp only [List.length_cons] at h
    rw [List.foldl_cons, offerEvent_of_room e (by omega), ih (by simp; omega)]
    simp [EventRecord.unflagged]

/-- The events of one instant are offered whole, one after another, in some order. -/
theorem raiseAll_offers (s : State) (l : List EventRecord) :
    ∃ l' : List EventRecord, l'.Perm l ∧ (s.raiseAll l).events = l'.foldl offerEvent s.events := by
  rcases l with _ | ⟨e, _ | ⟨f, l⟩⟩
  · exact ⟨[], List.Perm.refl _, rfl⟩
  · exact ⟨[e], List.Perm.refl _, rfl⟩
  · exact ⟨_, arrange_perm _ _, rfl⟩

theorem raiseAll_length_le (s : State) (l : List EventRecord) (h : s.events.length ≤ 8) :
    (s.raiseAll l).events.length ≤ 8 := by
  obtain ⟨l', -, e⟩ := raiseAll_offers s l
  rw [e]; exact offers_length_le l' h

theorem raiseAll_keeps_order (s : State) (l : List EventRecord) :
    s.events.map EventRecord.unflagged <+: (s.raiseAll l).events.map EventRecord.unflagged := by
  obtain ⟨l', -, e⟩ := raiseAll_offers s l
  rw [e]; exact offers_keep_order l' _

theorem mem_raiseAll_of_room {s : State} {l : List EventRecord} {e : EventRecord} (he : e ∈ l)
    (h : l.length + s.events.length ≤ 8) :
    e.unflagged ∈ (s.raiseAll l).events.map EventRecord.unflagged := by
  obtain ⟨l', hp, hl⟩ := raiseAll_offers s l
  rw [hl, offers_of_room l' (by rw [hp.length_eq]; exact h)]
  simp only [List.map_append, List.mem_append, List.mem_map]
  exact .inr ⟨e.unflagged, ⟨e, hp.mem_iff.mpr he, rfl⟩, rfl⟩

@[simp] theorem raiseAll_nil (s : State) : s.raiseAll [] = s := rfl

@[simp] theorem raiseAll_one (s : State) (e : EventRecord) : s.raiseAll [e] = s.raise e := rfl

/-- Two events of one instant stand in the queue in one of the two orders. -/
theorem raiseAll_two (s : State) (e f : EventRecord) :
    (s.raiseAll [e, f]).events = offerEvent (offerEvent s.events e) f ∨
      (s.raiseAll [e, f]).events = offerEvent (offerEvent s.events f) e := by
  obtain ⟨l', hp, hl⟩ := raiseAll_offers s [e, f]
  rw [hl]
  rcases List.perm_pair.mp hp with h | h <;> simp [h]

/-! ### Station maps (R83, R96) -/

@[simp] theorem lists_mapOf (f : Identity → Bool) (i : Identity) : lists (mapOf f) i = f i := by
  simp [lists, mapOf]

@[simp] theorem lists_ownMap (own i : Identity) : lists (ownMap own) i = decide (i = own) := by
  simp [lists, ownMap]

theorem lists_heardMap (s : State) (i : Identity) : lists s.heardMap i = true ↔
    i = s.own ∨ s.roster[i].presence = .heard ∨ s.roster[i].presence = .member := by
  simp [State.heardMap, or_assoc]

theorem lists_memberMap (s : State) (i : Identity) : lists s.memberMap i = true ↔
    i = s.own ∨ s.roster[i].presence = .member := by
  simp [State.memberMap]

theorem map_ext {a b : StationMap} (h : ∀ i : Identity, lists a i = lists b i) : a = b :=
  BitVec.eq_of_getLsbD_eq fun i hi => h ⟨i, hi⟩

theorem clearedRoster_get (own i : Identity) : (clearedRoster own)[i] =
    if i = own then RosterEntry.self else RosterEntry.absent := by
  simp [clearedRoster, Fin.getElem_fin]

theorem complete_iff (s : State) :
    s.complete = true ↔ ∀ i : Identity, s.roster[i].presence ≠ .heard := by
  simp [State.complete]

/-! ### Phases (scope, Conventions) -/

theorem reduce_lt {p : Nat} (hp : 0 < p) (x : Int) : reduce p x < p := by
  have := Int.emod_nonneg x (b := (p : Int)) (by omega)
  have := Int.emod_lt_of_pos x (b := (p : Int)) (by omega)
  simp only [reduce]; omega

theorem reduce_cast {p : Nat} (hp : 0 < p) (x : Int) : (reduce p x : Int) = x % p := by
  have := Int.emod_nonneg x (b := (p : Int)) (by omega)
  simp only [reduce]; omega

theorem wrapped_range {p : Nat} (hp : 0 < p) (x : Int) :
    -(p : Int) ≤ 2 * wrapped p x ∧ 2 * wrapped p x < p := by
  have := Int.emod_nonneg x (b := (p : Int)) (by omega)
  have := Int.emod_lt_of_pos x (b := (p : Int)) (by omega)
  simp only [wrapped]; split <;> omega

theorem wrapped_dvd (p : Nat) (x : Int) : (p : Int) ∣ x - wrapped p x := by
  have h := Int.emod_add_mul_ediv x p
  simp only [wrapped]; split
  · exact ⟨x / p + 1, by rw [Int.mul_add]; omega⟩
  · exact ⟨x / p, by omega⟩

/-- A wrapped difference is the one number of its range in its class. -/
theorem wrapped_unique {p : Nat} (hp : 0 < p) {x y : Int} (hd : (p : Int) ∣ x - y)
    (hl : -(p : Int) ≤ 2 * y) (hu : 2 * y < p) : wrapped p x = y := by
  obtain ⟨hl', hu'⟩ := wrapped_range hp x
  obtain ⟨k, hk⟩ : (p : Int) ∣ wrapped p x - y := by
    have := Int.dvd_sub hd (wrapped_dvd p x)
    have e : x - y - (x - wrapped p x) = wrapped p x - y := by omega
    rwa [e] at this
  have : k = 0 := by
    rcases lt_trichotomy k 0 with h | h | h
    · have : (p : Int) * k ≤ p * (-1) := Int.mul_le_mul_of_nonneg_left (by omega) (by omega)
      omega
    · exact h
    · have : (p : Int) * 1 ≤ p * k := Int.mul_le_mul_of_nonneg_left (by omega) (by omega)
      omega
  subst this; simp at hk; omega

theorem clampTo_range (m : Nat) (x : Int) : -(m : Int) ≤ clampTo m x ∧ clampTo m x ≤ m := by
  simp only [clampTo]; omega

theorem clampTo_natAbs (m : Nat) (x : Int) : (clampTo m x).natAbs ≤ m := by
  have := clampTo_range m x; omega

/-! ### Counts (R3) -/

/-- A tick's counts and the accumulator left, from a trim within its range. -/
theorem countsOf_spec {trim : Int} {acc : Nat} (ht : trim.natAbs ≤ 2048) (ha : acc < 65536) :
    (countsOf trim acc).1 ≤ 2 ∧ (countsOf trim acc).2 < 65536 ∧
      (acc : Int) + trim = 65536 * ((countsOf trim acc).1 - 1) + (countsOf trim acc).2 := by
  simp only [countsOf]; split
  · refine ⟨by simp, ?_, ?_⟩ <;> simp <;> omega
  · split
    · refine ⟨by simp, ?_, ?_⟩ <;> simp <;> omega
    · refine ⟨by simp, ?_, ?_⟩ <;> simp <;> omega

/-! ### Faults (R157 to R159, R162) -/

theorem takeFault_tripped {s : State} (c : FaultCause) (h : s.gate.state = .tripped) :
    s.takeFault c = { s with fault := { s.fault with repeats := min 15 (s.fault.repeats + 1) } } := by
  simp [State.takeFault, h]

theorem takeFault_untripped {s : State} (c : FaultCause) (h : s.gate.state ≠ .tripped) :
    s.takeFault c = { s with
      gate := { s.gate with state := .tripped, hi := false, lo := false }
      fault := { s.fault with cause := c, stamp := s.carrier.cycle, repeats := 0 } } := by
  simp [State.takeFault, Gate.tripped, h]

theorem takeFault_trips (s : State) (c : FaultCause) : (s.takeFault c).gate.state = .tripped := by
  unfold State.takeFault; split
  · assumption
  · rfl

/-! ### The clearing entry (R122) -/

theorem slotTarget_alone (p : Nat) (own : Identity) : slotTarget p (ownMap own) own = 0 := by
  have : rankIn (ownMap own) own = 0 := by
    simp only [rankIn, List.countP_eq_zero, lists_ownMap]
    intro i _ h
    simp only [Bool.and_eq_true, decide_eq_true_eq] at h
    exact absurd h.2 (by simp [h.1])
  simp [slotTarget, this]

theorem enterClearing_cleared (s : State) (x : SyncState) : Cleared (s.enterClearing x) where
  queue := rfl
  roster := rfl
  log := rfl
  adopted := rfl
  previous := rfl
  settle := rfl
  target := slotTarget_alone _ _
  servo := ⟨rfl, rfl, rfl, rfl, rfl⟩
  fraction := rfl
  counts := ⟨rfl, rfl, rfl⟩
  permission := rfl

/-- What `Cleared` speaks of is untouched by events. -/
theorem raise_cleared {s : State} (h : Cleared s) (e : EventRecord) : Cleared (s.raise e) where
  queue := h.queue
  roster := h.roster
  log := h.log
  adopted := h.adopted
  previous := h.previous
  settle := h.settle
  target := h.target
  servo := h.servo
  fraction := h.fraction
  counts := h.counts
  permission := h.permission

/-- The record kept is no part of what a clearing entry clears. -/
theorem dropped_cleared {s : State} (h : Cleared s) (d : Option DroppedRecord) :
    Cleared { s with dropped := d } :=
  ⟨h.queue, h.roster, h.log, h.adopted, h.previous, h.settle, h.target, h.servo, h.fraction, h.counts,
    h.permission⟩

theorem raiseAll_cleared {s : State} (h : Cleared s) (l : List EventRecord) :
    Cleared (s.raiseAll l) := by
  have ho : (s.raiseAll l).own = s.own := by simp
  exact {
    queue := by simpa using h.queue
    roster := by simpa using h.roster
    log := by simpa using h.log
    adopted := by simpa using h.adopted
    previous := by simpa using h.previous
    settle := by simpa using h.settle
    target := by simpa using h.target
    servo := by simpa using h.servo
    fraction := by simpa using h.fraction
    counts := by simpa using h.counts
    permission := by simpa using h.permission }

theorem park_cleared (s : State) (d : Byte) : Cleared (s.park d) :=
  raise_cleared (enterClearing_cleared s .parked) _

/-! ### The link error counter (R53, R54) -/

/-- An error counted: the counter is at its limit and stays, rises below it, or reaches it with link
down. -/
theorem countError_cases (s : State) (d : Byte) :
    (s.cfg.linkErrLimit ≤ s.tx.linkErr ∧ s.countError d = s) ∨
    (s.tx.linkErr + 1 < s.cfg.linkErrLimit ∧
      s.countError d = { s with tx := { s.tx with linkErr := s.tx.linkErr + 1 } }) ∨
    (s.tx.linkErr + 1 = s.cfg.linkErrLimit ∧
      s.countError d = { s with tx := { s.tx with linkErr := s.tx.linkErr + 1 } }.linkDown d) := by
  simp only [State.countError, State.linkAtLimit, State.errorReachesLimit]
  by_cases h1 : s.cfg.linkErrLimit ≤ s.tx.linkErr
  · simp [h1]
  · by_cases h2 : s.cfg.linkErrLimit ≤ s.tx.linkErr + 1
    · refine .inr (.inr ⟨by omega, ?_⟩)
      simp [h1, h2]
    · refine .inr (.inl ⟨by omega, ?_⟩)
      simp [h1, h2]

/-- An error that does not reach the limit moves the counter alone. -/
theorem countError_below {s : State} (d : Byte) (h : s.errorReachesLimit = false) :
    s.countError d = { s with tx := { s.tx with
      linkErr := if s.tx.linkErr < s.cfg.linkErrLimit then s.tx.linkErr + 1 else s.tx.linkErr } } := by
  simp only [State.errorReachesLimit, Bool.and_eq_false_iff, decide_eq_false_iff_not] at h
  rcases countError_cases s d with ⟨h1, e⟩ | ⟨h1, e⟩ | ⟨h1, -⟩
  · rw [e, if_neg (by omega)]
  · rw [e, if_pos (by omega)]
  · omega

/-- The frame in flight, LINE_TX and the idle count are not the sequencer's. -/
theorem answerLinkDown_tx (s : State) : s.answerLinkDown.1.tx = { s.tx with
    queue := s.answerLinkDown.1.tx.queue, linkErr := s.answerLinkDown.1.tx.linkErr } := by
  unfold State.answerLinkDown; split <;> (try split) <;> rfl

theorem linkDown_tx (s : State) (d : Byte) : (s.linkDown d).tx = s.answerLinkDown.1.tx := by
  simp [State.linkDown]

/-! ### The arrival log (R62) -/

theorem storeRecord_senders (log : List ArrivalRecord) (r : ArrivalRecord) :
    (storeRecord log r).map (·.sender) =
      if r.sender ∈ log.map (·.sender) then log.map (·.sender)
      else log.map (·.sender) ++ [r.sender] := by
  unfold storeRecord
  by_cases h : ∃ x ∈ log, x.sender = r.sender
  · rw [if_pos (by simpa using h), if_pos (by simpa using h)]
    rw [List.map_map]
    apply List.map_congr_left
    intro x _
    simp only [Function.comp_apply]; split
    · simp_all
    · rfl
  · rw [if_neg (by simpa using h), if_neg (by simpa using h)]; simp

theorem mem_storeRecord {log : List ArrivalRecord} {r x : ArrivalRecord}
    (h : x ∈ storeRecord log r) : x = r ∨ x ∈ log := by
  unfold storeRecord at h; split at h
  · obtain ⟨y, hy, e⟩ := List.mem_map.mp h
    split at e
    · exact .inl e.symm
    · exact .inr (e ▸ hy)
  · rcases List.mem_append.mp h with h | h
    · exact .inr h
    · exact .inl (by simpa using h)

/-- A record fed with bits keeps its edge: age, sample and own mark (R24). -/
theorem feed_keeps (l : List Bit) (r : RxRecord) : (l.foldl RxRecord.feed r).age = r.age ∧
    (l.foldl RxRecord.feed r).sample = r.sample ∧ (l.foldl RxRecord.feed r).own = r.own := by
  induction l generalizing r with
  | nil => exact ⟨rfl, rfl, rfl⟩
  | cons b l ih => exact ih (r.feed b)

/-- Where no sender stands twice, a record takes the place of its sender's or joins the end (R62). -/
theorem storeRecord_places {log : List ArrivalRecord} (r : ArrivalRecord)
    (hn : (log.map ArrivalRecord.sender).Nodup) :
    (∀ l x m, log = l ++ x :: m → x.sender = r.sender → storeRecord log r = l ++ r :: m) ∧
    ((∀ x ∈ log, x.sender ≠ r.sender) → storeRecord log r = log ++ [r]) := by
  have keep : ∀ l : List ArrivalRecord, (∀ y ∈ l, y.sender ≠ r.sender) →
      l.map (fun x => if x.sender = r.sender then r else x) = l := by
    intro l h
    conv_rhs => rw [← List.map_id l]
    exact List.map_congr_left fun y hy => by simp [h y hy]
  constructor
  · rintro l x m rfl hx
    simp only [List.map_append, List.map_cons, List.nodup_append, List.nodup_cons] at hn
    obtain ⟨-, ⟨hxm, -⟩, hl⟩ := hn
    have e1 := keep l fun y hy => by
      rw [← hx]; exact hl _ (List.mem_map_of_mem hy) _ List.mem_cons_self
    have e2 := keep m fun y hy e => by
      rw [← hx] at e; exact hxm (e ▸ List.mem_map_of_mem hy)
    simp [storeRecord, hx, e1, e2]
  · intro h
    rw [storeRecord, if_neg (by simpa using h)]

/-! ### Entering a clearing state: the parts that keep something -/

theorem enterClearing_tx (s : State) (x : SyncState) : (s.enterClearing x).tx = { s.tx with
    queue := TxQueue.empty, linkErr := if x = .listen then 0 else s.tx.linkErr } := rfl

theorem enterClearing_servo (s : State) (x : SyncState) : (s.enterClearing x).servo =
    { s.servo with integ := 0, trim := 0, captureDone := false, lock := 0, unlock := 0 } := rfl

/-! ### The boundary: what each block holds after it -/

theorem boundaryDue_iff (s : State) :
    s.boundaryDue = true ↔ s.seq.sync.runs = true ∧ s.carrier.pc ≤ s.carrier.c := by
  simp [State.boundaryDue]

theorem exec_cycleBoundary {s : State} (h : s.boundaryDue = true) :
    exec .cycleBoundary s = .next s.boundary := by
  simp [exec, execCycleBoundary, onCycleBoundary, h]

theorem boundary_carrier (s : State) : s.boundary.carrier = { s.carrier with
    g := reduce s.cfg.period (s.carrier.g + s.phaseStep)
    o := reduce s.cfg.period (s.carrier.o + s.slotStep)
    c := s.carrier.c - s.carrier.pc
    pc := ((s.cfg.period : Int) - s.phaseStep + s.slotStep).toNat
    cycle := s.carrier.cycle + 1
    stepTotal := reduce s.cfg.period (s.carrier.stepTotal + s.phaseStep)
    sync := true
    syncAge := 0 } := by
  simp [State.boundary, State.decideOutputs]

theorem boundary_tx (s : State) :
    s.boundary.tx = { s.tx with queue := s.queueWork, beaconSent := false } := by
  simp [State.boundary, State.decideOutputs]

theorem boundary_log (s : State) : s.boundary.log = [] := by
  simp [State.boundary, State.decideOutputs]

theorem boundary_roster (s : State) : s.boundary.roster = s.rosterWork := by
  simp [State.boundary, State.decideOutputs]

theorem boundary_view (s : State) : s.boundary.view = s.viewWork := by
  simp [State.boundary, State.decideOutputs]

theorem boundary_servo (s : State) :
    s.boundary.servo = s.servoWork.entered s.seq.sync s.sequencerWork.sync := by
  simp [State.boundary, State.decideOutputs]

theorem boundary_seq (s : State) : s.boundary.seq = s.sequencerWork := by
  simp [State.boundary, State.decideOutputs]

theorem boundary_gate (s : State) : s.boundary.gate =
    gateOutputs s.cfg s.boundary.carrier.c s.boundary.carrier.pc
      (s.gate.atBoundary s.sequencerWork.permission) := by
  simp [State.boundary, State.decideOutputs, State.cfg]

theorem boundary_events (s : State) : ∃ l : List EventRecord, l.Perm s.boundaryEvents ∧
    s.boundary.events = l.foldl offerEvent s.events :=
  raiseAll_offers _ _

/-! ### What a boundary leaves in roster and view (R80, R81, R91 to R94) -/

theorem agreeing_iff (s : State) : s.agreeing = true ↔ Agrees s := by
  unfold State.agreeing Agrees membersAgree
  simp only [Bool.and_eq_true, List.all_eq_true, List.mem_finRange, true_imp_iff, Bool.or_eq_true,
    bne_iff_ne, beq_iff_eq, Option.map_eq_some_iff]
  constructor
  · rintro ⟨h1, h2⟩
    exact ⟨fun i hm => (h1 i).resolve_left fun h => h hm, h2.symm⟩
  · rintro ⟨h1, h2⟩
    refine ⟨fun i => ?_, h2.symm⟩
    by_cases hm : s.roster[i].presence = .member
    · exact .inr (h1 i hm)
    · exact .inl hm

theorem missed_eq (limit : Nat) (e : RosterEntry) : e.missed limit =
    if (e.presence = .heard ∨ e.presence = .member) ∧ e.flag = false then
      if limit ≤ e.misses + 1 then ⟨.absent, false, 0, none⟩ else { e with misses := e.misses + 1 }
    else { e with flag := false } := by
  unfold RosterEntry.missed RosterEntry.goesStale
  by_cases h1 : (e.presence = .heard ∨ e.presence = .member) ∧ e.flag = false
  · by_cases h2 : limit ≤ e.misses + 1
    · rw [if_pos h1, if_pos h2, if_pos (by simpa [h2] using h1)]; rfl
    · rw [if_pos h1, if_neg h2, if_neg (by simp [h2]), if_pos (by simpa using h1)]
  · rw [if_neg h1, if_neg (by simp only [Bool.and_eq_true, Bool.or_eq_true, beq_iff_eq,
      Bool.not_eq_true', decide_eq_true_eq]; exact fun h => h1 h.1), if_neg (by simpa using h1)]

theorem boundary_measured {s : State} (hs : s.seq.sync = .acquire ∨ s.seq.sync = .locked) :
    MeasuredBoundary s s.boundary := by
  have hset : s.nextSettle = if s.agreeing then min 15 (s.view.settle + 1) else 0 := by
    rcases hs with e | e <;> simp [State.nextSettle, e]
  have had : s.adopts = true ↔ s.cfg.settleCount ≤ s.nextSettle ∧ s.memberMap ≠ s.view.adopted := by
    rcases hs with e | e <;> simp [State.adopts, e, SyncState.measuring]
  have hcm : s.seq.sync.countsMisses = true := by rcases hs with e | e <;> rw [e] <;> rfl
  constructor
  · intro i
    have hr : s.rosterWork = s.roster.map (RosterEntry.missed s.cfg.staleLimit) := by
      simp [State.rosterWork, hcm]
    simp only [boundary_roster, hr, Fin.getElem_fin, Vector.getElem_map, missed_eq]
  all_goals simp only [boundary_view, State.viewWork]
  · intro h; rw [hset, if_pos ((agreeing_iff s).mpr h)]
  · intro h; rw [hset, if_neg fun x => h ((agreeing_iff s).mp x)]
  · intro h1 h2; simp [had.mpr ⟨h1, h2⟩]
  · intro h; rw [if_neg fun x => h (had.mp x), if_neg fun x => h (had.mp x)]; exact ⟨rfl, rfl⟩

/-! ### Counting toward lock -/

/-- No capture is at hand exactly when the log holds no usable record of a LOCKED sender (R112). -/
theorem captureReference_none_iff (log : List ArrivalRecord) : captureReference log = none ↔
    ∀ r ∈ log, ¬ (r.usable = true ∧ r.state = .locked) := by
  have some_of (b : ArrivalRecord) : ∀ l : List ArrivalRecord, ∃ c, l.foldl
      (fun best r => match best with
        | none => some r
        | some b => if r.sender < b.sender then some r else some b) (some b) = some c := by
    intro l
    induction l generalizing b with
    | nil => exact ⟨b, rfl⟩
    | cons x l ih =>
      rw [List.foldl_cons]
      dsimp only
      split
      · exact ih x
      · exact ih b
  have hf : captureReference log = none ↔
      log.filter (fun r => r.usable && r.state == .locked) = [] := by
    unfold captureReference
    cases log.filter (fun r => r.usable && r.state == .locked) with
    | nil => simp
    | cons x l =>
      obtain ⟨c, hc⟩ := some_of x l
      exact ⟨fun h => absurd (hc.symm.trans h) (by simp), fun h => absurd h (by simp)⟩
  rw [hf, List.filter_eq_nil_iff]
  simp

/-- An ACQUIRE boundary counts toward lock exactly when it applies no capture and qualifies (R114). -/
theorem countsTowardLock_iff {s : State} (h : s.seq.sync = .acquire) :
    CountsTowardLock s ↔ s.capture = none ∧ s.qualifies = true := by
  have hc : s.capture = none ↔ s.servo.captureDone = true ∨
      ∀ r ∈ s.log, ¬ (r.usable = true ∧ r.state = .locked) := by
    rw [← captureReference_none_iff]
    cases hd : s.servo.captureDone <;> simp [State.capture, h, hd]
  have hq : s.qualifies = true ↔ (((meanError s.log).natAbs ≤ s.cfg.lockWindow ∧ s.complete = true) ∧
      s.cfg.settleCount ≤ s.view.settle ∧ s.view.adopted = s.memberMap) ∧
      ((∃ r ∈ s.log, r.usable = true) ∨ s.memberMap = ownMap s.own) := by
    simp [State.qualifies, State.settled, usableCount]
  rw [hc, hq, complete_iff]
  exact ⟨fun k => ⟨k.noCapture, ⟨⟨k.error, k.complete⟩, k.settled⟩, k.heard⟩,
    fun ⟨k1, ⟨⟨k2, k3⟩, k4⟩, k5⟩ => ⟨k2, k3, k4, k5, k1⟩⟩

/-- The lock counter after an ACQUIRE boundary (R114). -/
theorem nextLock_of_counts {s : State} (h : s.seq.sync = .acquire) (hc : CountsTowardLock s) :
    s.nextLock = min 255 (s.servo.lock + 1) := by
  obtain ⟨h1, h2⟩ := (countsTowardLock_iff h).1 hc
  simp [State.nextLock, h1, h2]

theorem nextLock_of_not_counts {s : State} (h : s.seq.sync = .acquire) (hc : ¬ CountsTowardLock s) :
    s.nextLock = 0 := by
  rw [countsTowardLock_iff h] at hc
  unfold State.nextLock
  split
  · rfl
  · rename_i hn
    exact if_neg fun hq => hc ⟨by simpa using hn, hq⟩

/-! ### The image judged -/

theorem noResponse_iff (bytes : ImageBits) :
    noResponse bytes = true ↔ bytes = 0 ∨ bytes = BitVec.allOnes 272 := by
  simp [noResponse]

theorem firstBadField_none {i : Image} :
    i.firstBadField = none ↔ ∀ n, n ≤ 23 → i.fieldOk n = true := by
  simp only [Image.firstBadField, List.find?_eq_none, List.mem_range]
  constructor
  · intro h n hn
    simpa using h n (by omega)
  · intro h n hn
    simp [h n (by omega)]

theorem firstBadField_some {i : Image} {n : Nat} (hn : n ≤ 23) (h : i.fieldOk n = false)
    (hm : ∀ m, m < n → i.fieldOk m = true) : i.firstBadField = some n := by
  rw [Image.firstBadField, List.find?_range_eq_some]
  refine ⟨by simp [h], by simp; omega, ?_⟩
  intro j hj
  simp [hm j hj]

/-! ### Errors counted below the limit, and the errors of a foreign frame -/

theorem sampled_eq (t : Contention) (body : Bool) (b : Bit) :
    ∃ i l, t.sampled body b = { t with idleCount := i, lineIdle := l } := by
  unfold Contention.sampled
  split_ifs <;> exact ⟨_, _, rfl⟩

/-- Further bits of which the last is the first to fail a check are what `errorAfter` takes; only the
idle count and the idle line move over them. -/
theorem errorAfter_of_error {r : RxRecord} (t : Contention) {bits : List Bit} (hne : bits ≠ [])
    (he : verdictAfter r bits = .error)
    (hm : ∀ n, 0 < n → n < bits.length → verdictAfter r (bits.take n) = .more) :
    ∃ i l, errorAfter r t bits = some { t with idleCount := i, lineIdle := l } := by
  induction bits generalizing r t with
  | nil => exact absurd rfl hne
  | cons b l ih =>
    obtain ⟨i0, l0, ht⟩ := sampled_eq t (inFrameBody (r.feed b).bits) b
    cases l with
    | nil =>
      simp only [verdictAfter, List.foldl_cons, List.foldl_nil] at he
      simp [errorAfter, he, ht]
    | cons c m =>
      have h1 := hm 1 (by simp) (by simp)
      simp only [verdictAfter, List.take_succ_cons, List.take_zero, List.foldl_cons,
        List.foldl_nil] at h1
      simp only [errorAfter, h1]
      rw [ht]
      have := ih (r := r.feed b) { t with idleCount := i0, lineIdle := l0 } (by simp) he (by
        intro n hn hl
        have := hm (n + 1) (by omega) (by simpa using hl)
        simpa [verdictAfter] using this)
      simpa [errorAfter] using this

/-! ### The record that a frame continues (R24, R34, R65) -/

/-- The record a valid foreign frame continues is foreign, holds bits of that frame, and stands in the receiver
or was dropped in this instant by an entry to LISTEN. -/
theorem foreignRecord_cases {s : State} {f : Frame} {r : RxRecord} (h : s.foreignRecord f = some r) :
    r.own = false ∧ r.bits <+: f.wire ∧
      (s.line.mode = .receive r ∨ s.line.mode = .recover 0 0 ∧ s.aborting = false ∧
        ∃ c, s.dropped = some ⟨r, c⟩ ∧ s.carrier.sameInstant c = true) := by
  simp only [State.foreignRecord, Option.filter_eq_some_iff, Bool.and_eq_true, Bool.not_eq_true',
    List.isPrefixOf_iff_prefix] at h
  refine ⟨h.2.1, h.2.2, ?_⟩
  replace h := h.1
  split at h
  next r' hm => exact .inl (by rw [hm, Option.some.inj h])
  next => cases h
  next a d hm =>
    unfold State.droppedNow at h
    rw [hm] at h
    split at h
    case h_1 h0 =>
      split at h
      · cases h
      · rename_i ha
        simp only [Option.map_eq_some_iff, Option.filter_eq_some_iff] at h
        obtain ⟨⟨r', c⟩, ⟨h1, h2⟩, rfl⟩ := h
        exact .inr ⟨by rw [hm, h0], by simpa using ha, c, h1, h2⟩
    all_goals cases h
  next => cases h

theorem foreignRecord_of_receiving {s : State} {f : Frame} {r : RxRecord} (h : Receiving s f r) :
    s.foreignRecord f = some r := by
  obtain ⟨h1, h2, h3⟩ := h
  simp [State.foreignRecord, h1, h2, h3]

theorem sameInstant_self (c : Carrier) : c.sameInstant c = true := by simp [Carrier.sameInstant]

/-- A record dropped in this instant is the one that its frame continues. -/
theorem foreignRecord_of_dropped {s : State} {f : Frame} {r : RxRecord} (hm : s.line.mode = .recover 0 0)
    (ha : s.aborting = false) (hd : s.dropped = some ⟨r, s.carrier⟩) (ho : r.own = false)
    (hb : r.bits <+: f.wire) : s.foreignRecord f = some r := by
  simp [State.foreignRecord, State.droppedNow, hm, ha, hd, ho, hb, sameInstant_self]

/-- Link down by a receive error in JOIN, or in ACQUIRE with no LEAVE pending, is the entry to LISTEN with the
record kept. -/
theorem onLinkDown_listens {s : State} {r : RxRecord} {bits : List Bit} (hm : s.line.mode = .receive r)
    (hy : s.seq.sync = .join ∨ s.seq.sync = .acquire ∧ s.tx.queue.leave = false)
    (hl : s.errorReachesLimit = true) (he : ErrorArises s 0 (.receive bits)) :
    ∃ i l, onLinkDown (.receive bits) s =
      { (({ s with
            pins := { s.pins with lineRx := bits.getLastD true }
            line := ⟨.recover 0 0, s.cfg.bitTicks / 2, bits.getLastD true⟩
            tx := { s.tx with idleCount := i, lineIdle := l, linkErr := s.tx.linkErr + 1 } } :
          State).enterClearing .listen).raise (eventOf .linkDown none 0 s.carrier.cycle) with
        dropped := some ⟨r, { s.carrier with acc := 0 }⟩ } := by
  obtain ⟨-, hne, r', hm', ho, hv, hall⟩ := he
  obtain rfl : r = r' := RxMode.receive.inj (hm.symm.trans hm')
  obtain ⟨i, l, ht⟩ := errorAfter_of_error s.tx hne hv hall
  refine ⟨i, l, ?_⟩
  have hlim : s.linkAtLimit = false := by
    simp only [State.errorReachesLimit, Bool.and_eq_true, decide_eq_true_eq] at hl
    simp only [State.linkAtLimit, decide_eq_false_iff_not]
    omega
  rw [onLinkDown, if_pos hl]
  simp only [State.frameError, hm, ho, ht, Bool.false_eq_true, if_false]
  have hk : ({ s.atSample (bits.getLastD true) with
      tx := { s.tx with idleCount := i, lineIdle := l } } : State).rejectFrame =
      (({ s with
          pins := { s.pins with lineRx := bits.getLastD true }
          line := ⟨.recover 0 0, s.cfg.bitTicks / 2, bits.getLastD true⟩
          tx := { s.tx with idleCount := i, lineIdle := l, linkErr := s.tx.linkErr + 1 } } :
        State).enterClearing .listen).raise (eventOf .linkDown none 0 s.carrier.cycle) := by
    unfold State.rejectFrame State.countError
    rw [if_neg (by exact Bool.eq_false_iff.mp hlim), if_pos (by exact hl)]
    unfold State.linkDown State.answerLinkDown
    rcases hy with hy | ⟨hy, hq⟩
    · simp only [State.atSample, hy]; rfl
    · simp only [State.atSample, hy, State.leavePending, hq]; rfl
  rw [hk, State.keepDropped, if_pos ⟨by rcases hy with hy | ⟨hy, -⟩ <;> simp [hy], rfl⟩]
  rfl

/-! ### The reply -/

theorem reply_answered (s : State) (c : Byte) (a : BitVec 16) (x : StatusCode) (r : List Byte) :
    Answered s (s.reply c a x r) c a x r :=
  ⟨rfl, ⟨rfl, rfl, rfl, rfl⟩, rfl, rfl⟩

end Sys2Proof.Machine
end

