-- ==== Sys2Proof/Laws/Tick.lean ====
section
/-! SUPPORT. What each part of a tick leaves to the others: the local port, the loader, SYNC and the input pins but LINE_RX are moved by one part each, so that a free order of the parts does not touch them. -/

namespace Sys2Proof.Machine

/-! ### The parts of a tick in a free order -/

/-- What every part keeps is kept by the tick's parts together. -/
theorem runParts_keeps {α : Type} (φ : State → α) (hc : ∀ x : State, φ x.chosen = φ x) (s : State)
    (l : List (State → State)) (h : ∀ f ∈ l, ∀ x, φ (f x) = φ x) : φ (s.runParts l) = φ s := by
  have fold : ∀ (m : List (State → State)) (x : State), (∀ f ∈ m, ∀ y, φ (f y) = φ y) →
      φ (m.foldl (fun x f => f x) x) = φ x := by
    intro m
    induction m with
    | nil => intro x _; rfl
    | cons f m ih =>
      intro x hm
      rw [List.foldl_cons, ih _ fun g hg => hm g (List.mem_cons_of_mem f hg)]
      exact hm f List.mem_cons_self x
  rcases l with _ | ⟨f, _ | ⟨g, l⟩⟩
  · rfl
  · exact h f List.mem_cons_self s
  · simp only [State.runParts, hc]
    exact fold _ s fun k hk => h k ((arrange_perm _ _).mem_iff.mp hk)

/-- What every part but one keeps is what that one makes of it, from a state that has it as it stood. -/
theorem runParts_once {α : Type} (φ : State → α) (hc : ∀ x : State, φ x.chosen = φ x) (s : State)
    (g : State → State) (a b : List (State → State)) (h : ∀ f ∈ a ++ b, ∀ x, φ (f x) = φ x) :
    ∃ u, φ u = φ s ∧ φ (s.runParts (a ++ g :: b)) = φ (g u) := by
  have fold : ∀ (m : List (State → State)) (x : State), (∀ f ∈ m, ∀ y, φ (f y) = φ y) →
      φ (m.foldl (fun x f => f x) x) = φ x := by
    intro m x hm
    induction m generalizing x with
    | nil => rfl
    | cons f m ih =>
      rw [List.foldl_cons, ih _ fun g hg => hm g (List.mem_cons_of_mem f hg)]
      exact hm f List.mem_cons_self x
  have main : ∀ l : List (State → State), l.Perm (a ++ g :: b) →
      ∃ u, φ u = φ s ∧ φ (l.foldl (fun x f => f x) s) = φ (g u) := by
    intro l hl
    have hg : g ∈ l := hl.mem_iff.mpr (by simp)
    obtain ⟨a', b', rfl⟩ := List.append_of_mem hg
    have hp : (a' ++ b').Perm (a ++ b) :=
      (List.perm_middle.symm.trans (hl.trans List.perm_middle)).cons_inv
    have hm : ∀ f ∈ a' ++ b', ∀ x, φ (f x) = φ x := fun f hf => h f (hp.mem_iff.mp hf)
    refine ⟨a'.foldl (fun x f => f x) s, ?_, ?_⟩
    · exact fold a' s fun f hf => hm f (by simp [hf])
    · rw [List.foldl_append, List.foldl_cons]
      exact fold b' _ fun f hf => hm f (by simp [hf])
  generalize hl : a ++ g :: b = l at main ⊢
  rcases l with _ | ⟨f, _ | ⟨k, l⟩⟩
  · exact absurd hl (by simp)
  · exact main _ (List.Perm.refl _)
  · obtain ⟨u, hu, e⟩ := main _ (arrange_perm (Config.tickOrder s.free) _)
    exact ⟨u, hu, by simp only [State.runParts, hc]; exact e⟩

/-! ### Sync states between which a running station moves -/

theorem runs_of_grouped {x : SyncState} (h : x.grouped = true) : x.runs = true := by
  cases x <;> first | rfl | simp [SyncState.grouped] at h

theorem runs_of_actsOnPeers {x : SyncState} (h : x.actsOnPeers = true) : x.runs = true := by
  cases x <;> first | rfl | simp [SyncState.actsOnPeers] at h

theorem answerLinkDown_runs (s : State) :
    s.answerLinkDown.1.seq.sync.runs = s.seq.sync.runs := by
  unfold State.answerLinkDown
  split <;> rename_i h <;> (try split) <;> simp [h, State.enterClearing, State.enterHoldover,
    SyncState.runs]

/-! ### What the other parts of a tick leave alone -/

/-- The port, the loader, the carrier but its accumulator, the input pins but LINE_RX, and whether the
carrier runs: what the line's part of a tick leaves as it stands. -/
structure Beside (s t : State) : Prop where
  port : t.port = s.port
  loader : t.loader = s.loader
  carrier : { t.carrier with acc := 0 } = { s.carrier with acc := 0 }
  pins : { t.pins with lineRx := true } = { s.pins with lineRx := true }
  runs : t.seq.sync.runs = s.seq.sync.runs

theorem Beside.refl (s : State) : Beside s s := ⟨rfl, rfl, rfl, rfl, rfl⟩

theorem Beside.trans {s t u : State} (h : Beside s t) (k : Beside t u) : Beside s u :=
  ⟨k.port.trans h.port, k.loader.trans h.loader, k.carrier.trans h.carrier, k.pins.trans h.pins,
    k.runs.trans h.runs⟩

/-- The same with the later part first, so that the state between is known from it. -/
theorem Beside.after {s t u : State} (k : Beside t u) (h : Beside s t) : Beside s u := h.trans k

theorem raiseAll_beside (s : State) (l : List EventRecord) : Beside s (s.raiseAll l) :=
  ⟨by simp, by simp, by simp, by simp, by simp⟩

theorem raise_beside (s : State) (e : EventRecord) : Beside s (s.raise e) := ⟨rfl, rfl, rfl, rfl, rfl⟩

theorem enterClearing_beside (s : State) (x : SyncState) (h : x.runs = s.seq.sync.runs) :
    Beside s (s.enterClearing x) := ⟨rfl, rfl, rfl, rfl, h⟩

theorem park_beside (s : State) (d : Byte) (h : s.seq.sync.runs = true) : Beside s (s.park d) :=
  ⟨rfl, rfl, rfl, rfl, h.symm⟩

theorem answerLinkDown_beside (s : State) : Beside s s.answerLinkDown.1 :=
  ⟨by simp, by simp, by unfold State.answerLinkDown; split <;> (try split) <;> rfl, by simp,
    answerLinkDown_runs s⟩

theorem linkDown_beside (s : State) (d : Byte) : Beside s (s.linkDown d) :=
  (answerLinkDown_beside s).trans (raiseAll_beside _ _)

theorem countError_beside (s : State) (d : Byte) : Beside s (s.countError d) := by
  rcases countError_cases s d with ⟨-, e⟩ | ⟨-, e⟩ | ⟨-, e⟩
  · rw [e]; exact Beside.refl s
  · rw [e]; exact ⟨rfl, rfl, rfl, rfl, rfl⟩
  · rw [e]; exact (linkDown_beside _ d).after ⟨rfl, rfl, rfl, rfl, rfl⟩

theorem rejectFrame_beside (s : State) : Beside s s.rejectFrame :=
  (countError_beside _ 0).after ⟨rfl, rfl, rfl, rfl, rfl⟩

theorem failTransmit_beside (s : State) (f : InFlight) (n : Nat) : Beside s (s.failTransmit f n) :=
  (countError_beside _ 1).after ⟨rfl, rfl, rfl, rfl, rfl⟩

theorem transmitError_beside (s : State) (n : Nat) : Beside s (s.transmitError n) := by
  unfold State.transmitError
  split
  · split
    · exact (failTransmit_beside s _ n).trans ⟨rfl, rfl, rfl, rfl, rfl⟩
    · exact Beside.refl s
  · exact Beside.refl s

theorem dominantRun_beside (s : State) : Beside s s.dominantRun := by
  unfold State.dominantRun
  split
  · exact (countError_beside _ 0).after ⟨rfl, rfl, rfl, rfl, rfl⟩
  all_goals exact Beside.refl s

theorem recoverSample_beside (s : State) (a d : Nat) (b : Bit) :
    Beside s (s.recoverSample a d b) := by
  unfold State.recoverSample
  split_ifs
  · exact ⟨rfl, rfl, rfl, rfl, rfl⟩
  · exact ⟨rfl, rfl, rfl, rfl, rfl⟩
  · exact ⟨rfl, rfl, rfl, rfl, rfl⟩
  · exact dominantRun_beside s
  · exact ⟨rfl, rfl, rfl, rfl, rfl⟩

theorem answerCompletion_beside (s : State) (k : FrameKind) : Beside s (s.answerCompletion k) := by
  unfold State.answerCompletion
  split
  · split_ifs with h
    · exact ⟨rfl, rfl, rfl, rfl, by simp [h, SyncState.runs]⟩
    · exact Beside.refl s
  · split_ifs with h
    · exact park_beside s 1 (runs_of_grouped h)
    · exact Beside.refl s
  all_goals exact Beside.refl s

theorem completeFrame_beside (s : State) (f : InFlight) : Beside s (s.completeFrame f) :=
  (answerCompletion_beside _ _).after ⟨rfl, rfl, rfl, rfl, rfl⟩

theorem compareBit_beside (s : State) (r : RxRecord) (f : InFlight) (b : Bit) :
    Beside s (s.compareBit r f b) := by
  unfold State.compareBit
  dsimp only
  split_ifs
  · exact completeFrame_beside s f
  · exact ⟨rfl, rfl, rfl, rfl, rfl⟩
  · exact ⟨rfl, rfl, rfl, rfl, rfl⟩
  · exact failTransmit_beside s f _

theorem sampleSof_beside (s : State) (r : RxRecord) (b : Bit) : Beside s (s.sampleSof r b) := by
  unfold State.sampleSof
  split_ifs
  · exact transmitError_beside s 0
  · exact ⟨rfl, rfl, rfl, rfl, rfl⟩
  · exact ⟨rfl, rfl, rfl, rfl, rfl⟩

theorem identityConflict_beside (s : State) (k : FrameKind) :
    Beside s (s.identityConflict k) := by
  unfold State.identityConflict
  split_ifs with h
  · exact (enterClearing_beside s _ (by rw [runs_of_actsOnPeers h]; rfl)).trans (raise_beside _ _)
  · exact Beside.refl s

theorem periodMismatch_beside (s : State) (i : Identity) (k : FrameKind) :
    Beside s (s.periodMismatch i k) := by
  unfold State.periodMismatch; split <;> exact ⟨rfl, rfl, rfl, rfl, rfl⟩

theorem takeFault_beside (s : State) (c : FaultCause) : Beside s (s.takeFault c) :=
  ⟨by simp, by simp, by simp, by simp, by simp⟩

theorem localFault_beside (s : State) (c : LocalCause) : Beside s (s.localFault c) :=
  ⟨by simp, by simp, by simp, by simp, by simp⟩

theorem deliver_beside (s : State) (p : PhaseSample) (f : Frame) : Beside s (s.deliver p f) := by
  unfold State.deliver
  split
  · unfold State.deliverFault
    split_ifs
    · exact identityConflict_beside s _
    · exact ((takeFault_beside _ _).trans (raise_beside _ _)).after ⟨rfl, rfl, rfl, rfl, rfl⟩
    · exact ⟨rfl, rfl, rfl, rfl, rfl⟩
    · exact ⟨rfl, rfl, rfl, rfl, rfl⟩
    · exact Beside.refl s
  · unfold State.deliverLeave
    split_ifs
    · exact identityConflict_beside s _
    all_goals exact ⟨rfl, rfl, rfl, rfl, rfl⟩
  · unfold State.deliverClaim
    split_ifs
    · exact identityConflict_beside s _
    · exact periodMismatch_beside s _ _
    all_goals exact ⟨rfl, rfl, rfl, rfl, rfl⟩
  · unfold State.deliverBeacon
    split_ifs
    · exact identityConflict_beside s _
    · exact periodMismatch_beside s _ _
    · exact (raiseAll_beside _ _).after ⟨rfl, rfl, rfl, rfl, rfl⟩
    · exact Beside.refl s

theorem receiveBit_beside (s : State) (r : RxRecord) (b : Bit) :
    Beside s (s.receiveBit r b) := by
  unfold State.receiveBit
  split_ifs
  · exact sampleSof_beside s r b
  · dsimp only
    split
    · exact ⟨rfl, rfl, rfl, rfl, rfl⟩
    · exact (rejectFrame_beside _).after ⟨rfl, rfl, rfl, rfl, rfl⟩
    · exact (deliver_beside _ _ _).after ⟨rfl, rfl, rfl, rfl, rfl⟩

theorem stepLine_beside (s : State) : Beside s (stepLine s) := by
  unfold stepLine
  split_ifs
  · exact ⟨rfl, rfl, rfl, rfl, rfl⟩
  · split
    · exact failTransmit_beside s _ 0
    · exact Beside.refl s
  · unfold State.sampleLine
    dsimp only
    split
    · exact Beside.refl s
    · exact ⟨rfl, rfl, rfl, rfl, rfl⟩
    · exact recoverSample_beside s _ _ _
    · split
      · exact compareBit_beside s _ _ _
      · exact Beside.refl s
      · exact receiveBit_beside s _ _
  · exact Beside.refl s
  · exact Beside.refl s

theorem onTxFrameStart_beside (s : State) : Beside s (onTxFrameStart s) := by
  unfold onTxFrameStart
  split_ifs
  · split <;> exact ⟨rfl, rfl, rfl, rfl, rfl⟩
  · exact Beside.refl s

theorem stepPin_beside (s : State) : Beside s (stepPin s) := by
  unfold stepPin
  split_ifs with h h1
  · unfold State.assertTripPin
    split_ifs
    · exact Beside.refl s
    · exact (localFault_beside _ _).after ⟨rfl, rfl, rfl, rfl, rfl⟩
  · refine ⟨rfl, rfl, rfl, ?_, rfl⟩
    simp only [Bool.not_eq_true] at h
    simp [onTripPinRelease, ← h]
  · exact Beside.refl s

/-! ### The port's part -/

/-- What the port's part of a tick leaves alone: the loader, the carrier but its accumulator, whether the
carrier runs, and the level of LP_CLK. -/
structure BesidePort (s t : State) : Prop where
  loader : t.loader = s.loader
  carrier : { t.carrier with acc := 0 } = { s.carrier with acc := 0 }
  runs : t.seq.sync.runs = s.seq.sync.runs
  clock : t.pins.lpClk = s.pins.lpClk

theorem Beside.toPort {s t : State} (h : Beside s t) : BesidePort s t :=
  ⟨h.loader, h.carrier, h.runs, (Pins.mk.inj h.pins).2.2.2.2.1⟩

theorem BesidePort.trans {s t u : State} (h : BesidePort s t) (k : BesidePort t u) :
    BesidePort s u :=
  ⟨k.loader.trans h.loader, k.carrier.trans h.carrier, k.runs.trans h.runs, k.clock.trans h.clock⟩

theorem BesidePort.after {s t u : State} (k : BesidePort t u) (h : BesidePort s t) :
    BesidePort s u := h.trans k

theorem reply_besidePort (s : State) (c : Byte) (a : BitVec 16) (x : StatusCode) (r : List Byte) :
    BesidePort s (s.reply c a x r) := ⟨rfl, rfl, rfl, rfl⟩

theorem onStatus_besidePort (s : State) : BesidePort s (onStatus s) := by
  unfold onStatus; split <;> exact reply_besidePort s _ _ _ _

theorem onServo_besidePort (s : State) : BesidePort s (onServo s) := by
  unfold onServo; split <;> exact reply_besidePort s _ _ _ _

theorem onRoster_besidePort (i : Byte) (s : State) : BesidePort s (onRoster i s) := by
  unfold onRoster; dsimp only; split
  · exact reply_besidePort s _ _ _ _
  · split <;> exact reply_besidePort s _ _ _ _

theorem onLog_besidePort (i : Byte) (s : State) : BesidePort s (onLog i s) := by
  unfold onLog; dsimp only; split
  · exact reply_besidePort s _ _ _ _
  · split <;> exact reply_besidePort s _ _ _ _

theorem onEvent_besidePort (s : State) : BesidePort s (onEvent s) := by
  unfold onEvent; split
  · exact reply_besidePort s _ _ _ _
  · split
    · exact reply_besidePort s _ _ _ _
    · exact (reply_besidePort _ _ _ _ _).after ⟨rfl, rfl, rfl, rfl⟩

theorem onDuty_besidePort (v : BitVec 16) (s : State) : BesidePort s (onDuty v s) := by
  unfold onDuty; split
  · exact reply_besidePort s _ _ _ _
  · exact (reply_besidePort _ _ _ _ _).after ⟨rfl, rfl, rfl, rfl⟩

theorem onStart_besidePort (s : State) : BesidePort s (onStart s) := by
  unfold onStart; split
  · exact reply_besidePort s _ _ _ _
  · split
    · exact (reply_besidePort _ _ _ _ _).after ⟨rfl, rfl, rfl, rfl⟩
    all_goals exact reply_besidePort s _ _ _ _

theorem onStop_besidePort (s : State) : BesidePort s (onStop s) := by
  unfold onStop; split
  · exact reply_besidePort s _ _ _ _
  · split
    · exact reply_besidePort s _ _ _ _
    · exact (reply_besidePort _ _ _ _ _).after ⟨rfl, rfl, rfl, rfl⟩
    · exact (reply_besidePort _ _ _ _ _).after ⟨rfl, rfl, rfl, rfl⟩
    · exact reply_besidePort s _ _ _ _

theorem onTrip_besidePort (s : State) : BesidePort s (onTrip s) := by
  unfold onTrip; split
  · exact reply_besidePort s _ _ _ _
  · exact (reply_besidePort _ _ _ _ _).after (localFault_beside s _).toPort

theorem onClear_besidePort (s : State) : BesidePort s (onClear s) := by
  unfold onClear; split
  · exact reply_besidePort s _ _ _ _
  · split
    · split
      · exact reply_besidePort s _ _ _ _
      · exact (reply_besidePort _ _ _ _ _).after ⟨rfl, rfl, rfl, rfl⟩
    · exact reply_besidePort s _ _ _ _

theorem offerLeave_besidePort (s : State) : BesidePort s s.offerLeave := ⟨rfl, rfl, rfl, rfl⟩

theorem park_besidePort {s : State} (d : Byte) (h : s.seq.sync.runs = true) :
    BesidePort s (s.park d) := (park_beside s d h).toPort

theorem onDetach_besidePort (s : State) : BesidePort s (onDetach s) := by
  have runs : ∀ {x : SyncState}, s.seq.sync = x → x.runs = true → s.seq.sync.runs = true :=
    fun h hx => by rw [h]; exact hx
  unfold onDetach
  split <;> rename_i h
  · exact reply_besidePort s _ _ _ _
  · exact reply_besidePort s _ _ _ _
  · exact reply_besidePort s _ _ _ _
  · exact (reply_besidePort _ _ _ _ _).after (park_besidePort 0 (runs h rfl))
  · exact (reply_besidePort _ _ _ _ _).after (park_besidePort 0 (runs h rfl))
  · split
    · exact reply_besidePort s _ _ _ _
    · exact (reply_besidePort _ _ _ _ _).after (offerLeave_besidePort s)
  · split
    · exact reply_besidePort s _ _ _ _
    · exact (reply_besidePort _ _ _ _ _).after (offerLeave_besidePort s)
  · split
    · exact reply_besidePort s _ _ _ _
    · split
      · exact (reply_besidePort _ _ _ _ _).after (park_besidePort 2 (runs h rfl))
      · exact (reply_besidePort _ _ _ _ _).after (offerLeave_besidePort s)

theorem onAttach_besidePort (s : State) : BesidePort s (onAttach s) := by
  have hl : s.seq.sync.runs = true → BesidePort s (s.enterClearing .listen) :=
    fun h => (enterClearing_beside s .listen h.symm).toPort
  unfold onAttach
  split <;> rename_i h
  case h_5 => exact (reply_besidePort _ _ _ _ _).after (hl (by rw [h]; rfl))
  case h_6 => exact (reply_besidePort _ _ _ _ _).after (hl (by rw [h]; rfl))
  all_goals exact reply_besidePort s _ _ _ _

theorem onUnknownRequest_besidePort (c : Byte) (s : State) :
    BesidePort s (onUnknownRequest c s) := by
  unfold onUnknownRequest; split
  · exact ⟨rfl, rfl, rfl, rfl⟩
  · split <;> exact reply_besidePort s _ _ _ _

theorem BesidePort.ite {c : Prop} [Decidable c] {s t u : State} (h : BesidePort s t)
    (k : BesidePort s u) : BesidePort s (if c then t else u) := by split <;> assumption

theorem takeRequest_besidePort (code : Byte) (args : BitVec 16) (s : State) :
    BesidePort s (takeRequest code args s) := by
  unfold takeRequest
  refine .ite (onStatus_besidePort s) ?_
  refine .ite (onServo_besidePort s) ?_
  refine .ite (onRoster_besidePort _ s) ?_
  refine .ite (onLog_besidePort _ s) ?_
  refine .ite (onEvent_besidePort s) ?_
  refine .ite (onDuty_besidePort _ s) ?_
  refine .ite (onStart_besidePort s) ?_
  refine .ite (onStop_besidePort s) ?_
  refine .ite (onTrip_besidePort s) ?_
  refine .ite (onClear_besidePort s) ?_
  refine .ite (onDetach_besidePort s) ?_
  refine .ite (onAttach_besidePort s) ?_
  exact onUnknownRequest_besidePort code s

theorem readSelect_besidePort (s : State) : BesidePort s s.readSelect := by
  unfold State.readSelect
  split_ifs <;> exact ⟨rfl, rfl, rfl, rfl⟩

theorem readClock_besidePort (s : State) : BesidePort s s.readClock := by
  unfold State.readClock
  split_ifs
  · unfold State.takePortBit
    dsimp only
    split_ifs <;>
      first
      | exact (takeRequest_besidePort _ _ _).after ⟨rfl, rfl, rfl, rfl⟩
      | exact ⟨rfl, rfl, rfl, rfl⟩
  all_goals exact ⟨rfl, rfl, rfl, rfl⟩

theorem stepPort_besidePort (s : State) : BesidePort s (stepPort s) := by
  unfold stepPort
  split
  · exact (readSelect_besidePort s).trans (readClock_besidePort _)
  · exact ⟨rfl, rfl, rfl, rfl⟩

/-! ### The boundary and the loader beside the port, and the boundary beside the loader -/

theorem onCycleBoundary_port (s : State) : (onCycleBoundary s).port = s.port ∧
    (onCycleBoundary s).pins = s.pins ∧ (onCycleBoundary s).loader = s.loader := by
  unfold onCycleBoundary; split <;> simp

theorem stepLoader_port (s : State) : (stepLoader s).port = s.port ∧
    (stepLoader s).pins = s.pins := by
  unfold stepLoader onConfigAttemptEnd
  split_ifs
  · split
    · dsimp only
      split
      · split <;> exact ⟨rfl, rfl⟩
      all_goals exact ⟨rfl, rfl⟩
    all_goals exact ⟨rfl, rfl⟩
  · exact ⟨rfl, rfl⟩

/-- The parts of a tick, each there when it has something to do. -/
theorem tickParts_eq (s : State) : s.tickParts =
    (if s.boundaryDue then [onCycleBoundary] else []) ++
    ((if s.seq.sync.runs && (s.sofEdgeNow || s.loopFails || s.samplePoint) then [stepLine] else []) ++
    ((if s.startMayFall then [onTxFrameStart] else []) ++
    ((if s.portMoves then [stepPort] else []) ++
    ((if s.pinMoves then [stepPin] else []) ++
    (if s.attemptOver then [stepLoader] else []))))) := by
  unfold State.tickParts
  generalize s.boundaryDue = a
  generalize (s.seq.sync.runs && (s.sofEdgeNow || s.loopFails || s.samplePoint)) = b
  generalize s.startMayFall = c
  generalize s.portMoves = d
  generalize s.pinMoves = e
  generalize s.attemptOver = f
  cases a <;> cases b <;> cases c <;> cases d <;> cases e <;> cases f <;> rfl

/-! ### A tick by the local port, by the loader and by SYNC -/

/-- The pins and the port's own state: what the port's part reads and writes, apart from the answer. -/
def State.portSide (s : State) : Port × Bool × Bool × Bool :=
  (s.port, s.pins.lpSel, s.pins.lpClk, s.pins.lpDi)

theorem Beside.portSide {s t : State} (h : Beside s t) : t.portSide = s.portSide := by
  have hp := h.pins
  simp only [Pins.mk.injEq] at hp
  simp only [State.portSide, h.port, hp.2.2.2.1, hp.2.2.2.2.1, hp.2.2.2.2.2.1]

theorem openTick_portSide {s : State} (h : s.loader.phase ≠ .held) :
    s.openTick.portSide = s.portSide := by
  rw [State.openTick, if_neg h]
  · have h1 : s.tickLoader.portSide = s.portSide := by
      unfold State.tickLoader onConfigRetryWaitEnd State.portSide
      split <;> (try split) <;> (try split) <;> rfl
    have h2 : ∀ x : State, x.tickSync.portSide = x.portSide := by
      intro x; unfold State.tickSync onSyncPulseEnd State.portSide
      split_ifs <;> rfl
    have h3 : ∀ x : State, (onCountTick x).portSide = x.portSide := by
      intro x; unfold onCountTick State.portSide; split <;> simp
    have h4 : ∀ x : State, x.tickGrid.portSide = x.portSide := by
      intro x; unfold State.tickGrid
      split
      · have hs : ∀ y : State, y.startBit.portSide = y.portSide := by
          intro y; unfold State.startBit State.portSide
          dsimp only
          split <;> (try split) <;> (try split) <;> rfl
        dsimp only
        split <;> split <;> first | rfl | (rw [hs]; rfl)
      · rfl
    rw [h4, h3, h2, h1]

theorem portMoves_of_portSide {s t : State} (h : t.portSide = s.portSide) :
    t.portMoves = s.portMoves := by
  simp only [State.portSide, Prod.mk.injEq] at h
  simp only [State.portMoves, h]

theorem stepPort_idle {s : State} (h : s.portMoves = false) : stepPort s = s := by
  simp [stepPort, h]

/-- The parts that are not the port's leave the port and its pins. -/
theorem part_portSide {f : State → State} (h : f = onCycleBoundary ∨ f = stepLine ∨
    f = onTxFrameStart ∨ f = stepPin ∨ f = stepLoader) (x : State) :
    (f x).portSide = x.portSide := by
  rcases h with rfl | rfl | rfl | rfl | rfl
  · obtain ⟨h1, h2, -⟩ := onCycleBoundary_port x
    simp only [State.portSide, h1, h2]
  · exact (stepLine_beside x).portSide
  · exact (onTxFrameStart_beside x).portSide
  · exact (stepPin_beside x).portSide
  · obtain ⟨h1, h2⟩ := stepLoader_port x
    simp only [State.portSide, h1, h2]

/-- A tick moves the port by the port's part alone, on what its opening leaves and whatever the order of the
parts. -/
theorem tick_port_open {s : State} (h : s.pins.reset = false) : ∃ u : State,
    u.portSide = s.openTick.portSide ∧ (tick s).port = { (stepPort u).port with
      selPrev := (stepPort u).pins.lpSel, clkPrev := (stepPort u).pins.lpClk } := by
  have key : ∃ u : State, u.portSide = s.openTick.portSide ∧
      (s.openTick.runParts s.openTick.tickParts).portSide = (stepPort u).portSide := by
    rw [tickParts_eq]
    by_cases hm : s.openTick.portMoves = true
    · simp only [hm, if_true]
      obtain ⟨u, hu, e⟩ := runParts_once State.portSide (fun _ => rfl) s.openTick stepPort
        ((if s.openTick.boundaryDue then [onCycleBoundary] else []) ++
          ((if s.openTick.seq.sync.runs &&
            (s.openTick.sofEdgeNow || s.openTick.loopFails || s.openTick.samplePoint) then [stepLine]
            else []) ++ (if s.openTick.startMayFall then [onTxFrameStart] else [])))
        ((if s.openTick.pinMoves then [stepPin] else []) ++
          (if s.openTick.attemptOver then [stepLoader] else []))
        (by
          intro f hf
          apply part_portSide
          simp only [List.mem_append, List.mem_ite_nil_right, List.mem_singleton] at hf
          rcases hf with (⟨-, hf⟩ | ⟨-, hf⟩ | ⟨-, hf⟩) | ⟨-, hf⟩ | ⟨-, hf⟩ <;> simp [hf])
      exact ⟨u, hu, by simpa using e⟩
    · refine ⟨s.openTick, rfl, ?_⟩
      rw [stepPort_idle (by simpa using hm)]
      refine runParts_keeps State.portSide (fun _ => rfl) _ _ ?_
      intro f hf
      apply part_portSide
      simp only [List.mem_append, List.mem_ite_nil_right, List.mem_singleton] at hf
      rcases hf with ⟨-, hf⟩ | ⟨-, hf⟩ | ⟨-, hf⟩ | ⟨h4, -⟩ | ⟨-, hf⟩ | ⟨-, hf⟩
      case inr.inr.inr.inl => exact absurd h4 hm
      all_goals simp [hf]
  obtain ⟨u, hu, e⟩ := key
  refine ⟨u, hu, ?_⟩
  simp only [State.portSide, Prod.mk.injEq] at e
  simp only [tick, h, Bool.false_eq_true, if_false, State.closeTick, e]

/-- Once LOAD has begun, nothing but the port's part moves the port in a tick. -/
theorem tick_port {s : State} (h : s.pins.reset = false) (hp : s.loader.phase ≠ .held) : ∃ u : State,
    u.portSide = s.portSide ∧ (tick s).port = { (stepPort u).port with
      selPrev := (stepPort u).pins.lpSel, clkPrev := (stepPort u).pins.lpClk } := by
  rw [← openTick_portSide hp]; exact tick_port_open h

/-- The first tick after reset reads the select and the clock and starts no transaction (R167). -/
theorem tick_port_held {s : State} (h : s.pins.reset = false) (hp : s.loader.phase = .held)
    (ha : s.port.active = false) :
    (tick s).port = { s.port with selPrev := s.pins.lpSel, clkPrev := s.pins.lpClk } := by
  obtain ⟨u, hu, e⟩ := tick_port_open h
  have ho : s.openTick.portSide =
      ({ s with port := { s.port with selPrev := s.pins.lpSel } } : State).portSide := by
    rw [State.openTick, if_pos hp]
    unfold onLoadStart State.portSide
    simp only [hp, if_true]
    split_ifs <;> simp
  rw [ho] at hu
  simp only [State.portSide, Prod.mk.injEq] at hu
  obtain ⟨h1, h2, h3, h4⟩ := hu
  rw [e]
  simp [stepPort, State.portMoves, State.readSelect, State.readClock, *]

/-! #### The loader -/

/-- The parts that are not the loader's leave it. -/
theorem part_loader {f : State → State} (h : f = onCycleBoundary ∨ f = stepLine ∨
    f = onTxFrameStart ∨ f = stepPort ∨ f = stepPin) (x : State) : (f x).loader = x.loader := by
  rcases h with rfl | rfl | rfl | rfl | rfl
  · exact (onCycleBoundary_port x).2.2
  · exact (stepLine_beside x).loader
  · exact (onTxFrameStart_beside x).loader
  · exact (stepPort_besidePort x).loader
  · exact (stepPin_beside x).loader

theorem openTick_loader {s : State} (h : s.loader.phase ≠ .held) :
    s.openTick.loader = s.tickLoader.loader := by
  have h2 : ∀ x : State, x.tickSync.loader = x.loader := by
    intro x; unfold State.tickSync onSyncPulseEnd
    split_ifs <;> rfl
  have h3 : ∀ x : State, (onCountTick x).loader = x.loader := by
    intro x; unfold onCountTick; split <;> simp
  have h4 : ∀ x : State, x.tickGrid.loader = x.loader := by
    intro x; unfold State.tickGrid
    split
    · have hs : ∀ y : State, y.startBit.loader = y.loader := by
        intro y; unfold State.startBit
        dsimp only
        split <;> (try split) <;> (try split) <;> rfl
      dsimp only
      split <;> split <;> first | rfl | (rw [hs]; rfl)
    · rfl
  rw [State.openTick, if_neg h, h4, h3, h2]

/-- A tick moves the loader by its own count and judgement alone. -/
theorem tick_loader {s : State} (h : s.pins.reset = false) (hp : s.loader.phase ≠ .held) :
    ∃ u : State, u.loader = s.tickLoader.loader ∧ (tick s).loader = (stepLoader u).loader := by
  have key : ∃ u : State, u.loader = s.openTick.loader ∧
      (s.openTick.runParts s.openTick.tickParts).loader = (stepLoader u).loader := by
    rw [tickParts_eq]
    by_cases hm : s.openTick.attemptOver = true
    · simp only [hm, if_true]
      obtain ⟨u, hu, e⟩ := runParts_once State.loader (fun _ => rfl) s.openTick stepLoader
        ((if s.openTick.boundaryDue then [onCycleBoundary] else []) ++
          ((if s.openTick.seq.sync.runs &&
            (s.openTick.sofEdgeNow || s.openTick.loopFails || s.openTick.samplePoint) then [stepLine]
            else []) ++ ((if s.openTick.startMayFall then [onTxFrameStart] else []) ++
          ((if s.openTick.portMoves then [stepPort] else []) ++
            (if s.openTick.pinMoves then [stepPin] else []))))) []
        (by
          intro f hf
          apply part_loader
          simp only [List.mem_append, List.mem_ite_nil_right, List.mem_singleton,
            List.not_mem_nil] at hf
          rcases hf with (⟨-, hf⟩ | ⟨-, hf⟩ | ⟨-, hf⟩ | ⟨-, hf⟩ | ⟨-, hf⟩) | hf
          case inr => exact hf.elim
          all_goals simp [hf])
      exact ⟨u, hu, by simpa using e⟩
    · refine ⟨s.openTick, rfl, ?_⟩
      have e : stepLoader s.openTick = s.openTick := by simp [stepLoader, hm]
      rw [e]
      refine runParts_keeps State.loader (fun _ => rfl) _ _ ?_
      intro f hf
      apply part_loader
      simp only [List.mem_append, List.mem_ite_nil_right, List.mem_singleton] at hf
      rcases hf with ⟨-, hf⟩ | ⟨-, hf⟩ | ⟨-, hf⟩ | ⟨-, hf⟩ | ⟨-, hf⟩ | ⟨h6, -⟩
      case inr.inr.inr.inr.inr => exact absurd h6 hm
      all_goals simp [hf]
  obtain ⟨u, hu, e⟩ := key
  refine ⟨u, hu.trans (openTick_loader hp), ?_⟩
  simp only [tick, h, Bool.false_eq_true, if_false, State.closeTick, decideOutputs_loader, e]

/-! #### SYNC -/

/-- The carrier but its accumulator, and whether it runs: what the boundary alone moves in a tick. -/
def State.carrierSide (s : State) : Carrier × Bool := ({ s.carrier with acc := 0 }, s.seq.sync.runs)

theorem part_carrierSide {f : State → State} (h : f = stepLine ∨ f = onTxFrameStart ∨
    f = stepPort ∨ f = stepPin) (x : State) : (f x).carrierSide = x.carrierSide := by
  rcases h with rfl | rfl | rfl | rfl
  · simp only [State.carrierSide, (stepLine_beside x).carrier, (stepLine_beside x).runs]
  · simp only [State.carrierSide, (onTxFrameStart_beside x).carrier, (onTxFrameStart_beside x).runs]
  · simp only [State.carrierSide, (stepPort_besidePort x).carrier, (stepPort_besidePort x).runs]
  · simp only [State.carrierSide, (stepPin_beside x).carrier, (stepPin_beside x).runs]

theorem tickLoader_finished {s : State} (h : s.loader.phase = .finished) : s.tickLoader = s := by
  simp [State.tickLoader, h]

theorem boundaryDue_of_carrierSide {s t : State} (h : t.carrierSide = s.carrierSide) :
    t.boundaryDue = s.boundaryDue := by
  simp only [State.carrierSide, Prod.mk.injEq, Carrier.mk.injEq] at h
  simp only [State.boundaryDue, h]

/-- A tick after LOAD moves the carrier by its counts, its SYNC pulse and the boundary alone. -/
theorem tick_carrier {s : State} (h : s.pins.reset = false) (hp : s.loader.phase = .finished) :
    ∃ u : State, u.carrierSide = (onCountTick s.tickSync).carrierSide ∧
      (tick s).carrierSide = (onCycleBoundary u).carrierSide := by
  have h4 : ∀ x : State, x.tickGrid.carrierSide = x.carrierSide := by
    intro x; unfold State.tickGrid
    split
    · have hs : ∀ y : State, y.startBit.carrierSide = y.carrierSide := by
        intro y; unfold State.startBit State.carrierSide
        dsimp only
        split <;> (try split) <;> (try split) <;> rfl
      dsimp only
      split <;> split <;> first | rfl | (rw [hs]; rfl)
    · rfl
  have ho : s.openTick.carrierSide = (onCountTick s.tickSync).carrierSide := by
    rw [State.openTick, if_neg (by rw [hp]; simp), h4, tickLoader_finished hp]
  have ha : s.openTick.attemptOver = false := by
    simp [State.attemptOver, openTick_loader (s := s) (by rw [hp]; simp), tickLoader_finished hp, hp]
  have key : ∃ u : State, u.carrierSide = s.openTick.carrierSide ∧
      (s.openTick.runParts s.openTick.tickParts).carrierSide = (onCycleBoundary u).carrierSide := by
    rw [tickParts_eq]
    simp only [ha, Bool.false_eq_true, if_false]
    by_cases hm : s.openTick.boundaryDue = true
    · simp only [hm, if_true]
      obtain ⟨u, hu, e⟩ := runParts_once State.carrierSide (fun _ => rfl) s.openTick onCycleBoundary
        [] ((if s.openTick.seq.sync.runs &&
            (s.openTick.sofEdgeNow || s.openTick.loopFails || s.openTick.samplePoint) then [stepLine]
            else []) ++ ((if s.openTick.startMayFall then [onTxFrameStart] else []) ++
          ((if s.openTick.portMoves then [stepPort] else []) ++
            ((if s.openTick.pinMoves then [stepPin] else []) ++ []))))
        (by
          intro f hf
          apply part_carrierSide
          simp only [List.mem_append, List.mem_ite_nil_right, List.mem_singleton,
            List.not_mem_nil, or_false, false_or] at hf
          rcases hf with ⟨-, hf⟩ | ⟨-, hf⟩ | ⟨-, hf⟩ | ⟨-, hf⟩ <;> simp [hf])
      exact ⟨u, hu, by simpa using e⟩
    · refine ⟨s.openTick, rfl, ?_⟩
      have e : onCycleBoundary s.openTick = s.openTick := by simp [onCycleBoundary, hm]
      rw [e]
      refine runParts_keeps State.carrierSide (fun _ => rfl) _ _ ?_
      intro f hf
      apply part_carrierSide
      simp only [List.mem_append, List.mem_ite_nil_right, List.mem_singleton, List.not_mem_nil,
        or_false] at hf
      rcases hf with ⟨h1, -⟩ | ⟨-, hf⟩ | ⟨-, hf⟩ | ⟨-, hf⟩ | ⟨-, hf⟩
      case inl => exact absurd h1 hm
      all_goals simp [hf]
  obtain ⟨u, hu, e⟩ := key
  refine ⟨u, hu.trans ho, ?_⟩
  simp only [State.carrierSide, Prod.mk.injEq] at e
  simp only [tick, h, Bool.false_eq_true, if_false, State.closeTick, State.carrierSide,
    decideOutputs_carrier, decideOutputs_seq, e]

/-! ### Every request is answered by one reply -/

/-- `t` is the reply to a request of this code, whatever the request did before it. -/
def Replied (code : Byte) (t : State) : Prop :=
  ∃ (u : State) (a : BitVec 16) (x : StatusCode) (r : List Byte), t = u.reply code a x r

theorem Replied.ite {p : Prop} [Decidable p] {c : Byte} {t u : State} (h : p → Replied c t)
    (k : ¬ p → Replied c u) : Replied c (if p then t else u) := by
  split
  · exact h ‹_›
  · exact k ‹_›

theorem reply_replied (s : State) (c : Byte) (a : BitVec 16) (x : StatusCode) (r : List Byte) :
    Replied c (s.reply c a x r) := ⟨s, a, x, r, rfl⟩

/-- The reply that a refusal gives, or the one that the owning chapter's rule gives. -/
theorem refused_or {c : Byte} {a : BitVec 16} {s t : State} (h : Replied c t) :
    Replied c (match s.portRefusal with
      | some x => s.reply c a x []
      | none => t) := by
  split
  · exact reply_replied s c a _ _
  · exact h

theorem onRoster_replied (i : Byte) (s : State) : Replied 0x03 (onRoster i s) := by
  unfold onRoster
  refine refused_or ?_
  split <;> exact reply_replied _ _ _ _ _

theorem onLog_replied (i : Byte) (s : State) : Replied 0x04 (onLog i s) := by
  unfold onLog
  refine refused_or ?_
  split <;> exact reply_replied _ _ _ _ _

theorem onEvent_replied (s : State) : Replied 0x05 (onEvent s) := by
  unfold onEvent
  refine .ite (fun _ => reply_replied _ _ _ _ _) fun _ => ?_
  split <;> exact reply_replied _ _ _ _ _

theorem onStart_replied (s : State) : Replied 0x11 (onStart s) := by
  unfold onStart
  refine refused_or ?_
  split <;> exact reply_replied _ _ _ _ _

theorem onStop_replied (s : State) : Replied 0x12 (onStop s) := by
  unfold onStop
  refine refused_or ?_
  split <;> exact reply_replied _ _ _ _ _

theorem onClear_replied (s : State) : Replied 0x14 (onClear s) := by
  unfold onClear
  refine refused_or (.ite (fun _ => .ite (fun _ => ?_) fun _ => ?_) fun _ => ?_) <;>
    exact reply_replied _ _ _ _ _

theorem onDetach_replied (s : State) : Replied 0x18 (onDetach s) := by
  have hl : Replied 0x18 (if s.leavePending then s.reply 0x18 0 .already []
      else s.offerLeave.reply 0x18 0 .done []) :=
    .ite (fun _ => reply_replied _ _ _ _ _) fun _ => reply_replied _ _ _ _ _
  unfold onDetach
  split
  case h_6 => exact hl
  case h_7 => exact hl
  case h_8 =>
    exact .ite (fun _ => reply_replied _ _ _ _ _) fun _ =>
      .ite (fun _ => reply_replied _ _ _ _ _) fun _ => reply_replied _ _ _ _ _
  all_goals exact reply_replied _ _ _ _ _

theorem onAttach_replied (s : State) : Replied 0x19 (onAttach s) := by
  unfold onAttach
  split <;> exact reply_replied _ _ _ _ _

theorem onUnknownRequest_replied {c : Byte} (s : State) (h : requestCodes.contains c = false) :
    Replied c (onUnknownRequest c s) := by
  unfold onUnknownRequest
  refine .ite (fun k => absurd k (by rw [h]; exact Bool.false_ne_true)) fun _ => .ite (fun _ => ?_) fun _ => ?_ <;>
    exact reply_replied _ _ _ _ _

/-- The request that a code and its argument bytes spell is answered by one reply of that code. -/
theorem takeRequest_replied (code : Byte) (args : BitVec 16) (s : State) :
    Replied code (takeRequest code args s) := by
  unfold takeRequest
  refine .ite (fun h => h ▸ .ite (fun _ => ?_) fun _ => ?_) fun h1 => ?_
  · exact reply_replied _ _ _ _ _
  · exact reply_replied _ _ _ _ _
  refine .ite (fun h => h ▸ refused_or (reply_replied _ _ _ _ _)) fun h2 => ?_
  refine .ite (fun h => h ▸ onRoster_replied _ s) fun h3 => ?_
  refine .ite (fun h => h ▸ onLog_replied _ s) fun h4 => ?_
  refine .ite (fun h => h ▸ onEvent_replied s) fun h5 => ?_
  refine .ite (fun h => h ▸ refused_or (reply_replied _ _ _ _ _)) fun h6 => ?_
  refine .ite (fun h => h ▸ onStart_replied s) fun h7 => ?_
  refine .ite (fun h => h ▸ onStop_replied s) fun h8 => ?_
  refine .ite (fun h => h ▸ refused_or (reply_replied _ _ _ _ _)) fun h9 => ?_
  refine .ite (fun h => h ▸ onClear_replied s) fun h10 => ?_
  refine .ite (fun h => h ▸ onDetach_replied s) fun h11 => ?_
  refine .ite (fun h => h ▸ onAttach_replied s) fun h12 => ?_
  refine onUnknownRequest_replied s ?_
  simp only [requestCodes, List.contains_eq_mem, List.mem_cons, List.not_mem_nil, or_false,
    decide_eq_false_iff_not, not_or]
  exact ⟨h1, h2, h3, h4, h5, h6, h7, h8, h9, h10, h11, h12⟩

/-- A request finds LP_SEL asserted. -/
theorem takeRequest_selected (code : Byte) (args : BitVec 16) (s : State) :
    (takeRequest code args s).pins.lpSel = true ∧ (takeRequest code args s).port.selPrev = true := by
  obtain ⟨u, a, x, r, h⟩ := takeRequest_replied code args s
  exact h ▸ ⟨rfl, rfl⟩

/-! ### A tick in which the local port alone has work -/

theorem gateOutputs_eq (cfg : Image) (c pc : Nat) (g : Gate) : gateOutputs cfg c pc g =
    { g with hi := (gateOutputs cfg c pc g).hi, lo := (gateOutputs cfg c pc g).lo } := by
  unfold gateOutputs; split <;> rfl

theorem tickSync_eq (s : State) : s.tickSync = { s with carrier := { s.carrier with
    sync := s.tickSync.carrier.sync, syncAge := s.tickSync.carrier.syncAge } } := by
  unfold State.tickSync onSyncPulseEnd
  split_ifs <;> rfl

theorem tickGrid_quiet {s : State} (hf : s.seq.sync.runs = true → s.tx.inFlight = none)
    (hg : s.seq.sync.runs = true → (s.line.grid + 1) % s.cfg.bitTicks ≠ 0) :
    s.tickGrid = { s with line := s.tickGrid.line } ∧
    (s.seq.sync.runs = true → s.tickGrid.line.grid = (s.line.grid + 1) % s.cfg.bitTicks) ∧
    s.tickGrid.line.rxPrev = s.line.rxPrev := by
  unfold State.tickGrid
  by_cases hr : s.seq.sync.runs = true
  · have hm : s.markEmpty = false := by simp [State.markEmpty, hf hr]
    have hz : s.moveGrid.line.grid ≠ 0 := hg hr
    simp only [hr, if_true, hm, Bool.false_eq_true, if_false, hz]
    refine ⟨?_, fun _ => rfl, rfl⟩
    have ht : s.tx = { s.tx with inFlight := none } := by rw [← hf hr]
    simp only [State.moveGrid, hf hr, Option.map_none, ← ht]
  · simp [hr]

theorem onCountTick_eq (s : State) : onCountTick s = { s with
      carrier := { s.carrier with
        g := (onCountTick s).carrier.g, c := (onCountTick s).carrier.c
        acc := (onCountTick s).carrier.acc }
      gate := { s.gate with
        hi := (onCountTick s).gate.hi, lo := (onCountTick s).gate.lo
        hiPrev := (onCountTick s).gate.hiPrev, loPrev := (onCountTick s).gate.loPrev } } := by
  unfold onCountTick
  split
  · unfold State.decideOutputs
    dsimp only
    rw [gateOutputs_eq]
  · rfl

theorem PortAlone.begun {s : State} (h : PortAlone s) : s.loader.phase ≠ .held := by
  rw [h.loaded]; exact LoaderPhase.noConfusion

/-- The time-driven work of a tick in which nothing but the port has work (`PortAlone`). -/
theorem openTick_alone {s : State} (h : PortAlone s) :
    s.openTick = { s with
      carrier := { s.carrier with
        g := s.openTick.carrier.g, c := s.openTick.carrier.c, acc := s.openTick.carrier.acc
        sync := s.openTick.carrier.sync, syncAge := s.openTick.carrier.syncAge }
      gate := { s.gate with
        hi := s.openTick.gate.hi, lo := s.openTick.gate.lo
        hiPrev := s.openTick.gate.hiPrev, loPrev := s.openTick.gate.loPrev }
      line := s.openTick.line } ∧
    (s.seq.sync.runs = true →
      s.openTick.carrier.c = s.carrier.c + (countsOf s.servo.trim s.carrier.acc).1) ∧
    (s.seq.sync.runs = true → s.openTick.line.grid = (s.line.grid + 1) % s.cfg.bitTicks) ∧
    s.openTick.line.rxPrev = s.line.rxPrev := by
  have hh : s.loader.phase ≠ .held := by rw [h.loaded]; simp
  have e : s.openTick = (onCountTick s.tickSync).tickGrid := by
    rw [State.openTick, if_neg hh, tickLoader_finished h.loaded]
  have hx : onCountTick s.tickSync = { s with
      carrier := { s.carrier with
        g := (onCountTick s.tickSync).carrier.g, c := (onCountTick s.tickSync).carrier.c
        acc := (onCountTick s.tickSync).carrier.acc
        sync := s.tickSync.carrier.sync, syncAge := s.tickSync.carrier.syncAge }
      gate := { s.gate with
        hi := (onCountTick s.tickSync).gate.hi, lo := (onCountTick s.tickSync).gate.lo
        hiPrev := (onCountTick s.tickSync).gate.hiPrev
        loPrev := (onCountTick s.tickSync).gate.loPrev } } := by
    have h0 := onCountTick_eq s.tickSync
    have h1 := tickSync_eq s
    generalize onCountTick s.tickSync = x at h0 ⊢
    generalize s.tickSync = y at h0 h1 ⊢
    exact h0.trans (by rw [h1])
  have hc : s.seq.sync.runs = true → (onCountTick s.tickSync).carrier.c =
      s.carrier.c + (countsOf s.servo.trim s.carrier.acc).1 := by
    intro hr
    have hlt : s.carrier.c < s.carrier.pc := by have := h.notDue hr; omega
    rw [tickSync_eq]
    simp [onCountTick, hr, hlt]
  rw [e]
  generalize onCountTick s.tickSync = x at *
  generalize s.tickSync.carrier.sync = a, s.tickSync.carrier.syncAge = b at *
  have hcfg : x.cfg = s.cfg := by rw [hx]; rfl
  have hseq : x.seq = s.seq := by rw [hx]
  have htx : x.tx = s.tx := by rw [hx]
  have hline : x.line = s.line := by rw [hx]
  obtain ⟨h1, h2, h3⟩ := tickGrid_quiet (s := x)
    (fun hr => by rw [htx]; rw [hseq] at hr; exact (h.line hr).2.1)
    (fun hr => by rw [hline, hcfg]; rw [hseq] at hr; exact (h.line hr).2.2.1)
  rw [hseq, hline, hcfg] at h2
  rw [hline] at h3
  have hcar : x.tickGrid.carrier = x.carrier := by rw [h1]
  have hgate : x.tickGrid.gate = x.gate := by rw [h1]
  refine ⟨?_, fun hr => by rw [hcar]; exact hc hr, h2, h3⟩
  rw [hcar, hgate]
  conv_lhs => rw [h1]
  generalize x.tickGrid.line = l at *
  rw [hx]

/-- Such a tick of a port whose LP_CLK rises is the port's part, taken on what time has left. -/
theorem tick_alone {s : State} (h : PortAlone s) (hm : s.portMoves = true) :
    step s = .next (stepPort s.openTick).closeTick := by
  obtain ⟨he, hc, hg, hp⟩ := openTick_alone h
  have hs : step s = .next (tick s) := by simp [step, h.waiting]
  rw [hs, tick, if_neg (by rw [h.noReset]; simp)]
  congr 2
  have hseq : s.openTick.seq = s.seq := by rw [he]
  have htx : s.openTick.tx = s.tx := by rw [he]
  have hpins : s.openTick.pins = s.pins := by rw [he]
  have hfault : s.openTick.fault = s.fault := by rw [he]
  have hl : s.openTick.loader = s.loader := by rw [he]
  have hcfg : s.openTick.cfg = s.cfg := by rw [he]; rfl
  have hpc : s.openTick.carrier.pc = s.carrier.pc := by rw [he]
  have hd : s.openTick.boundaryDue = false := by
    unfold State.boundaryDue
    rw [hseq, hpc]
    cases hr : s.seq.sync.runs
    · rfl
    · have := h.notDue hr
      simp [hc hr, this]
  have hi : (s.openTick.seq.sync.runs &&
      (s.openTick.sofEdgeNow || s.openTick.loopFails || s.openTick.samplePoint)) = false := by
    rw [hseq]
    cases hr : s.seq.sync.runs
    · rfl
    · obtain ⟨k1, k2, k3, k4⟩ := h.line hr
      simp [State.sofEdgeNow, State.loopFails, State.samplePoint, htx, hpins, k1, k2, hg hr, hcfg, k4]
  have hf : s.openTick.startMayFall = false := by simp [State.startMayFall, htx, h.lineBusy]
  have ho : s.openTick.portMoves = true := by
    rw [portMoves_of_portSide (openTick_portSide h.begun)]; exact hm
  have hn : s.openTick.pinMoves = false := by simp [State.pinMoves, hpins, hfault, h.pin]
  have ha : s.openTick.attemptOver = false := by simp [State.attemptOver, hl, h.loaded]
  simp [tickParts_eq, hd, hi, hf, ho, hn, ha, State.runParts]

/-- Such a tick in which LP_CLK rises with the last bit of a request is the request, and the end of the
tick. -/
theorem tick_request {s : State} {code : Byte} {args : BitVec 16} (h : PortAlone s)
    (h1 : s.pins.lpSel = true) (h2 : s.port.selPrev = true) (h3 : s.port.active = true)
    (h4 : s.pins.lpClk = true) (h5 : s.port.clkPrev = false)
    (ht : s.openTick.takePortBit = takeRequest code args
      { s.openTick with port := { s.port with bits := s.port.bits + 1, code := code, args := args } }) :
    step s = .next (takeRequest code args
      { s.openTick with port := { s.port with bits := s.port.bits + 1, code := code, args := args } }).closeTick := by
  have hs := openTick_portSide h.begun
  simp only [State.portSide, Prod.mk.injEq] at hs
  have hm : s.portMoves = true := by simp [State.portMoves, h4, h5]
  rw [tick_alone h hm, stepPort, if_pos (by rw [portMoves_of_portSide (openTick_portSide h.begun)]; exact hm)]
  have hr : s.openTick.readSelect = s.openTick := by
    simp [State.readSelect, hs.1, hs.2.1, h1, h2]
  rw [hr, State.readClock, if_pos (by simp [hs.1, hs.2.1, h1, h3]),
    if_pos (by simp [hs.1, hs.2.2.1, h4, h5]), ht]

end Sys2Proof.Machine
end

