-- ==== Sys2Proof/Tests/Slice0.lean ====
section
/-! SUPPORT. The model's own tests: ill-formed commands refused, the manual's worked figures, and for every statement with hypotheses a concrete state that meets them. Expected values come from the manual's examples and tables, named in each comment. -/

namespace Sys2Proof.Tests

set_option Elab.async false

open Sys2Proof.Machine

/-! ### Small states -/

/-- The reference configuration of the introduction, for a station (scope; 12.2). -/
def reference (own : Identity) : Image where
  stationId := own
  staleLimit := 3
  period := 12000
  bitTicks := 10
  lineDelay := 40
  listenCycles := 8
  autoJoin := true
  groupTrip := true
  gateInHoldover := false
  reserved := 0
  lockWindow := 20
  unlockWindow := 80
  lockCount := 4
  settleCount := 3
  kp := 64
  linkErrLimit := 8
  ki := 8
  trimMax := 655
  acqStep := 600
  fineStep := 60
  slotStep := 750
  deadBand := 150
  dutyMin := 150
  dutyMax := 10350
  holdoverMax := 3

/-- A station of the reference configuration in this sync state, in HUNT, alone, at g = o = 0 with the
count c reached. -/
def station (own : Identity) (sync : SyncState) (c : Nat := 0) : State :=
  { State.reset with
    loader := ⟨.finished, 0⟩
    image := some (reference own)
    carrier := ⟨c % 12000, 0, 0, c, 12000, 5310, 150, false, 0⟩
    line := ⟨.hunt, 5, true⟩
    roster := clearedRoster own
    view := ⟨ownMap own, 0, ownMap own, 0⟩
    seq := ⟨sync, 0, 0, false, sync == .locked⟩
    gate := ⟨.off, 150, 150, false, false, false, false⟩ }

/-- The map of these identities. -/
def mapOfList (l : List Identity) : StationMap := mapOf fun i => l.contains i

/-- A MEMBER entry whose last beacon had this state and member map. -/
def member (st : SenderState) (m : StationMap) : RosterEntry := ⟨.member, false, 0, some ⟨st, m, m, 0⟩⟩

/-- A usable record. -/
def record (sender : Identity) (st : SenderState) (error : Int) : ArrivalRecord :=
  ⟨sender, st, 0, 0, error, 0, 0, true, false⟩

/-- A state whose receiver has read these bits of a foreign frame. -/
def receiving (s : State) (bits : List Bit) : State :=
  { s with line := { s.line with mode := .receive (bits.foldl RxRecord.feed
      ⟨0, ⟨3970, 812, 150⟩, false, [], 0⟩) } }

/-- The record that `receiving` holds. -/
def recordOf (bits : List Bit) : RxRecord :=
  bits.foldl RxRecord.feed ⟨0, ⟨3970, 812, 150⟩, false, [], 0⟩

/-- A state with this frame in flight at its SOF, not read back yet. -/
def sending (s : State) (f : Frame) : State :=
  { s with tx := { s.tx with
      inFlight := some ⟨f, ⟨5200, 5310, 150⟩, some 0, 0, false⟩, lineTx := true } }

/-- The frame in flight of `sending`. -/
def flightOf (f : Frame) : InFlight := ⟨f, ⟨5200, 5310, 150⟩, some 0, 0, false⟩

def withGate (s : State) (g : GateState) : State := { s with gate := { s.gate with state := g } }

def withQueue (s : State) (q : TxQueue) : State := { s with tx := { s.tx with queue := q } }

def withErrors (s : State) (n : Nat) : State := { s with tx := { s.tx with linkErr := n } }

def withEntry (s : State) (i : Identity) (e : RosterEntry) : State :=
  { s with roster := s.roster.set i.val e }

def withLog (s : State) (l : List ArrivalRecord) : State := { s with log := l }

def withMode (s : State) (m : RxMode) : State := { s with line := { s.line with mode := m } }

/-- The image bytes of Chapter 12 with these bytes 1-2 (P) and byte 3 (BitTicks), its check after
them. -/
def imageOf (p bitTicks : Nat) : ImageBits :=
  let body : List Byte := [0x93] ++ count16 p ++ [byteOf bitTicks, 0x00, 0x28, 0x08, 0xC0, 0x14, 0x00,
    0x50, 0x04, 0x30, 0x40, 0x20, 0x08, 0x02, 0x8F, 0x02, 0x58, 0x00, 0x3C, 0x02, 0xEE, 0x00, 0x96,
    0x00, 0x96, 0x28, 0x6E, 0x00, 0x03]
  (body ++ be16 (imageCrc (body.flatMap wordBits))).foldl
    (fun (a : ImageBits) b => (a <<< 8) ||| b.setWidth 272) 0

/-- The LEAVE of station 7 (2.5). -/
def leave7 : Frame := ⟨7, .leave⟩

/-- The BEACON of station 9 in 2.10. -/
def beacon9 : Frame := ⟨9, .beacon 8123 (mapOfList [2, 4, 9]) (mapOfList [2, 4, 9]) .locked⟩

/-! ### WellFormed: an ill-formed term for each check -/

theorem test_wellFormed_refuses_errorBits_empty :
    (Instr.rxFrameError []).wellFormed = false := by decide

theorem test_wellFormed_refuses_errorBits_long :
    (Instr.rxFrameError (List.replicate 68 false)).wellFormed = false := by decide

theorem test_wellFormed_refuses_loss_at_sof : (Instr.arbitrationLost 0).wellFormed = false := by
  decide

theorem test_wellFormed_refuses_loss_in_payload :
    (Instr.arbitrationLost 8).wellFormed = false := by decide

theorem test_wellFormed_refuses_error_past_frame :
    (Instr.transmitError 68).wellFormed = false := by decide

theorem test_wellFormed_refuses_linkDown_operand :
    (Instr.linkDown (.transmit 68)).wellFormed = false
      ∧ (Instr.linkDown (.receive [])).wellFormed = false := by decide

theorem test_wellFormed_refuses_known_request :
    (Instr.unknownRequest 0x01).wellFormed = false := by decide

theorem test_wellFormed_accepts :
    (Instr.unknownRequest 0x06).wellFormed = true ∧ (Instr.arbitrationLost 7).wellFormed = true
      ∧ (Instr.transmitError 67).wellFormed = true := by decide

/-! ### Start-up (Chapter 12) -/

/-- 12.2: the packed words of the reference image, and its fields read back. -/
theorem test_reference_image_decodes : decodeImage (imageOf 12000 10) = reference 9 := by
  decide +kernel

/-- 12.2: P from 4096 to 9471 passes field 3 and fails at field 4. -/
theorem test_period_9471_fails_at_field_4 : judgeImage (imageOf 9471 8) = .badField 4 := by
  decide +kernel

/-- 12.4: LISTEN, and CONFIG_LOADED with subject 9, detail 6 and stamp 0, at the end of attempt 1. -/
theorem test_good_image_starts :
    (onConfigAttemptEnd (imageOf 12000 10) (onLoadStart State.reset)).seq.sync = .listen
      ∧ (onConfigAttemptEnd (imageOf 12000 10) (onLoadStart State.reset)).events
        = [⟨.configLoaded, some 9, 6, 0, false⟩] := by decide +kernel

/-- 12.4, second table: no memory on the third attempt, with the TRIP pin active as reset ends; the
STATUS fields that follow. -/
theorem test_no_memory_with_trip :
    ((statusRecord (onConfigAttemptEnd (BitVec.allOnes 272)
      { onLoadStart { State.reset with pins := { State.reset.pins with trip := true } } with
        loader := ⟨.reading 3 2368, 0⟩ })).take 3 = [1, 1, 3])
      ∧ (onConfigAttemptEnd (BitVec.allOnes 272)
      { onLoadStart { State.reset with pins := { State.reset.pins with trip := true } } with
        loader := ⟨.reading 3 2368, 0⟩ }).fault = ⟨.pin, 0, 0, true⟩ := by decide +kernel

/-! ### Group time (Chapter 1) -/

/-- 1.2.1: the table of counts under trim +655 from an empty accumulator. -/
theorem test_counts_of_trim_655 : runCounts 655 0 100 = (100, 65500) ∧ runCounts 655 0 101 = (102, 619)
    ∧ runCounts 655 0 200 = (201, 65464) ∧ runCounts 655 0 201 = (203, 583) := by decide +kernel

/-- Scope and 6.9: a difference of exactly P/2 becomes −P/2, and −6001 becomes +5999. -/
theorem test_wrapped_tie : wrapped 12000 6000 = -6000 ∧ wrapped 12000 (-6000) = -6000
    ∧ wrapped 12000 (-6001) = 5999 := by decide

/-- 1.3.1, the row of cycle 5311 with s = 0 instead of +2: δ = +750, o = 6750, Pc = 12750. -/
theorem test_slew_boundary :
    (({ station 9 .holdover 12000 with
        carrier := ⟨6000, 0, 6000, 12000, 12000, 5311, 0, false, 0⟩
        view := ⟨mapOfList [2, 5, 9], 4, mapOfList [2, 5, 9], 8000⟩ } : State).boundary.carrier)
      = ⟨6000, 0, 6750, 0, 12750, 5312, 0, true, 0⟩ := by decide +kernel

/-- 1.3.2: a coarse capture of −3400 with o = 4000 at its target gives g = 600 and Pc = 15400. -/
theorem test_coarse_capture_boundary :
    (({ withLog (station 5 .acquire 12000) [record 9 .locked (-3400)] with
        carrier := ⟨4000, 0, 4000, 12000, 12000, 5311, 0, false, 0⟩
        view := ⟨mapOfList [2, 5, 9], 4, mapOfList [2, 5, 9], 4000⟩ } : State).boundary.carrier)
      = ⟨600, 0, 4000, 0, 15400, 5312, 8600, true, 0⟩ := by decide +kernel

/-! ### Frames and contention (Chapters 2, 3) -/

/-- 2.5: the bits of a LEAVE from station 7 with its check 0x42, written out. -/
theorem test_leave_wire : leave7.wire = [false, false, false, true, false, true, true, true,
    false, true, false, false, false, false, true, false, true, true] := by decide +kernel

/-- 2.10: the beacon of station 9 validates at its last bit and not before. -/
theorem test_beacon_validates : verdictAfter (recordOf []) beacon9.wire = .valid beacon9
    ∧ verdictAfter (recordOf []) (beacon9.wire.take 67) = .more := by decide +kernel

/-- 2.10: station 4 reads eight dominant check bits for 0x42 and finds the error at bit 15. -/
theorem test_abort_mark_is_a_receive_error :
    (onRxFrameError (List.replicate 8 false)
      (receiving (station 4 .locked) (leave7.wire.take 8))).line.mode = .recover 0 0
    ∧ (onRxFrameError (List.replicate 8 false)
      (receiving (station 4 .locked) (leave7.wire.take 8))).tx.linkErr = 1 := by decide +kernel

/-- 2.10: station 7 finds bit 9, sent recessive, dominant, and drives the mark from bit 10. -/
theorem test_transmit_error_at_bit_9 :
    (onTransmitError 9 (sending (station 7 .locked) leave7)).tx.inFlight
      = some { flightOf leave7 with awaiting := none, bit := 10, abort := true }
    ∧ (onTransmitError 9 (sending (station 7 .locked) leave7)).tx.lineTx = true := by
  decide +kernel

/-- 3.8: station 2's BEACON loses to a CLAIM at bit 3; the bits read so far are 0, 0, 1, 0, and the SOF
edge stands 3 bits and half a bit back. -/
theorem test_beacon_loses_to_claim_at_bit_3 :
    (onArbitrationLost 3 (sending (station 2 .locked) ⟨2, .beacon 5200 0 0 .locked⟩)).tx.inFlight
      = none
    ∧ (match (onArbitrationLost 3
          (sending (station 2 .locked) ⟨2, .beacon 5200 0 0 .locked⟩)).line.mode with
      | .receive r => (r.bits, r.age)
      | _ => ([], 0)) = ([false, false, true, false], 35) := by decide +kernel

/-- 3.8: a CLAIM completed in JOIN takes station 4 to ACQUIRE. -/
theorem test_claim_completes :
    (onFrameComplete (withQueue (sending (station 4 .join) ⟨4, .claim 12000⟩)
      ⟨none, false, true, false⟩)).seq.sync = .acquire
    ∧ (onFrameComplete (withQueue (sending (station 4 .join) ⟨4, .claim 12000⟩)
      ⟨none, false, true, false⟩)).tx.queue = TxQueue.empty := by decide +kernel

/-! ### Capture and roster (Chapters 4, 5) -/

/-- 4.5: the measured error +17 becomes +5 after a step of +12 in between. -/
theorem test_stored_error : measuredError 12000 40 3947 3970 = 17
    ∧ storedError 12000 17 150 162 = 5 := by decide

/-- 4.5: the record of station 9's beacon, usable, cross-boundary, at position 0. -/
theorem test_beacon_across_boundary :
    (onRxBeacon 9 3947 (mapOfList [5, 9]) (mapOfList [5, 9]) .locked
      { receiving (station 5 .locked)
          (Frame.wire ⟨9, .beacon 3947 (mapOfList [5, 9]) (mapOfList [5, 9]) .locked⟩) with
        carrier := ⟨4657, 0, 4000, 645, 11988, 813, 162, false, 0⟩ }).log
      = [⟨9, .locked, 3947, 3970, 5, mapOfList [5, 9], mapOfList [5, 9], true, true⟩] := by
  decide +kernel

/-- 5.9: the third silent cycle takes entry 9 to ABSENT. -/
theorem test_stale_peer :
    (onPeerStale 9 (withEntry (station 2 .locked 12000) 9
      { member .locked (mapOfList [2, 9]) with misses := 2 })).roster[(9 : Identity)]
        = RosterEntry.absent
    ∧ (onPeerStale 9 (withEntry (station 2 .locked 12000) 9
      { member .locked (mapOfList [2, 9]) with misses := 2 })).events
        = [⟨.peerDropped, some 9, 0, 5311, false⟩] := by decide +kernel

/-- 5.8: a CLAIM from 5 makes its entry HEARD at station 9, the optional fields absent. -/
theorem test_claim_marks_heard :
    (onRxClaim 5 12000 (receiving (station 9 .locked)
      (Frame.wire ⟨5, .claim 12000⟩))).roster[(5 : Identity)] = ⟨.heard, true, 0, none⟩ := by
  decide +kernel

/-! ### View and slot (Chapter 6) -/

/-- 6.8: the targets in the view of 2, 5 and 9 are 0, 4000 and 8000. -/
theorem test_slot_targets : slotTarget 12000 (mapOfList [2, 5, 9]) 2 = 0
    ∧ slotTarget 12000 (mapOfList [2, 5, 9]) 5 = 4000
    ∧ slotTarget 12000 (mapOfList [2, 5, 9]) 9 = 8000 := by decide +kernel

/-- Station 9 at the boundary that ends cycle 5310 in 6.8. -/
def spread : State :=
  let m := mapOfList [2, 5, 9]
  { withEntry (withEntry (station 9 .locked 12000) 2 (member .locked m)) 5 (member .acquire m) with
    view := ⟨mapOfList [2, 9], 2, m, 6000⟩
    carrier := ⟨6000, 0, 6000, 12000, 12000, 5310, 0, false, 0⟩ }

/-- 6.8: the view of 2, 5 and 9 is adopted with target 8000, δ = 0 and VIEW_ADOPTED, detail 3, stamp
5311. -/
theorem test_view_adopted : (onViewAdoption spread).view = ⟨mapOfList [2, 5, 9], 3,
      mapOfList [2, 5, 9], 8000⟩ ∧ (onViewAdoption spread).carrier.o = 6000
    ∧ (onViewAdoption spread).events = [⟨.viewAdopted, none, 3, 5311, false⟩] := by decide +kernel

/-- 6.9: from o = 6000 with target 0 the tie moves o to 5250. -/
theorem test_tie_moves_down :
    (({ station 9 .locked 12000 with
        carrier := ⟨6000, 0, 6000, 12000, 12000, 7004, 0, false, 0⟩ } : State).slotStep) = -750 := by
  decide +kernel

/-! ### Servo (Chapter 7) -/

/-- Station 3 of 7.4. -/
def bootstrapping : State :=
  let s := withLog (station 3 .acquire 12000) [record 1 .acquire (-5210), record 7 .acquire 1830]
  { s with servo := { s.servo with integ := 40 } }

/-- 7.4: ē = −1126, integ +5, trim −655, s = −600, lock counter 0. -/
theorem test_bootstrapping_boundary :
    bootstrapping.boundary.servo = ⟨5, -655, -1126, -600, false, 0, 0⟩ := by decide +kernel

/-! ### Sequence, gates, faults (Chapters 8 to 10) -/

/-- 9.8: the third boundary not clean expires the holdover and stops the stage. -/
theorem test_holdover_expires :
    (onHoldoverExpiry (withGate { station 2 .holdover 12000 with
      image := some { reference 2 with gateInHoldover := true }
      seq := ⟨.holdover, 0, 2, false, true⟩ } .running)).seq = ⟨.holdover, 0, 3, true, false⟩
    ∧ (onHoldoverExpiry (withGate { station 2 .holdover 12000 with
      image := some { reference 2 with gateInHoldover := true }
      seq := ⟨.holdover, 0, 2, false, true⟩ } .running)).gate.state = .armed := by decide +kernel

/-- 9.8: the clean boundary raises LINK_UP with detail 7, stamped with the cycle that begins. -/
theorem test_link_up : (onCycleBoundary { station 2 .holdover 12000 with
      seq := ⟨.holdover, 0, 7, true, false⟩
      tx := { (station 2 .holdover).tx with beaconSent := true } }).events
    = [⟨.linkUp, none, 7, 5311, false⟩] := by decide +kernel

/-- 9.7: cycle 5311 with active duty 4000: HI for c in 150..3999, LO for c in 4150..11987. -/
theorem test_gate_outputs :
    let out (c : Nat) :=
      let g := gateOutputs (reference 9) c 11988 ⟨.running, 4000, 4000, false, false, false, false⟩
      (g.hi, g.lo)
    out 149 = (false, false) ∧ out 150 = (true, false) ∧ out 3999 = (true, false)
      ∧ out 4000 = (false, false) ∧ out 4149 = (false, false) ∧ out 4150 = (false, true)
      ∧ out 11987 = (false, true) := by decide

/-- 9.7: DUTY 11000 sets the pending duty to 10350 and is answered CLAMPED. -/
theorem test_duty_clamped : (onDuty 11000 (station 9 .locked)).gate.pendingDuty = 10350
    ∧ (onDuty 11000 (station 9 .locked)).port.answer = some ⟨.clamped, [0x28, 0x6E]⟩ := by
  decide +kernel

/-- 10.6: an assertion of the TRIP pin trips a running stage, and a FAULT waits to be sent. -/
theorem test_trip_pin : (onTripPinAssert (withGate (station 5 .locked) .running)).gate.state = .tripped
    ∧ (onTripPinAssert (withGate (station 5 .locked) .running)).tx.queue.fault = some .pin := by
  decide +kernel

/-! ### The local port (Chapter 11) -/

/-- 11.7: the response of EVENT: 1 left, kind 12, subject 9, detail 1, stamp 6417, flag clear. -/
theorem test_event_response :
    (onEvent { station 2 .locked with events :=
        [⟨.faultRemote, some 9, 1, 6417, false⟩, ⟨.lockLost, none, 90, 6420, false⟩] }).port.answer
      = some ⟨.done, [0x01, 0x0C, 0x09, 0x01, 0x00, 0x00, 0x19, 0x11, 0x00]⟩ := by decide +kernel

/-- 11.8: a full queue discards the offer and marks its newest record. -/
theorem test_full_queue_marks_newest :
    offerEvent (List.replicate 8 ⟨.linkDown, none, 0, 431, false⟩)
        ⟨.peerDropped, some 11, 1, 432, false⟩
      = List.replicate 7 ⟨.linkDown, none, 0, 431, false⟩
        ++ [⟨.linkDown, none, 0, 431, true⟩] := by decide +kernel

/-! ### Witnesses: states and operands that meet the hypotheses of each statement, clause by clause -/

/-- The frames of the receiving statements, each with all but its last bit read. -/
def nearlyRead (s : State) (f : Frame) : State := receiving s (f.wire.take (f.wire.length - 1))

theorem nearlyRead_receiving (s : State) (f : Frame)
    (h : (recordOf (f.wire.take (f.wire.length - 1))).own = false)
    (hp : (recordOf (f.wire.take (f.wire.length - 1))).bits <+: f.wire) :
    Receiving (nearlyRead s f) f (recordOf (f.wire.take (f.wire.length - 1))) := ⟨rfl, h, hp⟩

theorem witness_LoadStartReadsTheTripPin :
    (State.reset.loader.phase = .held ∧ State.reset.seq.sync = .load ∧ State.reset.fault.pin = false
      ∧ State.reset.gate.state ≠ .tripped ∧ State.reset.pins.trip = false)
    ∧ ({ State.reset with pins := { State.reset.pins with trip := true } } : State).pins.trip = true := by
  decide

theorem witness_NoResponseIsRetriedTwice :
    (∀ n : Fin 4, ({ State.reset with loader := ⟨.reading n 2368, 0⟩ } : State).loader.phase
      = .reading n 2368)
    ∧ (2 < 3 ∧ 3 ≤ 3 ∧ (0 : ImageBits) ≠ BitVec.allOnes 272)
    ∧ ({ State.reset with loader := ⟨.waiting 2 999, 0⟩ } : State).loader.phase = .waiting 2 999 := by
  decide +kernel

/-- A station whose loader is in this phase. -/
def loading (p : LoaderPhase) : State := { State.reset with loader := ⟨p, 0⟩ }

/-- 12.1: the last tick of an attempt and of a wait and the one before it, and bits 5 to 8 of the read. -/
theorem witness_NoResponseIsRetriedTwice_ticks :
    ((loading (.reading 1 2366)).pending = [] ∧ (loading (.reading 1 2366)).pins.reset = false
      ∧ 2366 + 1 < 2368 ∧ 2367 + 1 = 2368 ∧ 998 + 1 < 1000 ∧ 999 + 1 = 1000)
    ∧ (∀ n : Fin 2368, (loading (.reading 3 n)).loader.phase = .reading 3 n)
    ∧ (loading (.waiting 1 999)).loader.phase = .waiting 1 999
    ∧ ((loading (.reading 1 47)).cfgDo = false ∧ (loading (.reading 1 48)).cfgDo = true
      ∧ (loading (.reading 1 63)).cfgDo = true ∧ (loading (.reading 1 64)).cfgDo = false)
    ∧ ∀ attempt n, (loading (.waiting 1 0)).loader.phase ≠ .reading attempt n := by
  refine ⟨by decide, fun _ => rfl, rfl, by decide +kernel, ?_⟩
  intro attempt n h
  cases h

theorem witness_GoodImageStartsTheStation :
    ({ State.reset with loader := ⟨.reading 1 2368, 0⟩ } : State).loader.phase = .reading 1 2368
    ∧ State.reset.gate.state ≠ .running
    ∧ imageOf 12000 10 ≠ 0 ∧ imageOf 12000 10 ≠ BitVec.allOnes 272
    ∧ imageCheckOk (imageOf 12000 10) = true
    ∧ ∀ n, n ≤ 23 → (decodeImage (imageOf 12000 10)).fieldOk n = true := by decide +kernel

theorem witness_BadImageBlocksTheStation :
    (imageOf 12000 10 ^^^ 1 ≠ 0 ∧ imageOf 12000 10 ^^^ 1 ≠ BitVec.allOnes 272
      ∧ imageCheckOk (imageOf 12000 10 ^^^ 1) = false)
    ∧ (imageOf 9471 8 ≠ 0 ∧ imageOf 9471 8 ≠ BitVec.allOnes 272
      ∧ imageCheckOk (imageOf 9471 8) = true ∧ 4 ≤ 23
      ∧ (decodeImage (imageOf 9471 8)).fieldOk 4 = false
      ∧ ∀ m, m < 4 → (decodeImage (imageOf 9471 8)).fieldOk m = true) := by decide +kernel

theorem witness_CountsFollowTheTrim :
    (2048 ≤ 2048 ∧ Int.natAbs (2048 : Int) ≤ 2048 ∧ 65535 < 65536)
    ∧ (65536 : Int) ≤ ((65535 : Nat) : Int) + 2048 ∧ ((0 : Nat) : Int) + (-2048) < 0
    ∧ (0 : Int) ≤ ((65535 : Nat) : Int) + 0 ∧ ((65535 : Nat) : Int) + 0 < 65536
    ∧ (station 9 .locked 11999).seq.sync.runs = true
    ∧ (station 9 .locked 11999).carrier.c < (station 9 .locked 11999).carrier.pc := by decide

theorem witness_CountTickAdvancesGroupTime :
    ((station 9 .locked 11999).seq.sync.runs = true
      ∧ (station 9 .locked 11999).carrier.c < (station 9 .locked 11999).carrier.pc
      ∧ (station 9 .locked 11999).gate.state ≠ .running)
    ∧ (withGate (station 9 .locked 11999) .running).gate.state = .running
    ∧ State.reset.seq.sync.runs = false
    ∧ (station 9 .locked 12000).carrier.pc ≤ (station 9 .locked 12000).carrier.c
    ∧ (station 9 .locked 12000).boundary.carrier.sync = true
    ∧ (station 9 .locked 12000).carrier.sync = false := by decide +kernel

/-- A station in the tick before this one's, its SYNC pulse this many ticks old. -/
def pulsing (c age : Nat) : State :=
  let s := station 9 .locked c
  { s with carrier := { s.carrier with sync := true, syncAge := age } }

/-- A pulse that goes on, one that ends with its eighth tick, and one that a boundary starts. -/
theorem witness_CountTickAdvancesGroupTime_pulse :
    ((pulsing 6 6).pending = [] ∧ (pulsing 6 6).pins.reset = false
      ∧ (pulsing 6 6).loader.phase = .finished ∧ (pulsing 6 6).seq.sync.runs = true
      ∧ (pulsing 6 6).carrier.c + (countsOf (pulsing 6 6).servo.trim (pulsing 6 6).carrier.acc).1
        < (pulsing 6 6).carrier.pc)
    ∧ ((tick (pulsing 6 6)).carrier.sync = true ∧ (tick (pulsing 7 7)).carrier.sync = false)
    ∧ ((pulsing 11999 0).carrier.pc
        ≤ (pulsing 11999 0).carrier.c
          + (countsOf (pulsing 11999 0).servo.trim (pulsing 11999 0).carrier.acc).1
      ∧ (tick (station 9 .locked 11999)).carrier.sync = true
      ∧ (tick (station 9 .locked 11999)).carrier.syncAge = 0) := by decide +kernel

/-! #### The invariants of a running station -/

theorem reference_legal : (reference 9).legal = true := by decide +kernel

theorem station_config (sync : SyncState) (c : Nat) : ConfigInv (station 9 sync c) where
  legal i h := by
    have : reference 9 = i := Option.some.inj h
    rw [← this]
    exact reference_legal
  runsWithImage _ := rfl
  loadingWithout h := absurd rfl h

theorem station_timing : TimingInv (station 9 .locked 12001) where
  config := station_config _ _
  phase _ := by decide
  offset _ := by decide
  steps _ := by decide
  fraction := by decide
  trim := by decide
  integ := by decide
  errors _ := by intro r h; exact absurd h List.not_mem_nil
  counter _ := by decide
  relation _ := by decide

/-- A LOCKED and RUNNING station 9 with one member, at a boundary that is due. -/
def running : State :=
  withGate (withEntry (station 9 .locked 12001) 2 (member .locked (mapOfList [2, 9]))) .running

theorem running_timing : TimingInv running := ⟨⟨station_timing.config.legal, fun _ => rfl,
  fun h => absurd rfl h⟩, fun _ => by decide, fun _ => by decide, fun _ => by decide, by decide,
  by decide, by decide, fun _ r h => absurd h List.not_mem_nil, fun _ => by decide,
  fun _ => by decide⟩

theorem running_gate : GateInv running :=
  ⟨by decide, by decide, by decide, by decide, by decide, by decide, by decide⟩

theorem running_roster : RosterInv running where
  config := running_timing.config
  self := by decide +kernel
  entries _ := fun i =>
    ⟨by revert i; decide +kernel, by revert i; decide +kernel, by revert i; decide +kernel⟩
  members h := absurd h (by decide)
  cleared h := absurd h (by decide)
  senders := List.nodup_nil
  foreign := fun r h => absurd h List.not_mem_nil

theorem witness_BoundaryStepsTheCarrier :
    (running.seq.sync.runs = true ∧ running.carrier.pc ≤ running.carrier.c
      ∧ running.phaseStep ≤ running.cfg.period + running.slotStep)
    ∧ ((station 9 .locked 11999).carrier.c < (station 9 .locked 11999).carrier.pc)
    ∧ running.boundaryDue = true := by decide +kernel

theorem witness_StepKeepsGroupTime :
    TimingInv running ∧ step running = .next (tick running)
    ∧ step { running with pending := [.cycleBoundary] } = .next (onCycleBoundary running) :=
  ⟨running_timing, rfl, rfl⟩

theorem witness_EveryWholeFrameValidates : (recordOf []).bits = [] := rfl

/-! #### The line -/

theorem witness_SofEdgeOpensAFrame :
    ((station 9 .locked).line.mode = .hunt ∧ ∀ f, (station 9 .locked).tx.inFlight = some f →
      f.awaiting = none)
    ∧ ((sending (station 7 .locked) leave7).line.mode = .hunt
      ∧ (sending (station 7 .locked) leave7).tx.inFlight = some (flightOf leave7)
      ∧ (flightOf leave7).awaiting = some 0 ∧ (flightOf leave7).abort = false) :=
  ⟨⟨rfl, by intro f h; cases h⟩, rfl, rfl, rfl, rfl⟩

/-- The receive error of 2.10: eight dominant bits after the first eight of the LEAVE of station 7. -/
theorem receiveErrorArises (s : State) :
    ErrorArises (receiving s (leave7.wire.take 8)) 0 (.receive (List.replicate 8 false)) := by
  have h : ∀ n, n < 8 → 0 < n →
      verdictAfter (recordOf (leave7.wire.take 8)) ((List.replicate 8 false).take n) = .more := by
    decide +kernel
  exact ⟨rfl, by decide, recordOf (leave7.wire.take 8), rfl, by decide +kernel, by decide +kernel,
    fun n h0 hn => h n (by simpa using hn) h0⟩

theorem transmitErrorArises (s : State) : ErrorArises (sending s leave7) 1 (.transmit 9) :=
  ⟨rfl, flightOf leave7, rfl, rfl, by decide, by decide⟩

theorem witness_ReceiverErrorsAndRecovery :
    ErrorArises (receiving (withErrors (station 4 .locked) 6) (leave7.wire.take 8)) 0
      (.receive (List.replicate 8 false))
    ∧ (receiving (withErrors (station 4 .locked) 6) (leave7.wire.take 8)).errorReachesLimit = false
    ∧ (withMode (withErrors (station 4 .holdover) 8) (.recover 0 67)).errorReachesLimit = false
    ∧ (withMode (withErrors (station 4 .holdover) 8) (.recover 0 67)).line.mode = .recover 0 67
    ∧ ((station 4 .locked).line.mode = .hunt
      ∧ ∀ f, (withMode (station 4 .locked) (.recover 7 0)).tx.inFlight = some f → f.abort = false)
    ∧ ∃ f, (onTransmitError 9 (sending (station 7 .locked) leave7)).tx.inFlight = some f
      ∧ f.abort = true :=
  ⟨receiveErrorArises _, by decide, by decide, rfl, ⟨rfl, by intro f h; cases h⟩,
    ⟨_, rfl, rfl⟩⟩

theorem witness_IdentityConflictBlocks :
    Receiving (nearlyRead (station 7 .locked) leave7) leave7 (recordOf (leave7.wire.take 17))
    ∧ leave7.sender = (nearlyRead (station 7 .locked) leave7).own
    ∧ (nearlyRead (station 7 .locked) leave7).seq.sync.actsOnPeers = true
    ∧ (nearlyRead (station 7 .parked) leave7).seq.sync.actsOnPeers = false :=
  ⟨nearlyRead_receiving _ _ (by decide +kernel) (by decide +kernel), by decide, rfl, rfl⟩

theorem witness_PeriodMismatchIsReported :
    Receiving (nearlyRead (station 9 .locked) ⟨5, .claim 11999⟩) ⟨5, .claim 11999⟩
      (recordOf ((Frame.wire ⟨5, .claim 11999⟩).take 33))
    ∧ (11999 : BitVec 16).toNat ≠ (nearlyRead (station 9 .locked) ⟨5, .claim 11999⟩).cfg.period
    ∧ Receiving (nearlyRead (station 9 .locked) ⟨5, .beacon 12000 0 0 .locked⟩)
      ⟨5, .beacon 12000 0 0 .locked⟩
      (recordOf ((Frame.wire ⟨5, .beacon 12000 0 0 .locked⟩).take 67))
    ∧ (nearlyRead (station 9 .locked) ⟨5, .beacon 12000 0 0 .locked⟩).cfg.period
      ≤ (12000 : BitVec 16).toNat
    ∧ (5 : Identity) ≠ (station 9 .locked).own :=
  ⟨nearlyRead_receiving _ _ (by decide +kernel) (by decide +kernel), by decide,
    nearlyRead_receiving _ _ (by decide +kernel) (by decide +kernel), by decide, by decide⟩

theorem witness_QueueAnswersOffers :
    ((station 9 .locked).seq.sync.grouped = true
      ∧ (withErrors (station 9 .locked) 7).tx.linkErr < (station 9 .locked).cfg.linkErrLimit
      ∧ exec .trip (station 9 .locked) = .next (onTrip (station 9 .locked))
      ∧ exec .detach (station 9 .locked) = .next (onDetach (station 9 .locked)))
    ∧ running.boundaryDue = true
    ∧ ({ station 9 .listen 12000 with seq := ⟨.listen, 7, 0, false, false⟩ } : State).cfg.listenCycles
      ≤ 7 + 1
    ∧ (station 9 .listen 12000).seq.listen + 1 < (station 9 .listen 12000).cfg.listenCycles
    ∧ (station 9 .join 12000).seq.sync.grouped = false ∧ (station 9 .join 12000).boundaryDue = true :=
  ⟨⟨rfl, by decide, rfl, rfl⟩, by decide, by decide, by decide, rfl, by decide⟩

/-- A station on an idle line that may start a frame. -/
def idleLine (q : TxQueue) : State :=
  let s := withQueue (station 9 .locked) q
  { s with tx := { s.tx with lineIdle := true, idleCount := 8 } }

theorem witness_FrameStartTakesTheFirstEntry (q : TxQueue) :
    (idleLine q).tx.lineIdle = true ∧ (idleLine q).line.mode = .hunt
    ∧ (idleLine q).pins.lineRx = true ∧ (idleLine q).tx.inFlight = none
    ∧ (idleLine q).seq.sync.transmits = true ∧ (idleLine q).tx.queue = q := ⟨rfl, rfl, rfl, rfl, rfl, rfl⟩

/-- Each entry alone is the first, a FAULT is first of all four, and an empty queue starts nothing. -/
theorem test_frame_start_order :
    (idleLine ⟨some .pin, true, true, true⟩).nextPayload = some (.fault .pin)
    ∧ (idleLine ⟨none, true, true, true⟩).nextPayload = some .leave
    ∧ (idleLine ⟨none, false, true, true⟩).nextPayload = some (.claim 12000)
    ∧ (idleLine ⟨none, false, false, true⟩).nextPayload
      = some (.beacon 0 (ownMap 9) (ownMap 9) .locked)
    ∧ (onTxFrameStart (idleLine TxQueue.empty)).tx.inFlight = none := by decide +kernel

theorem witness_LossTurnsTheFrameForeign :
    (sending (station 7 .locked) leave7).tx.inFlight = some (flightOf leave7)
    ∧ (flightOf leave7).abort = false ∧ leave7.bitAt 3 = true ∧ leave7.bitAt 7 = true
    ∧ (Frame.bitAt ⟨7, .fault .pin⟩ 1 = false)
    ∧ (∃ r0, (receiving (station 7 .locked) [false]).line.mode = .receive r0)
    ∧ ∀ r0, (sending (station 7 .locked) leave7).line.mode ≠ .receive r0 :=
  ⟨rfl, rfl, by decide +kernel, by decide +kernel, by decide +kernel, ⟨_, rfl⟩, by intro r0 h; cases h⟩

theorem witness_TransmitErrorDrivesTheMark :
    ErrorArises (sending (station 7 .locked) leave7) 1 (.transmit 9)
    ∧ (sending (station 7 .locked) leave7).errorReachesLimit = false
    ∧ ErrorArises (sending (station 9 .locked) beacon9) 1 (.transmit 67)
    ∧ (sending (station 7 .locked) leave7).tx.inFlight = some (flightOf leave7)
    ∧ (onTransmitError 9 (sending (station 7 .locked) leave7)).tx.inFlight
      = some { flightOf leave7 with awaiting := none, bit := 10, abort := true } :=
  ⟨transmitErrorArises _, by decide, ⟨rfl, flightOf beacon9, rfl, rfl, by decide, by decide⟩, rfl,
    by decide +kernel⟩

/-- Station 7 of 2.10 with its mark under way at bit 10: before that bit's sample 58 samples of the
mark are to come, after it 57; a mark of an error at bit 67 has none left. -/
theorem witness_TransmitErrorDrivesTheMark_end :
    ((onTransmitError 9 (sending (station 7 .locked) leave7)).line.mode = .recover 0 0
      ∧ (onTransmitError 9 (sending (station 7 .locked) leave7)).line.grid
        < (station 7 .locked).cfg.bitTicks / 2
      ∧ (onAbortMarkEnd (onTransmitError 9 (sending (station 7 .locked) leave7))).line.mode
        = .recover 0 58)
    ∧ (∀ a d, (sending (station 7 .locked) leave7).line.mode ≠ .recover a d)
    ∧ ((onTransmitError 67 (sending (station 9 .locked) beacon9)).tx.lineTx = false
      ∧ (onAbortMarkEnd (onTransmitError 67 (sending (station 9 .locked) beacon9))).line.mode
        = .recover 0 0) := by
  refine ⟨by decide +kernel, ?_, by decide +kernel⟩
  intro a d h
  cases h

/-- Station 7 of 2.10 driving its mark under a LINE_RX that stays recessive. -/
def unheardMark : State :=
  let s := onTransmitError 9 (sending (station 7 .locked) leave7)
  { s with pins := { s.pins with lineRx := true } }

/-- 2.3: no recessive sample taken during the mark counts toward HUNT, and the idle line is counted from
its end. -/
theorem test_mark_under_recessive_line :
    (unheardMark.recoverSample 7 0 true).line.mode = .recover 0 0
    ∧ (onAbortMarkEnd unheardMark).tx.idleCount = 0
    ∧ (onAbortMarkEnd unheardMark).tx.lineIdle = false := by decide +kernel

theorem witness_CompletionReportsTheFrame :
    (sending (station 7 .locked) leave7).tx.inFlight = some (flightOf leave7)
    ∧ (flightOf leave7).abort = false
    ∧ (flightOf leave7).frame.payload.kind = .leave
    ∧ (sending (station 7 .locked) leave7).seq.sync.grouped = true
    ∧ ¬ ((flightOf ⟨4, .claim 12000⟩).frame.payload.kind = .leave
      ∧ (sending (station 4 .join) ⟨4, .claim 12000⟩).seq.sync.grouped = true) :=
  ⟨rfl, rfl, rfl, rfl, by decide⟩

theorem witness_LinkDownByState (sync : SyncState) :
    (ErrorArises (receiving (withErrors (station 4 sync) 7) (leave7.wire.take 8)) 0
        (.receive (List.replicate 8 false))
      ∧ (receiving (withErrors (station 4 sync) 7) (leave7.wire.take 8)).errorReachesLimit = true)
    ∧ (ErrorArises (withMode (withErrors (station 4 sync) 7) (.recover 0 67)) 0 .dominantRun
      ∧ (withMode (withErrors (station 4 sync) 7) (.recover 0 67)).errorReachesLimit = true)
    ∧ (ErrorArises (sending (withErrors (station 7 sync) 7) leave7) 1 (.transmit 9)
      ∧ (sending (withErrors (station 7 sync) 7) leave7).errorReachesLimit = true) :=
  ⟨⟨receiveErrorArises _, rfl⟩, ⟨⟨rfl, 0, 67, rfl⟩, rfl⟩, transmitErrorArises _, rfl⟩

theorem witness_StepKeepsTheTransmitQueue :
    QueueInv (sending (station 7 .locked) leave7)
    ∧ step (sending (station 7 .locked) leave7) = .next (tick (sending (station 7 .locked) leave7)) :=
  ⟨⟨by decide, by decide, by decide, by decide, fun h => absurd h (by decide)⟩, rfl⟩

/-- The state of 2.10's abort, with the mark driven, is as sound. -/
theorem witness_StepKeepsTheTransmitQueue_abort :
    QueueInv (onTransmitError 9 (sending (station 7 .locked) leave7)) :=
  ⟨by decide +kernel, by decide +kernel, by decide +kernel, by decide +kernel, fun _ => ⟨0, 0, by decide +kernel⟩⟩

/-! #### Capture, roster, view -/

theorem witness_StoredErrorIsTheErrorAfterTheSteps : 0 < 12000 := by decide

theorem witness_BeaconFillsRosterAndLog :
    RosterInv running
    ∧ Receiving (nearlyRead running ⟨2, .beacon 11999 0 0 .locked⟩) ⟨2, .beacon 11999 0 0 .locked⟩
      (recordOf ((Frame.wire ⟨2, .beacon 11999 0 0 .locked⟩).take 67))
    ∧ (2 : Identity) ≠ running.own ∧ (11999 : BitVec 16).toNat < running.cfg.period
    ∧ running.seq.sync.actsOnPeers = true ∧ (station 9 .parked).seq.sync.actsOnPeers = false :=
  ⟨running_roster, nearlyRead_receiving _ _ (by decide +kernel) (by decide +kernel), by decide,
    by decide, rfl, rfl⟩

/-- A log with a record of the sender's, and one with another station's alone. -/
theorem witness_BeaconFillsRosterAndLog_log :
    let l := [record 5 .locked 3, record 2 .acquire 7]
    (l = [record 5 .locked 3] ++ record 2 .acquire 7 :: [] ∧ (record 2 .acquire 7).sender = 2)
      ∧ (∀ x ∈ [record 5 .locked 3], x.sender ≠ 2)
      ∧ RosterInv (withLog running l) := by
  refine ⟨⟨rfl, rfl⟩, by decide, ⟨running_timing.config.legal, fun _ => rfl, fun h => absurd rfl h⟩,
    running_roster.self, running_roster.entries, running_roster.members, running_roster.cleared,
    by decide, by decide⟩

/-- The roster of a station that is in the middle of a beacon is as sound as it was before it. -/
theorem witness_BeaconFillsRosterAndLog_roster (f : Frame) : RosterInv (nearlyRead running f) where
  config := ⟨running_timing.config.legal, fun _ => rfl, fun h => absurd rfl h⟩
  self := running_roster.self
  entries := running_roster.entries
  members := running_roster.members
  cleared := running_roster.cleared
  senders := running_roster.senders
  foreign := running_roster.foreign

/-- Station 9 with 7 errors counted and all but the last end bit of a beacon read; a dominant end bit then
brings link down. -/
def lastBeacon (sync : SyncState) : State :=
  nearlyRead (withErrors (station 9 sync) 7) ⟨2, .beacon 11999 0 0 .locked⟩

/-- 4.3, 5.5: the beacon that validates in the instant of link down, for JOIN as for ACQUIRE. -/
theorem witness_BeaconFillsRosterAndLog_instant (sync : SyncState) :
    RosterInv (lastBeacon sync)
    ∧ Receiving (lastBeacon sync) ⟨2, .beacon 11999 0 0 .locked⟩
      (recordOf ((Frame.wire ⟨2, .beacon 11999 0 0 .locked⟩).take 67))
    ∧ (2 : Identity) ≠ (lastBeacon sync).own ∧ (11999 : BitVec 16).toNat < (lastBeacon sync).cfg.period
    ∧ (lastBeacon sync).seq.sync = sync ∧ (lastBeacon sync).tx.queue.leave = false
    ∧ (lastBeacon sync).tx.inFlight = none ∧ (lastBeacon sync).errorReachesLimit = true
    ∧ ErrorArises (lastBeacon sync) 0 (.receive [false]) := by
  have hr : ∀ i : Identity, EntryInv 3 (clearedRoster 9)[i] := fun i =>
    ⟨by revert i; decide +kernel, by revert i; decide +kernel, by revert i; decide +kernel⟩
  refine ⟨⟨⟨running_timing.config.legal, fun _ => rfl, fun h => absurd rfl h⟩,
      show ∀ i : Identity, (clearedRoster 9)[i].presence = .self ↔ i = 9 by decide +kernel, fun _ => hr,
      fun _ => show ∀ i : Identity, (clearedRoster 9)[i].presence ≠ .member by decide +kernel, fun _ => rfl,
      List.nodup_nil, fun r h => absurd h List.not_mem_nil⟩,
    nearlyRead_receiving _ _ (by decide +kernel) (by decide +kernel), show (2 : Identity) ≠ 9 by decide,
    show (11999 : BitVec 16).toNat < 12000 by decide, rfl, rfl, rfl,
    rfl, rfl, by decide, _, rfl, by decide +kernel, by decide +kernel, ?_⟩
  intro n h0 hn
  simp only [List.length_singleton] at hn
  omega

/-- 4.3: taken after the entry to LISTEN its record stays, not usable; a tick later it is no delivery. -/
theorem test_beacon_in_the_instant_of_link_down :
    let down := onLinkDown (.receive [false]) (lastBeacon .join)
    let both := onRxBeacon 2 11999 0 0 .locked down
    both.seq.sync = .listen ∧ both.log.map ArrivalRecord.usable = [false]
      ∧ both.roster[(2 : Identity)].presence = .heard
      ∧ (onRxBeacon 2 11999 0 0 .locked (onCountTick down)).log = [] := by decide +kernel

theorem witness_ClaimMarksItsSenderHeard :
    Receiving (nearlyRead (station 9 .locked) ⟨5, .claim 12000⟩)
      ⟨5, .claim (BitVec.ofNat 16 (station 9 .locked).cfg.period)⟩
      (recordOf ((Frame.wire ⟨5, .claim 12000⟩).take 33))
    ∧ (station 9 .locked).cfg.period < 65536 ∧ (5 : Identity) ≠ (station 9 .locked).own :=
  ⟨nearlyRead_receiving _ ⟨5, .claim 12000⟩ (by decide +kernel) (by decide +kernel), by decide,
    by decide⟩

theorem witness_LeaveDropsItsSender :
    Receiving (nearlyRead running leave7) leave7 (recordOf (leave7.wire.take 17))
    ∧ leave7.sender ≠ (nearlyRead running leave7).own
    ∧ (nearlyRead running ⟨2, .leave⟩).roster[(2 : Identity)].presence = .member :=
  ⟨nearlyRead_receiving _ _ (by decide +kernel) (by decide +kernel), by decide, by decide +kernel⟩

theorem witness_BoundaryCountsMisses :
    (running.boundaryDue = true ∧ running.seq.sync = .locked
      ∧ (withEntry running 2 ⟨.heard, false, 2, none⟩).roster[(2 : Identity)].presence = .heard
      ∧ (withEntry running 2 ⟨.heard, false, 2, none⟩).roster[(2 : Identity)].flag = false
      ∧ running.cfg.staleLimit ≤ 2 + 1)
    ∧ running.roster[(2 : Identity)].misses + 1 < running.cfg.staleLimit
    ∧ (withEntry running 2 ⟨.heard, true, 2, none⟩).roster[(2 : Identity)].flag = true
    ∧ running.roster[(9 : Identity)].presence = .self
    ∧ (station 9 .holdover 12000).boundaryDue = true := by decide +kernel

/-- A MEMBER going stale with room for its event, a HEARD peer with no event of its own, and the states
in which no boundary does roster work. -/
theorem witness_BoundaryCountsMisses_events :
    (let s := withEntry running 2 { member .locked (mapOfList [2, 9]) with misses := 2 };
      s.boundaryDue = true ∧ s.roster[(2 : Identity)].presence = .member
        ∧ s.roster[(2 : Identity)].flag = false ∧ s.cfg.staleLimit ≤ 2 + 1
        ∧ s.boundaryEvents.length + s.events.length ≤ 8
        ∧ ⟨.peerDropped, some 2, 0, 5311, false⟩ ∈ (onPeerStale 2 s).events)
    ∧ (let s := withEntry running 2 ⟨.heard, false, 2, none⟩;
      s.boundaryDue = true ∧ s.events = [] ∧ (onPeerStale 2 s).events.map (·.kind) = [])
    ∧ (station 9 .parked 12000).boundaryDue = true
    ∧ (station 9 (.blocked .idConflict) 12000).boundaryDue = true := by decide +kernel

theorem witness_StepKeepsTheRoster : RosterInv running ∧ step running = .next (tick running) :=
  ⟨running_roster, rfl⟩

theorem witness_SlotTargetFromRank :
    0 < 12000 ∧ lists (mapOfList [2, 5, 9]) 2 = true ∧ rankIn (mapOfList [2, 5, 9]) 2 = 0
    ∧ lists (BitVec.allOnes 16) 15 = true
    ∧ (([2, 5, 9] : List Identity).Nodup ∧ ([2, 5] : List Identity).Nodup
      ∧ (∀ i, i ∈ ([2, 5, 9] : List Identity) ↔ lists (mapOfList [2, 5, 9]) i = true)
      ∧ ∀ i, i ∈ ([2, 5] : List Identity) ↔ lists (mapOfList [2, 5, 9]) i = true ∧ i < 9) := by
  decide +kernel

theorem witness_SlotStepTowardTheTarget :
    running.seq.sync.grouped = true ∧ 1 ≤ running.cfg.slotStep
    ∧ running.view.target < running.cfg.period ∧ running.carrier.o < running.cfg.period
    ∧ (station 9 .join 12000).seq.sync.grouped = false ∧ running.boundaryDue = true := by decide

theorem witness_SlewReachesItsTarget :
    (8000 < 12000 ∧ 6000 < 12000 ∧ 1 ≤ 750 ∧ 2 * 750 < 12000)
    ∧ slew 12000 750 8000 6000 2 = 7500 ∧ slew 12000 750 8000 6000 3 = 8000
    ∧ spread.boundaryDue = true ∧ spread.seq.sync = .locked := by decide +kernel

theorem witness_BoundarySettlesAndAdopts :
    spread.boundaryDue = true ∧ spread.seq.sync = .locked
    ∧ (membersAgree spread.roster spread.memberMap = true ∧ spread.view.previous = spread.memberMap)
    ∧ (3 = min 15 (spread.view.settle + 1) ∧ spread.cfg.settleCount ≤ 3
      ∧ spread.memberMap ≠ spread.view.adopted)
    ∧ spread.boundaryEvents.length + spread.events.length ≤ 8
    ∧ (running.boundaryDue = true ∧ running.view.previous ≠ running.memberMap)
    ∧ (station 9 .join 12000).boundaryDue = true := by decide +kernel

theorem witness_StepKeepsTheView :
    ViewInv (station 9 .locked 12001)
    ∧ step (station 9 .locked 12001) = .next (tick (station 9 .locked 12001)) :=
  ⟨⟨by decide +kernel, by decide +kernel, by decide, by decide +kernel⟩, rfl⟩

/-! #### Servo and sequence -/

theorem witness_MeanErrorOfTheUsableRecords :
    logInRange 12000 bootstrapping.log ∧ bootstrapping.boundaryDue = true
    ∧ bootstrapping.seq.sync = .acquire
    ∧ (bootstrapping.log.filter (·.usable)).Perm (bootstrapping.log.reverse.filter (·.usable)) := by
  refine ⟨?_, by decide, rfl, by decide⟩
  intro r h
  have : r = record 1 .acquire (-5210) ∨ r = record 7 .acquire 1830 := by
    simpa [bootstrapping, withLog] using h
  rcases this with rfl | rfl <;> decide

/-- A settled station alone in ACQUIRE, its lock counter as given. -/
def settledAlone (g : GateState) (lock : Nat) : State :=
  let s := withGate (station 9 .acquire 12000) g
  { s with view := { s.view with settle := 3 }, servo := { s.servo with lock := lock } }

theorem settledAlone_counts (g : GateState) (lock : Nat) : CountsTowardLock (settledAlone g lock) where
  error := by show (meanError []).natAbs ≤ 20; decide
  complete := by show ∀ i : Identity, (clearedRoster 9)[i].presence ≠ .heard; decide +kernel
  settled := ⟨by show 3 ≤ 3; decide, by show ownMap 9 = (station 9 .acquire).memberMap; decide +kernel⟩
  heard := .inr (by show (station 9 .acquire).memberMap = ownMap 9; decide +kernel)
  noCapture := .inr (by intro r h; exact absurd h List.not_mem_nil)

/-- A boundary that does not count, for its error, and one that does, a count short of lock. -/
theorem witness_AcquireBoundaryWorksTheServo :
    (bootstrapping.boundaryDue = true ∧ bootstrapping.seq.sync = .acquire
      ∧ (∀ r ∈ bootstrapping.log, ¬ (r.usable = true ∧ r.state = .locked))
      ∧ 1 ≤ bootstrapping.cfg.lockCount ∧ ¬ CountsTowardLock bootstrapping
      ∧ min 255 (bootstrapping.servo.lock + 1) < bootstrapping.cfg.lockCount)
    ∧ (CountsTowardLock (settledAlone .off 2) ∧ (settledAlone .off 2).boundaryDue = true
      ∧ min 255 ((settledAlone .off 2).servo.lock + 1) < (settledAlone .off 2).cfg.lockCount) :=
  ⟨⟨by decide, rfl, by decide, by decide, fun h => absurd h.error (by decide +kernel), by decide⟩,
    settledAlone_counts _ _, by decide, by decide⟩

/-- A station in ACQUIRE that hears two LOCKED members and has not captured yet. -/
def capturing : State :=
  withLog (station 9 .acquire 12000) [record 5 .locked 30, record 2 .locked (-3400)]

theorem witness_CoarseCaptureStepsOnce :
    (capturing.boundaryDue = true ∧ capturing.seq.sync = .acquire
      ∧ capturing.servo.captureDone = false ∧ 1 ≤ capturing.cfg.lockCount
      ∧ record 2 .locked (-3400) ∈ capturing.log
      ∧ ∀ x ∈ capturing.log, x.usable = true → x.state = .locked → (2 : Identity) ≤ x.sender)
    ∧ RosterInv capturing := by
  refine ⟨by decide +kernel, ⟨(station_config .acquire 0).legal, fun _ => rfl, fun h => absurd rfl h⟩,
    by decide +kernel, ?_, fun h => absurd h (by decide), fun h => absurd h (by decide), by decide,
    by decide +kernel⟩
  intro _ i
  exact ⟨by revert i; decide +kernel, by revert i; decide +kernel, by revert i; decide +kernel⟩

theorem witness_LockedAndIdleServoWork :
    (running.boundaryDue = true ∧ running.seq.sync = .locked
      ∧ running.nextUnlock < running.cfg.lockCount)
    ∧ (station 9 .join 12000).boundaryDue = true := by decide +kernel

theorem witness_LockReachedGrantsPermission :
    (settledAlone .armed 3).boundaryDue = true ∧ (settledAlone .armed 3).seq.sync = .acquire
    ∧ CountsTowardLock (settledAlone .armed 3)
    ∧ (settledAlone .armed 3).cfg.lockCount ≤ min 255 ((settledAlone .armed 3).servo.lock + 1)
    ∧ (settledAlone .armed 3).gate.state = .armed ∧ (settledAlone .tripped 3).gate.state = .tripped
    ∧ (settledAlone .armed 3).boundaryEvents.length + (settledAlone .armed 3).events.length ≤ 8 :=
  ⟨by decide, rfl, settledAlone_counts _ _, by decide, rfl, rfl, by decide +kernel⟩

/-- A LOCKED station whose mean error stands outside UnlockWindow for the fourth boundary. -/
def unlocking : State :=
  let s := withLog (withGate (station 9 .locked 12000) .running) [record 2 .locked 162]
  { s with servo := { s.servo with unlock := 3 } }

theorem witness_UnlockReachedWithdrawsPermission :
    unlocking.boundaryDue = true ∧ unlocking.seq.sync = .locked
    ∧ unlocking.cfg.lockCount
      ≤ (if unlocking.cfg.unlockWindow < (meanError unlocking.log).natAbs then
        min 255 (unlocking.servo.unlock + 1) else 0)
    ∧ unlocking.gate.state = .running ∧ (withGate unlocking .tripped).gate.state ≠ .running
    ∧ Agrees unlocking ∧ ¬ Agrees running
    ∧ unlocking.boundaryEvents.length + unlocking.events.length ≤ 8 :=
  ⟨by decide, rfl, by decide +kernel, rfl, by decide, ⟨by decide +kernel, by decide +kernel⟩,
    fun h => absurd h.2 (by decide +kernel), by decide +kernel⟩

/-- 7.8: a mean error of 81 is outside UnlockWindow 80; the event carries it. -/
theorem test_lock_lost : (onUnlockReached unlocking).events = [⟨.lockLost, none, 81, 5311, false⟩]
    ∧ (onUnlockReached unlocking).gate.state = .armed := by decide +kernel

theorem witness_ListenCompletesIntoJoin :
    (station 9 .listen 12000).boundaryDue = true
    ∧ ({ station 9 .listen 12000 with seq := ⟨.listen, 7, 0, false, false⟩ } : State).boundaryDue = true
    ∧ (station 9 .listen 12000).cfg.listenCycles ≤ 7 + 1
    ∧ (station 9 .listen 12000).tx.queue.leave = false
    ∧ (station 9 .listen 12000).seq.listen + 1 < (station 9 .listen 12000).cfg.listenCycles := by
  decide

/-- 12.4: the eighth boundary in LISTEN enters JOIN with a CLAIM queued. -/
theorem test_listen_complete :
    (onListenComplete { station 9 .listen 12000 with seq := ⟨.listen, 7, 0, false, false⟩ }).seq.sync
      = .join
    ∧ (onListenComplete { station 9 .listen 12000 with
      seq := ⟨.listen, 7, 0, false, false⟩ }).tx.queue = ⟨none, false, true, false⟩ := by
  decide +kernel

theorem witness_HoldoverBoundary :
    ((station 9 .holdover 12000).boundaryDue = true ∧ (station 9 .holdover 12000).tx.linkErr = 0
      ∧ ({ station 9 .holdover 12000 with
        tx := { (station 9 .holdover).tx with beaconSent := true } } : State).tx.beaconSent = true)
    ∧ ¬ ((station 9 .holdover 12000).tx.linkErr = 0
      ∧ (station 9 .holdover 12000).tx.beaconSent = true)
    ∧ (station 9 .holdover 12000).seq.expired = false
    ∧ (station 9 .holdover 12000).cfg.holdoverMax ≤ min 65535 (2 + 1)
    ∧ min 65535 ((station 9 .holdover 12000).seq.holdover + 1)
      < (station 9 .holdover 12000).cfg.holdoverMax := by decide

theorem witness_DetachByState :
    State.reset.seq.sync = .load ∧ (station 9 (.blocked .idConflict)).seq.sync = .blocked .idConflict
    ∧ (station 9 .parked).seq.sync = .parked ∧ (station 9 .listen).seq.sync = .listen
    ∧ (withQueue (station 9 .locked) ⟨none, true, false, false⟩).tx.queue.leave = true
    ∧ (station 9 .locked).seq.sync.grouped = true ∧ (station 9 .locked).tx.queue.leave = false
    ∧ (withErrors (station 9 .locked) 7).tx.linkErr < (station 9 .locked).cfg.linkErrLimit
    ∧ (station 9 .holdover).cfg.linkErrLimit ≤ (withErrors (station 9 .holdover) 8).tx.linkErr := by
  decide

theorem witness_AttachByState :
    State.reset.seq.sync = .load ∧ (station 9 (.blocked .configValue)).seq.sync.configBlocked = true
    ∧ (station 9 .parked).seq.sync = .parked
    ∧ (station 9 (.blocked .idConflict)).seq.sync = .blocked .idConflict
    ∧ (station 9 .listen).seq.sync.actsOnPeers = true := by decide

theorem witness_SyncStateMovesAsGiven :
    ConfigInv (station 9 .parked)
    ∧ exec .attach (station 9 .parked) = .next (onAttach (station 9 .parked))
    ∧ (onAttach (station 9 .parked)).seq.sync ≠ (station 9 .parked).seq.sync :=
  ⟨station_config _ _, rfl, by decide +kernel⟩

/-! #### Gates, faults, port -/

theorem witness_BoundaryRunsTheGates :
    running.boundaryDue = true ∧ running.gate.state = .running
    ∧ (withGate running .armed).gate.state = .armed ∧ (withGate running .off).gate.state = .off := by
  decide

theorem witness_StartAndStop (g : GateState) :
    (withGate (station 9 .parked) g).seq.sync ≠ .load
    ∧ (withGate (station 9 .parked) g).seq.sync.configBlocked = false
    ∧ (withGate (station 9 .parked) g).gate.state = g := ⟨SyncState.noConfusion, rfl, rfl⟩

theorem witness_DutySetsThePendingDuty :
    (station 9 .parked).seq.sync ≠ .load ∧ (station 9 .parked).seq.sync.configBlocked = false
    ∧ (station 9 .parked).cfg.dutyMin ≤ (station 9 .parked).cfg.dutyMax
    ∧ (149 : BitVec 16).toNat < (station 9 .parked).cfg.dutyMin
    ∧ (station 9 .parked).cfg.dutyMax < (10351 : BitVec 16).toNat
    ∧ State.reset.seq.sync = .load
    ∧ (station 9 (.blocked .configCheck)).seq.sync.configBlocked = true := by decide

theorem witness_GateStateMovesAsGiven :
    exec .clear (withGate (station 9 .parked) .tripped)
      = .next (onClear (withGate (station 9 .parked) .tripped))
    ∧ (onClear (withGate (station 9 .parked) .tripped)).gate.state ≠ .tripped
    ∧ (onCycleBoundary (withGate running .armed)).gate.state = .running
    ∧ (onUnlockReached unlocking).gate.state = .armed
    ∧ (onStart (station 9 .parked)).gate.state = .armed
    ∧ (onStop (withGate (station 9 .parked) .armed)).gate.state = .off
    ∧ (onTrip (station 9 .parked)).gate.state = .tripped
    ∧ (onDeviceReset running).gate.state = .off := by
  refine ⟨rfl, by decide +kernel, by decide +kernel, by decide +kernel, by decide +kernel,
    by decide +kernel, by decide +kernel, by decide +kernel⟩

theorem witness_StepKeepsGatesAndFaults : GateInv running ∧ step running = .next (tick running) :=
  ⟨running_gate, rfl⟩

theorem witness_StepKeepsRunningCycles : RunningInv running ∧ step running = .next (tick running) :=
  ⟨⟨running_timing, running_gate, fun _ => by decide, fun _ => by decide, fun _ => by decide⟩, rfl⟩

theorem witness_TripPinIsALocalFault :
    (station 9 .locked).loader.phase ≠ .held ∧ (station 9 .locked).fault.pin = false
    ∧ ({ State.reset with loader := ⟨.reading 1 0, 0⟩ } : State).loader.phase ≠ .held
    ∧ (onTripPinAssert (station 9 .locked)).fault.pin = true := by decide +kernel

theorem witness_RemoteFaultTripsWithGroupTrip :
    Receiving (nearlyRead running ⟨2, .fault .pin⟩) ⟨2, .fault .pin⟩
      (recordOf ((Frame.wire ⟨2, .fault .pin⟩).take 20))
    ∧ (2 : Identity) ≠ running.own ∧ running.seq.sync.transmits = true
    ∧ running.cfg.groupTrip = true ∧ running.gate.state ≠ .tripped :=
  ⟨nearlyRead_receiving _ _ (by decide +kernel) (by decide +kernel), by decide, rfl, rfl, by decide⟩

theorem witness_TripAndClear :
    (station 9 .parked).seq.sync ≠ .load ∧ (station 9 .parked).seq.sync.configBlocked = false
    ∧ (withGate (station 9 .parked) .tripped).gate.state = .tripped
    ∧ (withGate (station 9 .parked) .tripped).fault.pin = false
    ∧ (onTripPinAssert (station 9 .parked)).gate.state = .tripped
    ∧ (onTripPinAssert (station 9 .parked)).fault.pin = true
    ∧ (station 9 .parked).gate.state ≠ .tripped
    ∧ State.reset.seq.sync = .load
    ∧ (station 9 (.blocked .configCheck)).seq.sync.configBlocked = true := by decide +kernel

theorem witness_RefusalsComeInOrder :
    (State.reset.seq.sync = .load ∧ requestCodes.contains 0x03 = true
      ∧ (255 : BitVec 16).toNat < 256 ∧ argumentBytes 0x10 = 2 ∧ requestCodes.contains 0x06 = false)
    ∧ (station 9 .parked).seq.sync ≠ .load
    ∧ ((station 9 (.blocked .configCheck)).seq.sync.configBlocked = true
      ∧ requestCodes.contains 0x19 = true ∧ (0x19 : Byte) ≠ 0x01 ∧ (0x19 : Byte) ≠ 0x05) := by decide

theorem witness_StatusAndServoReport :
    (station 9 .locked).seq.sync ≠ .load ∧ (station 9 .locked).seq.sync.configBlocked = false
    ∧ (station 9 (.blocked .configCheck)).seq.sync.configBlocked = true := by decide

theorem witness_RosterAndLogReport :
    (capturing.seq.sync ≠ .load ∧ capturing.seq.sync.configBlocked = false ∧ 16 ≤ (16 : Byte).toNat
      ∧ (15 : Byte).toNat = (15 : Identity).val ∧ (9 : Identity) = capturing.own
      ∧ (15 : Identity) ≠ capturing.own ∧ capturing.roster[(15 : Identity)].last = none)
    ∧ (running.roster[(2 : Identity)].last.isSome = true)
    ∧ capturing.log.length ≤ (2 : Byte).toNat
    ∧ capturing.log[(1 : Byte).toNat]? = some (record 2 .locked (-3400)) := by decide +kernel

theorem witness_EventTakesTheOldest :
    (station 9 .locked).seq.sync ≠ .load ∧ (station 9 .locked).events = []
    ∧ (onTripPinAssert (station 9 .locked)).events
      = ⟨.faultLocal, none, 1, 5310, false⟩ :: [] := by decide +kernel

/-- A station whose port pins stand as LP_SEL and LP_CLK say, in a tick after which they stood as the port
has them, with this many bits taken and DUTY's code read. -/
def onPort (sel clk selPrev clkPrev : Bool) (bits : Nat) (a : Option Answer) : State :=
  let s := station 9 .locked
  { s with
    pins := { s.pins with lpSel := sel, lpClk := clk }
    port := ⟨selPrev, clkPrev, selPrev, bits, 0x10, 0x002A, a, false⟩ }

/-- 11.1: an assertion, a release, a quiet port, a rising edge within a request of two argument bytes and
at its last bit, and a falling edge within the answer, at its first bit and before it. -/
theorem witness_SelectReleaseEndsTheTransaction :
    (∀ a b c d n x, (onPort a b c d n x).pending = [] ∧ (onPort a b c d n x).pins.reset = false
      ∧ (onPort a b c d n x).pins.lpSel = a ∧ (onPort a b c d n x).pins.lpClk = b
      ∧ (onPort a b c d n x).port.selPrev = c ∧ (onPort a b c d n x).port.clkPrev = d
      ∧ (onPort a b c d n x).port.active = c ∧ (onPort a b c d n x).port.bits = n
      ∧ (onPort a b c d n x).loader.phase ≠ .held
      ∧ (onPort a b c d n x).port.answer = x)
    ∧ (8 ≤ 22 ∧ 22 + 1 < 8 * (1 + argumentBytes 0x10) ∧ 23 + 1 = 8 * (1 + argumentBytes 0x10))
    ∧ ((tick (onPort true true true false 22 none)).port.args = 0x0054
      ∧ (tick (onPort true true true false 23 none)).port.answer.isSome = true)
    ∧ (32 = 8 * (2 + argumentBytes 0x10) + 8 * 0 + 0 ∧ 31 < 8 * (2 + argumentBytes 0x10))
    ∧ (tick (onPort true false true true 32 (some ⟨.notReady, []⟩))).port.lpDo
      = StatusCode.notReady.code.getMsbD 0 := by
  refine ⟨fun _ _ _ _ _ _ => ⟨rfl, rfl, rfl, rfl, rfl, rfl, rfl, rfl, nofun, rfl⟩, ?_⟩
  decide +kernel

/-- 11.1: a select asserted while reset lasts, at the first tick after it; that tick starts nothing, and the
release and the next assertion do. -/
theorem witness_SelectReleaseEndsTheTransaction_held :
    let pins (sel : Bool) (s : State) : State := { s with pins := { s.pins with lpSel := sel } }
    ((pins true State.reset).pending = [] ∧ (pins true State.reset).pins.reset = false
      ∧ (pins true State.reset).loader.phase = .held ∧ (pins true State.reset).port.active = false)
    ∧ (tick (tick (pins true State.reset))).port.active = false
    ∧ (tick (pins true (tick (pins false (tick (pins true State.reset)))))).port.active = true := by
  decide +kernel

/-- The port alone has work: the last bit of DUTY's second argument byte, in a station whose carrier runs
and in one that is blocked. -/
theorem witness_SelectReleaseEndsTheTransaction_alone :
    PortAlone (onPort true true true false 23 none)
    ∧ PortAlone { onPort true true true false 23 none with
        seq := ⟨.blocked .configCheck, 0, 0, false, false⟩, image := none }
    ∧ 23 + 1 = 8 * (1 + argumentBytes (onPort true true true false 23 none).port.code)
    ∧ (tick (onPort true true true false 23 none)).gate.pendingDuty = 150 :=
  ⟨⟨rfl, rfl, rfl, rfl, rfl, fun _ => by decide, fun _ => by decide⟩,
    ⟨rfl, rfl, rfl, rfl, rfl, fun h => absurd h (by decide), fun h => absurd h (by decide)⟩,
    by decide, by decide +kernel⟩

theorem witness_StepKeepsTheEventQueue :
    (station 9 .locked).events.length ≤ 8
    ∧ step (station 9 .locked) = .next (tick (station 9 .locked))
    ∧ exec .trip (station 9 .locked) = .next (onTrip (station 9 .locked))
    ∧ Instr.trip ≠ .event ∧ Instr.trip ≠ .deviceReset
    ∧ ∃ e : EventRecord, (List.replicate 7 e).length < 8
      ∧ List.replicate 8 e = List.replicate 7 e ++ [e] ∧ 8 ≤ (List.replicate 8 e).length :=
  ⟨by decide, rfl, rfl, by decide, by decide, ⟨.linkDown, none, 0, 431, false⟩, by decide, rfl, by decide⟩

end Sys2Proof.Tests
end

/-! The counts and the accumulator of the carrier (R3). -/

namespace Sys2Proof.Machine

/-! ### The table of R3 for one tick -/

theorem countsOf_of_overflow {trim : Int} {acc : Nat} (h : 65536 ≤ acc + trim) :
    countsOf trim acc = (2, (acc + trim - 65536).toNat) := if_pos h

theorem countsOf_of_borrow {trim : Int} {acc : Nat} (h : acc + trim < 0) :
    countsOf trim acc = (0, (acc + trim + 65536).toNat) := by
  have notOver : ¬ (65536 : Int) ≤ acc + trim := by omega
  simp only [countsOf, if_neg notOver, if_pos h]

theorem countsOf_of_within {trim : Int} {acc : Nat} (hlo : 0 ≤ acc + trim)
    (hhi : acc + trim < 65536) : countsOf trim acc = (1, (acc + trim).toNat) := by
  simp only [countsOf, if_neg (not_le.2 hhi), if_neg (not_lt.2 hlo)]

theorem countsOf_zero {acc : Nat} (ha : acc < 65536) : countsOf 0 acc = (1, acc) := by
  have h := countsOf_of_within (trim := 0) (acc := acc) (by omega) (by omega)
  rwa [add_zero, Int.toNat_natCast] at h

/-! ### A run of ticks under one trim -/

/-- Each count beyond one a tick takes 65536 out of the accumulator, and each count short of it puts
65536 in: the sum of the trims is never lost. -/
theorem runCounts_spec {trim : Int} {acc : Nat} (ht : trim.natAbs ≤ 2048) (ha : acc < 65536)
    (n : Nat) :
    (runCounts trim acc n).2 < 65536 ∧
      acc + n * trim = 65536 * ((runCounts trim acc n).1 - n) + (runCounts trim acc n).2 := by
  induction n with
  | zero => simpa [runCounts] using ha
  | succ n ih =>
    obtain ⟨range, conserved⟩ := ih
    obtain ⟨-, range', conserved'⟩ := countsOf_spec ht range
    refine ⟨range', ?_⟩
    simp only [runCounts, Nat.cast_add, Nat.cast_one, add_mul, one_mul]
    omega

/-- The formula of R3 for a run of ticks: the accumulator's range makes the two sides of
`runCounts_spec` a division with remainder by 65536. -/
theorem runCounts_eq_fdiv_emod {trim : Int} {acc : Nat} (ht : trim.natAbs ≤ 2048)
    (ha : acc < 65536) (n : Nat) :
    ((runCounts trim acc n).1 : Int) = n + Int.fdiv (acc + n * trim) 65536 ∧
      ((runCounts trim acc n).2 : Int) = Int.emod (acc + n * trim) 65536 := by
  obtain ⟨range, conserved⟩ := runCounts_spec ht ha n
  obtain ⟨quotient, remainder⟩ := (Int.ediv_emod_unique (a := acc + n * trim) (b := 65536)
    (q := (runCounts trim acc n).1 - n) (r := (runCounts trim acc n).2) (by omega)).2
    ⟨by omega, by omega, by omega⟩
  refine ⟨?_, remainder.symm⟩
  rw [Int.fdiv_eq_ediv_of_nonneg _ (by omega), quotient]
  omega

/-! ### The tick of a running carrier -/

theorem onCountTick_carrier {s : State} (hr : s.seq.sync.runs = true)
    (hc : s.carrier.c < s.carrier.pc) :
    (onCountTick s).carrier = { s.carrier with
      g := (s.carrier.g + (countsOf s.servo.trim s.carrier.acc).1) % s.cfg.period
      c := s.carrier.c + (countsOf s.servo.trim s.carrier.acc).1
      acc := (countsOf s.servo.trim s.carrier.acc).2 } := by
  have counts : (s.seq.sync.runs && decide (s.carrier.c < s.carrier.pc)) = true := by simp [hr, hc]
  simp only [onCountTick, if_pos counts, decideOutputs_carrier]

/-- Settles O7, from the equations of the table and the conservation of the trims over a run. -/
theorem countsFollowTheTrim : Obligations.CountsFollowTheTrim := by
  refine ⟨fun trimMax trim acc hmax htrim ha => ?_, fun s hr hc => ?_⟩
  · have ht : trim.natAbs ≤ 2048 := htrim.trans hmax
    obtain ⟨-, range, -⟩ := countsOf_spec ht ha
    refine ⟨by omega, fun overflow => ?_, fun borrow => ?_, fun lo hi => ?_,
      range, ?_, runCounts_eq_fdiv_emod ht ha⟩
    · rw [countsOf_of_overflow overflow]
      exact ⟨by omega, rfl, Int.toNat_of_nonneg (by omega)⟩
    · rw [countsOf_of_borrow borrow]
      exact ⟨by omega, rfl, Int.toNat_of_nonneg (by omega)⟩
    · rw [countsOf_of_within lo hi]
      exact ⟨rfl, Int.toNat_of_nonneg lo⟩
    · rintro rfl
      exact countsOf_zero ha
  · refine ⟨onCountTick s, rfl, ?_, ?_⟩ <;> rw [onCountTick_carrier hr hc]

end Sys2Proof.Machine

/-! The slot step of a boundary (R98). -/

namespace Sys2Proof.Machine

/-! ### Where a wrapped difference and a clamp are 0 -/

theorem clampTo_eq_zero_iff {m : Nat} (hm : 1 ≤ m) (x : Int) : clampTo m x = 0 ↔ x = 0 := by
  simp only [clampTo]; omega

theorem wrapped_eq_zero_iff_dvd {p : Nat} (hp : 0 < p) (x : Int) :
    wrapped p x = 0 ↔ (p : Int) ∣ x := by
  constructor
  · intro h
    simpa only [h, sub_zero] using wrapped_dvd p x
  · intro h
    exact wrapped_unique hp (by rwa [sub_zero]) (by omega) (by omega)

/-- Two phases below P are less than P apart, so only equal ones differ by a multiple of P. -/
theorem wrapped_sub_eq_zero_iff {p a b : Nat} (ha : a < p) (hb : b < p) :
    wrapped p ((a : Int) - b) = 0 ↔ b = a := by
  rw [wrapped_eq_zero_iff_dvd (by omega)]
  constructor
  · intro h
    have := Int.eq_zero_of_dvd_of_natAbs_lt_natAbs h (by omega)
    omega
  · rintro rfl
    exact sub_self (b : Int) ▸ dvd_zero _

/-! ### The slot step -/

theorem slotStep_of_grouped {s : State} (h : s.seq.sync.grouped = true) :
    s.slotStep =
      clampTo s.cfg.slotStep (wrapped s.cfg.period ((s.view.target : Int) - s.carrier.o)) :=
  if_pos h

theorem slotStep_of_not_grouped {s : State} (h : s.seq.sync.grouped = false) : s.slotStep = 0 :=
  if_neg (Bool.eq_false_iff.1 h)

theorem slotStep_eq_zero_iff {s : State} (hg : s.seq.sync.grouped = true)
    (hstep : 1 ≤ s.cfg.slotStep) (ht : s.view.target < s.cfg.period)
    (ho : s.carrier.o < s.cfg.period) : s.slotStep = 0 ↔ s.carrier.o = s.view.target := by
  rw [slotStep_of_grouped hg, clampTo_eq_zero_iff hstep, wrapped_sub_eq_zero_iff ht ho]

/-- Settles O30: the range is that of the clamp and of the wrapped difference, and a clamp to at least 1
is 0 only where the wrapped difference is. -/
theorem slotStepTowardTheTarget : Obligations.SlotStepTowardTheTarget := by
  refine fun s => ⟨fun hg => ?_, slotStep_of_not_grouped, fun due => ?_⟩
  · have step := slotStep_of_grouped hg
    obtain ⟨lower, upper⟩ := step ▸ clampTo_range s.cfg.slotStep _
    exact ⟨step, lower, upper, fun hp => wrapped_range hp _, slotStep_eq_zero_iff hg⟩
  · exact ⟨s.boundary, exec_cycleBoundary due, by rw [boundary_carrier], by rw [boundary_carrier]⟩

end Sys2Proof.Machine

/-! ATTACH by the sync state (R136). -/

namespace Sys2Proof.Machine

/-! ### What a clearing entry leaves alone -/

theorem enterClearing_frame (s : State) (x : SyncState) : ClearingFrame s (s.enterClearing x) where
  carrier := rfl
  servo := ⟨rfl, rfl⟩
  gate := rfl
  rest := rfl

/-! ### The table of R136 -/

theorem exec_attach (s : State) : exec .attach s = .next (onAttach s) := rfl

theorem onAttach_of_load {s : State} (h : s.seq.sync = .load) :
    onAttach s = s.reply 0x19 0 .notReady [] := by
  simp only [onAttach, h]

theorem onAttach_of_configBlocked {s : State} (h : s.seq.sync.configBlocked = true) :
    onAttach s = s.reply 0x19 0 .refusedState [] := by
  unfold onAttach
  split <;> rename_i hs
  case h_2 | h_3 | h_4 => rfl
  all_goals simp [hs, SyncState.configBlocked] at h

theorem onAttach_enters {s : State}
    (h : s.seq.sync = .parked ∨ s.seq.sync = .blocked .idConflict) :
    onAttach s = (s.enterClearing .listen).reply 0x19 0 .done [] := by
  rcases h with h | h <;> simp only [onAttach, h]

theorem onAttach_of_actsOnPeers {s : State} (h : s.seq.sync.actsOnPeers = true) :
    onAttach s = s.reply 0x19 0 .already [] := by
  unfold onAttach
  split <;> rename_i hs
  case h_7 | h_8 | h_9 | h_10 | h_11 => rfl
  all_goals simp [hs, SyncState.actsOnPeers] at h

/-- Settles O43, row by row of the table: the state answered for is the one ATTACH found, and for PARKED
and ID_CONFLICT the entry to LISTEN. -/
theorem attachByState : Obligations.AttachByState := by
  intro s
  rw [exec_attach]
  refine ⟨fun load => ?_, fun blocked => ?_, fun enters => ?_, fun acts => ?_⟩
  · rw [onAttach_of_load load]
    exact ⟨_, rfl, reply_answered ..⟩
  · rw [onAttach_of_configBlocked blocked]
    exact ⟨_, rfl, reply_answered ..⟩
  · rw [onAttach_enters enters]
    exact ⟨s.enterClearing .listen, _, rfl, reply_answered .., enterClearing_seq s .listen,
      enterClearing_cleared s .listen, enterClearing_tx s .listen, enterClearing_frame s .listen,
      enterClearing_events s .listen, enterClearing_line s .listen, enterClearing_pins s .listen,
      enterClearing_free s .listen⟩
  · rw [onAttach_of_actsOnPeers acts]
    exact ⟨_, rfl, reply_answered ..⟩

end Sys2Proof.Machine

/-! DUTY (R148). -/

namespace Sys2Proof.Machine

/-! ### The refusal of the local port (R169) -/

theorem portRefusal_of_load {s : State} (h : s.seq.sync = .load) :
    s.portRefusal = some .notReady := if_pos h

theorem portRefusal_of_configBlocked {s : State} (h : s.seq.sync.configBlocked = true) :
    s.portRefusal = some .refusedState := by
  have notLoad : s.seq.sync ≠ .load := by
    intro load
    simp [load, SyncState.configBlocked] at h
  simp only [State.portRefusal, if_neg notLoad, if_pos h]

theorem portRefusal_of_taken {s : State} (load : s.seq.sync ≠ .load)
    (blocked : s.seq.sync.configBlocked = false) : s.portRefusal = none := by
  simp only [State.portRefusal, if_neg load, blocked, Bool.false_eq_true, if_false]

/-! ### The limits of the pending duty -/

theorem dutyAs_of_below {cfg : Image} {v : BitVec 16} (h : v.toNat < cfg.dutyMin) :
    dutyAs cfg v = cfg.dutyMin := if_pos h

theorem dutyAs_of_above {cfg : Image} {v : BitVec 16} (order : cfg.dutyMin ≤ cfg.dutyMax)
    (h : cfg.dutyMax < v.toNat) : dutyAs cfg v = cfg.dutyMax := by
  simp only [dutyAs, if_neg (not_lt.2 (order.trans h.le)), if_pos h]

theorem dutyAs_of_within {cfg : Image} {v : BitVec 16} (lo : cfg.dutyMin ≤ v.toNat)
    (hi : v.toNat ≤ cfg.dutyMax) : dutyAs cfg v = v.toNat := by
  simp only [dutyAs, if_neg (not_lt.2 lo), if_neg (not_lt.2 hi)]

/-- The model answers CLAMPED by comparing the duty as set with the value sent; that is R148's own
condition, since a limit that replaces a value differs from it. -/
theorem dutyAs_eq_toNat_iff {cfg : Image} {v : BitVec 16} (order : cfg.dutyMin ≤ cfg.dutyMax) :
    dutyAs cfg v = v.toNat ↔ ¬ (v.toNat < cfg.dutyMin ∨ cfg.dutyMax < v.toNat) := by
  rcases lt_or_ge v.toNat cfg.dutyMin with below | lo
  · rw [dutyAs_of_below below]; omega
  rcases lt_or_ge cfg.dutyMax v.toNat with above | hi
  · rw [dutyAs_of_above order above]; omega
  · rw [dutyAs_of_within lo hi]; omega

/-! ### The request -/

theorem exec_duty (v : BitVec 16) (s : State) : exec (.duty v) s = .next (onDuty v s) := rfl

theorem onDuty_of_refused {v : BitVec 16} {s : State} {c : StatusCode}
    (h : s.portRefusal = some c) : onDuty v s = s.reply 0x10 v c [] := by
  simp only [onDuty, h]

theorem onDuty_of_taken {v : BitVec 16} {s : State} (h : s.portRefusal = none)
    (order : s.cfg.dutyMin ≤ s.cfg.dutyMax) :
    onDuty v s =
      { s with gate := { s.gate with pendingDuty := dutyAs s.cfg v } }.reply 0x10 v
        (if v.toNat < s.cfg.dutyMin ∨ s.cfg.dutyMax < v.toNat then .clamped else .done)
        (count16 (dutyAs s.cfg v)) := by
  simp only [onDuty, h, dutyAs_eq_toNat_iff order, ite_not]

/-- Settles O47: the two refusals come from the port, and a DUTY taken sets the value of `dutyAs`, which
its three equations place within the limits. -/
theorem dutySetsThePendingDuty : Obligations.DutySetsThePendingDuty := by
  intro s v
  rw [exec_duty]
  refine ⟨fun load => ?_, fun blocked => ?_, fun notLoad notBlocked order => ?_⟩
  · rw [onDuty_of_refused (portRefusal_of_load load)]
    exact ⟨_, rfl, reply_answered ..⟩
  · rw [onDuty_of_refused (portRefusal_of_configBlocked blocked)]
    exact ⟨_, rfl, reply_answered ..⟩
  · rw [onDuty_of_taken (portRefusal_of_taken notLoad notBlocked) order]
    exact ⟨_, dutyAs s.cfg v, rfl, reply_answered .., dutyAs_of_below, dutyAs_of_above order,
      dutyAs_of_within⟩

end Sys2Proof.Machine

/-! What a step is made of: every step is a run of small moves, each of which writes few blocks. -/

namespace Sys2Proof.Machine

set_option Elab.async false

/-! ### The line's side of a state -/

/-- The line's side of a state is sound: the clauses of `QueueInv` that no block but the line's writes
(R22, R33, R39, R44). -/
structure LineSound (s : State) : Prop where
  drives : s.tx.lineTx = true → s.tx.inFlight.isSome = true
  idle : s.tx.idleCount ≤ 8
  aborts : s.aborting = true → ∃ a d, s.line.mode = .recover a d

theorem LineSound.not_aborting {s : State} (h : LineSound s)
    (hm : ∀ a d, s.line.mode ≠ .recover a d) : s.aborting = false := by
  by_contra ha
  obtain ⟨a, d, e⟩ := h.aborts (by simpa using ha)
  exact hm a d e

theorem aborting_of_inFlight {s : State} {f : InFlight} (h : s.tx.inFlight = some f) :
    s.aborting = f.abort := by
  simp [State.aborting, h]

theorem aborting_congr {s t : State} (h : t.tx.inFlight = s.tx.inFlight) :
    t.aborting = s.aborting := by
  simp only [State.aborting, h]

/-- Where no mark is driven the receiver may stand in any mode. -/
theorem LineSound.of_quiet {s t : State} (hs : s.aborting = false) (hf : t.tx.inFlight = s.tx.inFlight)
    (ht : t.tx.lineTx = true → t.tx.inFlight.isSome = true) (hi : t.tx.idleCount ≤ 8) : LineSound t :=
  ⟨ht, hi, fun k => by rw [aborting_congr hf, hs] at k; cases k⟩

theorem aborting_of_none {s : State} (h : s.tx.inFlight = none) : s.aborting = false := by
  simp [State.aborting, h]

/-- A line released, with nothing in flight. -/
theorem LineSound.of_released {s : State} (h1 : s.tx.lineTx = false) (h2 : s.tx.inFlight = none)
    (h3 : s.tx.idleCount ≤ 8) : LineSound s where
  drives := fun k => by rw [h1] at k; cases k
  idle := h3
  aborts := fun k => by rw [aborting_of_none h2] at k; cases k

theorem sampled_idle_le {t : Contention} (body : Bool) (b : Bit) (h : t.idleCount ≤ 8) :
    (t.sampled body b).idleCount ≤ 8 := by
  unfold Contention.sampled
  split_ifs
  · exact h
  · exact Nat.min_le_left 8 _
  · exact Nat.zero_le 8

@[simp] theorem sampled_queue (t : Contention) (body : Bool) (b : Bit) :
    (t.sampled body b).queue = t.queue := by
  obtain ⟨i, l, e⟩ := sampled_eq t body b; rw [e]

@[simp] theorem sampled_inFlight (t : Contention) (body : Bool) (b : Bit) :
    (t.sampled body b).inFlight = t.inFlight := by
  obtain ⟨i, l, e⟩ := sampled_eq t body b; rw [e]

@[simp] theorem sampled_lineTx (t : Contention) (body : Bool) (b : Bit) :
    (t.sampled body b).lineTx = t.lineTx := by
  obtain ⟨i, l, e⟩ := sampled_eq t body b; rw [e]

theorem idleAfterFrame_le (f : Frame) : idleAfterFrame f ≤ 8 := by
  unfold idleAfterFrame; split <;> omega

/-! ### The moves -/

/-- `t` differs from `s` only in what no invariant but the line's speaks of: pins, port, line, the free
numbers, the waiting commands, SYNC, the previous outputs, the listen count, and the loader short of
its start. -/
structure Aside (s t : State) : Prop where
  image : t.image = s.image
  loading : t.loader.phase ≠ .finished → s.loader.phase ≠ .finished
  carrier : { t.carrier with sync := false, syncAge := 0 } =
    { s.carrier with sync := false, syncAge := 0 }
  queue : t.tx.queue = s.tx.queue
  line : LineSound s → LineSound t
  log : t.log = s.log
  roster : t.roster = s.roster
  view : t.view = s.view
  servo : t.servo = s.servo
  seq : { t.seq with listen := 0 } = { s.seq with listen := 0 }
  gate : { t.gate with hiPrev := false, loPrev := false } =
    { s.gate with hiPrev := false, loPrev := false }
  fault : t.fault = s.fault
  events : t.events = s.events

theorem Aside.sync {s t : State} (h : Aside s t) : t.seq.sync = s.seq.sync :=
  (Sequencer.mk.inj h.seq).1

/-- The smallest changes that a step is made of, but for the two that take events away. -/
inductive Move : State → State → Prop
  | aside {s t : State} (h : Aside s t) : Move s t
  /-- events offered to the queue (R172) -/
  | offers (s : State) (l : List EventRecord) : Move s { s with events := l.foldl offerEvent s.events }
  /-- a FAULT or a LEAVE offered, an entry sent (R45, R48, R133) -/
  | offerFault (s : State) (c : LocalCause) (h : s.seq.sync.transmits = true) :
      Move s { s with tx := { s.tx with queue := s.tx.queue.offerFault c } }
  | offerLeave (s : State) (h : s.seq.sync.grouped = true) : Move s s.offerLeave
  | remove (s : State) (k : FrameKind) :
      Move s { s with tx := { s.tx with queue := s.tx.queue.remove k } }
  /-- the entries to LISTEN, PARKED, BLOCKED, HOLDOVER and, by a CLAIM sent, ACQUIRE (R122, R125, R129) -/
  | clears (s : State) (x : SyncState) (hs : s.seq.sync.runs = true) (hx : x.runs = true)
      (hg : x.grouped = false) : Move s (s.enterClearing x)
  | holds (s : State) (h : s.seq.sync = .locked) : Move s s.enterHoldover
  | acquires (s : State) (h : s.seq.sync = .join) : Move s { s with
      seq := { s.seq with sync := .acquire }, servo := { s.servo with lock := 0, unlock := 0 } }
  /-- the counts of a tick, a boundary, the outputs decided (R3, R8, R150) -/
  | counts (s : State) : Move s (onCountTick s)
  | ends (s : State) (h : s.boundaryDue = true) : Move s s.boundary
  | decides (s : State) : Move s s.decideOutputs
  /-- a fault, the TRIP pin read (R156, R157, R162) -/
  | faults (s : State) (c : FaultCause) (h : c ≠ .none) : Move s (s.takeFault c)
  | pin (s : State) (b : Bool) (h : b = true → s.gate.state = .tripped) :
      Move s { s with fault := { s.fault with pin := b } }
  /-- START, STOP, CLEAR and DUTY (R143, R146, R148, R163) -/
  | arms (s : State) (h : s.gate.state = .off) : Move s { s with gate := { s.gate with state := .armed } }
  | stops (s : State) (h : s.gate.state = .armed ∨ s.gate.state = .running) :
      Move s { s with gate := s.gate.stopped }
  | clear (s : State) (h : s.gate.state = .tripped) (hp : s.fault.pin = false) : Move s { s with
      gate := s.gate.stopped, fault := { s.fault with cause := .none, stamp := 0, repeats := 0 } }
  | duty (s : State) (v : BitVec 16) (h : s.seq.sync.runs = true) :
      Move s { s with gate := { s.gate with pendingDuty := dutyAs s.cfg v } }
  /-- a CLAIM or a FAULT, a LEAVE and a BEACON handled (R72 to R78, R62) -/
  | hears (s : State) (i : Identity) (ha : s.seq.sync.actsOnPeers = true) (hi : i ≠ s.own) :
      Move s (s.setEntry i { s.roster[i].touch with presence := s.roster[i].presence.onHeard })
  | leaves (s : State) (i : Identity) (ha : s.seq.sync.actsOnPeers = true) (hi : i ≠ s.own) :
      Move s (s.setEntry i RosterEntry.absent)
  | beacon (s : State) (i : Identity) (p : PhaseSample) (ph : Nat) (h m : StationMap) (st : SenderState)
      (ha : s.seq.sync.actsOnPeers = true) (hi : i ≠ s.own) (after : Presence)
      (e : after = s.roster[i].presence.onBeacon s.seq.sync (lists h s.own)) :
      Move s { s.setEntry i { s.roster[i].touch with
          presence := after, last := some ⟨st, h, m, (s.captureRecord p i ph h m st after).error⟩ } with
        log := storeRecord s.log (s.captureRecord p i ph h m st after) }
  /-- the end of LOAD (R181, R182) -/
  | blocks (s : State) (b : ImageBits) (r : BlockedReason) (hl : s.loader.phase ≠ .finished)
      (hr : r ≠ .idConflict) :
      Move s ({ s with loader := ⟨.finished, b⟩ }.enterClearing (.blocked r))
  | starts (s : State) (b : ImageBits) (i : Image) (hl : s.loader.phase ≠ .finished)
      (hi : i.legal = true) : Move s ({ s with
        image := some i
        carrier := ⟨0, 0, 0, 0, i.period, 0, 0, false, 0⟩
        line := { s.line with mode := .recover 0 0, grid := 0 }
        gate := { s.gate with pendingDuty := i.dutyMin, activeDuty := i.dutyMin }
        loader := ⟨.finished, b⟩ }.enterClearing (if i.autoJoin then .listen else .parked))

/-- A move, the oldest event taken, or device reset. -/
inductive Pass : State → State → Prop
  | move {s t : State} (h : Move s t) : Pass s t
  | takes (s : State) (e : EventRecord) (l : List EventRecord) (h : s.events = e :: l) :
      Pass s { s with events := l }
  | resets (s : State) : Pass s (onDeviceReset s)

/-- `t` is reached from `s` by moves alone. -/
def Moves : State → State → Prop := Relation.ReflTransGen Move

/-- `t` is reached from `s` by moves, events taken and device resets. -/
def Passes : State → State → Prop := Relation.ReflTransGen Pass

theorem Moves.refl (s : State) : Moves s s := Relation.ReflTransGen.refl

theorem Move.moves {s t : State} (h : Move s t) : Moves s t := Relation.ReflTransGen.single h

theorem Aside.moves {s t : State} (h : Aside s t) : Moves s t := (Move.aside h).moves

theorem Moves.trans {s t u : State} (h : Moves s t) (k : Moves t u) : Moves s u :=
  Relation.ReflTransGen.trans h k

/-- The same with the later part first, so that the state between is known from it. -/
theorem Moves.after {s t u : State} (k : Moves t u) (h : Moves s t) : Moves s u := h.trans k

theorem Moves.passes {s t : State} (h : Moves s t) : Passes s t :=
  Relation.ReflTransGen.mono (fun _ _ => Pass.move) _ _ h

theorem Passes.refl (s : State) : Passes s s := Relation.ReflTransGen.refl

theorem Passes.trans {s t u : State} (h : Passes s t) (k : Passes t u) : Passes s u :=
  Relation.ReflTransGen.trans h k

theorem Moves.ite {c : Prop} [Decidable c] {s t u : State} (h : c → Moves s t)
    (k : ¬ c → Moves s u) : Moves s (if c then t else u) := by
  split
  · exact h ‹_›
  · exact k ‹_›

theorem Passes.ite {c : Prop} [Decidable c] {s t u : State} (h : c → Passes s t)
    (k : ¬ c → Passes s u) : Passes s (if c then t else u) := by
  split
  · exact h ‹_›
  · exact k ‹_›

end Sys2Proof.Machine

namespace Sys2Proof.Machine

set_option Elab.async false

/-! ### What each operation is made of -/

theorem raiseAll_moves (s : State) (l : List EventRecord) : Moves s (s.raiseAll l) := by
  rcases l with _ | ⟨e, _ | ⟨f, l⟩⟩
  · exact Moves.refl s
  · exact (Move.offers s [e]).moves
  · exact (Move.offers s _).moves.trans
      (Aside.moves ⟨rfl, id, rfl, rfl, fun h => ⟨h.drives, h.idle, h.aborts⟩, rfl, rfl, rfl, rfl, rfl,
          rfl, rfl, rfl⟩)

theorem raise_moves (s : State) (e : EventRecord) : Moves s (s.raise e) := (Move.offers s [e]).moves

/-- A change of the line's side alone. -/
theorem line_moves (s : State) (p : Pins) (l : Line) (x : Contention) (hq : x.queue = s.tx.queue)
    (h : LineSound s → LineSound { s with pins := p, line := l, tx := x }) :
    Moves s { s with pins := p, line := l, tx := x } :=
  Aside.moves ⟨rfl, id, rfl, hq, h, rfl, rfl, rfl, rfl, rfl, rfl, rfl, rfl⟩

/-- A change that nothing but pins, port, waiting commands and the free numbers shows. -/
theorem quiet_moves (s : State) (p : Pins) (q : Port) (d : Option DroppedRecord) (n : Nat)
    (c : List Instr) :
    Moves s { s with pins := p, port := q, dropped := d, free := n, pending := c } :=
  Aside.moves ⟨rfl, id, rfl, rfl, fun h => ⟨h.drives, h.idle, h.aborts⟩, rfl, rfl, rfl, rfl, rfl, rfl, rfl, rfl⟩

theorem answerLinkDown_moves (s : State) : Moves s s.answerLinkDown.1 := by
  have clears {x y : SyncState} (hs : s.seq.sync = x) (hx : x.runs = true) (hy : y.runs = true)
      (hg : y.grouped = false) : Moves s (s.enterClearing y) :=
    (Move.clears s y (hs ▸ hx) hy hg).moves
  unfold State.answerLinkDown
  split <;> rename_i hs
  · exact Moves.refl s
  · exact Moves.refl s
  · exact Moves.refl s
  · exact Aside.moves ⟨rfl, id, rfl, rfl, fun h => ⟨h.drives, h.idle, h.aborts⟩, rfl, rfl, rfl, rfl, rfl,
      rfl, rfl, rfl⟩
  · exact clears hs rfl rfl rfl
  · split <;> exact clears hs rfl rfl rfl
  · split
    · exact clears hs rfl rfl rfl
    · exact (Move.holds s hs).moves
  · split
    · exact clears hs rfl rfl rfl
    · exact Moves.refl s

theorem linkDown_moves (s : State) (d : Byte) : Moves s (s.linkDown d) :=
  (answerLinkDown_moves s).trans (raiseAll_moves _ _)

theorem countError_moves (s : State) (d : Byte) : Moves s (s.countError d) := by
  have counted : Moves s { s with tx := { s.tx with linkErr := s.tx.linkErr + 1 } } :=
    line_moves s s.pins s.line _ rfl fun h => ⟨h.drives, h.idle, h.aborts⟩
  rcases countError_cases s d with ⟨-, e⟩ | ⟨-, e⟩ | ⟨-, e⟩ <;> rw [e]
  · exact Moves.refl s
  · exact counted
  · exact counted.trans (linkDown_moves _ d)

theorem rejectFrame_moves (s : State) : Moves s s.rejectFrame :=
  (countError_moves _ 0).after
    (line_moves s s.pins _ s.tx rfl fun h => ⟨h.drives, h.idle, fun _ => ⟨0, 0, rfl⟩⟩)

theorem failTransmit_moves (s : State) (f : InFlight) (n : Nat) : Moves s (s.failTransmit f n) := by
  unfold State.failTransmit
  dsimp only
  refine (countError_moves _ 1).after (line_moves s _ _ _ (by simp [State.atSample]) fun h => ?_)
  exact ⟨fun _ => rfl, sampled_idle_le _ _ h.idle, fun _ => ⟨0, 0, rfl⟩⟩

/-- The frame in flight after an error of its own stands as an abort, and the receiver in RECOVER. -/
theorem failTransmit_inFlight (s : State) (f : InFlight) (n : Nat) :
    (s.failTransmit f n).tx.inFlight = some { f with awaiting := none, bit := n, abort := true } ∧
    (s.failTransmit f n).line.mode = .recover 0 0 := by
  constructor
  · unfold State.failTransmit
    dsimp only
    rcases countError_cases _ 1 with ⟨-, e⟩ | ⟨-, e⟩ | ⟨-, e⟩ <;> rw [e]
    rw [linkDown_tx, answerLinkDown_tx]
  · simp [State.failTransmit]

theorem transmitError_moves (s : State) (n : Nat) : Moves s (s.transmitError n) := by
  unfold State.transmitError
  split
  · rename_i f hf
    refine .ite (fun _ => ?_) fun _ => Moves.refl s
    obtain ⟨hi, hm⟩ := failTransmit_inFlight s f n
    refine (failTransmit_moves s f n).trans
      (line_moves _ _ _ _ rfl fun h => ⟨fun _ => by simp [hi], h.idle, fun _ => ⟨0, 0, hm⟩⟩)
  · exact Moves.refl s

theorem dominantRun_moves (s : State) : Moves s s.dominantRun := by
  unfold State.dominantRun
  split
  · refine (countError_moves _ 0).after (line_moves s _ _ _ (by simp [State.atSample]) fun h => ?_)
    exact ⟨by simpa [State.atSample] using h.drives, sampled_idle_le _ _ h.idle, fun _ => ⟨0, 0, rfl⟩⟩
  all_goals exact Moves.refl s

theorem recovered_moves {s : State} (ha : s.aborting = false) : Moves s s.recovered :=
  line_moves s _ _ _ rfl fun h => .of_quiet ha rfl h.drives (le_refl 8)

theorem endOfFrame_moves {s : State} {n : Nat} (hn : n ≤ 8) (hm : LineSound s → s.aborting = false) :
    Moves s (s.endOfFrame n) :=
  line_moves s _ _ _ rfl fun h => .of_quiet (hm h) rfl h.drives hn

/-! ### Deliveries -/

theorem identityConflict_moves (s : State) (k : FrameKind) : Moves s (s.identityConflict k) :=
  .ite (fun h => (Move.clears s _ (runs_of_actsOnPeers h) rfl rfl).moves.trans (raise_moves _ _))
    fun _ => Moves.refl s

theorem periodMismatch_moves (s : State) (i : Identity) (k : FrameKind) :
    Moves s (s.periodMismatch i k) :=
  .ite (fun _ => raise_moves s _) fun _ => Moves.refl s

theorem deliverBeacon_moves (s : State) (p : PhaseSample) (i : Identity) (ph : BitVec 16)
    (h m : StationMap) (st : SenderState) : Moves s (s.deliverBeacon p i ph h m st) :=
  .ite (fun _ => identityConflict_moves s _) fun hi =>
    .ite (fun _ => periodMismatch_moves s _ _) fun _ =>
      .ite (fun ha => (Move.beacon s i p ph.toNat h m st ha hi _ rfl).moves.trans (raiseAll_moves _ _))
        fun _ => Moves.refl s

theorem deliverClaim_moves (s : State) (i : Identity) (p : BitVec 16) :
    Moves s (s.deliverClaim i p) :=
  .ite (fun _ => identityConflict_moves s _) fun hi =>
    .ite (fun _ => periodMismatch_moves s _ _) fun _ =>
      .ite (fun ha => (Move.hears s i ha hi).moves) fun _ => Moves.refl s

theorem deliverLeave_moves (s : State) (i : Identity) : Moves s (s.deliverLeave i) :=
  .ite (fun _ => identityConflict_moves s _) fun hi =>
    .ite (fun ha => (Move.leaves s i ha hi).moves.trans (raiseAll_moves _ _)) fun _ => Moves.refl s

theorem deliverFault_moves (s : State) (i : Identity) (c : LocalCause) :
    Moves s (s.deliverFault i c) :=
  .ite (fun _ => identityConflict_moves s _) fun hi =>
    .ite (fun ha => (Move.hears s i ha hi).moves.trans
      (.ite (fun _ => (raise_moves _ _).after
        (.ite (fun _ => (Move.faults _ _ FaultCause.noConfusion).moves) fun _ => Moves.refl _))
        fun _ => Moves.refl _)) fun _ => Moves.refl s

theorem deliver_moves (s : State) (p : PhaseSample) (f : Frame) : Moves s (s.deliver p f) := by
  unfold State.deliver
  split
  · exact deliverFault_moves s _ _
  · exact deliverLeave_moves s _
  · exact deliverClaim_moves s _ _
  · exact deliverBeacon_moves s p _ _ _ _ _

/-- A receiver with a record that a frame continues drives no abort mark. -/
theorem not_aborting_of_foreignRecord {s : State} {f : Frame} {r : RxRecord}
    (h : s.foreignRecord f = some r) (hl : LineSound s) : s.aborting = false := by
  obtain ⟨-, -, hm | ⟨-, ha, -⟩⟩ := foreignRecord_cases h
  · exact hl.not_aborting fun a d e => by rw [hm] at e; cases e
  · exact ha

/-- A delivery command: the end of the frame and what `deliver` says of it, or nothing. -/
theorem delivery_moves {s : State} {f : Frame} {d : RxRecord → State → State}
    (h : ∀ r x, Moves x (d r x)) :
    Moves s (match s.foreignRecord f with
      | some r => d r (s.endOfFrame (idleAfterFrame f))
      | none => s) := by
  cases hr : s.foreignRecord f with
  | none => exact Moves.refl s
  | some r =>
    exact (endOfFrame_moves (idleAfterFrame_le f) (not_aborting_of_foreignRecord hr)).trans (h _ _)

/-! ### The port and the TRIP pin -/

theorem reply_moves (s : State) (c : Byte) (a : BitVec 16) (x : StatusCode) (r : List Byte) :
    Moves s (s.reply c a x r) := quiet_moves s _ _ s.dropped s.free s.pending

theorem park_moves {s : State} (d : Byte) (h : s.seq.sync.runs = true) : Moves s (s.park d) :=
  (Move.clears s .parked h rfl rfl).moves.trans (raise_moves _ _)

theorem localFault_moves (s : State) (c : LocalCause) : Moves s (s.localFault c) := by
  have taken : Moves s (s.takeFault (LocalCause.asFault c)) :=
    (Move.faults s _ (by cases c <;> exact FaultCause.noConfusion)).moves
  have raised : Moves s (if s.seq.sync = .load then s.takeFault (LocalCause.asFault c)
      else (s.takeFault (LocalCause.asFault c)).raise
        (eventOf .faultLocal none (causeDetail c) s.carrier.cycle)) :=
    .ite (fun _ => taken) fun _ => taken.trans (raise_moves _ _)
  refine .ite (fun ht => raised.trans (Move.offerFault _ c ?_).moves) fun _ => raised
  split <;> simpa using ht

/-- The pin read active before the fault or after it: the fault unit holds the same. -/
theorem takeFault_pin (s : State) (c : FaultCause) :
    State.takeFault { s with fault := { s.fault with pin := true } } c =
      { s.takeFault c with fault := { (s.takeFault c).fault with pin := true } } := by
  unfold State.takeFault; split <;> rfl

theorem assertTripPin_moves (s : State) : Moves s s.assertTripPin := by
  refine .ite (fun _ => Moves.refl s) fun _ => ?_
  have taken : Moves s (State.takeFault { s with fault := { s.fault with pin := true } } .pin) := by
    rw [takeFault_pin]
    exact (Move.faults s .pin FaultCause.noConfusion).moves.trans
      (Move.pin _ true fun _ => takeFault_trips s .pin).moves
  have raised : Moves s (if s.seq.sync = .load then
      State.takeFault { s with fault := { s.fault with pin := true } } .pin
      else (State.takeFault { s with fault := { s.fault with pin := true } } .pin).raise
        (eventOf .faultLocal none (causeDetail .pin) s.carrier.cycle)) :=
    .ite (fun _ => taken) fun _ => taken.trans (raise_moves _ _)
  refine .ite (fun ht => raised.trans (Move.offerFault _ .pin ?_).moves) fun _ => raised
  split <;> simpa using ht

theorem onTripPinRelease_moves (s : State) : Moves s (onTripPinRelease s) :=
  (Move.pin s false Bool.noConfusion).moves.trans
    (quiet_moves _ { s.pins with trip := false } s.port s.dropped s.free s.pending)

theorem runs_of_portRefusal {s : State} (h : s.portRefusal = none) : s.seq.sync.runs = true := by
  unfold State.portRefusal at h
  split_ifs at h with h1 h2
  generalize s.seq.sync = x at *
  cases x with
  | blocked r => cases r <;> simp_all [SyncState.runs, SyncState.configBlocked]
  | load => exact absurd rfl h1
  | _ => rfl

/-- A request taken behind the port's refusals. -/
theorem refused_or_moves {s t : State} {c : Byte} {a : BitVec 16}
    (h : s.portRefusal = none → Moves s t) :
    Moves s (match s.portRefusal with
      | some x => s.reply c a x []
      | none => t) := by
  cases hr : s.portRefusal with
  | some x => exact reply_moves s c a x []
  | none => exact h hr

theorem onStatus_moves (s : State) : Moves s (onStatus s) :=
  .ite (fun _ => reply_moves s _ _ _ _) fun _ => reply_moves s _ _ _ _

theorem onServo_moves (s : State) : Moves s (onServo s) :=
  refused_or_moves fun _ => reply_moves s _ _ _ _

theorem onRoster_moves (i : Byte) (s : State) : Moves s (onRoster i s) := by
  refine refused_or_moves fun _ => ?_
  split <;> exact reply_moves s _ _ _ _

theorem onLog_moves (i : Byte) (s : State) : Moves s (onLog i s) := by
  refine refused_or_moves fun _ => ?_
  split <;> exact reply_moves s _ _ _ _

theorem onEvent_passes (s : State) : Passes s (onEvent s) := by
  refine .ite (fun _ => (reply_moves s _ _ _ _).passes) fun _ => ?_
  split
  · exact (reply_moves s _ _ _ _).passes
  · rename_i e l h
    exact (Relation.ReflTransGen.single (Pass.takes s e l h)).trans (reply_moves _ _ _ _ _).passes

theorem onDuty_moves (v : BitVec 16) (s : State) : Moves s (onDuty v s) :=
  refused_or_moves fun h => (Move.duty s v (runs_of_portRefusal h)).moves.trans (reply_moves _ _ _ _ _)

theorem onStart_moves (s : State) : Moves s (onStart s) := by
  refine refused_or_moves fun _ => ?_
  split <;> rename_i h
  · exact (Move.arms s h).moves.trans (reply_moves _ _ _ _ _)
  all_goals exact reply_moves s _ _ _ _

theorem onStop_moves (s : State) : Moves s (onStop s) := by
  refine refused_or_moves fun _ => ?_
  split <;> rename_i h
  · exact reply_moves s _ _ _ _
  · exact (Move.stops s (.inl h)).moves.trans (reply_moves _ _ _ _ _)
  · exact (Move.stops s (.inr h)).moves.trans (reply_moves _ _ _ _ _)
  · exact reply_moves s _ _ _ _

theorem onTrip_moves (s : State) : Moves s (onTrip s) :=
  refused_or_moves fun _ => (localFault_moves s .command).trans (reply_moves _ _ _ _ _)

theorem onClear_moves (s : State) : Moves s (onClear s) :=
  refused_or_moves fun _ => .ite (fun h => .ite (fun _ => reply_moves s _ _ _ _) fun hp =>
    (Move.clear s h (by simpa using hp)).moves.trans (reply_moves _ _ _ _ _)) fun _ => reply_moves s _ _ _ _

theorem onDetach_moves (s : State) : Moves s (onDetach s) := by
  have runs {x : SyncState} (h : s.seq.sync = x) (hx : x.runs = true) : s.seq.sync.runs = true :=
    h ▸ hx
  have offers (h : s.seq.sync.grouped = true) : Moves s (s.offerLeave.reply 0x18 0 .done []) :=
    (Move.offerLeave s h).moves.trans (reply_moves _ _ _ _ _)
  have parks (d : Byte) (h : s.seq.sync.runs = true) : Moves s ((s.park d).reply 0x18 0 .done []) :=
    (park_moves d h).trans (reply_moves _ _ _ _ _)
  unfold onDetach
  split <;> rename_i h
  case h_4 | h_5 => exact parks 0 (runs h rfl)
  case h_6 | h_7 =>
    exact .ite (fun _ => reply_moves s _ _ _ _) fun _ => offers (by rw [h]; rfl)
  case h_8 =>
    exact .ite (fun _ => reply_moves s _ _ _ _) fun _ =>
      .ite (fun _ => parks 2 (runs h rfl)) fun _ => offers (by rw [h]; rfl)
  all_goals exact reply_moves s _ _ _ _

theorem onAttach_moves (s : State) : Moves s (onAttach s) := by
  have enters (h : s.seq.sync.runs = true) :
      Moves s ((s.enterClearing .listen).reply 0x19 0 .done []) :=
    (Move.clears s .listen h rfl rfl).moves.trans (reply_moves _ _ _ _ _)
  unfold onAttach
  split <;> rename_i h
  case h_5 | h_6 => exact enters (by rw [h]; rfl)
  all_goals exact reply_moves s _ _ _ _

theorem onUnknownRequest_moves (c : Byte) (s : State) : Moves s (onUnknownRequest c s) :=
  .ite (fun _ => Moves.refl s) fun _ =>
    .ite (fun _ => reply_moves s _ _ _ _) fun _ => reply_moves s _ _ _ _

theorem onLpSelRelease_moves (s : State) : Moves s (onLpSelRelease s) :=
  quiet_moves s _ _ s.dropped s.free s.pending

/-! ### The transmitting side -/

theorem onLineIdle_moves (s : State) : Moves s (onLineIdle s) := by
  have rests (ha : ¬ s.aborting = true) : Moves s s.lineRests :=
    line_moves s _ _ _ rfl fun h => ⟨h.drives, le_refl 8, fun k => absurd k ha⟩
  unfold onLineIdle
  split
  · exact .ite (fun _ => Moves.refl s) rests
  · exact .ite (fun _ => Moves.refl s) rests
  · exact Moves.refl s
  · exact Moves.refl s

theorem onTxFrameStart_moves (s : State) : Moves s (onTxFrameStart s) := by
  refine .ite (fun _ => ?_) fun _ => Moves.refl s
  split
  · exact line_moves s _ _ _ rfl fun _ => ⟨fun _ => rfl, Nat.zero_le 8, fun k => by
      simp [State.aborting] at k⟩
  · exact Moves.refl s

theorem loseArbitration_moves (s : State) (f : InFlight) (n : Nat) :
    Moves s (s.loseArbitration f n) :=
  line_moves s _ _ _ rfl fun _ => LineSound.of_released rfl rfl (Nat.zero_le 8)

theorem onArbitrationLost_moves (n : Nat) (s : State) : Moves s (onArbitrationLost n s) := by
  unfold onArbitrationLost
  split
  · exact .ite (fun _ => loseArbitration_moves s _ n) fun _ => Moves.refl s
  · exact Moves.refl s

theorem endMark_moves (s : State) (n : Nat) : Moves s (s.endMark n) :=
  line_moves s _ _ _ rfl fun _ => LineSound.of_released rfl rfl (Nat.zero_le 8)

theorem onAbortMarkEnd_moves (s : State) : Moves s (onAbortMarkEnd s) := by
  unfold onAbortMarkEnd
  split
  · exact .ite (fun _ => endMark_moves s _) fun _ => Moves.refl s
  · exact Moves.refl s

theorem answerCompletion_moves (s : State) (k : FrameKind) : Moves s (s.answerCompletion k) := by
  unfold State.answerCompletion
  split
  · exact .ite (fun h => (Move.acquires s h).moves) fun _ => Moves.refl s
  · exact .ite (fun h => park_moves 1 (runs_of_grouped h)) fun _ => Moves.refl s
  all_goals exact Moves.refl s

theorem completeFrame_moves (s : State) (f : InFlight) : Moves s (s.completeFrame f) := by
  refine (answerCompletion_moves _ _).after ?_
  have released : Moves s { s.endOfFrame (idleAfterFrame f.frame) with
      tx := { (s.endOfFrame (idleAfterFrame f.frame)).tx with
        inFlight := none
        beaconSent := s.tx.beaconSent || f.frame.payload.kind == FrameKind.beacon
        lineTx := false } } :=
    line_moves s _ _ _ rfl fun _ => .of_released rfl rfl (idleAfterFrame_le f.frame)
  exact released.trans (Move.remove _ f.frame.payload.kind).moves

theorem onFrameComplete_moves (s : State) : Moves s (onFrameComplete s) := by
  unfold onFrameComplete
  split
  · exact .ite (fun _ => Moves.refl s) fun _ => completeFrame_moves s _
  · exact Moves.refl s

/-! ### The receiving side -/

theorem openFrame_moves {s : State} (hm : s.line.mode = .hunt) : Moves s s.openFrame := by
  refine line_moves s _ _ _ rfl fun h => ⟨?_, Nat.zero_le 8, ?_⟩
  · intro k
    simpa using h.drives k
  · have ha := h.not_aborting (by simp [hm])
    intro k
    cases hf : s.tx.inFlight with
    | none => simp [State.aborting, hf] at k
    | some f =>
      rw [aborting_of_inFlight hf] at ha
      simp [State.aborting, hf, ha] at k

theorem sampleSof_moves {s : State} {r : RxRecord} (b : Bit) (hm : s.line.mode = .receive r) :
    Moves s (s.sampleSof r b) := by
  have quiet : LineSound s → s.aborting = false := fun h => h.not_aborting (by simp [hm])
  refine .ite (fun _ => .ite (fun _ => transmitError_moves s 0) fun _ => ?_) fun _ => ?_
  all_goals
    refine line_moves s _ _ _ (by simp [State.atSample]) fun h =>
      ⟨by simpa [State.atSample] using h.drives, sampled_idle_le _ _ h.idle, fun k => ?_⟩
    simp [State.aborting, State.atSample] at k
    exact absurd k (by simpa [State.aborting] using quiet h)

theorem onSofEdge_moves (b : Bit) (s : State) : Moves s (onSofEdge b s) := by
  unfold onSofEdge
  split <;> rename_i hm
  · split
    · rename_i r hr
      exact (openFrame_moves hm).trans (sampleSof_moves b hr)
    all_goals exact Moves.refl s
  all_goals exact Moves.refl s

theorem keepDropped_moves (s b : State) (r : RxRecord) : Moves s (s.keepDropped b r) :=
  .ite (fun _ => quiet_moves s s.pins s.port _ s.free s.pending) fun _ => Moves.refl s

/-- The bits that lead to an error move the idle count and the idle line alone. -/
theorem errorAfter_eq {r : RxRecord} {t u : Contention} {bits : List Bit}
    (h : errorAfter r t bits = some u) : ∃ i l, u = { t with idleCount := i, lineIdle := l } ∧
      (t.idleCount ≤ 8 → i ≤ 8) := by
  induction bits generalizing r t with
  | nil => cases h
  | cons b bits ih =>
    obtain ⟨i, l, e⟩ := sampled_eq t (inFrameBody (r.feed b).bits) b
    have hi : t.idleCount ≤ 8 → i ≤ 8 := fun k => by
      simpa [e] using sampled_idle_le (inFrameBody (r.feed b).bits) b k
    simp only [errorAfter, e] at h
    split at h
    · obtain ⟨i', l', e', hi'⟩ := ih h
      exact ⟨i', l', e', fun k => hi' (hi k)⟩
    · split at h
      · exact ⟨i, l, (Option.some.inj h).symm, hi⟩
      · cases h
    · cases h

theorem frameError_moves (s : State) (bits : List Bit) : Moves s (s.frameError bits) := by
  unfold State.frameError
  split
  · rename_i r hm
    refine .ite (fun _ => Moves.refl s) fun _ => ?_
    split
    · rename_i t ht
      obtain ⟨i, l, rfl, hi⟩ := errorAfter_eq ht
      refine ((rejectFrame_moves _).trans (keepDropped_moves _ s r)).after
        (line_moves s _ _ _ rfl fun h => ⟨h.drives, hi h.idle, h.aborts⟩)
    · exact Moves.refl s
  all_goals exact Moves.refl s

theorem onRecoverIdle_moves (s : State) : Moves s (onRecoverIdle s) := by
  unfold onRecoverIdle
  split
  · exact .ite (fun _ => Moves.refl s) fun h => recovered_moves (by simpa using h)
  all_goals exact Moves.refl s

theorem onLinkDown_moves (e : LinkError) (s : State) : Moves s (onLinkDown e s) := by
  refine .ite (fun _ => ?_) fun _ => Moves.refl s
  split
  · exact frameError_moves s _
  · exact dominantRun_moves s
  · exact transmitError_moves s _

/-! ### Start-up and boundaries -/

theorem boundary_if_moves (s : State) (b : Bool) :
    Moves s (if s.boundaryDue && b then s.boundary else s) :=
  .ite (fun h => (Move.ends s (Bool.and_eq_true _ _ ▸ h).1).moves) fun _ => Moves.refl s

theorem onCycleBoundary_moves (s : State) : Moves s (onCycleBoundary s) :=
  .ite (fun h => (Move.ends s h).moves) fun _ => Moves.refl s

/-- The loader short of its start, with pins and port. -/
theorem loader_moves (s : State) (p : Pins) (q : Port) (l : Loader)
    (h : l.phase ≠ .finished → s.loader.phase ≠ .finished) :
    Moves s { s with pins := p, port := q, loader := l } :=
  Aside.moves ⟨rfl, h, rfl, rfl, fun h => ⟨h.drives, h.idle, h.aborts⟩, rfl, rfl, rfl, rfl, rfl, rfl, rfl, rfl⟩

theorem onLoadStart_moves (s : State) : Moves s (onLoadStart s) := by
  refine .ite (fun hl => ?_) fun _ => Moves.refl s
  have begun := loader_moves s { s.pins with reset := false } { s.port with selPrev := s.pins.lpSel }
    { s.loader with phase := .reading 1 0 } fun _ => by rw [hl]; exact LoaderPhase.noConfusion
  exact .ite (fun _ => begun.trans (assertTripPin_moves _)) fun _ => begun

theorem legal_of_judged {bytes : ImageBits} {i : Image} (h : judgeImage bytes = .good i) :
    i.legal = true := by
  unfold judgeImage at h
  split_ifs at h
  split at h
  · cases h
  · rename_i hn
    obtain rfl : decodeImage bytes = i := ImageVerdict.good.inj h
    simp [Image.legal, hn]

theorem onConfigAttemptEnd_moves (b : ImageBits) (s : State) : Moves s (onConfigAttemptEnd b s) := by
  unfold onConfigAttemptEnd
  split
  · rename_i n k hl
    have reading : s.loader.phase ≠ .finished := by rw [hl]; exact LoaderPhase.noConfusion
    have bad (r : BlockedReason) (m : Nat) (hr : r ≠ .idConflict) :
        Moves s (State.endLoadBad { s with loader := { s.loader with buffer := b } } r m) :=
      (Move.blocks s b r reading hr).moves.trans (raise_moves _ _)
    dsimp only
    split
    · exact .ite (fun _ => loader_moves s _ _ _ fun _ => reading)
        fun _ => bad _ _ BlockedReason.noConfusion
    · exact bad _ _ BlockedReason.noConfusion
    · exact bad _ _ BlockedReason.noConfusion
    · rename_i i hi
      exact (Move.starts s b i reading (legal_of_judged hi)).moves.trans (raise_moves _ _)
  all_goals exact Moves.refl s

theorem onConfigRetryWaitEnd_moves (s : State) : Moves s (onConfigRetryWaitEnd s) := by
  unfold onConfigRetryWaitEnd
  split
  · rename_i n k hl
    exact loader_moves s s.pins s.port _ fun _ => by rw [hl]; exact LoaderPhase.noConfusion
  all_goals exact Moves.refl s

/-- A change of SYNC alone. -/
theorem sync_moves (s : State) (b : Bool) (n : Nat) :
    Moves s { s with carrier := { s.carrier with sync := b, syncAge := n } } :=
  Aside.moves ⟨rfl, id, rfl, rfl, fun h => ⟨h.drives, h.idle, h.aborts⟩, rfl, rfl, rfl, rfl, rfl, rfl, rfl, rfl⟩

theorem onSyncPulseEnd_moves (s : State) : Moves s (onSyncPulseEnd s) :=
  .ite (fun _ => sync_moves s false 0) fun _ => Moves.refl s

theorem onTripPinAssert_moves (s : State) : Moves s (onTripPinAssert s) := by
  have asserted := quiet_moves s { s.pins with trip := true } s.port s.dropped s.free s.pending
  exact .ite (fun _ => asserted) fun _ => asserted.trans (assertTripPin_moves _)

/-! ### A command -/

/-- A command but EVENT and device reset is a run of moves. -/
theorem exec_moves {c : Instr} {s t : State} (h : exec c s = .next t) (he : c ≠ .event)
    (hr : c ≠ .deviceReset) : Moves s t := by
  cases c
  case deviceReset => exact absurd rfl hr
  case event => exact absurd rfl he
  all_goals obtain rfl := Host.Outcome.next.inj h
  case loadStart => exact onLoadStart_moves s
  case configAttemptEnd b => exact onConfigAttemptEnd_moves b s
  case configRetryWaitEnd => exact onConfigRetryWaitEnd_moves s
  case countTick => exact (Move.counts s).moves
  case cycleBoundary => exact onCycleBoundary_moves s
  case syncPulseEnd => exact onSyncPulseEnd_moves s
  case listenComplete => exact boundary_if_moves s _
  case lockReached => exact boundary_if_moves s _
  case unlockReached => exact boundary_if_moves s _
  case viewAdoption => exact boundary_if_moves s _
  case peerStale => exact boundary_if_moves s _
  case holdoverExpiry => exact boundary_if_moves s _
  case sofEdge b => exact onSofEdge_moves b s
  case rxBeacon i ph a m st => exact delivery_moves fun r x => deliverBeacon_moves x r.sample i ph a m st
  case rxClaim i p => exact delivery_moves fun _ x => deliverClaim_moves x i p
  case rxLeave i => exact delivery_moves fun _ x => deliverLeave_moves x i
  case rxFault i c => exact delivery_moves fun _ x => deliverFault_moves x i c
  case rxFrameError bits => exact frameError_moves s bits
  case recoverIdle => exact onRecoverIdle_moves s
  case dominantRunError => exact dominantRun_moves s
  case lineIdle => exact onLineIdle_moves s
  case txFrameStart => exact onTxFrameStart_moves s
  case arbitrationLost n => exact onArbitrationLost_moves n s
  case transmitError n => exact transmitError_moves s n
  case abortMarkEnd => exact onAbortMarkEnd_moves s
  case frameComplete => exact onFrameComplete_moves s
  case linkDown e => exact onLinkDown_moves e s
  case tripPinAssert => exact onTripPinAssert_moves s
  case tripPinRelease => exact onTripPinRelease_moves s
  case status => exact onStatus_moves s
  case servo => exact onServo_moves s
  case roster i => exact onRoster_moves i s
  case log i => exact onLog_moves i s
  case duty v => exact onDuty_moves v s
  case start => exact onStart_moves s
  case stop => exact onStop_moves s
  case trip => exact onTrip_moves s
  case clear => exact onClear_moves s
  case detach => exact onDetach_moves s
  case attach => exact onAttach_moves s
  case unknownRequest n => exact onUnknownRequest_moves n s
  case lpSelRelease => exact onLpSelRelease_moves s

theorem exec_passes {c : Instr} {s t : State} (h : exec c s = .next t) : Passes s t := by
  by_cases he : c = .event
  · subst he
    exact Host.Outcome.next.inj h ▸ onEvent_passes s
  by_cases hr : c = .deviceReset
  · subst hr
    exact Host.Outcome.next.inj h ▸ .single (Pass.resets s)
  exact (exec_moves h he hr).passes

/-! ### A tick -/

theorem takeRequest_passes (code : Byte) (args : BitVec 16) (s : State) :
    Passes s (takeRequest code args s) := by
  unfold takeRequest
  refine .ite (fun _ => (onStatus_moves s).passes) fun _ => ?_
  refine .ite (fun _ => (onServo_moves s).passes) fun _ => ?_
  refine .ite (fun _ => (onRoster_moves _ s).passes) fun _ => ?_
  refine .ite (fun _ => (onLog_moves _ s).passes) fun _ => ?_
  refine .ite (fun _ => onEvent_passes s) fun _ => ?_
  refine .ite (fun _ => (onDuty_moves _ s).passes) fun _ => ?_
  refine .ite (fun _ => (onStart_moves s).passes) fun _ => ?_
  refine .ite (fun _ => (onStop_moves s).passes) fun _ => ?_
  refine .ite (fun _ => (onTrip_moves s).passes) fun _ => ?_
  refine .ite (fun _ => (onClear_moves s).passes) fun _ => ?_
  refine .ite (fun _ => (onDetach_moves s).passes) fun _ => ?_
  refine .ite (fun _ => (onAttach_moves s).passes) fun _ => ?_
  exact (onUnknownRequest_moves code s).passes

/-- A change of the port alone. -/
theorem port_passes (s : State) (q : Port) : Passes s { s with port := q } :=
  (quiet_moves s s.pins q s.dropped s.free s.pending).passes

theorem takePortBit_passes (s : State) : Passes s s.takePortBit :=
  .ite (fun _ => (port_passes s _).trans (takeRequest_passes _ _ _)) fun _ => port_passes s _

theorem stepPort_passes (s : State) : Passes s (stepPort s) := by
  refine .ite (fun _ => ?_) fun _ => Passes.refl s
  have select : Passes s s.readSelect :=
    .ite (fun _ => port_passes s _) fun _ =>
      .ite (fun _ => (onLpSelRelease_moves s).passes) fun _ => Passes.refl s
  exact select.trans (.ite (fun _ => .ite (fun _ => takePortBit_passes _) fun _ =>
    .ite (fun _ => port_passes _ _) fun _ => Passes.refl _) fun _ => Passes.refl _)

theorem stepPin_moves (s : State) : Moves s (stepPin s) :=
  .ite (fun _ => assertTripPin_moves s) fun _ =>
    .ite (fun _ => onTripPinRelease_moves s) fun _ => Moves.refl s

theorem stepLoader_moves (s : State) : Moves s (stepLoader s) :=
  .ite (fun _ => onConfigAttemptEnd_moves _ s) fun _ => Moves.refl s

/-- A bit that a record takes in, in a receiver whose mode is the record's. -/
theorem feed_moves {s : State} {r : RxRecord} (hm : s.line.mode = .receive r) (r' : RxRecord)
    (body : Bool) (b : Bit) :
    Moves s { s with line := { s.line with mode := .receive r' }, tx := s.tx.sampled body b } :=
  line_moves s s.pins _ _ (by simp) fun h =>
    .of_quiet (h.not_aborting (by simp [hm])) (by simp) (by simpa using h.drives)
      (sampled_idle_le _ _ h.idle)

theorem compareBit_moves {s : State} {r : RxRecord} (hm : s.line.mode = .receive r) (f : InFlight)
    (b : Bit) : Moves s (s.compareBit r f b) :=
  .ite (fun _ => .ite (fun _ => completeFrame_moves s f) fun _ => feed_moves hm _ _ b) fun _ =>
    .ite (fun _ => loseArbitration_moves s f _) fun _ => failTransmit_moves s f _

theorem receiveBit_moves {s : State} {r : RxRecord} (hm : s.line.mode = .receive r) (b : Bit) :
    Moves s (s.receiveBit r b) := by
  refine .ite (fun _ => sampleSof_moves b hm) fun _ => ?_
  dsimp only
  split
  · exact feed_moves hm _ _ b
  · refine (rejectFrame_moves _).after (line_moves s s.pins s.line _ (by simp) fun h => ?_)
    exact .of_quiet (h.not_aborting (by simp [hm])) (by simp) (by simpa using h.drives)
      (sampled_idle_le _ _ h.idle)
  · exact (endOfFrame_moves (idleAfterFrame_le _) fun h => h.not_aborting (by simp [hm])).trans
      (deliver_moves _ _ _)

/-- A sample that leaves the receiver in RECOVER. -/
theorem recover_moves (s : State) (a d : Nat) (b : Bit) : Moves s { s with
    line := { s.line with mode := .recover a d }, tx := s.tx.sampled false b } :=
  line_moves s s.pins _ _ (by simp) fun h =>
    ⟨by simpa using h.drives, sampled_idle_le _ _ h.idle, fun _ => ⟨a, d, rfl⟩⟩

theorem recoverSample_moves (s : State) (a d : Nat) (b : Bit) : Moves s (s.recoverSample a d b) :=
  .ite (fun _ => .ite (fun _ => recover_moves s 0 0 b) fun ha =>
      .ite (fun _ => recovered_moves (by simpa using ha)) fun _ => recover_moves s _ 0 b) fun _ =>
    .ite (fun _ => dominantRun_moves s) fun _ => recover_moves s 0 _ b

theorem sampleLine_moves (s : State) : Moves s s.sampleLine := by
  unfold State.sampleLine
  dsimp only
  split <;> rename_i hm
  · exact Moves.refl s
  · exact line_moves s s.pins s.line _ (by simp) fun h =>
      .of_quiet (h.not_aborting (by simp [hm])) (by simp) (by simpa using h.drives)
        (sampled_idle_le _ _ h.idle)
  · exact recoverSample_moves s _ _ _
  · split
    · exact compareBit_moves hm _ _
    · exact Moves.refl s
    · exact receiveBit_moves hm _

theorem stepLine_moves (s : State) : Moves s (stepLine s) := by
  refine .ite (fun _ => .ite (fun he => ?_) fun _ => .ite (fun _ => ?_) fun _ =>
    .ite (fun _ => sampleLine_moves s) fun _ => Moves.refl s) fun _ => Moves.refl s
  · simp only [State.sofEdgeNow, Bool.and_eq_true, beq_iff_eq] at he
    exact openFrame_moves he.1.1
  · split
    · exact failTransmit_moves s _ 0
    · exact Moves.refl s

/-- Every part of a tick is a run of moves and passes. -/
theorem part_passes {s x : State} {f : State → State} (h : f ∈ s.tickParts) : Passes x (f x) := by
  rw [tickParts_eq] at h
  simp only [List.mem_append, List.mem_ite_nil_right, List.mem_singleton] at h
  rcases h with ⟨-, rfl⟩ | ⟨-, rfl⟩ | ⟨-, rfl⟩ | ⟨-, rfl⟩ | ⟨-, rfl⟩ | ⟨-, rfl⟩
  · exact (onCycleBoundary_moves x).passes
  · exact (stepLine_moves x).passes
  · exact (onTxFrameStart_moves x).passes
  · exact stepPort_passes x
  · exact (stepPin_moves x).passes
  · exact (stepLoader_moves x).passes

theorem foldl_passes {l : List (State → State)} (h : ∀ f ∈ l, ∀ x, Passes x (f x)) (s : State) :
    Passes s (l.foldl (fun x f => f x) s) := by
  induction l generalizing s with
  | nil => exact Passes.refl s
  | cons f l ih =>
    exact (h f List.mem_cons_self s).trans (ih (fun g hg => h g (List.mem_cons_of_mem f hg)) _)

theorem runParts_passes {s : State} {l : List (State → State)} (h : ∀ f ∈ l, ∀ x, Passes x (f x)) :
    Passes s (s.runParts l) := by
  rcases l with _ | ⟨f, _ | ⟨g, l⟩⟩
  · exact Passes.refl s
  · exact h f List.mem_cons_self s
  · have parts := foldl_passes (l := arrange (Config.tickOrder s.free) (f :: g :: l))
      (fun k hk => h k ((arrange_perm _ _).mem_iff.mp hk)) s
    exact parts.trans (quiet_moves _ _ _ _ _ _).passes

theorem tickLoader_moves (s : State) : Moves s s.tickLoader := by
  unfold State.tickLoader
  split <;> rename_i h
  · exact loader_moves s s.pins s.port _ fun _ => by rw [h]; exact LoaderPhase.noConfusion
  · refine .ite (fun _ => onConfigRetryWaitEnd_moves s) fun _ => ?_
    exact loader_moves s s.pins s.port _ fun _ => by rw [h]; exact LoaderPhase.noConfusion
  all_goals exact Moves.refl s

theorem tickSync_moves (s : State) : Moves s s.tickSync :=
  .ite (fun _ => .ite (fun _ => onSyncPulseEnd_moves s) fun _ => sync_moves s s.carrier.sync _)
    fun _ => Moves.refl s

theorem startBit_moves (s : State) : Moves s s.startBit := by
  have idle : Moves s { s with
      tx := { s.tx with lineIdle := s.tx.lineIdle || decide (s.tx.idleCount = 8) } } :=
    line_moves s s.pins s.line _ rfl fun h => ⟨h.drives, h.idle, h.aborts⟩
  unfold State.startBit
  dsimp only
  split
  · rename_i f hf
    refine .ite (fun _ => idle) fun _ => .ite (fun _ => idle.trans (endMark_moves _ 0)) fun _ => ?_
    refine line_moves s s.pins s.line _ rfl fun h => ⟨fun _ => rfl, h.idle, fun k => h.aborts ?_⟩
    rw [aborting_of_inFlight hf]
    exact k
  · exact idle

theorem moveGrid_moves (s : State) : Moves s s.moveGrid := by
  refine line_moves s s.pins _ _ rfl fun h => ⟨by simpa using h.drives, h.idle, fun k => ?_⟩
  have ha : s.aborting = true := by
    cases hf : s.tx.inFlight with
    | none => simp [State.aborting, hf] at k
    | some f => rw [aborting_of_inFlight hf]; simpa [State.aborting, hf] using k
  obtain ⟨a, d, e⟩ := h.aborts ha
  exact ⟨a, d, by simp [e, RxMode.older]⟩

theorem tickGrid_moves (s : State) : Moves s s.tickGrid := by
  refine .ite (fun _ => ?_) fun _ => Moves.refl s
  have moved : Moves s (if s.markEmpty then s.endMark 0 else s).moveGrid :=
    (moveGrid_moves _).after (.ite (fun _ => endMark_moves s 0) fun _ => Moves.refl s)
  exact .ite (fun _ => moved.trans (startBit_moves _)) fun _ => moved

theorem openTick_moves (s : State) : Moves s s.openTick :=
  .ite (fun _ => onLoadStart_moves s) fun _ =>
    ((tickLoader_moves s).trans (tickSync_moves _)).trans
      ((Move.counts _).moves.trans (tickGrid_moves _))

theorem closeTick_moves (s : State) : Moves s s.closeTick :=
  (Move.decides s).moves.trans <| Aside.moves
    ⟨rfl, id, rfl, rfl, fun h => ⟨h.drives, h.idle, h.aborts⟩, rfl, rfl, rfl, rfl, rfl, rfl, rfl, rfl⟩

theorem tick_passes (s : State) : Passes s (tick s) :=
  .ite (fun _ => .single (Pass.resets s)) fun _ =>
    (openTick_moves s).passes.trans
      ((runParts_passes fun _ hf _ => part_passes hf).trans (closeTick_moves _).passes)

/-- Every step is a run of moves, events taken and device resets. -/
theorem step_passes {s t : State} (h : step s = .next t) : Passes s t := by
  unfold step at h
  split at h
  · exact Host.Outcome.next.inj h ▸ tick_passes s
  · exact (quiet_moves s s.pins s.port s.dropped s.free _).passes.trans (exec_passes h)

/-- What moves, the taking of an event and device reset keep, every step keeps. -/
theorem keeps_of_passes {inv : State → Prop} (h : ∀ s t, Pass s t → inv s → inv t) : Keeps inv := by
  intro s t hs hst
  have hp := step_passes hst
  clear hst
  induction hp with
  | refl => exact hs
  | tail _ p ih => exact h _ _ p ih

end Sys2Proof.Machine

namespace Sys2Proof.Machine

set_option Elab.async false

/-! ### What an accepted image holds (12.2) -/

/-- The ranges of an accepted image that the invariants lean on. -/
structure LegalImage (i : Image) : Prop where
  stale : 2 ≤ i.staleLimit
  periodLow : 9472 ≤ i.period
  periodHigh : i.period ≤ 65535
  lockCount : 1 ≤ i.lockCount
  trimMax : i.trimMax ≤ 2048
  acqStep : i.acqStep ≤ i.period / 16
  fineStep : i.fineStep ≤ i.acqStep
  slotStep : i.slotStep ≤ i.period / 16
  duties : i.dutyMin ≤ i.dutyMax
  room : i.dutyMax + i.deadBand ≤ 7 * i.period / 8

theorem legal_iff (i : Image) : i.legal = true ↔ ∀ n, n ≤ 23 → i.fieldOk n = true := by
  rw [← firstBadField_none, Image.legal, Option.isNone_iff_eq_none]

theorem legalImage_of_legal {i : Image} (h : i.legal = true) : LegalImage i := by
  have ok (n : Nat) (hn : n ≤ 23) := (legal_iff i).1 h n hn
  have period : 8 ≤ i.bitTicks ∧ i.bitTicks ≤ 255 ∧ 1184 * i.bitTicks ≤ i.period :=
    of_decide_eq_true (ok 4 (by omega))
  exact {
    stale := (of_decide_eq_true (ok 2 (by omega)) : 2 ≤ i.staleLimit ∧ _).1
    periodLow := by omega
    periodHigh := (of_decide_eq_true (ok 3 (by omega)) : _ ∧ i.period ≤ 65535).2
    lockCount := (of_decide_eq_true (ok 11 (by omega)) : 1 ≤ i.lockCount ∧ _).1
    trimMax := (of_decide_eq_true (ok 16 (by omega)) : _ ∧ i.trimMax ≤ 2048).2
    acqStep := (of_decide_eq_true (ok 17 (by omega)) : _ ∧ i.acqStep ≤ i.period / 16).2
    fineStep := (of_decide_eq_true (ok 18 (by omega)) : _ ∧ i.fineStep ≤ i.acqStep).2
    slotStep := (of_decide_eq_true (ok 19 (by omega)) : _ ∧ i.slotStep ≤ i.period / 16).2
    duties := (of_decide_eq_true (ok 21 (by omega)) : _ ∧ i.dutyMin ≤ i.dutyMax).2
    room := of_decide_eq_true (ok 22 (by omega)) }

/-- While the carrier runs the configuration in force is a legal image (R2, R180). -/
theorem ConfigInv.legalImage {s : State} (h : ConfigInv s) (hr : s.seq.sync.runs = true) :
    LegalImage s.cfg := by
  obtain ⟨i, hi⟩ := Option.isSome_iff_exists.1 (h.runsWithImage hr)
  have e : s.cfg = i := by simp [State.cfg, hi]
  exact e ▸ legalImage_of_legal (h.legal i hi)

theorem ConfigInv.trimMax_le {s : State} (h : ConfigInv s) : s.cfg.trimMax ≤ 2048 := by
  cases hi : s.image with
  | none => simp [State.cfg, hi, Image.blank]
  | some i => simpa [State.cfg, hi] using (legalImage_of_legal (h.legal i hi)).trimMax

/-! ### The image and the sync state (R2, R121, R180 to R182) -/

theorem ConfigInv.congr {s t : State} (h : ConfigInv s) (hi : t.image = s.image)
    (hs : t.seq.sync = s.seq.sync)
    (hl : t.loader.phase ≠ .finished → s.loader.phase ≠ .finished) : ConfigInv t where
  legal := fun i e => h.legal i (hi ▸ e)
  runsWithImage := fun k => hi ▸ h.runsWithImage (hs ▸ k)
  loadingWithout := fun k => by rw [hi, hs]; exact h.loadingWithout (hl k)

/-- A running station has its image and has done with loading, so its sync state may move. -/
theorem ConfigInv.moved {s t : State} (h : ConfigInv s) (hr : s.seq.sync.runs = true)
    (hi : t.image = s.image) (hl : t.loader = s.loader) : ConfigInv t where
  legal := fun i e => h.legal i (hi ▸ e)
  runsWithImage := fun _ => hi ▸ h.runsWithImage hr
  loadingWithout := fun k => by
    have := (h.loadingWithout (hl ▸ k)).2
    rw [this] at hr; cases hr

theorem configInv_of_move {s t : State} (m : Move s t) (h : ConfigInv s) : ConfigInv t := by
  cases m
  case aside k => exact h.congr k.image k.sync k.loading
  case clears x hs hx hg => exact h.moved hs rfl rfl
  case holds hs => exact h.moved (by rw [hs]; rfl) rfl rfl
  case acquires hs => exact h.moved (by rw [hs]; rfl) rfl rfl
  case ends hd => exact h.moved ((boundaryDue_iff s).1 hd).1 (by simp) (by simp)
  case counts => rw [onCountTick_eq]; exact h.congr rfl rfl id
  case faults c hc => exact h.congr (by simp) (by simp) (by simp)
  case blocks b r hl hr =>
    refine ⟨h.legal, fun k => ?_, fun k => absurd rfl k⟩
    cases r
    case idConflict => exact absurd rfl hr
    all_goals cases k
  case starts b i hl hi =>
    exact ⟨fun j e => Option.some.inj e ▸ hi, fun _ => rfl, fun k => absurd rfl k⟩
  all_goals exact h.congr rfl rfl id

theorem configInv_onDeviceReset (s : State) : ConfigInv (onDeviceReset s) where
  legal := fun i e => (by cases e)
  runsWithImage := fun k => (by cases k)
  loadingWithout := fun _ => ⟨rfl, rfl⟩

theorem configInv_of_pass {s t : State} (p : Pass s t) (h : ConfigInv s) : ConfigInv t := by
  cases p with
  | move m => exact configInv_of_move m h
  | takes e l _ => exact h.congr rfl rfl id
  | resets => exact configInv_onDeviceReset s

/-! ### The transmit queue -/

theorem QueueInv.line {s : State} (h : QueueInv s) : LineSound s := ⟨h.drives, h.idle, h.aborts⟩

/-- What the queue holds agrees with the sync state (R46, R48, R120). -/
structure QueueFits (q : TxQueue) (x : SyncState) : Prop where
  emptied : x.transmits = false → q = TxQueue.empty
  groupedOnly : x.grouped = false → q.beacon = false ∧ q.leave = false

theorem QueueInv.fits {s : State} (h : QueueInv s) : QueueFits s.tx.queue s.seq.sync :=
  ⟨h.emptied, h.groupedOnly⟩

theorem QueueInv.of_parts {s : State} (h : QueueFits s.tx.queue s.seq.sync) (l : LineSound s) :
    QueueInv s := ⟨h.emptied, h.groupedOnly, l.drives, l.idle, l.aborts⟩

theorem LineSound.congr {s t : State} (h : LineSound s) (hf : t.tx.inFlight = s.tx.inFlight)
    (hx : t.tx.lineTx = s.tx.lineTx) (hi : t.tx.idleCount = s.tx.idleCount)
    (hm : t.line.mode = s.line.mode) : LineSound t where
  drives := by rw [hf, hx]; exact h.drives
  idle := by rw [hi]; exact h.idle
  aborts := by rw [aborting_congr hf, hm]; exact h.aborts

theorem transmits_of_grouped {x : SyncState} (h : x.grouped = true) : x.transmits = true := by
  cases x <;> first | rfl | cases h

theorem queueFits_empty (x : SyncState) : QueueFits TxQueue.empty x :=
  ⟨fun _ => rfl, fun _ => ⟨rfl, rfl⟩⟩

/-- Where a station is grouped its queue may hold anything. -/
theorem queueFits_of_grouped (q : TxQueue) {x : SyncState} (h : x.grouped = true) : QueueFits q x where
  emptied := fun k => by rw [transmits_of_grouped h] at k; cases k
  groupedOnly := fun k => by rw [h] at k; cases k

theorem queueFits_remove {q : TxQueue} {x : SyncState} (h : QueueFits q x) (k : FrameKind) :
    QueueFits (q.remove k) x where
  emptied := fun e => by
    rw [h.emptied e]; cases k <;> rfl
  groupedOnly := fun e => by
    obtain ⟨h1, h2⟩ := h.groupedOnly e
    cases k <;> simp [TxQueue.remove, h1, h2]

/-! #### The sync state a boundary leaves -/

theorem sequencerWork_grouped {s : State} (h : s.seq.sync.grouped = true) :
    s.sequencerWork.sync.grouped = true := by
  cases hs : s.seq.sync <;> rw [hs] at h <;> cases h <;> simp only [State.sequencerWork, hs] <;>
    split_ifs <;> simp [hs, SyncState.grouped]

/-- A boundary moves no ungrouped station but the one that has listened long enough. -/
theorem sequencerWork_ungrouped {s : State} (h : s.seq.sync.grouped = false) :
    s.sequencerWork.sync = if s.reachesJoin then .join else s.seq.sync := by
  cases hs : s.seq.sync <;> rw [hs] at h <;> cases h <;>
    simp [State.sequencerWork, State.reachesJoin, hs]

theorem reachesJoin_listen {s : State} (h : s.reachesJoin = true) : s.seq.sync = .listen := by
  simp only [State.reachesJoin, Bool.and_eq_true, beq_iff_eq] at h
  exact h.1

theorem queueFits_boundary {s : State} (h : QueueFits s.tx.queue s.seq.sync) :
    QueueFits s.queueWork s.sequencerWork.sync := by
  by_cases hg : s.seq.sync.grouped = true
  · exact queueFits_of_grouped _ (sequencerWork_grouped hg)
  have hu : s.seq.sync.grouped = false := by simpa using hg
  rw [sequencerWork_ungrouped hu]
  by_cases hj : s.reachesJoin = true
  · obtain ⟨h1, h2⟩ := h.groupedOnly hu
    rw [State.queueWork, if_pos hj, if_pos hj]
    refine ⟨fun k => (by cases k), fun _ => ?_⟩
    simp [TxQueue.offerClaim, h1, h2]
  · rw [State.queueWork, if_neg hj, if_neg hg, if_neg hj]
    exact h

theorem queueInv_of_move {s t : State} (m : Move s t) (h : QueueInv s) : QueueInv t := by
  have keep : LineSound s := h.line
  cases m
  case aside k => exact .of_parts (by rw [k.queue, k.sync]; exact h.fits) (k.line keep)
  case offerFault c ht =>
    refine .of_parts ⟨fun k => ?_, h.groupedOnly⟩ (keep.congr rfl rfl rfl rfl)
    rw [show SyncState.transmits _ = true from ht] at k; cases k
  case offerLeave hg => exact .of_parts (queueFits_of_grouped _ hg) (keep.congr rfl rfl rfl rfl)
  case remove k => exact .of_parts (queueFits_remove h.fits k) (keep.congr rfl rfl rfl rfl)
  case clears x hs hx hg => exact .of_parts (queueFits_empty x) (keep.congr rfl rfl rfl rfl)
  case holds hs => exact .of_parts (queueFits_of_grouped _ rfl) (keep.congr rfl rfl rfl rfl)
  case acquires hs => exact .of_parts (queueFits_of_grouped _ rfl) (keep.congr rfl rfl rfl rfl)
  case ends hd =>
    refine .of_parts ?_ (keep.congr (by simp [boundary_tx]) (by simp [boundary_tx])
      (by simp [boundary_tx]) (by simp))
    rw [boundary_tx, boundary_seq]
    exact queueFits_boundary h.fits
  case counts =>
    rw [onCountTick_eq]
    exact .of_parts h.fits (keep.congr rfl rfl rfl rfl)
  case faults c hc =>
    exact .of_parts (by simpa using h.fits) (keep.congr (by simp) (by simp) (by simp) (by simp))
  case blocks b r hl hr => exact .of_parts (queueFits_empty _) (keep.congr rfl rfl rfl rfl)
  case starts b i hl hi =>
    exact .of_parts (queueFits_empty _) ⟨keep.drives, keep.idle, fun _ => ⟨0, 0, rfl⟩⟩
  all_goals exact .of_parts h.fits (keep.congr rfl rfl rfl rfl)

theorem queueInv_onDeviceReset (s : State) : QueueInv (onDeviceReset s) :=
  .of_parts (queueFits_empty _) (.of_released rfl rfl (Nat.zero_le 8))

/-- Settles O22: each move keeps the queue to what the sync state allows, and the line's side sound. -/
theorem stepKeepsTheTransmitQueue : Obligations.StepKeepsTheTransmitQueue := by
  refine keeps_of_passes fun s t p h => ?_
  cases p with
  | move m => exact queueInv_of_move m h
  | takes e l _ => exact .of_parts h.fits (h.line.congr rfl rfl rfl rfl)
  | resets => exact queueInv_onDeviceReset s

/-! ### The view -/

theorem ViewInv.congr {s t : State} (h : ViewInv s) (hi : t.image = s.image) (hv : t.view = s.view) :
    ViewInv t where
  adoptedOwn := by rw [hv, own_of_image hi]; exact h.adoptedOwn
  previousOwn := by rw [hv, own_of_image hi]; exact h.previousOwn
  settle := by rw [hv]; exact h.settle
  target := by rw [hv, cfg_of_image hi, own_of_image hi]; exact h.target

/-- A clearing entry leaves the view of a station alone. -/
theorem viewInv_enterClearing (s : State) (x : SyncState) : ViewInv (s.enterClearing x) where
  adoptedOwn := by simp [State.enterClearing, State.own, State.cfg]
  previousOwn := by simp [State.enterClearing, State.own, State.cfg]
  settle := Nat.zero_le 15
  target := rfl

theorem nextSettle_le {s : State} (h : s.view.settle ≤ 15) : s.nextSettle ≤ 15 := by
  unfold State.nextSettle
  split <;> (try split) <;> omega

theorem memberMap_own (s : State) : lists s.memberMap s.own = true :=
  (lists_memberMap s s.own).2 (.inl rfl)

theorem viewInv_boundary {s : State} (h : ViewInv s) : ViewInv s.boundary := by
  constructor <;> simp only [boundary_view, boundary_own, boundary_cfg, State.viewWork]
  · split
    · exact memberMap_own s
    · exact h.adoptedOwn
  · exact memberMap_own s
  · exact nextSettle_le h.settle
  · split
    · rfl
    · exact h.target

theorem viewInv_of_move {s t : State} (m : Move s t) (h : ViewInv s) : ViewInv t := by
  cases m
  case aside k => exact h.congr k.image k.view
  case clears x hs hx hg => exact viewInv_enterClearing s x
  case ends hd => exact viewInv_boundary h
  case counts => rw [onCountTick_eq]; exact h.congr rfl rfl
  case faults c hc => exact h.congr (by simp) (by simp)
  case blocks => exact viewInv_enterClearing _ _
  case starts => exact viewInv_enterClearing _ _
  all_goals exact h.congr rfl rfl

theorem viewInv_onDeviceReset (s : State) : ViewInv (onDeviceReset s) where
  adoptedOwn := lists_ownMap _ _
  previousOwn := lists_ownMap _ _
  settle := Nat.zero_le 15
  target := (slotTarget_alone _ _).symm

/-- Settles O33: clearing entries and boundaries alone write the view. -/
theorem stepKeepsTheView : Obligations.StepKeepsTheView := by
  refine keeps_of_passes fun s t p h => ?_
  cases p with
  | move m => exact viewInv_of_move m h
  | takes e l _ => exact h.congr rfl rfl
  | resets => exact viewInv_onDeviceReset s

/-! ### Gates and faults -/

/-- The generator and the fault record agree (R144, R150, R151, R155, R156): the clauses of `GateInv` that
speak of no permission. -/
structure GateSound (g : Gate) (f : FaultUnit) : Prop where
  driven : (g.hi || g.lo) = true → g.state = .running
  apart : (g.hi && g.lo) = false
  recorded : f.cause ≠ .none ↔ g.state = .tripped
  pinHolds : f.pin = true → g.state = .tripped
  repeats : f.repeats ≤ 15

theorem GateInv.sound {s : State} (h : GateInv s) : GateSound s.gate s.fault :=
  ⟨h.driven, h.apart, h.recorded, h.pinHolds, h.repeats⟩

theorem GateInv.of_parts {s : State}
    (hp : s.seq.permission = permissionRule s.cfg s.seq.sync s.seq.expired)
    (hr : s.gate.state = .running → s.seq.permission = true) (h : GateSound s.gate s.fault) :
    GateInv s := ⟨hp, hr, h.driven, h.apart, h.recorded, h.pinHolds, h.repeats⟩

theorem GateSound.congr {g g' : Gate} {f : FaultUnit} (h : GateSound g f) (hs : g'.state = g.state)
    (hh : g'.hi = g.hi) (hl : g'.lo = g.lo) : GateSound g' f where
  driven := by rw [hs, hh, hl]; exact h.driven
  apart := by rw [hh, hl]; exact h.apart
  recorded := by rw [hs]; exact h.recorded
  pinHolds := by rw [hs]; exact h.pinHolds
  repeats := h.repeats

/-- Where no output is active the two rules on outputs hold of themselves. -/
theorem GateSound.of_idle {g : Gate} {f : FaultUnit} (hh : g.hi = false) (hl : g.lo = false)
    (hr : f.cause ≠ .none ↔ g.state = .tripped) (hp : f.pin = true → g.state = .tripped)
    (hn : f.repeats ≤ 15) : GateSound g f :=
  ⟨fun k => by simp [hh, hl] at k, by simp [hh], hr, hp, hn⟩

/-- Between states that are neither of them TRIPPED the fault record stays empty. -/
theorem GateSound.untripped {g g' : Gate} {f : FaultUnit} (h : GateSound g f)
    (hg : g.state ≠ .tripped) (hg' : g'.state ≠ .tripped) (hh : g'.hi = false) (hl : g'.lo = false) :
    GateSound g' f :=
  .of_idle hh hl ⟨fun k => absurd (h.recorded.1 k) hg, fun k => absurd k hg'⟩
    (fun k => absurd (h.pinHolds k) hg) h.repeats

/-- A generator that does not run drives nothing. -/
theorem GateSound.idle {g : Gate} {f : FaultUnit} (h : GateSound g f) (hr : g.state ≠ .running) :
    g.hi = false ∧ g.lo = false := by
  have := fun k => hr (h.driven k)
  simpa using this

/-! #### Permission withdrawn -/

theorem withdraw_of_running {g : Gate} (h : g.state = .running) :
    g.withdraw = { g with state := .armed, hi := false, lo := false } := if_pos h

theorem withdraw_of_not_running {g : Gate} (h : g.state ≠ .running) : g.withdraw = g := if_neg h

theorem withdraw_not_running (g : Gate) : g.withdraw.state ≠ .running := by
  by_cases h : g.state = .running
  · rw [withdraw_of_running h]; exact GateState.noConfusion
  · rwa [withdraw_of_not_running h]

theorem GateSound.withdraw {g : Gate} {f : FaultUnit} (h : GateSound g f) : GateSound g.withdraw f := by
  by_cases hg : g.state = .running
  · rw [withdraw_of_running hg]
    exact h.untripped (by rw [hg]; exact GateState.noConfusion) GateState.noConfusion rfl rfl
  · rwa [withdraw_of_not_running hg]

/-! #### The outputs of a tick -/

theorem gateOutputs_not_running {cfg : Image} {c pc : Nat} {g : Gate} (h : g.state ≠ .running) :
    gateOutputs cfg c pc g = { g with hi := false, lo := false } := if_neg h

theorem gateOutputs_running {cfg : Image} {c pc : Nat} {g : Gate} (h : g.state = .running) :
    gateOutputs cfg c pc g = { g with
      hi := decide (cfg.deadBand ≤ c ∧ c < g.activeDuty) && !(decide (1 ≤ cfg.deadBand) && g.loPrev)
      lo := decide (g.activeDuty + cfg.deadBand ≤ c ∧ c < pc) &&
        !(decide (1 ≤ cfg.deadBand) && g.hiPrev) } := if_pos h

@[simp] theorem gateOutputs_state (cfg : Image) (c pc : Nat) (g : Gate) :
    (gateOutputs cfg c pc g).state = g.state := by rw [gateOutputs_eq]

/-- HI ends below the active duty and LO begins a dead band above it: no tick has both. -/
theorem GateSound.outputs {g : Gate} {f : FaultUnit} (h : GateSound g f) (cfg : Image) (c pc : Nat) :
    GateSound (gateOutputs cfg c pc g) f := by
  by_cases hg : g.state = .running
  · refine ⟨fun _ => by rw [gateOutputs_state, hg], ?_, ?_, ?_, h.repeats⟩
    · rw [gateOutputs_running hg]
      by_contra k
      simp only [Bool.not_eq_false, Bool.and_eq_true, decide_eq_true_eq] at k
      omega
    · rw [gateOutputs_state]; exact h.recorded
    · rw [gateOutputs_state]; exact h.pinHolds
  · obtain ⟨hh, hl⟩ := h.idle hg
    rw [gateOutputs_not_running hg]
    exact h.congr rfl hh.symm hl.symm

/-! #### Boundaries -/

/-- Permission where no state calls for it: everywhere but in LOCKED and HOLDOVER (R132). -/
theorem permissionRule_none (cfg : Image) {x : SyncState} (e : Bool) (hl : x ≠ .locked)
    (hh : x ≠ .holdover) : permissionRule cfg x e = false := by
  simp [permissionRule, hl, hh]

theorem sequencerWork_permission {s : State}
    (h : s.seq.permission = permissionRule s.cfg s.seq.sync s.seq.expired) :
    s.sequencerWork.permission =
      permissionRule s.cfg s.sequencerWork.sync s.sequencerWork.expired := by
  unfold State.sequencerWork
  split <;> rename_i hs
  case h_1 =>
    rw [h, hs, permissionRule_none _ _ (by simp) (by simp)]
    dsimp only
    split <;> exact (permissionRule_none _ _ (by simp) (by simp)).symm
  case h_2 =>
    split
    · rfl
    · exact h
  case h_3 =>
    split
    · exact (permissionRule_none _ _ (by simp) (by simp)).symm
    · exact h
  case h_4 =>
    split_ifs
    · exact (permissionRule_none _ _ (by simp) (by simp)).symm
    · simp [permissionRule, hs]
    · exact h
  all_goals exact h

theorem GateSound.atBoundary {g : Gate} {f : FaultUnit} (h : GateSound g f) (p : Bool) :
    GateSound (g.atBoundary p) f := by
  have copied : GateSound { g with activeDuty := g.pendingDuty } f := h.congr rfl rfl rfl
  cases p with
  | false => exact copied.withdraw
  | true =>
    by_cases ha : g.state = .armed
    · obtain ⟨hh, hl⟩ := h.idle (by rw [ha]; exact GateState.noConfusion)
      rw [show g.atBoundary true = { g with activeDuty := g.pendingDuty, state := .running } from
        if_pos ha]
      exact h.untripped (by rw [ha]; exact GateState.noConfusion) GateState.noConfusion hh hl
    · rw [show g.atBoundary true = { g with activeDuty := g.pendingDuty } from if_neg ha]
      exact copied

theorem atBoundary_running {g : Gate} {p : Bool} (h : (g.atBoundary p).state = .running) :
    p = true := by
  cases p with
  | true => rfl
  | false => exact absurd h (withdraw_not_running _)

/-! #### Faults -/

theorem GateSound.takeFault {s : State} (h : GateSound s.gate s.fault) {c : FaultCause}
    (hc : c ≠ .none) : GateSound (s.takeFault c).gate (s.takeFault c).fault := by
  by_cases hg : s.gate.state = .tripped
  · rw [takeFault_tripped c hg]
    exact ⟨h.driven, h.apart, h.recorded, h.pinHolds, Nat.min_le_left 15 _⟩
  · rw [takeFault_untripped c hg]
    exact .of_idle rfl rfl (iff_of_true hc rfl) (fun _ => rfl) (Nat.zero_le 15)

/-! #### The invariant -/

/-- An entry that clears withdraws permission; the state it starts from may hold a new image. -/
theorem gateInv_enterClearing {s : State} (h : GateSound s.gate s.fault) {x : SyncState}
    (hx : x.grouped = false) : GateInv (s.enterClearing x) :=
  .of_parts (permissionRule_none _ false (by rintro rfl; cases hx) (by rintro rfl; cases hx)).symm
    (fun k => absurd k (withdraw_not_running s.gate)) h.withdraw

theorem gateInv_enterHoldover {s : State} (h : GateInv s) :
    GateInv s.enterHoldover := by
  have hp : s.enterHoldover.seq.permission =
      permissionRule s.cfg .holdover s.enterHoldover.seq.expired := by
    simp [State.enterHoldover, permissionRule]
  refine .of_parts (by rw [enterHoldover_cfg]; exact hp) ?_ ?_
  · unfold State.enterHoldover
    dsimp only
    split
    · exact fun _ => ‹_›
    · exact fun k => absurd k (withdraw_not_running s.gate)
  · unfold State.enterHoldover
    dsimp only
    split
    · exact h.sound
    · exact h.sound.withdraw

theorem gateInv_boundary {s : State} (h : GateInv s) : GateInv s.boundary := by
  refine .of_parts ?_ ?_ ?_
  · rw [boundary_seq, boundary_cfg]; exact sequencerWork_permission h.permission
  · rw [boundary_gate, gateOutputs_state, boundary_seq]; exact atBoundary_running
  · rw [boundary_gate, boundary_fault]; exact (h.sound.atBoundary _).outputs _ _ _

theorem GateInv.congr {s t : State} (h : GateInv s) (hi : t.image = s.image)
    (hs : { t.seq with listen := 0 } = { s.seq with listen := 0 })
    (hg : { t.gate with hiPrev := false, loPrev := false } =
      { s.gate with hiPrev := false, loPrev := false })
    (hf : t.fault = s.fault) : GateInv t := by
  simp only [Sequencer.mk.injEq, Gate.mk.injEq] at hs hg
  obtain ⟨h1, -, -, h2, h3⟩ := hs
  obtain ⟨g1, -, -, g2, g3, -⟩ := hg
  refine .of_parts ?_ ?_ ?_
  · rw [cfg_of_image hi, h1, h2, h3]; exact h.permission
  · rw [g1, h3]; exact h.permitted
  · rw [hf]; exact h.sound.congr g1 g2 g3

theorem gateInv_onCountTick {s : State} (h : GateInv s) : GateInv (onCountTick s) := by
  unfold onCountTick
  split
  · have ticked : GateSound { s.gate with hiPrev := s.gate.hi, loPrev := s.gate.lo } s.fault :=
      h.sound.congr rfl rfl rfl
    exact .of_parts h.permission (by simpa [State.decideOutputs] using h.permitted)
      (ticked.outputs _ _ _)
  · exact h

theorem gateInv_of_move {s t : State} (m : Move s t) (h : GateInv s) : GateInv t := by
  cases m
  case aside k => exact h.congr k.image k.seq k.gate k.fault
  case clears x hs hx hg => exact gateInv_enterClearing h.sound hg
  case holds hs => exact gateInv_enterHoldover h
  case acquires hs =>
    have hp : s.seq.permission = false := by rw [h.permission, hs]; rfl
    exact .of_parts hp h.permitted h.sound
  case ends hd => exact gateInv_boundary h
  case counts => exact gateInv_onCountTick h
  case decides =>
    exact .of_parts h.permission (by simpa [State.decideOutputs] using h.permitted)
      (h.sound.outputs _ _ _)
  case faults c hc =>
    refine .of_parts (by simpa using h.permission) (fun k => ?_) (h.sound.takeFault hc)
    rw [takeFault_trips] at k; cases k
  case pin b hb =>
    exact .of_parts h.permission h.permitted ⟨h.driven, h.apart, h.recorded, hb, h.repeats⟩
  case arms hg =>
    have hr : s.gate.state ≠ .running := by rw [hg]; exact GateState.noConfusion
    have ht : s.gate.state ≠ .tripped := by rw [hg]; exact GateState.noConfusion
    obtain ⟨hh, hl⟩ := h.sound.idle hr
    exact .of_parts h.permission (fun k => by cases k) (h.sound.untripped ht GateState.noConfusion hh hl)
  case stops hg =>
    have ht : s.gate.state ≠ .tripped := by
      rcases hg with e | e <;> rw [e] <;> exact GateState.noConfusion
    exact .of_parts h.permission (fun k => by cases k)
      (h.sound.untripped ht GateState.noConfusion rfl rfl)
  case clear hg hp =>
    refine .of_parts h.permission (fun k => by cases k) (.of_idle rfl rfl ?_ ?_ (Nat.zero_le 15))
    · exact iff_of_false (fun k => k rfl) GateState.noConfusion
    · exact fun k => by rw [show s.fault.pin = true from k] at hp; cases hp
  case duty v hr => exact .of_parts h.permission h.permitted (h.sound.congr rfl rfl rfl)
  case blocks b r hl hr =>
    exact gateInv_enterClearing (s := { s with loader := ⟨.finished, b⟩ }) (x := .blocked r) h.sound rfl
  case starts b i hl hi =>
    have loaded : GateSound { s.gate with pendingDuty := i.dutyMin, activeDuty := i.dutyMin } s.fault :=
      h.sound.congr rfl rfl rfl
    exact gateInv_enterClearing (x := if i.autoJoin then .listen else .parked) loaded
      (by split <;> rfl)
  all_goals exact h.congr rfl rfl rfl rfl

theorem gateInv_onDeviceReset (s : State) : GateInv (onDeviceReset s) :=
  .of_parts rfl (fun k => by cases k) (.of_idle rfl rfl
    (iff_of_false (fun k => k rfl) GateState.noConfusion) (fun k => by cases k) (Nat.zero_le 15))

theorem gateInv_of_pass {s t : State} (p : Pass s t) (h : GateInv s) : GateInv t := by
  cases p with
  | move m => exact gateInv_of_move m h
  | takes e l _ => exact h.congr rfl rfl rfl rfl
  | resets => exact gateInv_onDeviceReset s

/-- Settles O49: each move keeps the generator within its permission and the fault record with it. -/
theorem stepKeepsGatesAndFaults : Obligations.StepKeepsGatesAndFaults :=
  keeps_of_passes fun _ _ p h => gateInv_of_pass p h

end Sys2Proof.Machine

namespace Sys2Proof.Machine

set_option Elab.async false

/-! ### The coarse capture (R112) -/

/-- A fold that keeps the record of the lowest identity keeps one of its records, and none is lower. -/
theorem foldl_lowest {f : Option ArrivalRecord → ArrivalRecord → Option ArrivalRecord}
    (hf : ∀ b r, f (some b) r = if r.sender < b.sender then some r else some b)
    (l : List ArrivalRecord) {b c : ArrivalRecord} (h : l.foldl f (some b) = some c) :
    (c = b ∨ c ∈ l) ∧ c.sender ≤ b.sender ∧ ∀ x ∈ l, c.sender ≤ x.sender := by
  induction l generalizing b with
  | nil =>
    obtain rfl := Option.some.inj h
    exact ⟨.inl rfl, le_refl _, fun x hx => absurd hx List.not_mem_nil⟩
  | cons y l ih =>
    rw [List.foldl_cons, hf] at h
    split at h <;> rename_i hy
    · obtain ⟨hm, hc, hl⟩ := ih h
      refine ⟨.inr ?_, hc.trans hy.le, List.forall_mem_cons.2 ⟨hc, hl⟩⟩
      rcases hm with rfl | hm
      · exact List.mem_cons_self
      · exact List.mem_cons_of_mem y hm
    · obtain ⟨hm, hc, hl⟩ := ih h
      exact ⟨hm.imp_right (List.mem_cons_of_mem y), hc,
        List.forall_mem_cons.2 ⟨hc.trans (not_lt.1 hy), hl⟩⟩

/-- The record of a coarse capture is the usable one of a LOCKED sender with the lowest identity. -/
theorem captureReference_spec {log : List ArrivalRecord} {c : ArrivalRecord}
    (h : captureReference log = some c) : c ∈ log ∧ c.usable = true ∧ c.state = .locked ∧
      ∀ x ∈ log, x.usable = true → x.state = .locked → c.sender ≤ x.sender := by
  have fits (x : ArrivalRecord) : x ∈ log.filter (fun r => r.usable && r.state == .locked) ↔
      x ∈ log ∧ x.usable = true ∧ x.state = .locked := by simp
  unfold captureReference at h
  generalize log.filter (fun r => r.usable && r.state == .locked) = l at h fits
  cases l with
  | nil => cases h
  | cons y l =>
    rw [List.foldl_cons] at h
    obtain ⟨hm, hc, hl⟩ := foldl_lowest (fun _ _ => rfl) l h
    obtain ⟨h1, h2, h3⟩ := (fits c).1 (by
      rcases hm with rfl | hm
      · exact List.mem_cons_self
      · exact List.mem_cons_of_mem y hm)
    refine ⟨h1, h2, h3, fun x hx hu hs => ?_⟩
    rcases List.mem_cons.1 ((fits x).2 ⟨hx, hu, hs⟩) with rfl | hx
    · exact hc
    · exact hl x hx

theorem capture_eq {s : State} (hs : s.seq.sync = .acquire) (hd : s.servo.captureDone = false) :
    s.capture = captureReference s.log := if_pos ⟨hs, hd⟩

theorem mem_log_of_capture {s : State} {r : ArrivalRecord} (h : s.capture = some r) : r ∈ s.log := by
  unfold State.capture at h
  split_ifs at h
  exact (captureReference_spec h).1

/-! ### The steps of a boundary -/

/-- The phase step of a boundary with a capture is its record's error, and else within AcqStep in ACQUIRE,
FineStep in LOCKED, and 0 elsewhere (R111, R112). -/
theorem phaseStep_acquire_capture {s : State} {r : ArrivalRecord} (hs : s.seq.sync = .acquire)
    (hc : s.capture = some r) : s.phaseStep = r.error := by
  simp [State.phaseStep, hs, hc]

theorem phaseStep_acquire {s : State} (hs : s.seq.sync = .acquire) (hc : s.capture = none) :
    s.phaseStep = clampTo s.cfg.acqStep (meanError s.log) := by
  simp [State.phaseStep, hs, hc]

theorem phaseStep_locked {s : State} (hs : s.seq.sync = .locked) :
    s.phaseStep = clampTo s.cfg.fineStep (meanError s.log) := by
  simp [State.phaseStep, hs]

theorem phaseStep_idle {s : State} (ha : s.seq.sync ≠ .acquire) (hl : s.seq.sync ≠ .locked) :
    s.phaseStep = 0 := by
  unfold State.phaseStep
  split <;> first | rfl | contradiction

/-- A boundary without a capture steps the phase by a sixteenth of a period at most. -/
theorem phaseStep_small {s : State} (hi : LegalImage s.cfg) (hc : s.capture = none) :
    16 * s.phaseStep.natAbs ≤ s.cfg.period := by
  obtain ⟨-, -, -, -, -, hacq, hfine, -⟩ := hi
  by_cases ha : s.seq.sync = .acquire
  · rw [phaseStep_acquire ha hc]
    have := clampTo_natAbs s.cfg.acqStep (meanError s.log)
    omega
  by_cases hl : s.seq.sync = .locked
  · rw [phaseStep_locked hl]
    have := clampTo_natAbs s.cfg.fineStep (meanError s.log)
    omega
  rw [phaseStep_idle ha hl]
  simp

/-- Every phase step is in the range of a wrapped difference. -/
theorem phaseStep_range {s : State} (hi : LegalImage s.cfg) (hl : logInRange s.cfg.period s.log) :
    -(s.cfg.period : Int) ≤ 2 * s.phaseStep ∧ 2 * s.phaseStep < s.cfg.period := by
  cases hc : s.capture with
  | none =>
    have := phaseStep_small hi hc
    have := hi.periodLow
    omega
  | some r =>
    have ha : s.seq.sync = .acquire := by
      unfold State.capture at hc
      split_ifs at hc with k
      exact k.1
    rw [phaseStep_acquire_capture ha hc]
    exact hl r (mem_log_of_capture hc)

theorem slotStep_natAbs_le (s : State) : s.slotStep.natAbs ≤ s.cfg.slotStep := by
  unfold State.slotStep
  split
  · exact clampTo_natAbs _ _
  · simp

theorem dvd_sub_reduce {p : Nat} (hp : 0 < p) (x : Int) : (p : Int) ∣ x - reduce p x := by
  have h := Int.emod_add_mul_ediv x p
  have e := reduce_cast hp x
  exact ⟨x / p, by omega⟩

/-! ### Group time -/

/-- The clauses of `TimingInv` on trim, integrator and accumulator. -/
structure TrimSound (cfg : Image) (c : Carrier) (v : Servo) : Prop where
  fraction : c.acc < 65536
  trim : v.trim.natAbs ≤ cfg.trimMax
  integ : v.integ.natAbs ≤ cfg.trimMax

/-- The clauses of `TimingInv` on the carrier while it runs (R4, R7, R8). -/
structure CarrierSound (p : Nat) (c : Carrier) : Prop where
  phase : c.g < p
  offset : c.o < p
  steps : c.stepTotal < p
  counter : 1 ≤ c.pc ∧ c.c ≤ c.pc + 1
  relation : (c.g + c.pc) % p = (c.o + c.c) % p

theorem TimingInv.trims {s : State} (h : TimingInv s) : TrimSound s.cfg s.carrier s.servo :=
  ⟨h.fraction, h.trim, h.integ⟩

theorem TimingInv.runs {s : State} (h : TimingInv s) (hr : s.seq.sync.runs = true) :
    CarrierSound s.cfg.period s.carrier :=
  ⟨h.phase hr, h.offset hr, h.steps hr, h.counter hr, h.relation hr⟩

theorem TimingInv.of_parts {s : State} (hc : ConfigInv s) (ht : TrimSound s.cfg s.carrier s.servo)
    (hr : s.seq.sync.runs = true → CarrierSound s.cfg.period s.carrier)
    (hl : s.seq.sync.runs = true → logInRange s.cfg.period s.log) : TimingInv s :=
  ⟨hc, fun k => (hr k).phase, fun k => (hr k).offset, fun k => (hr k).steps, ht.fraction, ht.trim,
    ht.integ, hl, fun k => (hr k).counter, fun k => (hr k).relation⟩

/-- What the carrier holds but SYNC. -/
theorem CarrierSound.congr {p : Nat} {c d : Carrier} (h : CarrierSound p c) (hg : d.g = c.g)
    (ho : d.o = c.o) (hc : d.c = c.c) (hp : d.pc = c.pc) (ht : d.stepTotal = c.stepTotal) :
    CarrierSound p d :=
  ⟨hg ▸ h.phase, ho ▸ h.offset, ht ▸ h.steps, by rw [hc, hp]; exact h.counter,
    by rw [hg, ho, hc, hp]; exact h.relation⟩

/-- A state with the carrier, the trims, the log and the sync state of a sound one. -/
theorem TimingInv.congr {s t : State} (h : TimingInv s) (hc : ConfigInv t) (hi : t.image = s.image)
    (hs : t.seq.sync.runs = s.seq.sync.runs)
    (hk : { t.carrier with sync := false, syncAge := 0 } =
      { s.carrier with sync := false, syncAge := 0 })
    (ht : t.servo.trim = s.servo.trim) (hn : t.servo.integ = s.servo.integ)
    (hl : t.log = s.log) : TimingInv t := by
  obtain ⟨g, acc, o, c, pc, -, total, -⟩ := Carrier.mk.inj hk
  have e := cfg_of_image hi
  refine .of_parts hc ⟨acc ▸ h.fraction, by rw [ht, e]; exact h.trim, by rw [hn, e]; exact h.integ⟩
    (fun k => ?_) (fun k => ?_)
  · rw [e]
    exact (h.runs (hs ▸ k)).congr g o c pc total
  · rw [e, hl]; exact h.errors (hs ▸ k)

/-- Trims and accumulator at 0. -/
theorem trimSound_zero (cfg : Image) {c : Carrier} {v : Servo} (hc : c.acc = 0) (ht : v.trim = 0)
    (hn : v.integ = 0) : TrimSound cfg c v :=
  ⟨by omega, by simp [ht], by simp [hn]⟩

/-- A clearing entry keeps the carrier of a station that ran. -/
theorem timingInv_enterClearing {s : State} {x : SyncState} (hc : ConfigInv (s.enterClearing x))
    (h : x.runs = true → CarrierSound s.cfg.period s.carrier) : TimingInv (s.enterClearing x) :=
  .of_parts hc (trimSound_zero _ rfl rfl rfl) (fun k => (h k).congr rfl rfl rfl rfl rfl)
    fun _ _ hr => absurd hr List.not_mem_nil

theorem timingInv_onCountTick {s : State} (h : TimingInv s) (hc : ConfigInv (onCountTick s)) :
    TimingInv (onCountTick s) := by
  by_cases hk : s.seq.sync.runs = true ∧ s.carrier.c < s.carrier.pc
  · obtain ⟨hr, hlt⟩ := hk
    obtain ⟨hn, ha, -⟩ := countsOf_spec (h.trim.trans h.config.trimMax_le) h.fraction
    have hp := (h.config.legalImage hr).periodLow
    have old := h.runs hr
    have sound : CarrierSound s.cfg.period { s.carrier with
        g := (s.carrier.g + (countsOf s.servo.trim s.carrier.acc).1) % s.cfg.period
        c := s.carrier.c + (countsOf s.servo.trim s.carrier.acc).1
        acc := (countsOf s.servo.trim s.carrier.acc).2 } := by
      refine ⟨Nat.mod_lt _ (by omega), old.offset, old.steps, ⟨old.counter.1, ?_⟩, ?_⟩
      · dsimp only; omega
      · dsimp only
        rw [Nat.mod_add_mod, Nat.add_right_comm, ← Nat.add_assoc]
        exact Nat.ModEq.add_right _ old.relation
    have e := onCountTick_carrier hr hlt
    have rest := onCountTick_eq s
    have hcfg : (onCountTick s).cfg = s.cfg := cfg_of_image (by rw [rest])
    refine .of_parts hc ⟨?_, ?_, ?_⟩ (fun _ => ?_) (fun _ => ?_)
    · rw [e]; exact ha
    · rw [hcfg, rest]; exact h.trim
    · rw [hcfg, rest]; exact h.integ
    · rw [hcfg, e]; exact sound
    · rw [hcfg, rest]; exact h.errors hr
  · rwa [onCountTick, if_neg (by simpa using hk)]

theorem nextInteg_natAbs (cfg : Image) (x e : Int) : (nextInteg cfg x e).natAbs ≤ cfg.trimMax :=
  clampTo_natAbs _ _

theorem nextTrim_natAbs (cfg : Image) (x e : Int) : (nextTrim cfg x e).natAbs ≤ cfg.trimMax :=
  clampTo_natAbs _ _

theorem entered_trim (v : Servo) (x y : SyncState) :
    (v.entered x y).trim = v.trim ∧ (v.entered x y).integ = v.integ := by
  unfold Servo.entered
  split <;> exact ⟨rfl, rfl⟩

theorem servoWork_trims {s : State} (ht : s.servo.trim.natAbs ≤ s.cfg.trimMax)
    (hn : s.servo.integ.natAbs ≤ s.cfg.trimMax) :
    s.servoWork.trim.natAbs ≤ s.cfg.trimMax ∧ s.servoWork.integ.natAbs ≤ s.cfg.trimMax := by
  unfold State.servoWork
  dsimp only
  split
  · split
    · exact ⟨ht, hn⟩
    · exact ⟨nextTrim_natAbs _ _ _, nextInteg_natAbs _ _ _⟩
  · exact ⟨nextTrim_natAbs _ _ _, nextInteg_natAbs _ _ _⟩
  all_goals exact ⟨ht, hn⟩

/-- The length that a boundary gives the cycle it begins (R9, R10). -/
theorem boundary_length {s : State} (hi : LegalImage s.cfg) (hl : logInRange s.cfg.period s.log) :
    (s.boundary.carrier.pc : Int) = s.cfg.period - s.phaseStep + s.slotStep := by
  obtain ⟨-, hu⟩ := phaseStep_range hi hl
  have := slotStep_natAbs_le s
  have := hi.slotStep
  have := hi.periodLow
  rw [boundary_carrier]
  exact Int.toNat_of_nonneg (by omega)

/-- The relation of R7 over a boundary: both sides gain the slot step, and the left a period. -/
theorem carrierSound_boundary {s : State} (hi : LegalImage s.cfg)
    (hl : logInRange s.cfg.period s.log) (h : CarrierSound s.cfg.period s.carrier)
    (hd : s.carrier.pc ≤ s.carrier.c) : CarrierSound s.cfg.period s.boundary.carrier := by
  have hp : 0 < s.cfg.period := by have := hi.periodLow; omega
  have length := boundary_length hi hl
  obtain ⟨-, hu⟩ := phaseStep_range hi hl
  have hslot := slotStep_natAbs_le s
  have hbound := hi.slotStep
  have hlow := hi.periodLow
  obtain ⟨hpc, hcc⟩ := h.counter
  refine ⟨?_, ?_, ?_, ⟨by omega, ?_⟩, ?_⟩
  · rw [boundary_carrier]; exact reduce_lt hp _
  · rw [boundary_carrier]; exact reduce_lt hp _
  · rw [boundary_carrier]; exact reduce_lt hp _
  · rw [boundary_carrier] at length ⊢; dsimp only at length ⊢; omega
  · have hc : (s.boundary.carrier.c : Int) = s.carrier.c - s.carrier.pc := by
      rw [boundary_carrier]; exact Int.ofNat_sub hd
    obtain ⟨a, ha⟩ : (s.cfg.period : Int) ∣ (s.carrier.g + s.phaseStep) - s.boundary.carrier.g := by
      rw [boundary_carrier]; exact dvd_sub_reduce hp _
    obtain ⟨b, hb⟩ : (s.cfg.period : Int) ∣ (s.carrier.o + s.slotStep) - s.boundary.carrier.o := by
      rw [boundary_carrier]; exact dvd_sub_reduce hp _
    obtain ⟨k, hk⟩ := Nat.modEq_iff_dvd.1 (show _ ≡ _ [MOD s.cfg.period] from h.relation)
    push_cast at hk
    refine Nat.modEq_iff_dvd.2 ⟨k + a - b - 1, ?_⟩
    push_cast
    rw [hc, length]
    linear_combination hk + ha - hb

theorem timingInv_boundary {s : State} (h : TimingInv s) (hd : s.boundaryDue = true)
    (hc : ConfigInv s.boundary) : TimingInv s.boundary := by
  obtain ⟨hr, hle⟩ := (boundaryDue_iff s).1 hd
  obtain ⟨ht, hn⟩ := servoWork_trims h.trim h.integ
  obtain ⟨et, en⟩ := entered_trim s.servoWork s.seq.sync s.sequencerWork.sync
  refine .of_parts hc ⟨?_, ?_, ?_⟩ (fun _ => ?_) (fun _ => ?_)
  · rw [boundary_carrier]; exact h.fraction
  · rw [boundary_servo, boundary_cfg, et]; exact ht
  · rw [boundary_servo, boundary_cfg, en]; exact hn
  · rw [boundary_cfg]
    exact carrierSound_boundary (h.config.legalImage hr) (h.errors hr) (h.runs hr) hle
  · rw [boundary_log]; exact fun _ hx => absurd hx List.not_mem_nil

theorem logInRange_storeRecord {p : Nat} {log : List ArrivalRecord} (h : logInRange p log)
    {r : ArrivalRecord} (hr : -(p : Int) ≤ 2 * r.error ∧ 2 * r.error < p) :
    logInRange p (storeRecord log r) := by
  intro x hx
  rcases mem_storeRecord hx with rfl | hx
  · exact hr
  · exact h x hx

theorem timingInv_of_move {s t : State} (m : Move s t) (h : TimingInv s) : TimingInv t := by
  have hc := configInv_of_move m h.config
  cases m
  case aside k =>
    exact h.congr hc k.image (by rw [k.sync]) k.carrier (by rw [k.servo]) (by rw [k.servo]) k.log
  case clears x hs hx hg => exact timingInv_enterClearing hc fun _ => h.runs hs
  case holds hs => exact h.congr hc rfl (by rw [hs]; rfl) rfl rfl rfl rfl
  case acquires hs => exact h.congr hc rfl (by rw [hs]; rfl) rfl rfl rfl rfl
  case counts => exact timingInv_onCountTick h hc
  case ends hd => exact timingInv_boundary h hd hc
  case faults c hn =>
    exact h.congr hc (by simp) (by simp) (by simp) (by simp) (by simp) (by simp)
  case beacon i p ph a m st ha hi after e =>
    have hr := runs_of_actsOnPeers ha
    have hp : 0 < s.cfg.period := by have := (h.config.legalImage hr).periodLow; omega
    exact .of_parts hc h.trims h.runs fun _ =>
      logInRange_storeRecord (h.errors hr) (wrapped_range hp _)
  case blocks b r hl hr =>
    refine timingInv_enterClearing hc fun k => ?_
    cases r
    case idConflict => exact absurd rfl hr
    all_goals cases k
  case starts b i hl hi =>
    have hp := (legalImage_of_legal hi).periodLow
    refine timingInv_enterClearing hc fun _ => ?_
    have e (q : 0 < i.period) : CarrierSound i.period ⟨0, 0, 0, 0, i.period, 0, 0, false, 0⟩ :=
      ⟨q, q, q, ⟨q, Nat.zero_le _⟩, by simp⟩
    exact e (by omega)
  all_goals exact h.congr hc rfl rfl rfl rfl rfl rfl

theorem timingInv_onDeviceReset (s : State) : TimingInv (onDeviceReset s) :=
  .of_parts (configInv_onDeviceReset s) (trimSound_zero _ rfl rfl rfl) (fun k => (by cases k))
    (fun k => (by cases k))

theorem timingInv_of_pass {s t : State} (p : Pass s t) (h : TimingInv s) : TimingInv t := by
  cases p with
  | move m => exact timingInv_of_move m h
  | takes e l k => exact h.congr (configInv_of_pass (.takes s e l k) h.config) rfl rfl rfl rfl rfl rfl
  | resets => exact timingInv_onDeviceReset s

/-- Settles O10: the counts of a tick add the same to both sides of the relation, a boundary the slot step
to both and a period to one, and nothing else writes the carrier of a running station. -/
theorem stepKeepsGroupTime : Obligations.StepKeepsGroupTime :=
  keeps_of_passes fun _ _ p h => timingInv_of_pass p h

end Sys2Proof.Machine

namespace Sys2Proof.Machine

set_option Elab.async false

/-! ### The roster and the arrival log -/

theorem set_get (v : Vector RosterEntry 16) (i j : Identity) (e : RosterEntry) :
    (v.set i.val e)[j] = if j = i then e else v[j] := by
  simp only [Fin.getElem_fin, Vector.getElem_set, Fin.ext_iff, eq_comm]

/-- The entries fit the sync state and the own identity: what `RosterInv` says of the roster. -/
structure RosterFits (own : Identity) (limit : Nat) (x : SyncState) (v : Vector RosterEntry 16) :
    Prop where
  self : ∀ i : Identity, v[i].presence = .self ↔ i = own
  entries : x.runs = true → ∀ i : Identity, EntryInv limit v[i]
  members : x.grouped = false → ∀ i : Identity, v[i].presence ≠ .member
  cleared : x.actsOnPeers = false → v = clearedRoster own

/-- At most one record a sender, and none of the station's own (R62). -/
structure LogFits (own : Identity) (log : List ArrivalRecord) : Prop where
  senders : (log.map ArrivalRecord.sender).Nodup
  foreign : ∀ r ∈ log, r.sender ≠ own

theorem RosterInv.fits {s : State} (h : RosterInv s) :
    RosterFits s.own s.cfg.staleLimit s.seq.sync s.roster :=
  ⟨h.self, h.entries, h.members, h.cleared⟩

theorem RosterInv.log {s : State} (h : RosterInv s) : LogFits s.own s.log := ⟨h.senders, h.foreign⟩

theorem RosterInv.of_parts {s : State} (hc : ConfigInv s)
    (hr : RosterFits s.own s.cfg.staleLimit s.seq.sync s.roster) (hl : LogFits s.own s.log) :
    RosterInv s :=
  ⟨hc, hr.self, hr.entries, hr.members, hr.cleared, hl.senders, hl.foreign⟩

theorem logFits_nil (own : Identity) : LogFits own [] :=
  ⟨List.nodup_nil, fun _ h => absurd h List.not_mem_nil⟩

theorem entryInv_absent (limit : Nat) : EntryInv limit RosterEntry.absent where
  absent := fun _ => rfl
  member := fun k => (by cases k)
  misses := fun k => (by rcases k with k | k <;> cases k)

theorem rosterFits_cleared (own : Identity) (limit : Nat) (x : SyncState) :
    RosterFits own limit x (clearedRoster own) where
  self := fun i => by
    rw [clearedRoster_get]
    split <;> simp_all [RosterEntry.self, RosterEntry.absent]
  entries := fun _ i => by
    rw [clearedRoster_get]
    split
    · exact ⟨fun k => (by cases k), fun k => (by cases k), fun k => (by rcases k with k | k <;> cases k)⟩
    · exact entryInv_absent limit
  members := fun _ i => by
    rw [clearedRoster_get]
    split <;> exact Presence.noConfusion
  cleared := fun _ => rfl

/-- The rules on a roster are not touched by a move between sync states that keep the same entries. -/
theorem RosterFits.moved {own : Identity} {limit : Nat} {x y : SyncState} {v : Vector RosterEntry 16}
    (h : RosterFits own limit x v) (hr : x.runs = true) (hg : y.grouped = false → x.grouped = false)
    (ha : y.actsOnPeers = false → x.actsOnPeers = false) : RosterFits own limit y v :=
  ⟨h.self, fun _ => h.entries hr, fun k => h.members (hg k), fun k => h.cleared (ha k)⟩

/-- A peer's entry replaced by one that fits. -/
theorem RosterFits.set {own : Identity} {limit : Nat} {x : SyncState} {v : Vector RosterEntry 16}
    (h : RosterFits own limit x v) (ha : x.actsOnPeers = true) {i : Identity} (hi : i ≠ own)
    {e : RosterEntry} (hs : e.presence ≠ .self) (he : EntryInv limit e)
    (hm : x.grouped = false → e.presence ≠ .member) : RosterFits own limit x (v.set i.val e) where
  self := fun j => by
    rw [set_get]
    split
    · rename_i hj
      exact iff_of_false hs fun k => hi (hj ▸ k)
    · exact h.self j
  entries := fun hr j => by
    rw [set_get]
    split
    · exact he
    · exact h.entries hr j
  members := fun hg j => by
    rw [set_get]
    split
    · exact hm hg
    · exact h.members hg j
  cleared := fun k => by rw [ha] at k; cases k

theorem onHeard_eq_member {p : Presence} : p.onHeard = .member ↔ p = .member := by
  cases p <;> simp [Presence.onHeard]

theorem onHeard_ne_self {p : Presence} (h : p ≠ .self) : p.onHeard ≠ .self := by
  cases p <;> simp_all [Presence.onHeard]

theorem onHeard_ne_absent (p : Presence) : p.onHeard ≠ .absent := by
  cases p <;> exact Presence.noConfusion

theorem onBeacon_heard_or_member {p : Presence} (x : SyncState) (b : Bool) (h : p ≠ .self) :
    p.onBeacon x b = .heard ∨ p.onBeacon x b = .member := by
  cases p
  case self => exact absurd rfl h
  all_goals
    simp only [Presence.onBeacon]
    split <;> simp

theorem onBeacon_ungrouped {p : Presence} {x : SyncState} (b : Bool) (hx : x.grouped = false)
    (hp : p ≠ .member) : p.onBeacon x b ≠ .member := by
  cases p <;> simp_all [Presence.onBeacon]

/-- An entry that a CLAIM or a FAULT has marked. -/
theorem EntryInv.heard {limit : Nat} {e : RosterEntry} (h : EntryInv limit e) (hl : 0 < limit) :
    EntryInv limit { e.touch with presence := e.presence.onHeard } where
  absent := fun k => absurd k (onHeard_ne_absent e.presence)
  member := fun k => h.member (onHeard_eq_member.1 k)
  misses := fun _ => hl

/-- An entry after a boundary: it is absent with all its fields, or keeps its presence and its last
beacon and its miss count is still below the limit (R80, R81). -/
theorem missed_cases (limit : Nat) (e : RosterEntry) :
    e.missed limit = RosterEntry.absent ∧ (e.presence = .heard ∨ e.presence = .member) ∨
      (e.missed limit).presence = e.presence ∧ (e.missed limit).last = e.last ∧
        (e.missed limit = { e with flag := false } ∨ (e.missed limit).misses < limit) := by
  rw [missed_eq]
  split_ifs with h1 h2
  · exact .inl ⟨rfl, h1.1⟩
  · exact .inr ⟨rfl, rfl, .inr (by dsimp only; omega)⟩
  · exact .inr ⟨rfl, rfl, .inl rfl⟩

/-- An entry whose flag is cleared. -/
theorem EntryInv.unflag {limit : Nat} {e : RosterEntry} (h : EntryInv limit e) :
    EntryInv limit { e with flag := false } where
  absent := fun k => by rw [h.absent k]; rfl
  member := h.member
  misses := h.misses

theorem EntryInv.missed {limit : Nat} {e : RosterEntry} (h : EntryInv limit e) :
    EntryInv limit (e.missed limit) := by
  rcases missed_cases limit e with ⟨k, -⟩ | ⟨hp, hl, hm | hm⟩
  · rw [k]; exact entryInv_absent limit
  · rw [hm]; exact h.unflag
  · by_cases ha : e.presence = .absent
    · rw [h.absent ha] at hm ⊢
      have e : RosterEntry.absent.missed limit = RosterEntry.absent := by
        rw [missed_eq]; simp [RosterEntry.absent]
      rw [e]; exact entryInv_absent limit
    · exact ⟨fun k => absurd (hp ▸ k) ha, fun k => hl ▸ h.member (hp ▸ k), fun _ => hm⟩

theorem missed_presence {limit : Nat} {e : RosterEntry} {p : Presence} (hp : p ≠ .absent)
    (h : (e.missed limit).presence = p) : e.presence = p := by
  rcases missed_cases limit e with ⟨k, -⟩ | ⟨k, -⟩
  · rw [k] at h; exact absurd h.symm hp
  · exact k ▸ h

/-- A map over the entries that keeps each one sound and gives no presence but ABSENT afresh. -/
theorem RosterFits.map {own : Identity} {limit : Nat} {x : SyncState} {v : Vector RosterEntry 16}
    (h : RosterFits own limit x v) (ha : x.actsOnPeers = true) (f : RosterEntry → RosterEntry)
    (he : ∀ e, EntryInv limit e → EntryInv limit (f e))
    (hs : ∀ e, (f e).presence = .self ↔ e.presence = .self)
    (hm : ∀ e, (f e).presence = .member → e.presence = .member) : RosterFits own limit x (v.map f) := by
  have get (i : Identity) : (v.map f)[i] = f v[i] := by simp [Fin.getElem_fin]
  refine ⟨fun i => ?_, fun hr i => ?_, fun hg i k => ?_, fun k => ?_⟩
  · rw [get, hs, h.self]
  · rw [get]; exact he _ (h.entries hr i)
  · rw [get] at k; exact h.members hg i (hm _ k)
  · rw [ha] at k; cases k

theorem actsOnPeers_of_countsMisses {x : SyncState} (h : x.countsMisses = true) :
    x.actsOnPeers = true := by
  cases x <;> first | rfl | cases h

theorem rosterFits_rosterWork {s : State} (h : RosterFits s.own s.cfg.staleLimit s.seq.sync s.roster) :
    RosterFits s.own s.cfg.staleLimit s.seq.sync s.rosterWork := by
  unfold State.rosterWork
  split_ifs with hc hh
  · refine h.map (actsOnPeers_of_countsMisses hc) _ (fun e => EntryInv.missed) (fun e => ?_) (fun e => ?_)
    · refine ⟨missed_presence Presence.noConfusion, fun k => ?_⟩
      rw [missed_eq]
      simp [k]
    · exact missed_presence Presence.noConfusion
  · exact h.map (by rw [hh]; rfl) _ (fun e => EntryInv.unflag) (fun _ => Iff.rfl) (fun _ => id)
  · exact h

/-- A boundary takes no station out of the states that act on peers, or group. -/
theorem rosterFits_boundary {s : State} (h : RosterFits s.own s.cfg.staleLimit s.seq.sync s.roster)
    (hr : s.seq.sync.runs = true) :
    RosterFits s.own s.cfg.staleLimit s.sequencerWork.sync s.rosterWork := by
  have work := rosterFits_rosterWork h
  by_cases hg : s.seq.sync.grouped = true
  · have after := sequencerWork_grouped hg
    have acts {x : SyncState} (k : x.grouped = true) : x.actsOnPeers = true := by
      cases x <;> first | rfl | cases k
    refine work.moved hr (fun k => ?_) (fun k => ?_)
    · rw [after] at k; cases k
    · rw [acts after] at k; cases k
  · rw [sequencerWork_ungrouped (by simpa using hg)]
    split
    · rename_i hj
      rw [reachesJoin_listen hj] at work
      exact work.moved rfl (fun _ => rfl) (fun k => (by cases k))
    · exact work

theorem LogFits.store {own : Identity} {log : List ArrivalRecord} (h : LogFits own log)
    {r : ArrivalRecord} (hr : r.sender ≠ own) : LogFits own (storeRecord log r) where
  senders := by
    rw [storeRecord_senders]
    split
    · exact h.senders
    · rename_i k
      exact h.senders.append (List.nodup_singleton _) (by simpa using k)
  foreign := fun x hx => by
    rcases mem_storeRecord hx with rfl | hx
    · exact hr
    · exact h.foreign x hx

theorem RosterInv.congr {s t : State} (h : RosterInv s) (hc : ConfigInv t) (hi : t.image = s.image)
    (hs : t.seq.sync = s.seq.sync) (hr : t.roster = s.roster) (hl : t.log = s.log) : RosterInv t :=
  .of_parts hc (by rw [own_of_image hi, cfg_of_image hi, hs, hr]; exact h.fits)
    (by rw [own_of_image hi, hl]; exact h.log)

theorem rosterInv_of_move {s t : State} (m : Move s t) (h : RosterInv s) : RosterInv t := by
  have hc := configInv_of_move m h.config
  have peer {i : Identity} (hi : i ≠ s.own) : s.roster[i].presence ≠ .self :=
    fun k => hi ((h.self i).1 k)
  have limit (hr : s.seq.sync.actsOnPeers = true) : 0 < s.cfg.staleLimit := by
    have := (h.config.legalImage (runs_of_actsOnPeers hr)).stale
    omega
  cases m
  case aside k => exact h.congr hc k.image k.sync k.roster k.log
  case clears x hs hx hg => exact .of_parts hc (rosterFits_cleared _ _ _) (logFits_nil _)
  case holds hs =>
    exact .of_parts hc (h.fits.moved (by rw [hs]; rfl) (fun k => (by cases k)) (fun k => (by cases k))) h.log
  case acquires hs =>
    exact .of_parts hc (h.fits.moved (by rw [hs]; rfl) (fun k => (by cases k)) (fun k => (by cases k))) h.log
  case ends hd =>
    refine .of_parts hc ?_ (by rw [boundary_log]; exact logFits_nil _)
    rw [boundary_own, boundary_cfg, boundary_seq, boundary_roster]
    exact rosterFits_boundary h.fits ((boundaryDue_iff s).1 hd).1
  case counts =>
    have e := onCountTick_eq s
    exact h.congr hc (by rw [e]) (by rw [e]) (by rw [e]) (by rw [e])
  case faults c hn => exact h.congr hc (by simp) (by simp) (by simp) (by simp)
  case hears i ha hi =>
    refine .of_parts hc (h.fits.set ha hi (onHeard_ne_self (peer hi)) ?_ fun hg k => ?_) h.log
    · exact (h.entries (runs_of_actsOnPeers ha) i).heard (limit ha)
    · exact h.members hg i (onHeard_eq_member.1 k)
  case leaves i ha hi =>
    exact .of_parts hc (h.fits.set ha hi Presence.noConfusion (entryInv_absent _)
      fun _ => Presence.noConfusion) h.log
  case beacon i p ph a m st ha hi after e =>
    have graded := onBeacon_heard_or_member s.seq.sync (lists a s.own) (peer hi)
    rw [← e] at graded
    refine .of_parts hc (h.fits.set ha hi ?_ ⟨?_, fun _ => rfl, fun _ => limit ha⟩ fun hg => ?_)
      (h.log.store hi)
    · rcases graded with k | k <;> simp [k]
    · rcases graded with k | k <;> simp [k]
    · rw [show (_ : RosterEntry).presence = after from rfl, e]
      exact onBeacon_ungrouped _ hg (h.members hg i)
  case blocks => exact .of_parts hc (rosterFits_cleared _ _ _) (logFits_nil _)
  case starts => exact .of_parts hc (rosterFits_cleared _ _ _) (logFits_nil _)
  all_goals exact h.congr hc rfl rfl rfl rfl

theorem rosterInv_onDeviceReset (s : State) : RosterInv (onDeviceReset s) :=
  .of_parts (configInv_onDeviceReset s) (rosterFits_cleared _ _ _) (logFits_nil _)

/-- Settles O28: deliveries replace a peer's entry by a sound one, boundaries count its misses, and the
entries that clear leave SELF alone. -/
theorem stepKeepsTheRoster : Obligations.StepKeepsTheRoster := by
  refine keeps_of_passes fun s t p h => ?_
  cases p with
  | move m => exact rosterInv_of_move m h
  | takes e l k => exact h.congr (configInv_of_pass (.takes s e l k) h.config) rfl rfl rfl rfl
  | resets => exact rosterInv_onDeviceReset s

/-! ### Cycles under RUNNING -/

/-- The duties lie in their limits (R148). -/
structure DutiesFit (cfg : Image) (g : Gate) : Prop where
  pending : cfg.dutyMin ≤ g.pendingDuty ∧ g.pendingDuty ≤ cfg.dutyMax
  active : cfg.dutyMin ≤ g.activeDuty ∧ g.activeDuty ≤ cfg.dutyMax

/-- A cycle long enough for the active duty and a dead band, within an eighth of a period (R152). -/
structure LengthFits (cfg : Image) (pc : Nat) (g : Gate) : Prop where
  low : 7 * cfg.period ≤ 8 * pc
  high : 8 * pc ≤ 9 * cfg.period
  room : g.activeDuty + cfg.deadBand ≤ pc

theorem RunningInv.duties {s : State} (h : RunningInv s) (hr : s.seq.sync.runs = true) :
    DutiesFit s.cfg s.gate := ⟨h.pending hr, h.active hr⟩

theorem RunningInv.fits {s : State} (h : RunningInv s) (hr : s.gate.state = .running) :
    LengthFits s.cfg s.carrier.pc s.gate :=
  ⟨(h.length hr).1, (h.length hr).2.1, (h.length hr).2.2⟩

theorem RunningInv.of_parts {s : State} (ht : TimingInv s) (hg : GateInv s)
    (hd : s.seq.sync.runs = true → DutiesFit s.cfg s.gate)
    (hl : s.gate.state = .running → LengthFits s.cfg s.carrier.pc s.gate) : RunningInv s :=
  ⟨ht, hg, fun k => (hd k).pending, fun k => (hd k).active,
    fun k => ⟨(hl k).low, (hl k).high, (hl k).room⟩⟩

/-- A state whose generator runs only if it ran before, with the duties and the cycle as they stood. -/
theorem RunningInv.congr {s t : State} (h : RunningInv s) (ht : TimingInv t) (hg : GateInv t)
    (hi : t.image = s.image) (hr : t.seq.sync.runs = true → s.seq.sync.runs = true)
    (hc : t.carrier.pc = s.carrier.pc) (hp : t.gate.pendingDuty = s.gate.pendingDuty)
    (ha : t.gate.activeDuty = s.gate.activeDuty)
    (hs : t.gate.state = .running → s.gate.state = .running) : RunningInv t := by
  refine .of_parts ht hg (fun k => ?_) (fun k => ?_)
  · rw [cfg_of_image hi]
    obtain ⟨pending, active⟩ := h.duties (hr k)
    exact ⟨hp ▸ pending, ha ▸ active⟩
  · rw [cfg_of_image hi, hc]
    obtain ⟨low, high, room⟩ := h.fits (hs k)
    exact ⟨low, high, ha ▸ room⟩

theorem withdraw_duties (g : Gate) : g.withdraw.pendingDuty = g.pendingDuty ∧
    g.withdraw.activeDuty = g.activeDuty := by
  unfold Gate.withdraw; split <;> exact ⟨rfl, rfl⟩

theorem atBoundary_duties (g : Gate) (p : Bool) : (g.atBoundary p).pendingDuty = g.pendingDuty ∧
    (g.atBoundary p).activeDuty = g.pendingDuty := by
  unfold Gate.atBoundary
  dsimp only
  split_ifs
  · exact ⟨rfl, rfl⟩
  · exact ⟨rfl, rfl⟩
  · exact withdraw_duties _

/-- No boundary that applies a capture leaves permission: it sets the lock counter to 0 (R112). -/
theorem capture_none_of_permission {s : State} (hi : LegalImage s.cfg)
    (hp : s.seq.permission = permissionRule s.cfg s.seq.sync s.seq.expired)
    (h : s.sequencerWork.permission = true) : s.capture = none := by
  by_contra hc
  have hs : s.seq.sync = .acquire := by
    by_contra k
    exact hc (if_neg fun x => k x.1)
  have hn : s.reachesLock = false := by
    have hl : s.nextLock = 0 := if_pos (Option.isSome_iff_ne_none.2 hc)
    have := hi.lockCount
    simp [State.reachesLock, hl]
    omega
  simp [State.sequencerWork, hs, hn, hp, permissionRule] at h

theorem dutyAs_range {cfg : Image} (h : cfg.dutyMin ≤ cfg.dutyMax) (v : BitVec 16) :
    cfg.dutyMin ≤ dutyAs cfg v ∧ dutyAs cfg v ≤ cfg.dutyMax := by
  unfold dutyAs
  split_ifs <;> omega

theorem boundary_duties (s : State) : s.boundary.gate.pendingDuty = s.gate.pendingDuty ∧
    s.boundary.gate.activeDuty = s.gate.pendingDuty := by
  rw [boundary_gate, gateOutputs_eq]
  exact atBoundary_duties _ _

/-- A boundary after which the generator runs steps the phase and the slot by a sixteenth at most. -/
theorem runningInv_boundary {s : State} (h : RunningInv s) (hd : s.boundaryDue = true)
    (ht : TimingInv s.boundary) : RunningInv s.boundary := by
  obtain ⟨hr, -⟩ := (boundaryDue_iff s).1 hd
  have hi := h.timing.config.legalImage hr
  obtain ⟨pending, active⟩ := boundary_duties s
  have duty := (h.duties hr).pending
  refine .of_parts ht (gateInv_boundary h.gate) (fun _ => ?_) (fun k => ?_)
  · rw [boundary_cfg]
    exact ⟨by rw [pending]; exact duty, by rw [active]; exact duty⟩
  · have hp : s.sequencerWork.permission = true := by
      rw [boundary_gate, gateOutputs_state] at k
      exact atBoundary_running k
    have phase := phaseStep_small hi (capture_none_of_permission hi h.gate.permission hp)
    have slot := slotStep_natAbs_le s
    have length := boundary_length hi (h.timing.errors hr)
    have small := hi.slotStep
    have room := hi.room
    rw [boundary_cfg]
    exact ⟨by omega, by omega, by rw [active]; omega⟩

theorem runningInv_of_move {s t : State} (m : Move s t) (h : RunningInv s) : RunningInv t := by
  have ht := timingInv_of_move m h.timing
  have hg := gateInv_of_move m h.gate
  cases m
  case aside k =>
    obtain ⟨state, pending, active, -⟩ := Gate.mk.inj k.gate
    exact h.congr ht hg k.image (by rw [k.sync]; exact id) (congrArg Carrier.pc k.carrier :) pending
      active (by rw [state]; exact id)
  case clears x hs hx hn =>
    obtain ⟨pending, active⟩ := withdraw_duties s.gate
    exact h.congr ht hg rfl (fun _ => hs) rfl pending active
      fun k => absurd k (withdraw_not_running s.gate)
  case holds hs =>
    refine h.congr ht hg rfl (fun _ => by rw [hs]; rfl) rfl ?_ ?_ ?_ <;>
      unfold State.enterHoldover <;> dsimp only <;> split
    · rfl
    · exact (withdraw_duties s.gate).1
    · rfl
    · exact (withdraw_duties s.gate).2
    · exact id
    · exact fun k => absurd k (withdraw_not_running s.gate)
  case acquires hs => exact h.congr ht hg rfl (fun _ => by rw [hs]; rfl) rfl rfl rfl id
  case ends hd => exact runningInv_boundary h hd ht
  case counts =>
    have e := onCountTick_eq s
    refine h.congr ht hg ?_ ?_ ?_ ?_ ?_ ?_ <;> rw [e] <;> first | rfl | exact id
  case decides =>
    have e := gateOutputs_eq s.cfg s.carrier.c s.carrier.pc s.gate
    exact h.congr ht hg rfl id rfl (by rw [State.decideOutputs, e]) (by rw [State.decideOutputs, e])
      (by rw [State.decideOutputs, e]; exact id)
  case faults c hn =>
    refine h.congr ht hg (by simp) (by simp) (by simp) ?_ ?_ (fun k => ?_)
    · unfold State.takeFault; split <;> rfl
    · unfold State.takeFault; split <;> rfl
    · rw [takeFault_trips] at k; cases k
  case duty v hr =>
    have limits := dutyAs_range (h.timing.config.legalImage hr).duties v
    refine .of_parts ht hg (fun k => ⟨limits, (h.duties k).active⟩) fun k => ?_
    obtain ⟨low, high, room⟩ := h.fits k
    exact ⟨low, high, room⟩
  case arms hs => exact h.congr ht hg rfl id rfl rfl rfl fun k => (by cases k)
  case stops hs => exact h.congr ht hg rfl id rfl rfl rfl fun k => (by cases k)
  case clear hs hp => exact h.congr ht hg rfl id rfl rfl rfl fun k => (by cases k)
  case blocks b r hl hr =>
    obtain ⟨pending, active⟩ := withdraw_duties s.gate
    refine h.congr ht hg rfl (fun k => ?_) rfl pending active
      fun k => absurd k (withdraw_not_running s.gate)
    cases r
    case idConflict => exact absurd rfl hr
    all_goals cases k
  case starts b i hl hi =>
    have loaded : DutiesFit i { s.gate with pendingDuty := i.dutyMin, activeDuty := i.dutyMin } :=
      ⟨⟨le_rfl, (legalImage_of_legal hi).duties⟩, ⟨le_rfl, (legalImage_of_legal hi).duties⟩⟩
    obtain ⟨pending, active⟩ :=
      withdraw_duties { s.gate with pendingDuty := i.dutyMin, activeDuty := i.dutyMin }
    exact .of_parts ht hg (fun _ => ⟨pending ▸ loaded.pending, active ▸ loaded.active⟩)
      fun k => absurd k (withdraw_not_running _)
  all_goals exact h.congr ht hg rfl id rfl rfl rfl id

theorem runningInv_onDeviceReset (s : State) : RunningInv (onDeviceReset s) :=
  .of_parts (timingInv_onDeviceReset s) (gateInv_onDeviceReset s) (fun k => (by cases k))
    (fun k => (by cases k))

/-- Settles O50: a generator runs only from a boundary that leaves permission, whose steps are an eighth of
a period together, and no later step of the cycle writes Pc or the active duty. -/
theorem stepKeepsRunningCycles : Obligations.StepKeepsRunningCycles := by
  refine keeps_of_passes fun s t p h => ?_
  cases p with
  | move m => exact runningInv_of_move m h
  | takes e l k =>
    exact h.congr (timingInv_of_pass (.takes s e l k) h.timing)
      (gateInv_of_pass (.takes s e l k) h.gate) rfl id rfl rfl rfl id
  | resets => exact runningInv_onDeviceReset s

/-! ### The event queue -/

/-- A move offers events, or leaves the queue as it stands. -/
theorem events_of_move {s t : State} (m : Move s t) :
    ∃ l : List EventRecord, t.events = l.foldl offerEvent s.events := by
  cases m
  case aside k => exact ⟨[], k.events⟩
  case offers l => exact ⟨l, rfl⟩
  case ends hd =>
    obtain ⟨l, -, e⟩ := boundary_events s
    exact ⟨l, e⟩
  case counts => exact ⟨[], by rw [onCountTick_eq]; rfl⟩
  case faults c hn => exact ⟨[], by simp⟩
  all_goals exact ⟨[], rfl⟩

theorem moves_keep_order {s t : State} (h : Moves s t) :
    s.events.map EventRecord.unflagged <+: t.events.map EventRecord.unflagged := by
  induction h with
  | refl => exact List.prefix_rfl
  | tail _ m ih =>
    obtain ⟨l, e⟩ := events_of_move m
    rw [e]
    exact ih.trans (offers_keep_order l _)

theorem attn_iff (s : State) : s.attn = true ↔ s.events ≠ [] := by
  simp [State.attn]

theorem markNewest_append (older : List EventRecord) (e : EventRecord) :
    markNewest (older ++ [e]) = older ++ [{ e with moreLost := true }] := by
  induction older with
  | nil => rfl
  | cons f older ih => cases older with
    | nil => rfl
    | cons g older => simpa [markNewest] using ih

theorem offerEvent_of_full {older : List EventRecord} {newest : EventRecord} (e : EventRecord)
    (h : 8 ≤ (older ++ [newest]).length) :
    offerEvent (older ++ [newest]) e = older ++ [{ newest with moreLost := true }] := by
  rw [offerEvent, if_neg (by omega), markNewest_append]

/-- Settles O59: every step offers events one by one or takes the oldest, and no command but EVENT and
device reset takes any. -/
theorem stepKeepsTheEventQueue : Obligations.StepKeepsTheEventQueue := by
  refine ⟨keeps_of_passes fun s t p h => ?_, fun c s t h he hr => ?_, attn_iff, fun q e => ⟨?_, ?_⟩⟩
  · cases p with
    | move m =>
      obtain ⟨l, e⟩ := events_of_move m
      rw [e]
      exact offers_length_le l h
    | takes e l k =>
      rw [k, List.length_cons] at h
      dsimp only
      omega
    | resets => exact Nat.zero_le 8
  · exact moves_keep_order (exec_moves h he hr)
  · exact offerEvent_of_room e
  · rintro older newest rfl h
    exact offerEvent_of_full e h

/-! ### Device reset -/

theorem onDeviceReset_reset : onDeviceReset State.reset = State.reset := rfl

/-- Settles O60: the reset state is what device reset leaves, and each invariant holds of that. -/
theorem resetMeetsTheInvariants : Obligations.ResetMeetsTheInvariants := by
  unfold Obligations.ResetMeetsTheInvariants
  rw [← onDeviceReset_reset]
  exact ⟨configInv_onDeviceReset _, timingInv_onDeviceReset _, gateInv_onDeviceReset _,
    queueInv_onDeviceReset _, rosterInv_onDeviceReset _, viewInv_onDeviceReset _,
    runningInv_onDeviceReset _, Nat.zero_le 8, rfl⟩

end Sys2Proof.Machine

/-! The step, device reset and start-up (Chapter 12). -/

namespace Sys2Proof.Machine

set_option Elab.async false

/-! ### The step -/

/-- Settles O1: a step on a queue that is not empty is the command at its front. -/
theorem stepRunsFrontCommand : Obligations.StepRunsFrontCommand := fun _ _ _ => rfl

/-! ### Device reset and the first tick -/

/-- Settles O2: device reset is one record, and each field of it is read off. -/
theorem deviceResetClearsEveryBlock : Obligations.DeviceResetClearsEveryBlock := by
  refine fun s => ⟨onDeviceReset s, rfl, rfl, rfl, rfl, rfl, rfl, rfl, rfl, fun i hi => ?_, rfl, rfl, rfl, rfl,
    rfl, rfl, rfl, rfl, rfl, rfl, rfl, rfl, rfl, rfl⟩
  have e : (onDeviceReset s).roster[i] = (clearedRoster (onDeviceReset s).own)[i] := rfl
  rw [e, clearedRoster_get, if_neg hi]
  rfl

theorem onLoadStart_held {s : State} (h : s.loader.phase = .held) : onLoadStart s =
    (let begun : State := { s with
      pins := { s.pins with reset := false }
      port := { s.port with selPrev := s.pins.lpSel }
      loader := { s.loader with phase := .reading 1 0 } }
     if s.pins.trip then begun.assertTripPin else begun) := if_pos h

/-- In LOAD an assertion trips an untripped stage and neither raises nor offers (R156, R158, R159). -/
theorem assertTripPin_load {s : State} (hs : s.seq.sync = .load) (hp : s.fault.pin = false)
    (hg : s.gate.state ≠ .tripped) : s.assertTripPin = { s with
      gate := { s.gate with state := .tripped, hi := false, lo := false }
      fault := ⟨.pin, s.carrier.cycle, 0, true⟩ } := by
  simp [State.assertTripPin, State.localFault, hp, hs, SyncState.transmits, takeFault_untripped _
    (s := { s with fault := { s.fault with pin := true } }) hg, LocalCause.asFault]

/-- Settles O3, by the two readings of the pin. -/
theorem loadStartReadsTheTripPin : Obligations.LoadStartReadsTheTripPin := by
  intro s hl hs hp hg
  have run : exec .loadStart s = .next (onLoadStart s) := rfl
  rw [run, onLoadStart_held hl]
  refine ⟨fun ht => ?_, fun ht => ?_⟩
  · simp only [ht, Bool.false_eq_true, if_false]
  · refine congrArg Host.Outcome.next ((if_pos ht).trans ?_)
    exact assertTripPin_load hs hp hg

/-! ### The end of a read attempt (R178 to R182) -/

theorem onConfigAttemptEnd_reading {s : State} {n k : Nat} (h : s.loader.phase = .reading n k)
    (bytes : ImageBits) : onConfigAttemptEnd bytes s =
      match judgeImage bytes with
      | .noResponse =>
        if n < 3 then { s with loader := ⟨.waiting n 0, bytes⟩ }
        else State.endLoadBad { s with loader := ⟨s.loader.phase, bytes⟩ } .configNoMemory 0
      | .badCheck => State.endLoadBad { s with loader := ⟨s.loader.phase, bytes⟩ } .configCheck 0
      | .badField m => State.endLoadBad { s with loader := ⟨s.loader.phase, bytes⟩ } .configValue m
      | .good i => State.startBlocks { s with loader := ⟨s.loader.phase, bytes⟩ } i := by
  simp only [onConfigAttemptEnd, h] <;> rfl

theorem judgeImage_noResponse {bytes : ImageBits} (h : bytes = 0 ∨ bytes = BitVec.allOnes 272) :
    judgeImage bytes = .noResponse := if_pos ((noResponse_iff bytes).2 h)

theorem judgeImage_badCheck {bytes : ImageBits} (h0 : bytes ≠ 0) (h1 : bytes ≠ BitVec.allOnes 272)
    (hc : imageCheckOk bytes = false) : judgeImage bytes = .badCheck := by
  have answered : ¬ noResponse bytes = true := fun h => ((noResponse_iff bytes).1 h).elim h0 h1
  simp only [judgeImage, if_neg answered, hc, Bool.not_false, if_true]

theorem judgeImage_badField {bytes : ImageBits} (h0 : bytes ≠ 0) (h1 : bytes ≠ BitVec.allOnes 272)
    (hc : imageCheckOk bytes = true) {n : Nat} (hn : (decodeImage bytes).firstBadField = some n) :
    judgeImage bytes = .badField n := by
  have answered : ¬ noResponse bytes = true := fun h => ((noResponse_iff bytes).1 h).elim h0 h1
  simp only [judgeImage, if_neg answered, hc, Bool.not_true, Bool.false_eq_true, if_false, hn]

theorem judgeImage_good {bytes : ImageBits} (h0 : bytes ≠ 0) (h1 : bytes ≠ BitVec.allOnes 272)
    (hc : imageCheckOk bytes = true) (hn : (decodeImage bytes).firstBadField = none) :
    judgeImage bytes = .good (decodeImage bytes) := by
  have answered : ¬ noResponse bytes = true := fun h => ((noResponse_iff bytes).1 h).elim h0 h1
  simp only [judgeImage, if_neg answered, hc, Bool.not_true, Bool.false_eq_true, if_false, hn]

/-- LOAD ended by a bad image: BLOCKED, the event, every block cleared, and nothing else (R182). -/
theorem endLoadBad_spec (s : State) (bytes : ImageBits) (r : BlockedReason) (n : Nat) :
    let t := State.endLoadBad { s with loader := ⟨s.loader.phase, bytes⟩ } r n
    t.seq = ⟨.blocked r, 0, 0, false, false⟩ ∧
      t.events = offerEvent s.events ⟨.configBad, none, BitVec.ofNat 8 n, 0, false⟩ ∧ Cleared t ∧
      ClearingFrame { s with loader := ⟨.finished, bytes⟩ } t ∧ t.line = s.line ∧
      t.tx = { s.tx with queue := TxQueue.empty } ∧ t.pins = s.pins ∧ t.free = s.free := by
  refine ⟨rfl, rfl, raise_cleared (enterClearing_cleared _ _) _, ⟨rfl, ⟨rfl, rfl⟩, rfl, rfl⟩, rfl, rfl,
      rfl, rfl⟩

theorem onConfigAttemptEnd_loader {s : State} {n k : Nat} (h : s.loader.phase = .reading n k)
    (bytes : ImageBits) : (onConfigAttemptEnd bytes s).loader =
      ⟨if (bytes = 0 ∨ bytes = BitVec.allOnes 272) ∧ n < 3 then .waiting n 0 else .finished, bytes⟩ := by
  rw [onConfigAttemptEnd_reading h]
  by_cases hr : bytes = 0 ∨ bytes = BitVec.allOnes 272
  · rw [judgeImage_noResponse hr]
    dsimp only
    split_ifs <;> first | rfl | simp_all
  · have judged : judgeImage bytes ≠ .noResponse := by
      simp only [judgeImage, if_neg (fun k => hr ((noResponse_iff bytes).1 k))]
      split_ifs <;> [exact ImageVerdict.noConfusion; (split <;> exact ImageVerdict.noConfusion)]
    rw [if_neg (show ¬ ((bytes = 0 ∨ bytes = BitVec.allOnes 272) ∧ n < 3) from fun k => hr k.1)]
    cases hj : judgeImage bytes
    · exact absurd hj judged
    all_goals rfl

/-! ### The loader tick by tick (R177) -/

theorem tickLoader_reading {s : State} {n k : Nat} (h : s.loader.phase = .reading n k) :
    s.tickLoader.loader = ⟨.reading n (k + 1),
      if (k + 1) % 8 = 4 ∧ 24 ≤ (k + 1) / 8 ∧ k + 1 < 2368 then
        (s.loader.buffer <<< 1) ||| (if s.pins.cfgDi then 1 else 0) else s.loader.buffer⟩ := by
  simp only [State.tickLoader, h, decide_eq_true_eq]
  cases s.pins.cfgDi <;> rfl

theorem tickLoader_waiting {s : State} {n k : Nat} (h : s.loader.phase = .waiting n k) :
    s.tickLoader.loader = { s.loader with
      phase := if 1000 ≤ k + 1 then .reading (n + 1) 0 else .waiting n (k + 1) } := by
  simp only [State.tickLoader, h, onConfigRetryWaitEnd]
  split_ifs <;> rfl

theorem step_idle {s : State} (h : s.pending = []) : step s = .next (tick s) := by
  simp only [step, h]

theorem attemptOver_reading {s : State} {n k : Nat} (h : s.loader.phase = .reading n k) :
    s.attemptOver = true ↔ 2368 ≤ k := by
  simp only [State.attemptOver, h, decide_eq_true_eq]

/-- In a tick of an attempt that lasts on, CFG_DI is taken where its bit calls for it. -/
theorem tick_loader_samples {s : State} {n k : Nat} (hp : s.pins.reset = false)
    (h : s.loader.phase = .reading n k) (hk : k + 1 < 2368) :
    (tick s).loader = ⟨.reading n (k + 1),
      if (k + 1) % 8 = 4 ∧ 24 ≤ (k + 1) / 8 then
        (s.loader.buffer <<< 1) ||| (if s.pins.cfgDi then 1 else 0) else s.loader.buffer⟩ := by
  obtain ⟨u, hu, e⟩ := tick_loader hp (by rw [h]; exact LoaderPhase.noConfusion)
  rw [tickLoader_reading h] at hu
  have ahead : ¬ u.attemptOver = true := by
    rw [attemptOver_reading (congrArg Loader.phase hu)]; omega
  rw [e, stepLoader, if_neg ahead, hu]
  simp only [hk, and_true]

/-- The last tick of an attempt judges what stands in the buffer. -/
theorem tick_loader_judges {s : State} {n k : Nat} (hp : s.pins.reset = false)
    (h : s.loader.phase = .reading n k) (hk : k + 1 = 2368) :
    (tick s).loader = ⟨if (s.loader.buffer = 0 ∨ s.loader.buffer = BitVec.allOnes 272) ∧ n < 3 then
      .waiting n 0 else .finished, s.loader.buffer⟩ := by
  obtain ⟨u, hu, e⟩ := tick_loader hp (by rw [h]; exact LoaderPhase.noConfusion)
  rw [tickLoader_reading h, if_neg (by omega)] at hu
  have phase : u.loader.phase = .reading n (k + 1) := by rw [hu]
  have buffer : u.loader.buffer = s.loader.buffer := by rw [hu]
  have ended : u.attemptOver = true := by
    rw [attemptOver_reading phase]; omega
  rw [e, stepLoader, if_pos ended, onConfigAttemptEnd_loader phase, buffer]

theorem tick_loader_waits {s : State} {n k : Nat} (hp : s.pins.reset = false)
    (h : s.loader.phase = .waiting n k) : (tick s).loader = { s.loader with
      phase := if 1000 ≤ k + 1 then .reading (n + 1) 0 else .waiting n (k + 1) } := by
  obtain ⟨u, hu, e⟩ := tick_loader hp (by rw [h]; exact LoaderPhase.noConfusion)
  rw [tickLoader_waiting h] at hu
  have phase : u.loader.phase = _ := congrArg Loader.phase hu
  have ahead : ¬ u.attemptOver = true := by
    rw [State.attemptOver, phase]
    split_ifs <;> simp
  rw [e, stepLoader, if_neg ahead, hu]

/-! ### The pins of the loader (R177) -/

/-- The read command 0x03 has its last two bits set, and the address after it is 0. -/
theorem readCommand_bit (b : Nat) : (0x030000#24).getMsbD b = true ↔ b = 6 ∨ b = 7 := by
  by_cases hb : b < 24
  · have all : ∀ b : Fin 24, (0x030000#24).getMsbD b.val = true ↔ b.val = 6 ∨ b.val = 7 := by decide
    exact all ⟨b, hb⟩
  · simp only [BitVec.getMsbD, hb, decide_false, Bool.false_and, Bool.false_eq_true, false_iff]
    omega

/-- Settles O4: an attempt without a response by its number, and the loader's own tick, which no other part
of a tick touches. -/
theorem noResponseIsRetriedTwice : Obligations.NoResponseIsRetriedTwice := by
  refine ⟨fun s bytes n k h hr => ⟨fun hn => ?_, fun hn => ?_⟩, fun s n k h => ?_,
    fun s n k hq hp h => ⟨tick s, step_idle hq, fun hk => ?_, fun hk => ?_⟩,
    fun s n k hq hp h => ⟨tick s, step_idle hq, fun hk => ?_, fun hk => ?_⟩, fun s => ⟨fun n k h => ?_,
        fun h => ?_⟩⟩
  · have e := onConfigAttemptEnd_reading h bytes
    rw [judgeImage_noResponse hr] at e
    exact congrArg Host.Outcome.next (e.trans (if_pos hn))
  · have e := onConfigAttemptEnd_reading h bytes
    rw [judgeImage_noResponse hr] at e
    exact ⟨_, congrArg Host.Outcome.next (e.trans (if_neg (by omega))), endLoadBad_spec s bytes _ 0⟩
  · exact congrArg Host.Outcome.next (by simp only [onConfigRetryWaitEnd, h])
  · exact tick_loader_samples hp h hk
  · exact tick_loader_judges hp h hk
  · rw [tick_loader_waits hp h, if_neg (by omega)]
  · rw [tick_loader_waits hp h, if_pos (by omega)]
  · exact ⟨by simp only [State.cfgSel, h], by simp only [State.cfgClk, h, decide_eq_true_eq],
      by simp only [State.cfgDo, h, readCommand_bit]⟩
  · unfold State.cfgSel State.cfgClk
    split <;> rename_i hl
    · exact absurd hl (h _ _)
    all_goals exact ⟨rfl, rfl⟩

/-! ### The image table (12.2) -/

theorem imageByte_toNat (bytes : ImageBits) (k : Nat) :
    (imageByte bytes k).toNat = bytes.toNat / 256 ^ (33 - k) % 256 := by
  have e : 2 ^ (8 * (33 - k)) = 256 ^ (33 - k) := by rw [pow_mul]; norm_num
  simp only [imageByte, BitVec.extractLsb'_toNat, Nat.shiftRight_eq_div_pow, e]

theorem imageWord_toNat (bytes : ImageBits) {k : Nat} (hk : k ≤ 32) :
    (imageWord bytes k).toNat = 256 * (bytes.toNat / 256 ^ (33 - k) % 256) +
      bytes.toNat / 256 ^ (33 - (k + 1)) % 256 := by
  have e : 2 ^ (8 * (32 - k)) = 256 ^ (32 - k) := by rw [pow_mul]; norm_num
  have high : 256 ^ (33 - k) = 256 ^ (32 - k) * 256 := by
    rw [← pow_succ]; congr 1; omega
  have low : 33 - (k + 1) = 32 - k := by omega
  simp only [imageWord, BitVec.extractLsb'_toNat, Nat.shiftRight_eq_div_pow, e, high, low,
    ← Nat.div_div_eq_div_mul]
  omega

theorem extractLsb'_mod {n : Nat} (v : BitVec n) (start len : Nat) :
    (v.extractLsb' start len).toNat = v.toNat / 2 ^ start % 2 ^ len := by
  rw [BitVec.extractLsb'_toNat, Nat.shiftRight_eq_div_pow]

theorem getLsbD_iff {n : Nat} (v : BitVec n) (k : Nat) :
    v.getLsbD k = true ↔ v.toNat / 2 ^ k % 2 = 1 := by
  rw [BitVec.getLsbD, Nat.testBit_eq_decide_div_mod_eq, decide_eq_true_iff]

/-- Settles O5: the fields by the value of their bytes, and the start by its one record. -/
theorem goodImageStartsTheStation : Obligations.GoodImageStartsTheStation := by
  refine ⟨fun bytes => ?_, fun s bytes n k h _ h0 h1 hc hf => ?_⟩
  · simp only [decodeImage, imageByte_toNat, extractLsb'_mod, getLsbD_iff,
      imageWord_toNat bytes (by decide : 1 ≤ 32),
      imageWord_toNat bytes (by decide : 4 ≤ 32), imageWord_toNat bytes (by decide : 7 ≤ 32),
      imageWord_toNat bytes (by decide : 9 ≤ 32), imageWord_toNat bytes (by decide : 12 ≤ 32),
      imageWord_toNat bytes (by decide : 14 ≤ 32), imageWord_toNat bytes (by decide : 16 ≤ 32),
      imageWord_toNat bytes (by decide : 18 ≤ 32), imageWord_toNat bytes (by decide : 20 ≤ 32),
      imageWord_toNat bytes (by decide : 22 ≤ 32), imageWord_toNat bytes (by decide : 24 ≤ 32),
      imageWord_toNat bytes (by decide : 26 ≤ 32), imageWord_toNat bytes (by decide : 28 ≤ 32),
      imageWord_toNat bytes (by decide : 30 ≤ 32)]
    refine ⟨?_, ?_, trivial, trivial, trivial, trivial, ?_, ?_, ?_, ?_, ?_, trivial, trivial, ?_, ?_, ?_,
      ?_, trivial, trivial, trivial, trivial, trivial, trivial, trivial, trivial⟩ <;> omega
  · have e := onConfigAttemptEnd_reading h bytes
    rw [judgeImage_good h0 h1 hc (firstBadField_none.2 hf)] at e
    refine ⟨_, congrArg Host.Outcome.next e, ?_⟩
    refine ⟨rfl, rfl, ⟨rfl, ⟨rfl, rfl⟩, rfl, rfl⟩, ?_, ?_,
      raise_cleared (enterClearing_cleared _ _) _, rfl, rfl, rfl⟩
    · simp only [State.startBlocks, raise_tx, enterClearing_tx]
      cases (decodeImage bytes).autoJoin <;> rfl
    · simp only [State.startBlocks, raise_events, enterClearing_events, eventOf]
      cases (decodeImage bytes).autoJoin <;> cases (decodeImage bytes).groupTrip <;>
        cases (decodeImage bytes).gateInHoldover <;> rfl

/-! ### The check of the image (R179) -/

/-- A run of registers, each made of the one before and the next element, is the fold over the elements. -/
theorem registers_eq_foldl {α β : Type} {f : β → α → β} {b : β} {l : List α} {register : Nat → β}
    (h0 : register 0 = b)
    (hs : ∀ n (h : n < l.length), register (n + 1) = f (register n) (l[n]'h)) {n : Nat}
    (hn : n ≤ l.length) : register n = (l.take n).foldl f b := by
  induction n with
  | zero => simpa using h0
  | succ n ih =>
    rw [hs n hn, ih (by omega), List.take_succ_eq_append_getElem hn, List.foldl_append]
    rfl

/-- The registers over the elements of a list, one after each. -/
theorem foldl_take_succ {α β : Type} (f : β → α → β) (b : β) {l : List α} {n : Nat} (h : n < l.length) :
    (l.take (n + 1)).foldl f b = f ((l.take n).foldl f b) (l[n]'h) := by
  rw [List.take_succ_eq_append_getElem h, List.foldl_append]
  rfl

@[simp] theorem wordBits_length {n : Nat} (v : BitVec n) : (wordBits v).length = n := by
  simp [wordBits]

theorem wordBits_getElem {n : Nat} (v : BitVec n) {k : Nat} (h : k < (wordBits v).length) :
    (wordBits v)[k] = v.getMsbD k := by
  simp [wordBits]

/-- The image bits are the first 256 of the bits received. -/
theorem imageBits_getMsbD (bytes : ImageBits) {n : Nat} (hn : n < 256) :
    (bytes.extractLsb' 16 256).getMsbD n = bytes.getMsbD n := by
  have low : 256 - 1 - n < 256 := by omega
  have high : n < 272 := by omega
  have place : 16 + (256 - 1 - n) = 272 - 1 - n := by omega
  simp only [BitVec.getMsbD, BitVec.getLsbD_extractLsb', hn, low, high, place, decide_true, Bool.true_and]

theorem imageCheckOk_iff (bytes : ImageBits) : imageCheckOk bytes = true ↔ ∃ register : Nat → BitVec 16,
    register 0 = 0xFFFF ∧
    (∀ n, n < 256 → register (n + 1) =
      if bytes.getMsbD n = (register n).msb then register n <<< 1
      else (register n <<< 1) ^^^ 0x1021) ∧
    register 256 = bytes.extractLsb' 0 16 := by
  have whole : (wordBits (bytes.extractLsb' 16 256)).take 256 = wordBits (bytes.extractLsb' 16 256) :=
    List.take_of_length_le (by simp)
  have bit (n : Nat) (h : n < (wordBits (bytes.extractLsb' 16 256)).length) :
      (wordBits (bytes.extractLsb' 16 256))[n] = bytes.getMsbD n := by
    rw [wordBits_getElem, imageBits_getMsbD bytes (by simpa using h)]
  simp only [imageCheckOk, beq_iff_eq, imageCrc]
  constructor
  · intro h
    refine ⟨fun n => ((wordBits (bytes.extractLsb' 16 256)).take n).foldl (crcStep 0x1021#16) 0xFFFF#16, rfl,
      fun n hn => ?_, ?_⟩
    · dsimp only
      have hl : n < (wordBits (bytes.extractLsb' 16 256)).length := by simpa using hn
      rw [foldl_take_succ _ _ hl, bit n hl]
      rfl
    · dsimp only
      rw [whole, h]
  · rintro ⟨register, h0, hs, hr⟩
    rw [← hr, registers_eq_foldl (l := wordBits (bytes.extractLsb' 16 256)) (f := crcStep 0x1021#16) h0
      (fun n h => ?_) (by simp), whole]
    · rfl
    · rw [hs n (by simpa using h), bit n h]
      rfl

/-- Settles O6: the check as a run of registers, each field's range, and an attempt that fails. -/
theorem badImageBlocksTheStation : Obligations.BadImageBlocksTheStation := by
  refine ⟨imageCheckOk_iff, fun i => ?_, fun bytes n hn => ?_, fun s bytes n k h h0 h1 => ⟨fun hc => ?_,
    fun m hc hm hf hall => ?_⟩⟩
  · refine ⟨?_, ?_, ?_, ?_, ?_, ?_, ?_, ?_, ?_, ?_, ?_, ?_, ?_, ?_, ?_, ?_, ?_, ?_⟩ <;>
      exact decide_eq_true_iff
  · rcases hn with rfl | rfl | rfl | rfl | rfl
    · rfl
    · rfl
    all_goals refine decide_eq_true (Nat.le_of_lt_succ (BitVec.isLt _))
  · have e := onConfigAttemptEnd_reading h bytes
    rw [judgeImage_badCheck h0 h1 hc] at e
    exact ⟨_, congrArg Host.Outcome.next e, endLoadBad_spec s bytes _ 0⟩
  · have e := onConfigAttemptEnd_reading h bytes
    rw [judgeImage_badField h0 h1 hc (firstBadField_some hm hf hall)] at e
    exact ⟨_, congrArg Host.Outcome.next e, endLoadBad_spec s bytes _ m⟩

end Sys2Proof.Machine

/-! Group time between boundaries and at them (Chapter 1). -/

namespace Sys2Proof.Machine

set_option Elab.async false

/-! ### The SYNC pulse (R15) -/

theorem tickSync_sync (s : State) :
    s.tickSync.carrier.sync = (s.carrier.sync && decide (s.carrier.syncAge + 1 < 8)) ∧
      (s.tickSync.carrier.sync = true → s.tickSync.carrier.syncAge = s.carrier.syncAge + 1) := by
  unfold State.tickSync onSyncPulseEnd
  split_ifs with h1 h2
  · have ended : ¬ s.carrier.syncAge + 1 < 8 := by omega
    simp [ended]
  · have lasts : s.carrier.syncAge + 1 < 8 := by omega
    simp [h1, lasts]
  · simp [h1]

/-- What a tick after LOAD does to SYNC, by whether its counts bring the boundary. -/
theorem tick_sync {s : State} (hp : s.pins.reset = false) (hl : s.loader.phase = .finished)
    (hr : s.seq.sync.runs = true) (hc : s.carrier.c < s.carrier.pc) :
    (s.carrier.c + (countsOf s.servo.trim s.carrier.acc).1 < s.carrier.pc →
      (tick s).carrier.sync = s.tickSync.carrier.sync ∧
        (tick s).carrier.syncAge = s.tickSync.carrier.syncAge) ∧
    (s.carrier.pc ≤ s.carrier.c + (countsOf s.servo.trim s.carrier.acc).1 →
      (tick s).carrier.sync = true ∧ (tick s).carrier.syncAge = 0) := by
  obtain ⟨u, hu, ht⟩ := tick_carrier hp hl
  have x := tickSync_eq s
  have counted := onCountTick_carrier (s := s.tickSync) (by rw [x]; exact hr) (by rw [x]; exact hc)
  have same : (onCountTick s.tickSync).seq = s.seq := by rw [onCountTick_eq, x]
  simp only [State.carrierSide, Prod.mk.injEq, Carrier.mk.injEq, counted, same] at hu
  obtain ⟨⟨-, -, -, hcu, hpu, -, -, hsu, hau⟩, hru⟩ := hu
  rw [x] at hcu hpu
  dsimp only at hcu hpu
  simp only [State.carrierSide, Prod.mk.injEq, Carrier.mk.injEq] at ht
  obtain ⟨⟨-, -, -, -, -, -, -, hst, hat⟩, -⟩ := ht
  rw [hst, hat]
  refine ⟨fun hlt => ?_, fun hle => ?_⟩
  · have ahead : ¬ u.boundaryDue = true := by
      rw [boundaryDue_iff, hcu, hpu]
      exact fun k => absurd k.2 (by omega)
    rw [onCycleBoundary, if_neg ahead]
    exact ⟨hsu, hau⟩
  · have due : u.boundaryDue = true := (boundaryDue_iff u).2 ⟨hru.trans hr, by rw [hcu, hpu]; exact hle⟩
    rw [onCycleBoundary, if_pos due, boundary_carrier]
    exact ⟨rfl, rfl⟩

/-! ### COUNT_TICK -/

theorem onCountTick_gate {s : State} (hr : s.seq.sync.runs = true) (hc : s.carrier.c < s.carrier.pc) :
    (onCountTick s).gate = gateOutputs s.cfg (onCountTick s).carrier.c s.carrier.pc
      { s.gate with hiPrev := s.gate.hi, loPrev := s.gate.lo } := by
  have counts : (s.seq.sync.runs && decide (s.carrier.c < s.carrier.pc)) = true := by simp [hr, hc]
  rw [onCountTick, if_pos counts]
  rfl

/-- The outputs of a running generator, as R150 states them. -/
theorem gateOutputs_running_iff {cfg : Image} {c pc : Nat} {g : Gate} (h : g.state = .running) :
    ((gateOutputs cfg c pc g).hi = true ↔
      cfg.deadBand ≤ c ∧ c < g.activeDuty ∧ ¬ (1 ≤ cfg.deadBand ∧ g.loPrev = true)) ∧
    ((gateOutputs cfg c pc g).lo = true ↔
      g.activeDuty + cfg.deadBand ≤ c ∧ c < pc ∧ ¬ (1 ≤ cfg.deadBand ∧ g.hiPrev = true)) := by
  rw [gateOutputs_running h]
  simp only [Bool.and_eq_true, Bool.not_eq_true', ← Bool.not_eq_true, decide_eq_true_eq, and_assoc, and_self]

/-- Settles O8, from the carrier's and the generator's equations for the tick, and SYNC's for a step. -/
theorem countTickAdvancesGroupTime : Obligations.CountTickAdvancesGroupTime := by
  refine ⟨fun s hq hp hl hr hc => ⟨tick s, step_idle hq, fun hlt => ?_, (tick_sync hp hl hr hc).2⟩,
    fun s => ⟨fun hr hc => ⟨onCountTick s, rfl, ?_, onCountTick_carrier hr hc, ?_, fun hg => ?_, fun hg => ?_⟩,
      fun hn => ?_, fun hs => ?_, fun hs => ?_⟩⟩
  · obtain ⟨hs, ha⟩ := (tick_sync hp hl hr hc).1 hlt
    obtain ⟨hs', ha'⟩ := tickSync_sync s
    exact ⟨hs.trans hs', fun k => ha.trans (ha' (hs ▸ k))⟩
  · conv_lhs => rw [onCountTick_eq]
    rw [onCountTick_carrier hr hc, onCountTick_gate hr hc, gateOutputs_eq]
  · rw [onCountTick_gate hr hc, gateOutputs_eq]
  · rw [onCountTick_gate hr hc, gateOutputs_not_running (by exact hg)]
    exact ⟨rfl, rfl⟩
  · rw [onCountTick_gate hr hc]
    exact gateOutputs_running_iff (g := { s.gate with hiPrev := s.gate.hi, loPrev := s.gate.lo }) hg
  · refine congrArg Host.Outcome.next (if_neg ?_)
    rcases hn with hn | hn
    · simp [hn]
    · simp [hn]
  · exact congrArg Host.Outcome.next (if_pos hs)
  · exact congrArg Host.Outcome.next (if_neg (by simp [hs]))

/-! ### A boundary -/

theorem raiseAll_eq (s : State) (l : List EventRecord) :
    s.raiseAll l = { s with events := (s.raiseAll l).events, free := (s.raiseAll l).free } := by
  rcases l with _ | ⟨e, _ | ⟨f, l⟩⟩ <;> rfl

/-- The blocks that have boundary work, and no other. -/
theorem boundary_eq (s : State) : s.boundary = { s with
    carrier := s.boundary.carrier
    tx := { s.tx with queue := s.boundary.tx.queue, beaconSent := false }
    log := [], roster := s.boundary.roster, view := s.boundary.view, servo := s.boundary.servo
    seq := s.boundary.seq, gate := s.boundary.gate, events := s.boundary.events
    free := s.boundary.free } := by
  conv_lhs => rw [State.boundary, raiseAll_eq]
  simp only [boundary_carrier, boundary_tx, boundary_roster, boundary_view, boundary_servo, boundary_seq,
    boundary_gate]
  rfl

theorem entered_lastStep (v : Servo) (x y : SyncState) : (v.entered x y).lastStep = v.lastStep ∧
    (v.entered x y).meanError = v.meanError ∧ (v.entered x y).captureDone = v.captureDone := by
  unfold Servo.entered
  split <;> exact ⟨rfl, rfl, rfl⟩

theorem servoWork_lastStep (s : State) : s.servoWork.lastStep = s.phaseStep := by
  unfold State.servoWork State.phaseStep
  dsimp only
  split
  · cases s.capture <;> rfl
  all_goals rfl

/-- Settles O9: the carrier's equation at a boundary, its frame, and the ranges of the two steps. -/
theorem boundaryStepsTheCarrier : Obligations.BoundaryStepsTheCarrier := by
  refine fun s => ⟨fun hr hc => ?_, fun hn => ?_, fun h hd t ht => ?_⟩
  · refine ⟨s.boundary, exec_cycleBoundary ((boundaryDue_iff s).2 ⟨hr, hc⟩), ?_, ?_, ?_, ?_, fun hp => ?_,
      ?_, ?_, ?_,
      boundary_log s, ?_, ?_, boundary_eq s⟩
    all_goals try rw [boundary_carrier]
    · exact Nat.sub_add_cancel hc
    · exact Int.toNat_of_nonneg (by omega)
    · rw [boundary_tx]
    · rw [boundary_servo, (entered_lastStep _ _ _).1, servoWork_lastStep]
  · refine congrArg Host.Outcome.next (if_neg ?_)
    rw [boundaryDue_iff]
    rcases hn with hn | hn
    · simp [hn]
    · omega
  · obtain ⟨hr, -⟩ := (boundaryDue_iff s).1 hd
    obtain rfl := Host.Outcome.next.inj ((exec_cycleBoundary hd).symm.trans ht)
    have hi := h.config.legalImage hr
    obtain ⟨lower, upper⟩ := phaseStep_range hi (h.errors hr)
    have length := boundary_length hi (h.errors hr)
    have slot := slotStep_natAbs_le s
    have := hi.slotStep
    have := hi.periodLow
    have := hi.periodHigh
    omega

end Sys2Proof.Machine

/-! Frames on the group line: layout, check and reception (Chapter 2). -/

namespace Sys2Proof.Machine

set_option Elab.async false

/-! ### Parts of a bit string -/

/-- A bit of the middle part of a string in three parts. -/
theorem getD_middle {α : Type} {l a b c : List α} (h : l = a ++ (b ++ c)) (d : α) {k j : Nat}
    (hk : k = a.length + j) (hj : j < b.length) : l.getD k d = b.getD j d := by
  subst h hk
  rw [List.getD_append_right _ _ _ _ (Nat.le_add_right _ _), Nat.add_sub_cancel_left,
    List.getD_append _ _ _ _ hj]

/-- The middle part of a string, read from as much of the string as holds it. -/
theorem field_middle {l a b c : List Bit} (h : l = a ++ (b ++ c)) {start len n : Nat}
    (hs : a.length = start) (hl : b.length = len) (hn : start + len ≤ n) :
    field (l.take n) start len = b := by
  subst h hs hl
  rw [field, List.drop_take, List.drop_left, List.take_take, Nat.min_eq_left (by omega), List.take_left]

theorem wordBits_getD {n : Nat} (v : BitVec n) (d : Bool) {j : Nat} (hj : j < n) :
    (wordBits v).getD j d = v.getMsbD j := by
  rw [List.getD_eq_getElem _ _ (by simpa using hj), wordBits_getElem]

/-- The upper bits of a word spell the word shifted down. -/
theorem foldl_wordBits_take {n : Nat} (v : BitVec n) {k : Nat} (hk : k ≤ n) :
    ((wordBits v).take k).foldl (fun a b => 2 * a + b.toNat) 0 = v.toNat / 2 ^ (n - k) := by
  induction k with
  | zero => simp [Nat.div_eq_of_lt v.isLt]
  | succ k ih =>
    have hl : k < (wordBits v).length := by simpa using hk
    have place : n - 1 - k = n - (k + 1) := by omega
    have up : n - k = n - (k + 1) + 1 := by omega
    have bit : v.getMsbD k = decide (v.toNat / 2 ^ (n - (k + 1)) % 2 = 1) := by
      rw [BitVec.getMsbD, decide_eq_true (by omega : k < n), Bool.true_and, place, BitVec.getLsbD,
        Nat.testBit_eq_decide_div_mod_eq]
    rw [foldl_take_succ _ _ hl, ih (by omega), wordBits_getElem, bit, up, pow_succ,
      ← Nat.div_div_eq_div_mul]
    generalize v.toNat / 2 ^ (n - (k + 1)) = x
    rcases Nat.mod_two_eq_zero_or_one x with h | h <;> simp [h] <;> omega

theorem bitsToNat_wordBits {n : Nat} (v : BitVec n) : bitsToNat (wordBits v) = v.toNat := by
  have h := foldl_wordBits_take v (le_refl n)
  rw [List.take_of_length_le (by simp), Nat.sub_self, pow_zero, Nat.div_one] at h
  exact h

/-! ### The layout of a frame -/

/-- The number of payload bits of a kind. -/
def payloadLength : FrameKind → Nat
  | .fault => 3
  | .leave => 0
  | .claim => 16
  | .beacon => 50

theorem payload_bits_length (p : Payload) : p.bits.length = payloadLength p.kind := by
  cases p <;> simp [Payload.bits, Payload.kind, payloadLength]

theorem total_eq (k : FrameKind) : k.total = 18 + payloadLength k ∧ k.checkAt = 8 + payloadLength k ∧
    k.endAt = 16 + payloadLength k := by
  cases k <;> exact ⟨rfl, rfl, rfl⟩

theorem body_length (f : Frame) : f.body.length = 7 + payloadLength f.payload.kind := by
  simp only [Frame.body, List.length_append, wordBits_length, payload_bits_length]

/-- The sender as the four bits that carry it. -/
def senderBits (i : Identity) : BitVec 4 := BitVec.ofFin i

theorem wire_body (f : Frame) :
    f.wire = [false] ++ (f.body ++ (wordBits (frameCrc f.body) ++ [true, true])) := by
  simp [Frame.wire]

theorem wire_kind (f : Frame) : f.wire = [false] ++ (wordBits f.payload.kind.code ++
    (wordBits (senderBits f.sender) ++ f.payload.bits ++ wordBits (frameCrc f.body) ++ [true, true])) := by
  simp [Frame.wire, Frame.body, senderBits]

theorem wire_sender (f : Frame) : f.wire = ([false] ++ wordBits f.payload.kind.code) ++
    (wordBits (senderBits f.sender) ++ (f.payload.bits ++ wordBits (frameCrc f.body) ++ [true, true])) := by
  simp [Frame.wire, Frame.body, senderBits]

theorem wire_payload (f : Frame) :
    f.wire = ([false] ++ wordBits f.payload.kind.code ++ wordBits (senderBits f.sender)) ++
      (f.payload.bits ++ (wordBits (frameCrc f.body) ++ [true, true])) := by
  simp [Frame.wire, Frame.body, senderBits]

theorem wire_check (f : Frame) :
    f.wire = (false :: f.body) ++ (wordBits (frameCrc f.body) ++ [true, true]) := by
  simp [Frame.wire]

theorem wire_end (f : Frame) :
    f.wire = (false :: (f.body ++ wordBits (frameCrc f.body))) ++ ([true, true] ++ []) := by
  simp [Frame.wire]

theorem wire_length (f : Frame) : f.wire.length = 18 + payloadLength f.payload.kind := by
  rw [wire_check]
  simp [body_length]
  omega

/-- A word that stands in the payload after `a` stands in the wire 8 bits further on. -/
theorem wire_payload_word (f : Frame) {n : Nat} {v : BitVec n} {a c : List Bit}
    (h : f.payload.bits = a ++ (wordBits v ++ c)) : ∃ a' c', a'.length = 8 + a.length ∧
      f.wire = a' ++ (wordBits v ++ c') := by
  refine ⟨[false] ++ wordBits f.payload.kind.code ++ wordBits (senderBits f.sender) ++ a,
    c ++ (wordBits (frameCrc f.body) ++ [true, true]), by simp; omega, ?_⟩
  rw [wire_payload, h]
  simp

theorem wire_payload_getD (f : Frame) {n : Nat} {v : BitVec n} {a c : List Bit}
    (h : f.payload.bits = a ++ (wordBits v ++ c)) (d : Bit) {k j : Nat} (hk : k = 8 + a.length + j)
    (hj : j < n) : f.wire.getD k d = v.getMsbD j := by
  obtain ⟨a', c', hl, hw⟩ := wire_payload_word f h
  rw [getD_middle hw d (by rw [hl]; exact hk) (by simpa using hj), wordBits_getD v d hj]

theorem wire_payload_field (f : Frame) {n : Nat} {v : BitVec n} {a c : List Bit}
    (h : f.payload.bits = a ++ (wordBits v ++ c)) {start m : Nat} (hs : start = 8 + a.length)
    (hm : start + n ≤ m) : bitsToNat (field (f.wire.take m) start n) = v.toNat := by
  obtain ⟨a', c', hl, hw⟩ := wire_payload_word f h
  rw [field_middle hw (by rw [hl, hs]) (by simp) hm, bitsToNat_wordBits]

/-! #### The words of each payload -/

theorem bits_claim (p : BitVec 16) : (Payload.claim p).bits = [] ++ (wordBits p ++ []) := by
  simp [Payload.bits]

theorem bits_fault (c : LocalCause) : (Payload.fault c).bits = [] ++ (wordBits c.code ++ []) := by
  simp [Payload.bits]

section Beacon

variable (ph : BitVec 16) (h m : StationMap) (st : SenderState)

theorem bits_beacon_phase : (Payload.beacon ph h m st).bits =
    [] ++ (wordBits ph ++ (wordBits h ++ wordBits m ++ wordBits st.code)) := by
  simp [Payload.bits]

theorem bits_beacon_heard : (Payload.beacon ph h m st).bits =
    wordBits ph ++ (wordBits h ++ (wordBits m ++ wordBits st.code)) := by
  simp [Payload.bits]

theorem bits_beacon_member : (Payload.beacon ph h m st).bits =
    (wordBits ph ++ wordBits h) ++ (wordBits m ++ wordBits st.code) := by
  simp [Payload.bits]

theorem bits_beacon_state : (Payload.beacon ph h m st).bits =
    (wordBits ph ++ wordBits h ++ wordBits m) ++ (wordBits st.code ++ []) := by
  simp [Payload.bits]

end Beacon

/-! ### The check register over a frame -/

/-- The check register after the first `n` bits that it takes in. -/
def checkAfter (f : Frame) (n : Nat) : Byte := (f.body.take n).foldl frameCrcStep 0xFF#8

theorem checkAfter_body (f : Frame) {n : Nat} (h : 7 + payloadLength f.payload.kind ≤ n) :
    checkAfter f n = frameCrc f.body := by
  rw [checkAfter, List.take_of_length_le (by rw [body_length]; exact h)]
  rfl

theorem body_bit (f : Frame) (d : Bit) {j : Nat} (h : j < f.body.length) :
    f.wire.getD (1 + j) d = f.body[j] := by
  rw [getD_middle (k := 1 + j) (wire_body f) d rfl h, List.getD_eq_getElem _ _ h]

theorem checkAfter_succ (f : Frame) (d : Bit) {j : Nat} (h : j < 7 + payloadLength f.payload.kind) :
    checkAfter f (j + 1) = frameCrcStep (checkAfter f j) (f.wire.getD (1 + j) d) := by
  have hb : j < f.body.length := by rw [body_length]; exact h
  rw [checkAfter, foldl_take_succ _ _ hb, body_bit f d hb]
  rfl

/-! ### Reception -/

theorem feed_bits (l : List Bit) (r : RxRecord) : (l.foldl RxRecord.feed r).bits = r.bits ++ l := by
  induction l generalizing r with
  | nil => simp
  | cons b l ih => simp [ih, RxRecord.feed]

theorem ofCode_code (k : FrameKind) : FrameKind.ofCode k.code.toNat = some k := by
  cases k <;> rfl

theorem kindOf_wire (f : Frame) {n : Nat} (hn : 4 ≤ n) :
    kindOf (f.wire.take n) = some f.payload.kind := by
  have long : 4 ≤ (f.wire.take n).length := by
    rw [List.length_take, wire_length]; omega
  rw [kindOf, if_pos long, field_middle (start := 1) (wire_kind f) rfl (by simp) (by omega),
    bitsToNat_wordBits, ofCode_code]

theorem senderOf_wire (f : Frame) {n : Nat} (hn : 8 ≤ n) : senderOf (f.wire.take n) = f.sender := by
  have e : bitsToNat (field (f.wire.take n) 4 4) = f.sender.val := by
    rw [field_middle (wire_sender f) (by simp) (by simp) (by omega), bitsToNat_wordBits]
    rfl
  apply Fin.ext
  simp only [senderOf, e]
  exact Nat.mod_eq_of_lt f.sender.isLt

theorem feedsCheck_wire (f : Frame) {n : Nat} (hn : n ≤ f.wire.length) :
    feedsCheck (f.wire.take n) = decide (n < 8 + payloadLength f.payload.kind) := by
  have length : (f.wire.take n).length = n := by rw [List.length_take, Nat.min_eq_left hn]
  obtain ⟨-, check, -⟩ := total_eq f.payload.kind
  rw [feedsCheck, length]
  by_cases h8 : n < 8
  · rw [decide_eq_true h8, decide_eq_true (by omega : n < 8 + payloadLength f.payload.kind), Bool.true_or]
  · rw [decide_eq_false h8, Bool.false_or, kindOf_wire f (by omega), ← check]

/-- The check register of a receiver that reads a frame as it is sent. -/
theorem feed_crc (f : Frame) {r : RxRecord} (hr : r.bits = []) {n : Nat} (hn : n + 1 ≤ f.wire.length) :
    ((f.wire.take (n + 1)).foldl RxRecord.feed r).crc = checkAfter f n := by
  induction n with
  | zero =>
    rw [foldl_take_succ _ _ hn]
    simp [RxRecord.feed, hr, checkAfter]
  | succ n ih =>
    have ih := ih (by omega)
    rw [foldl_take_succ _ _ hn]
    have bits : ((f.wire.take (n + 1)).foldl RxRecord.feed r).bits = f.wire.take (n + 1) := by
      rw [feed_bits, hr, List.nil_append]
    have some_bits : f.wire.take (n + 1) ≠ [] := by
      intro k
      have := congrArg List.length k
      rw [List.length_take, List.length_nil] at this
      omega
    have bit : f.wire[n + 1] = f.wire.getD (1 + n) true := by
      rw [Nat.add_comm 1 n, List.getD_eq_getElem _ _ hn]
    rw [RxRecord.feed]
    dsimp only
    rw [bits, if_neg some_bits, feedsCheck_wire f (by omega), ih, bit]
    by_cases h : n < 7 + payloadLength f.payload.kind
    · rw [if_pos (by simp; omega), checkAfter_succ f true h]
    · rw [if_neg (by simp; omega), checkAfter_body f (by omega), checkAfter_body f (by omega)]

/-- Where the kind is known, the checks are those of the kind. -/
theorem verdict_of_kind {bits : List Bit} {crc : Byte} {k : FrameKind} (h4 : 4 ≤ bits.length)
    (hk : kindOf bits = some k)
    (hfault : k = .fault → bits.length = 11 → LocalCause.ofCode (bitsToNat (field bits 8 3)) ≠ none)
    (hbeacon : k = .beacon → bits.length = 58 → SenderState.ofCode (bitsToNat (field bits 56 2)) ≠ none)
    (hcheck : bits.length = k.endAt → field bits k.checkAt 8 = wordBits crc)
    (hend : k.endAt < bits.length → bits.getLastD true = true) :
    verdict bits crc = if bits.length = k.total then
      (match parseFrame k bits with
        | some f => .valid f
        | none => .error) else .more := by
  rw [verdict, if_neg (by omega), hk]
  dsimp only
  rw [if_neg (fun x => hfault x.1 x.2.1 x.2.2), if_neg (fun x => hbeacon x.1 x.2.1 x.2.2),
    if_neg (fun x => x.2 (hcheck x.1)), if_neg (fun x => by rw [hend x.1] at x; exact absurd x.2 (by simp))]
    <;> split <;> rfl

theorem cause_ofCode (c : LocalCause) : LocalCause.ofCode c.code.toNat = some c := by
  cases c <;> rfl

theorem state_ofCode (st : SenderState) : SenderState.ofCode st.code.toNat = some st := by
  cases st <;> rfl

theorem cause_of_wire {f : Frame} (h : f.payload.kind = .fault) {n : Nat} (hn : 11 ≤ n) :
    LocalCause.ofCode (bitsToNat (field (f.wire.take n) 8 3)) ≠ none := by
  obtain ⟨i, p⟩ := f
  cases p <;> try cases h
  rename_i c
  rw [wire_payload_field (start := 8) ⟨i, .fault c⟩ (bits_fault c) rfl (by omega), cause_ofCode]
  exact Option.some_ne_none c

theorem state_of_wire {f : Frame} (h : f.payload.kind = .beacon) {n : Nat} (hn : 58 ≤ n) :
    SenderState.ofCode (bitsToNat (field (f.wire.take n) 56 2)) ≠ none := by
  obtain ⟨i, p⟩ := f
  cases p <;> try cases h
  rename_i ph a m st
  rw [wire_payload_field ⟨i, .beacon ph a m st⟩ (bits_beacon_state ph a m st) (by simp) (by omega),
    state_ofCode]
  exact Option.some_ne_none st

theorem parseFrame_wire (f : Frame) : parseFrame f.payload.kind f.wire = some f := by
  have whole : f.wire = f.wire.take f.wire.length := by rw [List.take_length]
  have length := wire_length f
  have sender := senderOf_wire f (n := f.wire.length) (by omega)
  rw [← whole] at sender
  have get {n : Nat} {v : BitVec n} {a c : List Bit} (h : f.payload.bits = a ++ (wordBits v ++ c))
      {start : Nat} (hs : start = 8 + a.length) : bitsToNat (field f.wire start n) = v.toNat := by
    have hb := congrArg List.length h
    simp only [payload_bits_length, List.length_append, wordBits_length] at hb
    rw [whole]
    exact wire_payload_field f h hs (by omega)
  obtain ⟨i, p⟩ := f
  dsimp only at *
  cases p with
  | fault c =>
    simp only [parseFrame, Payload.kind, get (start := 8) (bits_fault c) rfl, cause_ofCode, sender,
        Option.map_some]
  | leave => simp only [parseFrame, Payload.kind, sender]
  | claim q =>
    simp only [parseFrame, Payload.kind, get (start := 8) (bits_claim q) rfl, sender, BitVec.ofNat_toNat,
      BitVec.setWidth_eq]
  | beacon ph a m st =>
    simp only [parseFrame, Payload.kind, get (start := 8) (bits_beacon_phase ph a m st) rfl,
      get (start := 24) (bits_beacon_heard ph a m st) (by simp),
      get (start := 40) (bits_beacon_member ph a m st) (by simp),
      get (start := 56) (bits_beacon_state ph a m st) (by simp), state_ofCode, sender,
      BitVec.ofNat_toNat, BitVec.setWidth_eq, Option.map_some]

/-- The last bits of a frame are recessive. -/
theorem wire_getLastD (f : Frame) {n : Nat} (h : 16 + payloadLength f.payload.kind < n)
    (hn : n ≤ f.wire.length) : (f.wire.take n).getLastD true = true := by
  have length := wire_length f
  have body := body_length f
  have hl : (f.wire.take n).length = n := by rw [List.length_take, Nat.min_eq_left hn]
  have last : (f.wire.take n).getLastD true = f.wire.getD (n - 1) true := by
    rw [List.getLastD_eq_getLast?, List.getLast?_eq_getElem?, hl, List.getElem?_take_of_lt (by omega),
      List.getD_eq_getElem?_getD]
  rw [last, getD_middle (wire_end f) true (j := n - 1 - (16 + payloadLength f.payload.kind))
    (by simp [body]; omega) (by simp; omega)]
  generalize n - 1 - (16 + payloadLength f.payload.kind) = j
  rcases j with _ | _ | j <;> rfl

/-- The verdict on the first `n` bits of a frame read as it is sent. -/
theorem verdictAfter_wire (f : Frame) {r : RxRecord} (hr : r.bits = []) {n : Nat}
    (hn : n ≤ f.wire.length) :
    verdictAfter r (f.wire.take n) = if n = f.wire.length then .valid f else .more := by
  have length := wire_length f
  have hl : (f.wire.take n).length = n := by rw [List.length_take, Nat.min_eq_left hn]
  obtain ⟨total, check, ends⟩ := total_eq f.payload.kind
  have bits : ((f.wire.take n).foldl RxRecord.feed r).bits = f.wire.take n := by
    rw [feed_bits, hr, List.nil_append]
  rw [verdictAfter, bits]
  by_cases h4 : n < 4
  · rw [verdict, hl, if_pos h4, if_neg (by omega)]
  have crc := feed_crc f hr (n := n - 1) (by omega)
  rw [show n - 1 + 1 = n by omega] at crc
  rw [crc, verdict_of_kind (by omega) (kindOf_wire f (by omega)) (fun k h => cause_of_wire k (by omega))
    (fun k h => state_of_wire k (by omega)) (fun h => ?_) (fun h => wire_getLastD f (by omega) hn)]
  · rw [hl, total, ← length]
    split_ifs with h
    · rw [h, List.take_length, parseFrame_wire]
    · rfl
  · have hb := body_length f
    rw [checkAfter_body f (by omega), field_middle (wire_check f) (by simp [hb]; omega) (by simp) (by omega)]

/-! ### Every frame -/

theorem senderBits_getMsbD (i : Identity) {j : Nat} (hj : j < 4) :
    (senderBits i).getMsbD j = i.val.testBit (3 - j) := by
  rw [BitVec.getMsbD, decide_eq_true hj, Bool.true_and]
  rfl

theorem kindCode_getMsbD (k : FrameKind) {j : Nat} (hj : j < 3) :
    k.code.getMsbD j = k.code.toNat.testBit (2 - j) := by
  rw [BitVec.getMsbD, decide_eq_true hj, Bool.true_and]
  rfl

theorem checkAfter_step (f : Frame) {j : Nat} (h : j < 7 + payloadLength f.payload.kind) :
    checkAfter f (j + 1) = if f.wire.getD (1 + j) false = (checkAfter f j).msb then checkAfter f j <<< 1
      else (checkAfter f j <<< 1) ^^^ 0x2F := checkAfter_succ f false h

theorem wire_kind_bit (f : Frame) {j : Nat} (hj : j < 3) :
    f.wire.getD (1 + j) false = f.payload.kind.code.toNat.testBit (2 - j) := by
  rw [getD_middle (k := 1 + j) (wire_kind f) false rfl (by simpa using hj), wordBits_getD _ _ hj,
    kindCode_getMsbD _ hj]

theorem wire_sender_bit (f : Frame) {j : Nat} (hj : j < 4) :
    f.wire.getD (4 + j) false = f.sender.val.testBit (3 - j) := by
  rw [getD_middle (wire_sender f) false (j := j) (by simp) (by simpa using hj), wordBits_getD _ _ hj,
    senderBits_getMsbD _ hj]

theorem wire_check_bit (f : Frame) {j : Nat} (hj : j < 8) :
    f.wire.getD (8 + payloadLength f.payload.kind + j) false =
      (checkAfter f (7 + payloadLength f.payload.kind)).getMsbD j := by
  have body := body_length f
  rw [getD_middle (wire_check f) false (j := j) (by simp [body]; omega) (by simpa using hj),
    wordBits_getD _ _ hj, checkAfter_body f (le_refl _)]

theorem wire_end_bits (f : Frame) : f.wire.getD (16 + payloadLength f.payload.kind) false = true ∧
    f.wire.getD (17 + payloadLength f.payload.kind) false = true := by
  have body := body_length f
  exact ⟨getD_middle (wire_end f) false (j := 0) (by simp [body]; omega) (by simp),
    getD_middle (wire_end f) false (j := 1) (by simp [body]; omega) (by simp)⟩

/-- Settles O11: the layout field by field, the check as a run of registers, and the verdict on each start
of the wire. -/
theorem everyWholeFrameValidates : Obligations.EveryWholeFrameValidates := by
  refine ⟨fun f => ⟨checkAfter f, ?_⟩, fun f r hr => ⟨fun n hn => ?_, ?_⟩⟩
  · obtain ⟨i, p⟩ := f
    have step {j : Nat} := checkAfter_step ⟨i, p⟩ (j := j)
    cases p
    all_goals
      refine ⟨wire_length _, (total_eq _).1, rfl, rfl, fun j => wire_kind_bit _, fun j => wire_sender_bit _,
        ?_, rfl, fun j => step, fun j => wire_check_bit _, (wire_end_bits _).1,
        (wire_end_bits _).2⟩
    case fault c =>
      exact ⟨by cases c <;> rfl, fun j hj => wire_payload_getD ⟨i, .fault c⟩ (bits_fault c) false rfl hj⟩
    case leave => trivial
    case claim q => exact fun j hj => wire_payload_getD ⟨i, .claim q⟩ (bits_claim q) false rfl hj
    case beacon ph a m st =>
      have word {n : Nat} {v : BitVec n} {x c : List Bit}
          (h : (Payload.beacon ph a m st).bits = x ++ (wordBits v ++ c)) {k j : Nat}
          (hk : k = 8 + x.length + j) (hj : j < n) :
          (⟨i, .beacon ph a m st⟩ : Frame).wire.getD k false = v.getMsbD j :=
        wire_payload_getD ⟨i, .beacon ph a m st⟩ h false hk hj
      exact ⟨fun j hj => ⟨word (bits_beacon_phase ph a m st) rfl hj,
        word (bits_beacon_heard ph a m st) (by simp) hj,
        word (bits_beacon_member ph a m st) (by simp) hj⟩, by cases st <;> rfl,
        fun j hj => word (bits_beacon_state ph a m st) (by simp) hj⟩
  · rw [verdictAfter_wire f hr (by omega), if_neg (by omega)]
  · have h := verdictAfter_wire f hr (le_refl _)
    rwa [List.take_length, if_pos rfl] at h

end Sys2Proof.Machine

/-! The receiving side of the line: edges, errors and recovery, conflicts and mismatches (Chapter 2). -/

namespace Sys2Proof.Machine

set_option Elab.async false

/-! ### The SOF edge -/

/-- The state in which the receiver has found an edge, record opened (R24). -/
theorem onSofEdge_hunt {s : State} (h : s.line.mode = .hunt) (b : Bit) : onSofEdge b s =
    s.openFrame.sampleSof ⟨0, s.sample, s.tx.inFlight.any fun f => f.awaiting.isSome, [], 0⟩ b := by
  simp only [onSofEdge, h]
  cases hf : s.tx.inFlight <;> simp only [State.openFrame, hf, Option.any]

theorem openFrame_inFlight (s : State) : s.openFrame.tx.inFlight = s.tx.inFlight.map fun f =>
    { f with awaiting := none, bit := if f.awaiting.isSome then 0 else f.bit } := by
  cases hf : s.tx.inFlight <;> simp [State.openFrame, hf]

theorem openFrame_tx (s : State) : s.openFrame.tx = { s.tx with
    idleCount := 0
    lineIdle := false
    inFlight := s.tx.inFlight.map fun f =>
      { f with awaiting := none, bit := if f.awaiting.isSome then 0 else f.bit } } := by
  rw [← openFrame_inFlight]
  rfl

/-- A transmit error takes the receiver to RECOVER and starts the mark with the next bit (R33, R44). -/
theorem transmitError_of_error {s : State} {f : InFlight} {n : Nat} (hf : s.tx.inFlight = some f)
    (ha : f.abort = false) (he : isTransmitError f.frame n = true) :
    s.transmitError n = (s.failTransmit f n).startMark n := by
  simp only [State.transmitError, hf, ha, he, Bool.not_false, Bool.and_self, if_true]

theorem isTransmitError_iff (f : Frame) (n : Nat) : isTransmitError f n = true ↔
    n < f.payload.kind.total ∧ ¬ (1 ≤ n ∧ n ≤ 7 ∧ f.bitAt n = true) := by
  simp only [isTransmitError, lostBitOk, Bool.and_eq_true, Bool.not_eq_true', decide_eq_true_eq,
    ← Bool.not_eq_true]
  tauto

theorem total_pos (k : FrameKind) : 0 < k.total := by
  cases k <;> decide

/-- Settles O12: the edge opens the record, and the sample of bit 0 confirms, drops or fails it. -/
theorem sofEdgeOpensAFrame : Obligations.SofEdgeOpensAFrame := by
  intro s h
  have edge (b : Bit) : exec (.sofEdge b) s = .next (onSofEdge b s) := rfl
  simp only [edge, onSofEdge_hunt h]
  refine ⟨?_, fun foreign => ?_, fun f n hf hn ha => ?_⟩
  · refine congrArg Host.Outcome.next ?_
    simp only [State.sampleSof, Bool.false_eq_true, if_false, State.atSample, Contention.sampled, openFrame_tx]
    rfl
  · have own : (s.tx.inFlight.any fun f => f.awaiting.isSome) = false := by
      cases hf : s.tx.inFlight with
      | none => rfl
      | some f => simp [foreign f hf]
    have kept : s.openFrame.tx.inFlight = s.tx.inFlight := by
      rw [openFrame_inFlight]
      cases hf : s.tx.inFlight with
      | none => rfl
      | some f =>
        have quiet := foreign f hf
        cases f
        simp only at quiet
        simp [quiet]
    refine congrArg Host.Outcome.next ?_
    simp only [State.sampleSof, if_true, own, Bool.false_eq_true, if_false, State.atSample, Contention.sampled,
      Bool.false_and]
    have tx := openFrame_tx s
    rw [← openFrame_inFlight, kept] at tx
    rw [tx]
    rfl
  · have own : (s.tx.inFlight.any fun f => f.awaiting.isSome) = true := by simp [hf, hn]
    have sent := openFrame_inFlight s
    simp only [hf, Option.map_some, hn, Option.isSome_some, if_true] at sent
    refine ⟨_, rfl, ?_⟩
    simp only [State.sampleSof, if_true, own]
    rw [transmitError_of_error sent ha
      ((isTransmitError_iff _ _).2 ⟨total_pos _, by omega⟩)]
    obtain ⟨mark, mode⟩ := failTransmit_inFlight s.openFrame
      { f with awaiting := none, bit := 0 } 0
    exact ⟨mode, by simp [State.startMark, mark], rfl⟩

/-! ### Receive errors and recovery -/

/-- A receive error drops the record for RECOVER and is counted; an entry to LISTEN keeps the record (R30). -/
theorem frameError_of_error {s : State} {r : RxRecord} {bits : List Bit} (hm : s.line.mode = .receive r)
    (ho : r.own = false) (hne : bits ≠ []) (hv : verdictAfter r bits = .error)
    (hall : ∀ n, 0 < n → n < bits.length → verdictAfter r (bits.take n) = .more) :
    ∃ i l, s.frameError bits = (({ s with
        pins := { s.pins with lineRx := bits.getLastD true }
        line := ⟨.recover 0 0, s.cfg.bitTicks / 2, bits.getLastD true⟩
        tx := { s.tx with idleCount := i, lineIdle := l } } : State).countError 0).keepDropped s r := by
  obtain ⟨i, l, ht⟩ := errorAfter_of_error s.tx hne hv hall
  exact ⟨i, l, by simp only [State.frameError, hm, ho, ht, Bool.false_eq_true, if_false]; rfl⟩

theorem dominantRun_recover {s : State} {a d : Nat} (h : s.line.mode = .recover a d) :
    s.dominantRun = ({ s with
      pins := { s.pins with lineRx := false }
      line := ⟨.recover 0 0, s.cfg.bitTicks / 2, false⟩
      tx := { s.tx with idleCount := 0, lineIdle := false } } : State).countError 0 := by
  simp only [State.dominantRun, h]
  rfl

theorem aborting_iff (s : State) : s.aborting = true ↔ ∃ f, s.tx.inFlight = some f ∧ f.abort = true := by
  cases h : s.tx.inFlight <;> simp [State.aborting, h]

theorem not_aborting_iff (s : State) :
    s.aborting = false ↔ ∀ f, s.tx.inFlight = some f → f.abort = false := by
  cases h : s.tx.inFlight <;> simp [State.aborting, h]

/-- Settles O13: each error is counted once, and RECOVER ends where no abort mark is driven. -/
theorem receiverErrorsAndRecovery : Obligations.ReceiverErrorsAndRecovery := by
  refine ⟨fun s bits hl he => ?_, fun s a d hl hm => ?_, fun s a d hm ha => ?_, fun s hm ha => ?_,
    fun s f hf ha => ?_⟩
  · obtain ⟨-, hne, r, hm, ho, hv, hall⟩ := he
    obtain ⟨i, l, h⟩ := frameError_of_error hm ho hne hv hall
    rw [countError_below 0 (by exact hl), State.keepDropped, if_neg fun k => k.1 k.2] at h
    exact ⟨s.frameError bits, rfl, by rw [h], by rw [h]; rfl, by rw [h]⟩
  · refine congrArg Host.Outcome.next ((dominantRun_recover hm).trans ?_)
    rw [countError_below 0 (by exact hl)]
    rfl
  · refine congrArg Host.Outcome.next ?_
    simp only [onRecoverIdle, hm, (not_aborting_iff s).2 ha, Bool.false_eq_true, if_false]
    rfl
  · refine congrArg Host.Outcome.next ?_
    rcases hm with hm | ⟨a, d, hm⟩ <;>
      · simp only [onLineIdle, hm, (not_aborting_iff s).2 ha, Bool.false_eq_true, if_false]
        rfl
  · have mark := (aborting_iff s).2 ⟨f, hf, ha⟩
    refine ⟨congrArg Host.Outcome.next ?_, congrArg Host.Outcome.next ?_⟩
    · rw [onRecoverIdle]
      split <;> simp [mark]
    · rw [onLineIdle]
      split <;> simp [mark]

/-! ### Frames that go no further -/

/-- A valid foreign frame is delivered after what every valid frame does on the line (R34). -/
theorem exec_receiveCommand {s : State} {f : Frame} {r : RxRecord} (h : s.foreignRecord f = some r) :
    exec (receiveCommand f) s = .next ((s.afterValidFrame f).deliver r.sample f) := by
  obtain ⟨i, p⟩ := f
  cases p <;> refine congrArg Host.Outcome.next ?_
  case fault => simp only [onRxFault, h]; rfl
  case leave => simp only [onRxLeave, h]; rfl
  case claim => simp only [onRxClaim, h]; rfl
  case beacon => simp only [onRxBeacon, h]; rfl

/-- A frame of the own identity is delivered to none but the sequencer (R35). -/
theorem deliver_own {s : State} {f : Frame} (p : PhaseSample) (h : f.sender = s.own) :
    s.deliver p f = s.identityConflict f.payload.kind := by
  obtain ⟨i, q⟩ := f
  cases q <;> exact if_pos h

/-- Settles O14: the conflict is the clearing entry with its event, after the end of the frame. -/
theorem identityConflictBlocks : Obligations.IdentityConflictBlocks := by
  intro s f r hr hf
  have own : f.sender = (s.afterValidFrame f).own := hf
  rw [exec_receiveCommand (foreignRecord_of_receiving hr), deliver_own _ own]
  refine ⟨fun acts => ?_, fun quiet => ?_⟩
  · rw [State.identityConflict, if_pos (by exact acts)]
    obtain ⟨carrier, servo, gate, -⟩ := enterClearing_frame (s.afterValidFrame f) (.blocked .idConflict)
    exact ⟨_, rfl, rfl, raise_cleared (enterClearing_cleared _ _) _, rfl, ⟨carrier, servo, gate, rfl⟩, rfl,
      rfl, rfl, rfl⟩
  · rw [State.identityConflict, if_neg (by simpa [State.afterValidFrame] using quiet)]

/-- Settles O15: the two kinds that carry a phase or a period, each before roster and capture. -/
theorem periodMismatchIsReported : Obligations.PeriodMismatchIsReported := by
  intro s f r hr hf mismatch
  rw [exec_receiveCommand (foreignRecord_of_receiving hr)]
  have report : (s.afterValidFrame f).deliver r.sample f =
      (s.afterValidFrame f).periodMismatch f.sender f.payload.kind := by
    obtain ⟨i, p⟩ := f
    cases p with
    | fault => exact mismatch.elim
    | leave => exact mismatch.elim
    | claim q => exact (if_neg hf).trans (if_pos mismatch)
    | beacon => exact (if_neg hf).trans (if_pos mismatch)
  rw [report, State.periodMismatch]
  refine congrArg Host.Outcome.next ?_
  by_cases acts : s.seq.sync.actsOnPeers = true
  · rw [if_pos acts]
    exact if_pos acts
  · rw [if_neg acts]
    exact if_neg acts

end Sys2Proof.Machine

/-! The transmit queue and the transmitting side of the line (Chapter 3), and DETACH (R133). -/

namespace Sys2Proof.Machine

set_option Elab.async false

/-! ### Offers to the queue -/

theorem transmits_of_portRefusal {s : State} {c : StatusCode} (h : s.portRefusal = some c) :
    s.seq.sync.transmits = false := by
  unfold State.portRefusal at h
  split_ifs at h with load blocked
  · rw [load]
    rfl
  · generalize s.seq.sync = x at blocked
    cases x <;> simp [SyncState.configBlocked, SyncState.transmits] at blocked ⊢

theorem localFault_queue (s : State) (c : LocalCause) : (s.localFault c).tx.queue =
    if s.seq.sync.transmits then s.tx.queue.offerFault c else s.tx.queue := by
  unfold State.localFault
  split_ifs <;> simp

theorem onTrip_queue (s : State) : (onTrip s).tx.queue =
    if s.seq.sync.transmits then s.tx.queue.offerFault .command else s.tx.queue := by
  unfold onTrip
  split
  · rename_i h
    rw [transmits_of_portRefusal h]
    rfl
  · exact localFault_queue s .command

/-- DETACH in a grouped station below the link's limit answers ALREADY beside a LEAVE and offers one
otherwise (R133). -/
theorem onDetach_grouped {s : State} (hg : s.seq.sync.grouped = true)
    (hl : s.seq.sync = .holdover → s.linkAtLimit = false) : onDetach s =
    if s.leavePending then s.reply 0x18 0 .already [] else s.offerLeave.reply 0x18 0 .done [] := by
  unfold onDetach
  split <;> rename_i hs
  case h_6 | h_7 => rfl
  case h_8 => simp only [hl hs, Bool.false_eq_true, if_false]
  all_goals simp [hs, SyncState.grouped] at hg

/-- Settles O16, the offers of TRIP, of DETACH and of a boundary one after another. -/
theorem queueAnswersOffers : Obligations.QueueAnswersOffers := by
  refine ⟨fun s t h => ?_, fun s t h hg hl => ?_, fun s t h due => ?_⟩
  · rw [← Host.Outcome.next.inj h, onTrip_queue]
    cases hq : s.tx.queue.fault <;> simp [TxQueue.offerFault, hq]
  · rw [← Host.Outcome.next.inj h, onDetach_grouped hg fun _ => decide_eq_false (by omega), State.leavePending]
    split
    · rfl
    · exact if_neg ‹_›
  · rw [exec_cycleBoundary due] at h
    rw [← Host.Outcome.next.inj h, boundary_tx]
    have join : s.reachesJoin = true ↔ s.seq.sync = .listen ∧ s.cfg.listenCycles ≤ s.seq.listen + 1 := by
      simp [State.reachesJoin]
    refine ⟨fun hg => ?_, fun hs hc => ?_, fun hs hc => ?_, fun hg hs => ?_⟩ <;> dsimp only [State.queueWork]
    · rw [if_neg fun j => by simp [(join.1 j).1, SyncState.grouped] at hg, if_pos hg]
      rfl
    · rw [if_pos (join.2 ⟨hs, hc⟩)]
      rfl
    · rw [if_neg fun j => absurd (join.1 j).2 (by omega), hs]
      rfl
    · rw [if_neg fun j => hs (join.1 j).1, if_neg (by simp [hg])]

/-! ### A frame start -/

theorem mayDrive_iff (s : State) : s.mayDrive = true ↔ s.tx.lineIdle = true ∧ s.line.mode = .hunt ∧
    s.pins.lineRx = true ∧ s.tx.inFlight = none ∧ s.seq.sync.transmits = true := by
  simp [State.mayDrive, and_assoc]

/-- Settles O17: the published maps, the sender state, and the first entry in kind order. -/
theorem frameStartTakesTheFirstEntry : Obligations.FrameStartTakesTheFirstEntry := by
  refine ⟨fun s i => ⟨lists_heardMap s i, lists_memberMap s i⟩,
    fun s => ⟨fun h => h ▸ rfl, fun h => h ▸ rfl, fun h => h ▸ rfl⟩, fun s idle hunt rx quiet sends => ?_⟩
  have starts : exec .txFrameStart s = .next (onTxFrameStart s) := rfl
  rw [starts, onTxFrameStart, if_pos ((mayDrive_iff s).2 ⟨idle, hunt, rx, quiet, sends⟩)]
  refine ⟨fun p hp => ?_, fun hq => ?_⟩
  · have next : s.nextPayload = some p := by
      cases hc : s.tx.queue.fault with
      | some c =>
        simp only [hc] at hp
        simp only [State.nextPayload, hc, hp]
      | none =>
        simp only [hc] at hp
        simp only [State.nextPayload, hc]
        split_ifs at hp ⊢ with leave claim beacon
        · rw [hp]
        · rw [hp]
        · rw [hp.2]
        · exact absurd hp.1 beacon
    simp only [next]
    rfl
  · simp only [State.nextPayload, hq, TxQueue.empty, Bool.false_eq_true, if_false]

/-! ### A lost arbitration -/

/-- Kind and sender bits are all fed into the check (R28). -/
theorem feed_crc_header {r : RxRecord} {l : List Bit} (hr : r.bits ≠ []) (hl : r.bits.length + l.length ≤ 8) :
    (l.foldl RxRecord.feed r).crc = l.foldl frameCrcStep r.crc := by
  induction l generalizing r with
  | nil => rfl
  | cons b l ih =>
    simp only [List.length_cons] at hl
    have fed : (r.feed b).crc = frameCrcStep r.crc b := by
      have : feedsCheck r.bits = true := by
        rw [feedsCheck, decide_eq_true (by omega), Bool.true_or]
      simp [RxRecord.feed, hr, this]
    rw [List.foldl_cons, List.foldl_cons, ih (by simp [RxRecord.feed]) (by simp [RxRecord.feed]; omega), fed]

/-- The check of a record that starts at the SOF is that of the bits after it. -/
theorem feed_crc_start {r : RxRecord} (hr : r.bits = []) (b : Bit) {l : List Bit} (hl : l.length ≤ 7) :
    ((b :: l).foldl RxRecord.feed r).crc = frameCrc l := by
  rw [List.foldl_cons, feed_crc_header (by simp [RxRecord.feed]) (by simp [RxRecord.feed, hr]; omega)]
  simp [RxRecord.feed, hr, frameCrc]

theorem lostBits_eq (f : Frame) (k : Nat) : ∃ l, lostBits f (k + 1) = false :: l ∧ l.length ≤ k + 1 := by
  refine ⟨_, rfl, ?_⟩
  simp

/-- Settles O18: the record is the wire's start with the bit of the loss, fed from the edge. -/
theorem lossTurnsTheFrameForeign : Obligations.LossTurnsTheFrameForeign := by
  intro s f bit hf ha h1 h7 hb
  have lost : onArbitrationLost bit s = s.loseArbitration f bit := by
    simp [onArbitrationLost, hf, ha, hb, lostBitOk, h1, h7]
  refine ⟨_, s.lostRecord f bit, congrArg Host.Outcome.next lost, rfl, ?_, ?_, ?_, ?_, ?_, ?_, rfl⟩
  · exact (feed_keeps _ _).2.2
  · exact (feed_bits _ _).trans (List.nil_append _)
  · have bits : (s.lostRecord f bit).bits = lostBits f.frame bit := (feed_bits _ _).trans (List.nil_append _)
    obtain ⟨k, rfl⟩ := Nat.exists_eq_add_of_le' h1
    obtain ⟨l, hl, length⟩ := lostBits_eq f.frame k
    rw [bits, State.lostRecord, hl]
    exact feed_crc_start rfl false (by omega)
  · exact (feed_keeps _ _).1
  · intro r hr
    rw [State.lostRecord, (feed_keeps _ _).2.1]
    simp only [hr]
  · intro hr
    rw [State.lostRecord, (feed_keeps _ _).2.1]
    split
    · rename_i r hm
      exact absurd hm (hr r)
    all_goals rfl

/-! ### A transmit error and its mark -/

/-- A transmit error leaves the frame in flight as an abort, the receiver in RECOVER, and is counted before
the mark starts (R42, R44). -/
theorem transmitError_eq {s : State} {f : InFlight} {n : Nat} (hf : s.tx.inFlight = some f)
    (ha : f.abort = false) (he : isTransmitError f.frame n = true) :
    ∃ i l, s.transmitError n = (({ s with
      pins := { s.pins with lineRx := !f.frame.bitAt n }
      line := ⟨.recover 0 0, s.cfg.bitTicks / 2, !f.frame.bitAt n⟩
      tx := { s.tx with
        idleCount := i
        lineIdle := l
        inFlight := some { f with awaiting := none, bit := n, abort := true }
        } } : State).countError 1).startMark
      n := by
  obtain ⟨i, l, sampled⟩ :=
    sampled_eq s.tx (decide (n < f.frame.payload.kind.endAt)) (!f.frame.bitAt n)
  refine ⟨i, l, ?_⟩
  rw [transmitError_of_error hf ha he, State.failTransmit]
  simp only [State.atSample, sampled]

/-- The end of an abort mark, reached with the samples still to come. -/
theorem onAbortMarkEnd_of_abort {s : State} {f : InFlight} (hf : s.tx.inFlight = some f)
    (ha : f.abort = true) : onAbortMarkEnd s = s.endMark (s.markSamplesLeft f) := by
  simp only [onAbortMarkEnd, hf, ha, if_true]

/-- Settles O19: the error is counted below the limit, and the mark's end counts from there. -/
theorem transmitErrorDrivesTheMark : Obligations.TransmitErrorDrivesTheMark := by
  refine ⟨fun s f n hl he hf => ?_, fun s f left hf ha hleft => ?_⟩
  · obtain ⟨-, g, hg, ha, hn, arb⟩ := he
    obtain rfl : f = g := Option.some.inj (hf.symm.trans hg)
    obtain ⟨i, l, h⟩ := transmitError_eq hf ha ((isTransmitError_iff _ _).2 ⟨hn, arb⟩)
    rw [countError_below 1 (by exact hl)] at h
    exact ⟨s.transmitError n, rfl, by rw [h]; rfl, by rw [h]; rfl, by rw [h]; rfl⟩
  · have samples : s.markSamplesLeft f = left := hleft.symm
    refine ⟨_, congrArg Host.Outcome.next ((onAbortMarkEnd_of_abort hf ha).trans (congrArg _ samples)), ?_⟩
    refine ⟨fun a d hm => ?_, fun hm => ?_, ?_⟩
    · simp only [State.endMark, hm, RxMode.afterMark]
    · have kept : s.line.mode.afterMark left = s.line.mode := by
        cases h : s.line.mode with
        | recover a d => exact absurd h (hm a d)
        | _ => rfl
      exact kept
    · by_cases h0 : left = 0 <;> simp [State.endMark, h0]

/-! ### A completed frame -/

/-- The state after an own frame good to its last end bit, before the sequencer answers (R45). -/
theorem completeFrame_eq (s : State) (f : InFlight) : s.completeFrame f = ({ s with
    pins := { s.pins with lineRx := true }
    line := ⟨.hunt, s.cfg.bitTicks / 2, true⟩
    tx := { s.tx with
      idleCount := idleAfterFrame f.frame
      linkErr := 0
      queue := s.tx.queue.remove f.frame.payload.kind
      inFlight := none
      beaconSent := s.tx.beaconSent || f.frame.payload.kind == .beacon
      lineTx := false } } : State).answerCompletion f.frame.payload.kind := rfl

/-- Settles O20: a completed LEAVE parks a grouped station, a completed CLAIM takes JOIN to ACQUIRE. -/
theorem completionReportsTheFrame : Obligations.CompletionReportsTheFrame := by
  intro s f hf ha
  have done : onFrameComplete s = s.completeFrame f := by simp only [onFrameComplete, hf, ha]; rfl
  refine ⟨_, congrArg Host.Outcome.next (done.trans (completeFrame_eq s f)), ?_⟩
  generalize f.frame.payload.kind = k
  by_cases parks : k = .leave ∧ s.seq.sync.grouped = true
  · obtain ⟨rfl, hg⟩ := parks
    rw [State.answerCompletion, if_pos hg]
    exact ⟨rfl, rfl, rfl, rfl, rfl, fun h => absurd ⟨rfl, hg⟩ h,
      fun _ _ => ⟨rfl, park_cleared _ 1, rfl, ⟨rfl, ⟨rfl, rfl⟩, rfl, rfl⟩, rfl, rfl⟩⟩
  · by_cases joins : k = .claim ∧ s.seq.sync = .join
    · obtain ⟨rfl, hj⟩ := joins
      rw [State.answerCompletion, if_pos hj]
      refine ⟨rfl, rfl, rfl, rfl, rfl, fun _ => ⟨rfl, ?_⟩, fun h => by cases h⟩
      rw [if_pos ⟨rfl, hj⟩, if_pos ⟨rfl, hj⟩]
    · have still (u : State) (hu : u.seq = s.seq) : u.answerCompletion k = u := by
        cases k with
        | fault => rfl
        | beacon => rfl
        | leave => exact if_neg fun h => parks ⟨rfl, hu ▸ h⟩
        | claim => exact if_neg fun h => joins ⟨rfl, hu ▸ h⟩
      rw [still _ (by rfl)]
      refine ⟨rfl, rfl, rfl, rfl, rfl, fun _ => ⟨rfl, ?_⟩, fun h hg => absurd ⟨h, hg⟩ parks⟩
      rw [if_neg joins, if_neg joins]

end Sys2Proof.Machine

/-! The error that reaches the limit of the link error counter (R53, R54). -/

namespace Sys2Proof.Machine

set_option Elab.async false

/-! ### Link down by the sync state -/

theorem countError_reaches {s : State} (d : Byte) (h : s.errorReachesLimit = true) :
    s.countError d = ({ s with tx := { s.tx with linkErr := s.cfg.linkErrLimit } } : State).linkDown d := by
  simp only [State.errorReachesLimit, Bool.and_eq_true, decide_eq_true_eq] at h
  obtain ⟨below, reach⟩ := h
  rcases countError_cases s d with ⟨h1, -⟩ | ⟨h1, -⟩ | ⟨h1, e⟩
  · omega
  · omega
  · rw [e, h1]

theorem linkDown_of {s t : State} {l : List EventRecord} (d : Byte) (h : s.answerLinkDown = (t, l)) :
    s.linkDown d = t.raiseAll (eventOf .linkDown none d s.carrier.cycle :: l) := by
  rw [State.linkDown, h]

theorem answerLinkDown_parks {s : State} (hg : s.seq.sync.grouped = true) (hl : s.tx.queue.leave = true) :
    s.answerLinkDown = (s.enterClearing .parked, [eventOf .parked none 2 s.carrier.cycle]) := by
  unfold State.answerLinkDown
  split <;> rename_i hs
  case h_6 | h_7 | h_8 => exact if_pos hl
  all_goals simp [hs, SyncState.grouped] at hg

theorem answerLinkDown_listens {s : State}
    (h : s.seq.sync = .join ∨ s.seq.sync = .acquire ∧ s.tx.queue.leave = false) :
    s.answerLinkDown = (s.enterClearing .listen, []) := by
  rcases h with h | ⟨h, hl⟩
  · simp only [State.answerLinkDown, h]
  · simp only [State.answerLinkDown, h, State.leavePending, hl, Bool.false_eq_true, if_false]

theorem answerLinkDown_listen {s : State} (h : s.seq.sync = .listen) :
    s.answerLinkDown = ({ s with seq := { s.seq with listen := 0 } }, []) := by
  simp only [State.answerLinkDown, h]

theorem answerLinkDown_locked {s : State} (h : s.seq.sync = .locked) (hl : s.tx.queue.leave = false) :
    s.answerLinkDown = (s.enterHoldover,
      if s.cfg.holdoverMax = 0 then [eventOf .holdoverExpired none 0 s.carrier.cycle] else []) := by
  simp only [State.answerLinkDown, h, State.leavePending, hl, Bool.false_eq_true, if_false]

theorem answerLinkDown_holdover {s : State} (h : s.seq.sync = .holdover) (hl : s.tx.queue.leave = false) :
    s.answerLinkDown = (s, []) := by
  simp only [State.answerLinkDown, h, State.leavePending, hl, Bool.false_eq_true, if_false]

theorem answerLinkDown_quiet {s : State} (h : s.seq.sync.actsOnPeers = false) : s.answerLinkDown = (s, []) := by
  unfold State.answerLinkDown
  split <;> rename_i hs
  case h_1 | h_2 | h_3 => rfl
  all_goals simp [hs, SyncState.actsOnPeers] at h

/-- PARKED, BLOCKED and LOAD keep their state, and HOLDOVER with no LEAVE pending. -/
theorem linkDown_stays {s : State} (d : Byte)
    (h : s.seq.sync.actsOnPeers = false ∨ s.seq.sync = .holdover ∧ s.tx.queue.leave = false) :
    s.linkDown d = s.raise (eventOf .linkDown none d s.carrier.cycle) := by
  rcases h with h | ⟨h, hq⟩
  · rw [linkDown_of d (answerLinkDown_quiet h), raiseAll_one]
  · rw [linkDown_of d (answerLinkDown_holdover h hq), raiseAll_one]

theorem countError_tx (s : State) (d : Byte) : (s.countError d).tx = { s.tx with
    queue := (s.countError d).tx.queue, linkErr := (s.countError d).tx.linkErr } := by
  rcases countError_cases s d with ⟨-, e⟩ | ⟨-, e⟩ | ⟨-, e⟩
  · rw [e]
  · rw [e]
  · rw [e, linkDown_tx, answerLinkDown_tx]

/-! ### The error before and after it is counted -/

/-- The state in which an error is counted: the receiver is in RECOVER, and the samples read have moved the
idle count and the idle line. -/
def State.erred (s : State) (rx : Bit) (idle : Nat) (rests : Bool) (sent : Option InFlight) : State :=
  { s with
    pins := { s.pins with lineRx := rx }
    line := ⟨.recover 0 0, s.cfg.bitTicks / 2, rx⟩
    tx := { s.tx with idleCount := idle, lineIdle := rests, inFlight := sent } }

/-- What an error's command still moves after the count: the line's grid and level, the frame in flight, and
the record kept. -/
def State.afterCount (s : State) (line : Line) (tx : Bool) (sent : Option InFlight)
    (kept : Option DroppedRecord) : State :=
  { s with line := line, tx := { s.tx with lineTx := tx, inFlight := sent }, dropped := kept }

theorem afterCount_self (s : State) : s.afterCount s.line s.tx.lineTx s.tx.inFlight s.dropped = s := rfl

theorem afterCount_cleared {s : State} (h : Cleared s) (line : Line) (tx : Bool) (sent : Option InFlight)
    (kept : Option DroppedRecord) : Cleared (s.afterCount line tx sent kept) :=
  ⟨h.queue, h.roster, h.log, h.adopted, h.previous, h.settle, h.target, h.servo, h.fraction, h.counts,
    h.permission⟩

theorem countError_lineTx (s : State) (d : Byte) : (s.countError d).tx.lineTx = s.tx.lineTx ∧
    (s.countError d).tx.inFlight = s.tx.inFlight := by
  rw [countError_tx]
  exact ⟨rfl, rfl⟩

theorem keepDropped_eq (u s : State) (r : RxRecord) : u.keepDropped s r =
    u.afterCount u.line u.tx.lineTx u.tx.inFlight
      (if s.seq.sync ≠ .listen ∧ u.seq.sync = .listen then some ⟨r, u.carrier⟩ else u.dropped) := by
  unfold State.keepDropped
  split_ifs <;> rfl

/-- The line's grid after an error: the next bit begins with the abort mark (R25, R44). -/
def State.gridAfter (s : State) : LinkError → Nat
  | .receive _ => s.cfg.bitTicks / 2
  | .dominantRun => s.cfg.bitTicks / 2
  | .transmit _ => 0

/-- LINE_TX after an error: that of the abort mark where there is one. -/
def State.levelAfter (s : State) : LinkError → Bool
  | .receive _ => s.tx.lineTx
  | .dominantRun => s.tx.lineTx
  | .transmit n => decide (n < 67)

/-- The frame in flight after an error: an abort where it was an own frame's. -/
def State.sentAfter (s : State) : LinkError → Option InFlight
  | .receive _ => s.tx.inFlight
  | .dominantRun => s.tx.inFlight
  | .transmit n => s.tx.inFlight.map fun f => { f with awaiting := none, bit := n + 1, abort := true }

/-- The record kept after an error that leaves `u`: that of a foreign frame which took the station to LISTEN. -/
def State.keptAfter (s u : State) (r : RxRecord) : LinkError → Option DroppedRecord
  | .receive _ => if s.seq.sync ≠ .listen ∧ u.seq.sync = .listen then some ⟨r, u.carrier⟩ else s.dropped
  | .dominantRun => s.dropped
  | .transmit _ => s.dropped

/-- What an error's command leaves of `s` where the count leaves `u`. -/
def State.afterError (s u : State) (r : RxRecord) (e : LinkError) : State :=
  u.afterCount ⟨.recover 0 0, s.gridAfter e, u.line.rxPrev⟩ (s.levelAfter e) (s.sentAfter e) (s.keptAfter u r e)

/-- What the count of an error leaves alone on the line's side. -/
theorem countError_erred (s : State) (rx : Bit) (i : Nat) (l : Bool) (sent : Option InFlight) (d : Byte) :
    ((s.erred rx i l sent).countError d).line = ⟨.recover 0 0, s.cfg.bitTicks / 2, rx⟩ ∧
    ((s.erred rx i l sent).countError d).tx.lineTx = s.tx.lineTx ∧
    ((s.erred rx i l sent).countError d).tx.inFlight = sent ∧
    ((s.erred rx i l sent).countError d).dropped = s.dropped :=
  ⟨countError_line _ d, (countError_lineTx _ d).1, (countError_lineTx _ d).2, countError_dropped _ d⟩

/-- The three errors, each counted in a state of one form and finished by one rule. -/
theorem onLinkDown_leaves {s : State} {e : LinkError} {d : Byte} (hl : s.errorReachesLimit = true)
    (he : ErrorArises s d e) : ∃ rx idle rests sent r,
    onLinkDown e s = s.afterError ((s.erred rx idle rests sent).countError d) r e ∧
      ∀ q, s.line.mode = .receive q → (∃ bits, e = .receive bits) → r = q := by
  cases e with
  | receive bits =>
    obtain ⟨rfl, hne, r, hm, ho, hv, hall⟩ := he
    obtain ⟨i, l, h⟩ := frameError_of_error hm ho hne hv hall
    obtain ⟨line, level, sent, dropped⟩ := countError_erred s (bits.getLastD true) i l s.tx.inFlight 0
    refine ⟨bits.getLastD true, i, l, s.tx.inFlight, r, (if_pos hl).trans (h.trans ?_), fun q hq _ => ?_⟩
    · refine (keepDropped_eq (State.countError (s.erred _ i l _) 0) s r).trans ?_
      rw [State.afterError, line, level, sent, dropped]
      rfl
    · exact RxMode.receive.inj (hm.symm.trans hq)
  | dominantRun =>
    obtain ⟨rfl, a, b, hm⟩ := he
    obtain ⟨line, level, sent, dropped⟩ := countError_erred s false 0 false s.tx.inFlight 0
    refine ⟨false, 0, false, s.tx.inFlight, ⟨0, s.sample, false, [], 0⟩,
      (if_pos hl).trans ((dominantRun_recover hm).trans ?_), fun q hq _ => ?_⟩
    · refine (afterCount_self (State.countError (s.erred _ _ _ _) 0)).symm.trans ?_
      rw [State.afterError, line, level, sent, dropped]
      rfl
    · rw [hm] at hq
      cases hq
  | transmit n =>
    obtain ⟨rfl, f, hf, ha, hn, arb⟩ := he
    obtain ⟨i, l, h⟩ := transmitError_eq hf ha ((isTransmitError_iff _ _).2 ⟨hn, arb⟩)
    obtain ⟨line, level, sent, dropped⟩ := countError_erred s (!f.frame.bitAt n) i l
      (some { f with awaiting := none, bit := n, abort := true }) 1
    refine ⟨!f.frame.bitAt n, i, l, some { f with awaiting := none, bit := n, abort := true },
      ⟨0, s.sample, false, [], 0⟩, (if_pos hl).trans (h.trans ?_), fun q hq hb => ?_⟩
    · change State.startMark (State.countError (s.erred _ i l _) 1) n = _
      rw [State.afterError, State.afterCount, State.startMark, line, sent, State.sentAfter, hf,
        State.keptAfter, ← dropped]
      rfl
    · obtain ⟨bits, hb⟩ := hb
      cases hb

/-! ### The states that link down leaves -/

theorem enterHoldover_seq (s : State) : s.enterHoldover.seq = ⟨.holdover, s.seq.listen, 0,
    decide (s.cfg.holdoverMax = 0), s.cfg.gateInHoldover && decide (s.cfg.holdoverMax ≠ 0)⟩ := by
  simp [State.enterHoldover]

theorem enterHoldover_gate (s : State) : s.enterHoldover.gate =
    if s.gate.state = .running ∧ s.enterHoldover.seq.permission = false then
      { s.gate with state := .armed, hi := false, lo := false } else s.gate := by
  simp only [State.enterHoldover, Gate.withdraw]
  split_ifs <;> simp_all

theorem keptAfter_of_stays {s u : State} (r : RxRecord) (e : LinkError)
    (h : s.seq.sync = .listen ∨ u.seq.sync ≠ .listen) : s.keptAfter u r e = s.dropped := by
  cases e with
  | receive bits => exact if_neg fun k => h.elim k.1 fun hu => hu k.2
  | dominantRun => rfl
  | transmit n => rfl

theorem afterError_of_stays {s u : State} (r : RxRecord) (e : LinkError)
    (h : s.seq.sync = .listen ∨ u.seq.sync ≠ .listen) : s.afterError u r e =
    u.afterCount ⟨.recover 0 0, s.gridAfter e, u.line.rxPrev⟩ (s.levelAfter e) (s.sentAfter e) s.dropped := by
  rw [State.afterError, keptAfter_of_stays r e h]

/-- Settles O21: the count's state by the sync state, finished by the error's rule. -/
theorem linkDownByState : Obligations.LinkDownByState := by
  intro s e d hl he
  obtain ⟨rx, i, l, sent, r, h, hr⟩ := onLinkDown_leaves hl he
  obtain ⟨line, -, -, dropped⟩ := countError_erred s rx i l sent d
  have pins := countError_pins (s := s.erred rx i l sent) d
  have tx := countError_tx (s.erred rx i l sent) d
  have count := countError_reaches (s := s.erred rx i l sent) d hl
  generalize (s.erred rx i l sent).countError d = u at *
  refine ⟨_, congrArg Host.Outcome.next h, rfl, ?_, ?_, ?_, ?_⟩
  · simp only [State.afterError, State.afterCount, line, pins]
    rfl
  · rw [State.afterError, State.afterCount, tx]
    rfl
  · cases e <;> exact ⟨rfl, rfl, rfl⟩
  · intro down parked expired parks listens stays
    have parked_of (hg : s.seq.sync.grouped = true) (hq : s.tx.queue.leave = true) : parks := by
      rw [linkDown_of d (answerLinkDown_parks (by exact hg) (by exact hq))] at count
      subst count
      exact ⟨rfl, rfl, afterCount_cleared (raiseAll_cleared (enterClearing_cleared _ _) _) _ _ _ _,
        ⟨rfl, ⟨rfl, rfl⟩, rfl, (afterError_of_stays r e (.inr (by exact nofun))).trans rfl⟩,
        raiseAll_two _ _ _⟩
    have listens_of (hs : s.seq.sync = .join ∨ s.seq.sync = .acquire ∧ s.tx.queue.leave = false) : listens := by
      rw [linkDown_of d (answerLinkDown_listens (by exact hs))] at count
      subst count
      have moved : s.seq.sync ≠ .listen := by rcases hs with hs | ⟨hs, -⟩ <;> simp [hs]
      refine ⟨rfl, rfl, afterCount_cleared (raiseAll_cleared (enterClearing_cleared _ _) _) _ _ _ _,
        ⟨rfl, ⟨rfl, rfl⟩, rfl, rfl⟩, fun bits q hb hq => ?_, fun hb => ?_, rfl⟩
      · rw [← hr q hq ⟨bits, hb⟩, hb]
        exact if_pos ⟨moved, rfl⟩
      · cases e with
        | receive bits => exact absurd rfl (hb bits)
        | dominantRun => rfl
        | transmit n => rfl
    have stays_of (hs : s.seq.sync.actsOnPeers = false ∨ s.seq.sync = .holdover ∧ s.tx.queue.leave = false) :
        stays ∧ (s.afterError u r e).seq = s.seq := by
      rw [linkDown_stays d (by exact hs)] at count
      subst count
      have moved : s.seq.sync ≠ .listen := by
        rcases hs with hs | ⟨hs, -⟩ <;> intro k <;> rw [k] at hs <;> cases hs
      exact ⟨⟨rfl, rfl, (afterError_of_stays r e (.inr (by exact moved))).trans rfl⟩, rfl⟩
    split <;> rename_i hs
    · rw [linkDown_of d (answerLinkDown_listen (by exact hs))] at count
      subst count
      exact ⟨⟨rfl, rfl, (afterError_of_stays r e (.inl hs)).trans rfl⟩, rfl⟩
    · exact listens_of (.inl hs)
    · exact ⟨parked_of (by rw [hs]; rfl), fun hq => listens_of (.inr ⟨hs, hq⟩)⟩
    · refine ⟨parked_of (by rw [hs]; rfl), fun hq => ?_⟩
      rw [linkDown_of d (answerLinkDown_locked (by exact hs) (by exact hq))] at count
      by_cases h0 : s.cfg.holdoverMax = 0
      · rw [if_pos (by exact h0)] at count
        subst count
        exact ⟨enterHoldover_seq _, enterHoldover_gate _, rfl, rfl,
          (afterError_of_stays r e (.inr (by exact nofun))).trans rfl, fun k => absurd h0 k,
          fun _ => raiseAll_two _ _ _⟩
      · rw [if_neg (by exact h0)] at count
        subst count
        exact ⟨enterHoldover_seq _, enterHoldover_gate _, rfl, rfl,
          (afterError_of_stays r e (.inr (by exact nofun))).trans rfl, fun _ => rfl, fun k => absurd k h0⟩
    · exact ⟨parked_of (by rw [hs]; rfl), fun hq => stays_of (.inr ⟨hs, hq⟩)⟩
    all_goals exact stays_of (.inl (by rw [hs]; rfl))

end Sys2Proof.Machine

/-! Arrival capture and the roster: the stored error, deliveries of beacons and claims, misses (Chapters
4, 5). -/

namespace Sys2Proof.Machine

set_option Elab.async false

/-! ### The stored error -/

theorem wrapped_congr {p : Nat} (hp : 0 < p) {x y : Int} (h : (p : Int) ∣ x - y) :
    wrapped p x = wrapped p y := by
  obtain ⟨lower, upper⟩ := wrapped_range hp y
  refine wrapped_unique hp ?_ lower upper
  have := Int.dvd_add h (wrapped_dvd p y)
  rwa [sub_add_sub_cancel] at this

theorem wrapped_of_range {p : Nat} (hp : 0 < p) {x : Int} (lower : -(p : Int) ≤ 2 * x) (upper : 2 * x < p) :
    wrapped p x = x :=
  wrapped_unique hp (by rw [sub_self]; exact dvd_zero _) lower upper

theorem measuredError_dvd {p : Nat} (hp : 0 < p) (delay sent arrival : Nat) :
    (p : Int) ∣ ((sent : Int) + delay - arrival) - measuredError p delay sent arrival := by
  obtain ⟨a, ha⟩ := dvd_sub_reduce hp ((sent + delay : Nat) : Int)
  obtain ⟨b, hb⟩ := wrapped_dvd p ((reduce p ((sent + delay : Nat) : Int) : Int) - arrival)
  refine ⟨a + b, ?_⟩
  rw [Int.mul_add, measuredError]
  push_cast at ha hb ⊢
  omega

/-- Settles O23: both sides are wrapped differences of one class. -/
theorem storedErrorIsTheErrorAfterTheSteps : Obligations.StoredErrorIsTheErrorAfterTheSteps := by
  intro p delay sent arrival before now hp
  have range : -(p : Int) ≤ 2 * measuredError p delay sent arrival ∧
      2 * measuredError p delay sent arrival < p := wrapped_range hp _
  refine ⟨fun e he => he ▸ ⟨range.1, range.2, measuredError_dvd hp delay sent arrival⟩, ?_, ?_⟩
  · obtain ⟨a, ha⟩ := measuredError_dvd hp delay sent arrival
    obtain ⟨b, hb⟩ := dvd_sub_reduce hp ((now : Int) - before)
    obtain ⟨c, hc⟩ := dvd_sub_reduce hp ((sent + delay : Nat) : Int)
    obtain ⟨d, hd⟩ := dvd_sub_reduce hp ((arrival : Int) + ((now : Int) - before))
    refine wrapped_congr hp ⟨b + c - a - d, ?_⟩
    rw [Int.mul_sub, Int.mul_sub, Int.mul_add]
    push_cast at hc ⊢
    omega
  · rw [storedError, sub_self, show reduce p 0 = 0 by simp [reduce]]
    simpa using wrapped_of_range hp range.1 range.2

/-! ### A BEACON delivered -/

/-- The presence that a beacon gives a station other than this one (R75, R76): members stand in grouped
states alone. -/
theorem onBeacon_eq {p : Presence} {x : SyncState} (b : Bool) (hs : p ≠ .self)
    (hm : x.grouped = false → p ≠ .member) :
    p.onBeacon x b = if x.grouped = true ∧ b = true then .member else .heard := by
  cases p with
  | self => exact absurd rfl hs
  | member =>
    have hg : x.grouped = true := by
      cases h : x.grouped
      · exact absurd rfl (hm h)
      · rfl
    cases b <;> simp [Presence.onBeacon, hg]
  | _ => simp only [Presence.onBeacon, Bool.and_eq_true]

theorem usable_eq (p : Presence) (x : SyncState) (st : SenderState) :
    (p == .member && countsSender x st) = decide (p = .member ∧
      ((x = .acquire ∧ st ≠ .holdover) ∨ (x = .locked ∧ st = .locked))) := by
  have table : countsSender x st = decide
      ((x = .acquire ∧ st ≠ .holdover) ∨ (x = .locked ∧ st = .locked)) := by
    cases x <;> cases st <;> rfl
  rw [table, Bool.decide_and]
  rfl

theorem deliverBeacon_of_acts {s : State} {i : Identity} {ph : BitVec 16} (q : PhaseSample)
    (h m : StationMap) (st : SenderState) (hi : i ≠ s.own) (hp : ph.toNat < s.cfg.period)
    (ha : s.seq.sync.actsOnPeers = true) : s.deliverBeacon q i ph h m st =
    State.raiseAll { s with
        roster := s.roster.set i.val ⟨s.roster[i].presence.onBeacon s.seq.sync (lists h s.own), true, 0,
          some ⟨st, h, m, storedError s.cfg.period (measuredError s.cfg.period s.cfg.lineDelay ph.toNat q.g)
            q.stepTotal s.carrier.stepTotal⟩⟩
        log := storeRecord s.log (s.captureRecord q i ph.toNat h m st
          (s.roster[i].presence.onBeacon s.seq.sync (lists h s.own))) }
      (beaconEvents i s.roster[i].presence (s.roster[i].presence.onBeacon s.seq.sync (lists h s.own)) st
        s.carrier.cycle) := by
  rw [State.deliverBeacon, if_neg hi, if_neg (by omega), if_pos ha]
  rfl

theorem deliverBeacon_of_quiet {s : State} {i : Identity} {ph : BitVec 16} (q : PhaseSample)
    (h m : StationMap) (st : SenderState) (hi : i ≠ s.own) (hp : ph.toNat < s.cfg.period)
    (ha : s.seq.sync.actsOnPeers = false) : s.deliverBeacon q i ph h m st = s := by
  rw [State.deliverBeacon, if_neg hi, if_neg (by omega), if_neg (by simp [ha])]

theorem raiseAll_beaconEvents (s : State) (i : Identity) (p q : Presence) (st : SenderState) (c : Cycle) :
    s.raiseAll (beaconEvents i p q st c) = { s with
      events :=
        if p ≠ .member ∧ q = .member then
          offerEvent s.events ⟨.peerMember, some i, st.code.setWidth 8, c, false⟩
        else if p = .member ∧ q ≠ .member then
          offerEvent s.events ⟨.peerDropped, some i, 2, c, false⟩
        else s.events } := by
  unfold beaconEvents
  split_ifs <;> rfl

/-- A beacon delivered in LISTEN to a cleared roster and an empty log (R75). -/
theorem deliverBeacon_cleared {s : State} {i : Identity} {ph : BitVec 16} (q : PhaseSample)
    (h m : StationMap) (st : SenderState) (hi : i ≠ s.own) (hp : ph.toNat < s.cfg.period)
    (hs : s.seq.sync = .listen) (hr : s.roster = clearedRoster s.own) (hl : s.log = []) :
    s.deliverBeacon q i ph h m st = { s with
      roster := (clearedRoster s.own).set i.val ⟨.heard, true, 0, some ⟨st, h, m,
        storedError s.cfg.period (measuredError s.cfg.period s.cfg.lineDelay ph.toNat q.g)
          q.stepTotal s.carrier.stepTotal⟩⟩
      log := [⟨i, st, ph.toNat, q.g, storedError s.cfg.period
        (measuredError s.cfg.period s.cfg.lineDelay ph.toNat q.g) q.stepTotal s.carrier.stepTotal, h, m, false,
        decide (s.carrier.cycle ≠ q.cycle)⟩] } := by
  have absent : s.roster[i].presence = .absent := by
    rw [hr, clearedRoster_get, if_neg hi]
    rfl
  rw [deliverBeacon_of_acts q h m st hi hp (by rw [hs]; rfl), raiseAll_beaconEvents, State.captureRecord,
      usable_eq,
    absent, hs, hl, hr]
  simp only [bne, ← decide_not, beq_eq_decide]
  simp [Presence.onBeacon, SyncState.grouped, storeRecord]

/-- Settles O24: the beacon under this state, and under the LISTEN that link down has entered. -/
theorem beaconFillsRosterAndLog : Obligations.BeaconFillsRosterAndLog := by
  intro s i ph h m st r inv hr hi hp
  have self : s.roster[i].presence ≠ .self := fun k => hi ((inv.self i).1 k)
  have valid {t : State} (ht : t.foreignRecord ⟨i, .beacon ph h m st⟩ = some r) :
      exec (.rxBeacon i ph h m st) t = .next
        ((t.afterValidFrame ⟨i, .beacon ph h m st⟩).deliverBeacon r.sample i ph h m st) :=
    exec_receiveCommand ht
  refine ⟨fun acts => ?_, fun quiet => ?_, fun bits hs ha hl he => ?_⟩
  · intro before after error usable stored
    have grade : before.onBeacon s.seq.sync (lists h s.own) = after :=
      onBeacon_eq _ self fun g => inv.members g i
    have record : s.captureRecord r.sample i ph.toNat h m st after = stored := by
      rw [State.captureRecord, usable_eq]
      simp only [stored, usable, error, bne, decide_not]
      rfl
    obtain ⟨place, join⟩ := storeRecord_places stored inv.senders
    refine ⟨_, place, join, ?_⟩
    rw [valid (foreignRecord_of_receiving hr),
      deliverBeacon_of_acts _ _ _ _ (by exact hi) (by exact hp) (by exact acts), raiseAll_beaconEvents]
    rw [← grade, ← record, ← grade] <;> rfl
  · rw [valid (foreignRecord_of_receiving hr),
      deliverBeacon_of_quiet _ _ _ _ (by exact hi) (by exact hp) (by exact quiet)]
  · intro error
    obtain ⟨hm, own, starts⟩ := hr
    obtain ⟨k, l, ht⟩ := onLinkDown_listens hm hs hl he
    refine ⟨_, congrArg Host.Outcome.next ht, rfl,
      dropped_cleared (raise_cleared (enterClearing_cleared _ _) _) _, rfl, ?_⟩
    rw [valid (foreignRecord_of_dropped (r := r) (by rfl) (by exact (not_aborting_iff s).2 ha) (by rfl) own
        starts),
      deliverBeacon_cleared _ _ _ _ (by exact hi) (by exact hp) rfl rfl rfl]
    rfl

/-! ### A CLAIM delivered -/

theorem onHeard_eq (p : Presence) : p.onHeard = if p = .absent then .heard else p := by
  cases p <;> rfl

/-- Settles O25: the entry is touched and graded, in the states that act on peers. -/
theorem claimMarksItsSenderHeard : Obligations.ClaimMarksItsSenderHeard := by
  intro s i r hr hp hi
  have period : (BitVec.ofNat 16 s.cfg.period).toNat = s.cfg.period := by
    rw [BitVec.toNat_ofNat, Nat.mod_eq_of_lt hp]
  refine (exec_receiveCommand (foreignRecord_of_receiving hr)).trans (congrArg Host.Outcome.next ?_)
  refine (if_neg hi).trans ((if_neg (not_not_intro period)).trans ?_)
  by_cases acts : s.seq.sync.actsOnPeers = true
  · rw [if_pos acts, ← onHeard_eq]
    exact if_pos acts
  · rw [if_neg acts]
    exact if_neg acts

/-! ### Misses at a boundary -/

theorem stale_iff (s : State) (i : Identity) : s.stale i = true ↔ s.seq.sync.countsMisses = true ∧
    (s.roster[i].presence = .heard ∨ s.roster[i].presence = .member) ∧ s.roster[i].flag = false ∧
    s.cfg.staleLimit ≤ s.roster[i].misses + 1 := by
  simp [State.stale, RosterEntry.goesStale, and_assoc]

theorem countsMisses_iff (x : SyncState) :
    x.countsMisses = true ↔ x = .listen ∨ x = .join ∨ x = .acquire ∨ x = .locked := by
  cases x <;> simp [SyncState.countsMisses]

/-- The entry of an identity after a boundary that counts misses (R80). -/
theorem boundary_entry {s : State} (h : s.seq.sync.countsMisses = true) (i : Identity) :
    s.boundary.roster[i] = s.roster[i].missed s.cfg.staleLimit := by
  simp [boundary_roster, State.rosterWork, h, Fin.getElem_fin]

theorem mem_boundary_events_of_room {s : State} {e : EventRecord} (he : e ∈ s.boundaryEvents)
    (h : s.boundaryEvents.length + s.events.length ≤ 8) :
    e.unflagged ∈ s.boundary.events.map EventRecord.unflagged :=
  mem_raiseAll_of_room he h

theorem mem_offerEvent {q : List EventRecord} {x e : EventRecord}
    (h : e ∈ (offerEvent q x).map EventRecord.unflagged) : e ∈ q.map EventRecord.unflagged ∨ e = x.unflagged := by
  unfold offerEvent at h
  split at h
  · simpa [EventRecord.unflagged] using h
  · rw [markNewest_unflagged] at h
    exact .inl h

theorem mem_offers {l q : List EventRecord} {e : EventRecord}
    (h : e ∈ (l.foldl offerEvent q).map EventRecord.unflagged) :
    e ∈ q.map EventRecord.unflagged ∨ e ∈ l.map EventRecord.unflagged := by
  induction l generalizing q with
  | nil => exact .inl h
  | cons x l ih =>
    rcases ih h with h | h
    · rcases mem_offerEvent h with h | h
      · exact .inl h
      · exact .inr (h ▸ List.mem_cons_self)
    · exact .inr (List.mem_cons_of_mem _ h)

theorem sequencerEvents_kind {s : State} {c : Cycle} {e : EventRecord} (h : e ∈ s.sequencerEvents c) :
    e.kind ≠ .peerDropped := by
  have one {k : EventKind} {d : Byte} (h : e ∈ [eventOf k none d c]) (hk : k ≠ .peerDropped) :
      e.kind ≠ .peerDropped := List.mem_singleton.1 h ▸ hk
  cases hs : s.seq.sync <;> simp only [State.sequencerEvents, hs] at h
  case acquire | locked =>
    split at h
    · exact one h nofun
    · cases h
  case holdover =>
    split at h
    · exact one h nofun
    · split at h
      · exact one h nofun
      · cases h
  all_goals cases h

/-- A boundary drops no peer but the MEMBER entries that go stale (R81). -/
theorem member_of_dropped {s : State} {e : EventRecord} {i : Identity} (he : e ∈ s.boundaryEvents)
    (hk : e.kind = .peerDropped) (hi : e.subject = some i) : s.roster[i].presence = .member := by
  simp only [State.boundaryEvents, List.mem_append] at he
  rcases he with (he | he) | he
  · simp only [State.staleEvents, List.mem_map, List.mem_filter, Bool.and_eq_true, beq_iff_eq] at he
    obtain ⟨j, ⟨-, -, member⟩, rfl⟩ := he
    obtain rfl : j = i := Option.some.inj hi
    exact member
  · unfold State.viewEvents at he
    split at he
    · rw [List.mem_singleton.1 he] at hk
      cases hk
    · cases he
  · exact absurd hk (sequencerEvents_kind he)

/-- Settles O27: the entry of each identity, and the events of those that go stale. -/
theorem boundaryCountsMisses : Obligations.BoundaryCountsMisses := by
  intro s peer due
  refine ⟨fun hs present quiet limit => ?_, s.boundary, exec_cycleBoundary due, fun i =>
    ⟨fun hs => ?_, fun hs => ?_, fun hs => ?_⟩⟩
  · have counts := (countsMisses_iff _).2 hs
    have stale : s.stale peer = true := (stale_iff s peer).2 ⟨counts, present, quiet, limit⟩
    refine ⟨s.boundary, congrArg Host.Outcome.next (if_pos (by simp [due, stale])), exec_cycleBoundary due, ?_,
      fun member room => ?_, fun heard e kind subject mem => ?_⟩
    · rw [boundary_entry counts, missed_eq, if_pos ⟨present, quiet⟩, if_pos limit]
    · refine mem_boundary_events_of_room (e := eventOf .peerDropped (some peer) 0 (s.carrier.cycle + 1)) ?_ room
      have : peer ∈ (List.finRange 16).filter fun i => s.stale i && s.roster[i].presence == .member := by
        simpa [stale] using member
      exact List.mem_append_left _ (List.mem_append_left _ (List.mem_map_of_mem this))
    · obtain ⟨l, perm, offers⟩ := boundary_events s
      rw [offers] at mem
      refine (mem_offers mem).resolve_right fun new => ?_
      obtain ⟨x, hx, rfl⟩ := List.mem_map.1 new
      have := member_of_dropped (perm.mem_iff.1 hx) kind subject
      rw [heard] at this
      cases this
  · rw [boundary_entry ((countsMisses_iff _).2 hs), missed_eq]
    refine ⟨fun present quiet below => ?_, fun flag => ?_, fun gone => ?_⟩
    · rw [if_pos ⟨present, quiet⟩, if_neg (by omega)]
    · rw [if_neg fun k => by cases flag.symm.trans k.2]
    · rw [if_neg fun k => by rcases gone with h | h <;> rcases k.1 with k | k <;> cases h.symm.trans k]
  · simp [boundary_roster, State.rosterWork, hs, SyncState.countsMisses, Fin.getElem_fin]
  · rcases hs with hs | hs <;> simp [boundary_roster, State.rosterWork, hs, SyncState.countsMisses]

end Sys2Proof.Machine

/-! Station maps, slots and the view: N and rank, the slew, settling and adoption (Chapter 6). -/

namespace Sys2Proof.Machine

set_option Elab.async false

/-! ### N and rank -/

/-- A count over all identities is the length of any list without repetition that holds what is counted. -/
theorem countP_identities (f : Identity → Bool) {l : List Identity} (hn : l.Nodup)
    (hl : ∀ i, i ∈ l ↔ f i = true) : (List.finRange 16).countP f = l.length := by
  rw [List.countP_eq_length_filter]
  refine List.Perm.length_eq ((List.perm_ext_iff_of_nodup ((List.nodup_finRange 16).filter _) hn).2 fun i => ?_)
  rw [List.mem_filter, hl]
  exact and_iff_right (List.mem_finRange i)

theorem rankIn_eq_zero_iff (m : StationMap) (own : Identity) :
    rankIn m own = 0 ↔ ∀ i : Identity, lists m i = true → own ≤ i := by
  simp [rankIn, List.countP_eq_zero]

/-- The own identity is counted beside those below it. -/
theorem rankIn_lt_countOf {m : StationMap} {own : Identity} (h : lists m own = true) :
    rankIn m own < countOf m := by
  have below : rankIn m own = (List.finRange 16).countP fun i => lists m i && decide (i < own) := rfl
  rw [below, countOf, List.countP_eq_length_filter, List.countP_eq_length_filter]
  have apart : own ∉ (List.finRange 16).filter fun i => lists m i && decide (i < own) := by simp
  refine (List.subperm_of_subset (List.nodup_cons.2 ⟨apart, (List.nodup_finRange 16).filter _⟩) ?_).length_le
  intro i hi
  rcases List.mem_cons.1 hi with rfl | hi
  · simpa using h
  · simp only [List.mem_filter, Bool.and_eq_true] at hi ⊢
    exact ⟨hi.1, hi.2.1⟩

/-- Settles O29: both counts by lists without repetition, and the target by the rank below N. -/
theorem slotTargetFromRank : Obligations.SlotTargetFromRank := by
  refine ⟨fun m i => getLsbD_iff m i.val, fun m own listed below hl hb ml mb => ⟨?_, ?_⟩,
    fun p m own hp h => ?_⟩
  · exact countP_identities _ hl ml
  · exact countP_identities _ hb fun i => by simp [mb i]
  · have rank := rankIn_lt_countOf h
    have most : countOf m ≤ 16 := List.countP_le_length
    refine ⟨by omega, most, rank, rfl, ?_, rankIn_eq_zero_iff m own, fun k => ?_, slotTarget_alone p own⟩
    · exact Nat.div_lt_of_lt_mul (Nat.mul_lt_mul_of_pos_right rank hp)
    · rw [slotTarget, k, Nat.zero_mul, Nat.zero_div]

/-! ### The slew -/

theorem slewOnce_lt {p : Nat} (hp : 0 < p) (k target o : Nat) : slewOnce p k target o < p := reduce_lt hp _

/-- A step of the slew takes SlotStep off the wrapped difference, or all of it. -/
theorem wrapped_slewOnce {p k : Nat} (hp : 0 < p) (target o : Nat) :
    wrapped p ((target : Int) - slewOnce p k target o) =
      wrapped p ((target : Int) - o) - clampTo k (wrapped p ((target : Int) - o)) := by
  obtain ⟨lower, upper⟩ := wrapped_range hp ((target : Int) - o)
  obtain ⟨a, ha⟩ := wrapped_dvd p ((target : Int) - o)
  obtain ⟨b, hb⟩ := dvd_sub_reduce hp ((o : Int) + clampTo k (wrapped p ((target : Int) - o)))
  have within : -(p : Int) ≤ 2 * (wrapped p ((target : Int) - o) - clampTo k (wrapped p ((target : Int) - o))) ∧
      2 * (wrapped p ((target : Int) - o) - clampTo k (wrapped p ((target : Int) - o))) < p := by
    simp only [clampTo]
    omega
  refine wrapped_unique hp ⟨a + b, ?_⟩ within.1 within.2
  rw [Int.mul_add, slewOnce]
  omega

/-- What is left of the difference after `n` steps. -/
theorem wrapped_slew {p k : Nat} (hp : 0 < p) (target o n : Nat) :
    (wrapped p ((target : Int) - slew p k target o n)).natAbs =
      (wrapped p ((target : Int) - o)).natAbs - n * k := by
  induction n with
  | zero => simp [slew]
  | succ n ih =>
    rw [slew, wrapped_slewOnce hp, Nat.add_mul, ← Nat.sub_sub, ← ih]
    simp only [clampTo]
    omega

/-- Settles O31: a difference d is worked off in ceil(d / SlotStep) steps, and a boundary is one step. -/
theorem slewReachesItsTarget : Obligations.SlewReachesItsTarget := by
  refine ⟨fun p k target o n ht ho hk h2 => ?_, fun s due hs => ?_⟩
  · have hp : 0 < p := by omega
    have low : slew p k target o n < p := by
      cases n with
      | zero => exact ho
      | succ n => exact slewOnce_lt hp _ _ _
    refine ⟨?_, low⟩
    rw [← wrapped_sub_eq_zero_iff ht low, ← Int.natAbs_eq_zero, wrapped_slew hp, Nat.sub_eq_zero_iff_le,
      ← Nat.lt_succ_iff (n := n), Nat.div_lt_iff_lt_mul hk, Nat.succ_mul]
    omega
  · have grouped : s.seq.sync.grouped = true := by
      rcases hs with hs | hs | hs <;> rw [hs] <;> rfl
    refine ⟨s.boundary, exec_cycleBoundary due, ?_, boundary_cfg s⟩
    rw [boundary_carrier, slotStep_of_grouped grouped]
    rfl

/-! ### Settling and adoption -/

theorem measuring_iff (x : SyncState) : x.measuring = true ↔ x = .acquire ∨ x = .locked := by
  cases x <;> simp [SyncState.measuring]

theorem adopts_iff (s : State) : s.adopts = true ↔ s.seq.sync.measuring = true ∧
    s.cfg.settleCount ≤ s.nextSettle ∧ s.memberMap ≠ s.view.adopted := by
  simp [State.adopts, and_assoc]

theorem nextSettle_idle {s : State} (ha : s.seq.sync ≠ .acquire) (hl : s.seq.sync ≠ .locked) :
    s.nextSettle = if s.seq.sync = .listen ∨ s.seq.sync = .join then 0 else s.view.settle := by
  cases hs : s.seq.sync <;> simp_all [State.nextSettle]

/-- Settles O32: the boundary of ACQUIRE or LOCKED by its laws, and no adoption elsewhere. -/
theorem boundarySettlesAndAdopts : Obligations.BoundarySettlesAndAdopts := by
  refine fun s due => ⟨fun hs settle hyes hno => ?_, fun ha hl => ?_⟩
  · obtain ⟨-, agreed, disagreed, previous, adopts, keeps⟩ := boundary_measured hs
    have counted : s.boundary.view.settle = settle := by
      by_cases h : Agrees s
      · exact (agreed h).trans (hyes h).symm
      · exact (disagreed h).trans (hno h).symm
    refine ⟨s.boundary, exec_cycleBoundary due, counted, previous, fun ⟨reach, differs⟩ => ?_, fun h => ?_⟩
    · obtain ⟨adopted, target⟩ := adopts (counted ▸ reach) differs
      have settled : s.nextSettle = settle := counted ▸ (by rw [boundary_view]; rfl)
      have moves : s.adopts = true :=
        (adopts_iff s).2 ⟨(measuring_iff _).2 hs, settled ▸ reach, differs⟩
      refine ⟨congrArg Host.Outcome.next (if_pos (by simp [due, moves])), adopted, target, fun room => ?_⟩
      refine mem_boundary_events_of_room
        (e := eventOf .viewAdopted none (byteOf (countOf s.memberMap)) (s.carrier.cycle + 1)) ?_ room
      refine List.mem_append_left _ (List.mem_append_right _ ?_)
      rw [State.viewEvents, if_pos moves]
      exact List.mem_singleton.2 rfl
    · exact keeps (counted ▸ h)
  · have still : ¬ s.adopts = true := fun h =>
      ((measuring_iff _).1 ((adopts_iff s).1 h).1).elim ha hl
    refine ⟨s.boundary, exec_cycleBoundary due, ?_, ?_, ?_, ?_⟩ <;> rw [boundary_view]
    · exact if_neg still
    · exact if_neg still
    · rfl
    · exact nextSettle_idle ha hl

end Sys2Proof.Machine

/-! The phase servo, lock and unlock, LISTEN and HOLDOVER at a boundary (Chapters 7, 8), and the generator there
(9.2 to 9.4). -/

namespace Sys2Proof.Machine

set_option Elab.async false

/-! ### The mean error -/

theorem sum_range {p : Nat} {l : List Int} (h : ∀ e ∈ l, -(p : Int) ≤ 2 * e ∧ 2 * e < p) :
    -((p * l.length : Nat) : Int) ≤ 2 * l.sum ∧ 2 * l.sum ≤ (p * l.length : Nat) := by
  induction l with
  | nil => simp
  | cons e l ih =>
    obtain ⟨he, hl⟩ := List.forall_mem_cons.1 h
    have := ih hl
    rw [List.sum_cons, List.length_cons, Nat.mul_succ]
    push_cast at this ⊢
    omega

/-- A sum of `k` numbers in the range of a wrapped difference, divided by k + 1, is in that range. -/
theorem tdiv_range {p k : Nat} {x : Int} (hp : 0 < p) (lower : -((p * k : Nat) : Int) ≤ 2 * x)
    (upper : 2 * x ≤ (p * k : Nat)) :
    -(p : Int) ≤ 2 * x.tdiv ((k : Int) + 1) ∧ 2 * x.tdiv ((k : Int) + 1) < p := by
  have size : 2 * (x.tdiv ((k : Int) + 1)).natAbs < p := by
    rw [Int.natAbs_tdiv]
    change 2 * (x.natAbs / (k + 1)) < p
    have := Nat.div_mul_le_self x.natAbs (k + 1)
    refine Nat.lt_of_mul_lt_mul_right (a := k + 1) ?_
    rw [Nat.mul_assoc, Nat.mul_succ p k]
    omega
  omega

theorem meanError_eq (log : List ArrivalRecord) : meanError log =
    Int.tdiv ((log.filter (·.usable)).map (·.error)).sum ((log.filter (·.usable)).length + 1) := by
  rw [meanError, usableCount, List.countP_eq_length_filter]

theorem servoWork_meanError {s : State} (h : s.seq.sync = .acquire ∨ s.seq.sync = .locked) :
    s.servoWork.meanError = meanError s.log := by
  rcases h with h | h
  · unfold State.servoWork
    rw [h]
    cases s.capture <;> rfl
  · simp only [State.servoWork, h]

/-- Settles O34: the sum and its length are the usable records', and a boundary records the quotient. -/
theorem meanErrorOfTheUsableRecords : Obligations.MeanErrorOfTheUsableRecords := by
  refine ⟨fun log => ⟨meanError_eq log, fun h => ?_, fun other perm => ?_, fun p hp range => ?_⟩,
      fun s due hs => ?_⟩
  · rw [meanError_eq, h]
    rfl
  · rw [meanError_eq, meanError_eq, perm.length_eq, (perm.map _).sum_eq]
  · rw [meanError_eq]
    have errors : ∀ e ∈ (log.filter (·.usable)).map (·.error), -(p : Int) ≤ 2 * e ∧ 2 * e < p := by
      intro e he
      obtain ⟨r, hr, rfl⟩ := List.mem_map.1 he
      exact range r (List.mem_filter.1 hr).1
    obtain ⟨lower, upper⟩ := sum_range errors
    rw [List.length_map] at lower upper
    exact tdiv_range hp lower upper
  · refine ⟨s.boundary, exec_cycleBoundary due, ?_⟩
    rw [boundary_servo, (entered_lastStep _ _ _).2.1, servoWork_meanError hs]

/-! ### The servo's work, state by state -/

theorem servoWork_capture {s : State} {r : ArrivalRecord} (hs : s.seq.sync = .acquire)
    (hc : s.capture = some r) : s.servoWork = { s.servo with
      meanError := meanError s.log, lastStep := r.error, captureDone := true, lock := 0 } := by
  simp only [State.servoWork, hs, hc]

theorem servoWork_acquire {s : State} (hs : s.seq.sync = .acquire) (hc : s.capture = none) :
    s.servoWork = { s.servo with
      integ := nextInteg s.cfg s.servo.integ (meanError s.log)
      trim := nextTrim s.cfg (nextInteg s.cfg s.servo.integ (meanError s.log)) (meanError s.log)
      meanError := meanError s.log
      lastStep := clampTo s.cfg.acqStep (meanError s.log)
      captureDone := s.servo.captureDone || s.reachesLock
      lock := s.nextLock } := by
  rw [← phaseStep_acquire hs hc]
  simp only [State.servoWork, hs, hc]

theorem servoWork_locked {s : State} (hs : s.seq.sync = .locked) : s.servoWork = { s.servo with
    integ := nextInteg s.cfg s.servo.integ (meanError s.log)
    trim := nextTrim s.cfg (nextInteg s.cfg s.servo.integ (meanError s.log)) (meanError s.log)
    meanError := meanError s.log
    lastStep := clampTo s.cfg.fineStep (meanError s.log)
    unlock := s.nextUnlock } := by
  rw [← phaseStep_locked hs]
  simp only [State.servoWork, hs]

theorem servoWork_idle {s : State} (ha : s.seq.sync ≠ .acquire) (hl : s.seq.sync ≠ .locked) :
    s.servoWork = { s.servo with meanError := 0, lastStep := 0 } := by
  unfold State.servoWork
  dsimp only
  split <;> rename_i h
  · exact absurd h ha
  · exact absurd h hl
  all_goals rfl

theorem entered_same (v : Servo) (x : SyncState) : v.entered x x = v := if_pos rfl

theorem entered_moved {v : Servo} {x y : SyncState} (h : x ≠ y) :
    v.entered x y = { v with lock := 0, unlock := 0 } := if_neg h

/-! ### Capture and lock at an ACQUIRE boundary -/

theorem capture_none_iff {s : State} (h : s.seq.sync = .acquire) : s.capture = none ↔
    s.servo.captureDone = true ∨ ∀ r ∈ s.log, ¬ (r.usable = true ∧ r.state = .locked) := by
  rw [← captureReference_none_iff]
  cases hd : s.servo.captureDone <;> simp [State.capture, h, hd]

theorem reachesLock_iff {s : State} (h : s.seq.sync = .acquire) :
    s.reachesLock = true ↔ s.cfg.lockCount ≤ s.nextLock := by
  simp [State.reachesLock, h]

theorem sequencerWork_acquire {s : State} (h : s.seq.sync = .acquire) : s.sequencerWork =
    if s.cfg.lockCount ≤ s.nextLock then { s.seq with sync := .locked, permission := true } else s.seq := by
  simp only [State.sequencerWork, h, reachesLock_iff h]

theorem reachesUnlock_iff {s : State} (h : s.seq.sync = .locked) :
    s.reachesUnlock = true ↔ s.cfg.lockCount ≤ s.nextUnlock := by
  simp [State.reachesUnlock, h]

theorem sequencerWork_locked {s : State} (h : s.seq.sync = .locked) : s.sequencerWork =
    if s.cfg.lockCount ≤ s.nextUnlock then { s.seq with sync := .acquire, permission := false } else s.seq := by
  simp only [State.sequencerWork, h, reachesUnlock_iff h]

/-- Settles O35: without a capture and short of lock the servo's equation stands as it is. -/
theorem acquireBoundaryWorksTheServo : Obligations.AcquireBoundaryWorksTheServo := by
  intro s due hs hc h1 short e integ
  have capture := (capture_none_iff hs).2 hc
  have counted : (CountsTowardLock s → s.nextLock = min 255 (s.servo.lock + 1)) ∧
      (¬ CountsTowardLock s → s.nextLock = 0) := ⟨nextLock_of_counts hs, nextLock_of_not_counts hs⟩
  have below : ¬ s.cfg.lockCount ≤ s.nextLock := by
    by_cases h : CountsTowardLock s
    · rw [counted.1 h]
      exact not_le.2 (short h)
    · rw [counted.2 h]
      omega
  have seq : s.boundary.seq = s.seq := by rw [boundary_seq, sequencerWork_acquire hs, if_neg below]
  have servo : s.boundary.servo = s.servoWork := by
    rw [boundary_servo, ← boundary_seq, seq, entered_same]
  have lock : s.reachesLock = false := Bool.eq_false_iff.2 fun k => below ((reachesLock_iff hs).1 k)
  rw [servoWork_acquire hs capture, lock, Bool.or_false] at servo
  exact ⟨s.boundary, exec_cycleBoundary due, seq, by rw [servo]; rfl, by rw [servo]; rfl, by rw [servo],
    by rw [servo], by rw [servo], by rw [servo], by rw [servo]; exact counted.1, by rw [servo]; exact counted.2⟩

/-- The capture that a boundary applies is the usable record of a LOCKED sender that none undercuts (R112). -/
theorem capture_of_lowest {s : State} {r : ArrivalRecord} (hs : s.seq.sync = .acquire)
    (hd : s.servo.captureDone = false) (hn : (s.log.map ArrivalRecord.sender).Nodup) (hr : r ∈ s.log)
    (hu : r.usable = true) (hl : r.state = .locked)
    (low : ∀ x ∈ s.log, x.usable = true → x.state = .locked → r.sender ≤ x.sender) : s.capture = some r := by
  rw [capture_eq hs hd]
  cases h : captureReference s.log with
  | none => exact absurd ⟨hu, hl⟩ ((captureReference_none_iff _).1 h r hr)
  | some c =>
    obtain ⟨hc, cu, cl, clow⟩ := captureReference_spec h
    rw [List.inj_on_of_nodup_map hn hc hr (le_antisymm (clow r hr hu hl) (low c hc cu cl))]

/-- Settles O36: the record of the capture is the step, and the lock counter 0 is short of lock. -/
theorem coarseCaptureStepsOnce : Obligations.CoarseCaptureStepsOnce := by
  intro s r due hs hd inv h1 hr hu hl low
  have capture := capture_of_lowest hs hd inv.senders hr hu hl low
  have zero : s.nextLock = 0 := by simp [State.nextLock, capture]
  have seq : s.boundary.seq = s.seq := by
    rw [boundary_seq, sequencerWork_acquire hs, if_neg (by omega)]
  have step := phaseStep_acquire_capture hs capture
  refine ⟨s.boundary, exec_cycleBoundary due, seq, ?_, ?_, ?_⟩
  · rw [boundary_servo, ← boundary_seq, seq, entered_same, servoWork_capture hs capture]
  · rw [boundary_carrier, step]
  · rw [boundary_carrier, step]

/-- Settles O37: LOCKED short of unlock, and the states in which the servo stands still. -/
theorem lockedAndIdleServoWork : Obligations.LockedAndIdleServoWork := by
  intro s due
  refine ⟨fun hs short => ?_, fun ha hl => ?_⟩
  · intro e integ
    have seq : s.boundary.seq = s.seq := by
      rw [boundary_seq, sequencerWork_locked hs, if_neg (by omega)]
    refine ⟨s.boundary, exec_cycleBoundary due, seq, ?_⟩
    rw [boundary_servo, ← boundary_seq, seq, entered_same, servoWork_locked hs]
    rfl
  · have servo := boundary_servo s
    rw [servoWork_idle ha hl] at servo
    obtain ⟨step, mean, capture⟩ := entered_lastStep { s.servo with meanError := 0, lastStep := 0 } s.seq.sync
      s.sequencerWork.sync
    obtain ⟨trim, integ⟩ := entered_trim { s.servo with meanError := 0, lastStep := 0 } s.seq.sync
      s.sequencerWork.sync
    exact ⟨s.boundary, exec_cycleBoundary due, by rw [servo, mean], by rw [servo, step], by rw [servo, integ],
      by rw [servo, trim], by rw [servo, capture], phaseStep_idle ha hl⟩

end Sys2Proof.Machine

/-! Lock, unlock, LISTEN and HOLDOVER at a boundary (Chapter 8), and the generator there (9.2 to 9.4). -/

namespace Sys2Proof.Machine

set_option Elab.async false

/-! ### The generator at a boundary -/

theorem atBoundary_state (g : Gate) (p : Bool) : (g.atBoundary p).state =
    if g.state = .armed ∨ g.state = .running then (if p then .running else .armed) else g.state := by
  unfold Gate.atBoundary Gate.withdraw
  cases p <;> cases g.state <;> simp

theorem atBoundary_prev (g : Gate) (p : Bool) : (g.atBoundary p).hiPrev = g.hiPrev ∧
    (g.atBoundary p).loPrev = g.loPrev := by
  unfold Gate.atBoundary Gate.withdraw
  dsimp only
  split_ifs <;> exact ⟨rfl, rfl⟩

theorem boundary_gate_state (s : State) : s.boundary.gate.state =
    if s.gate.state = .armed ∨ s.gate.state = .running then
      (if s.boundary.seq.permission then .running else .armed) else s.gate.state := by
  rw [boundary_gate, gateOutputs_state, atBoundary_state, boundary_seq]

/-- Only a running generator has an active output (R151). -/
theorem boundary_gate_idle {s : State} (h : s.boundary.gate.state ≠ .running) :
    s.boundary.gate.hi = false ∧ s.boundary.gate.lo = false := by
  rw [boundary_gate, gateOutputs_state] at h
  rw [boundary_gate, gateOutputs_not_running h]
  exact ⟨rfl, rfl⟩

/-- A generator whose permission a boundary withdraws is ARMED and drives nothing (R145). -/
theorem boundary_stops {s : State} (hg : s.gate.state = .running) (hp : s.boundary.seq.permission = false) :
    s.boundary.gate.state = .armed ∧ s.boundary.gate.hi = false ∧ s.boundary.gate.lo = false := by
  have state : s.boundary.gate.state = .armed := by rw [boundary_gate_state, if_pos (.inr hg), hp]; rfl
  exact ⟨state, boundary_gate_idle (by rw [state]; exact GateState.noConfusion)⟩

theorem gateOutputs_prev (cfg : Image) (c pc : Nat) (g : Gate) : (gateOutputs cfg c pc g).hiPrev = g.hiPrev ∧
    (gateOutputs cfg c pc g).loPrev = g.loPrev := by
  rw [gateOutputs_eq]
  exact ⟨rfl, rfl⟩

/-- Settles O45: state and duties by the generator's rules, the outputs by those of a tick. -/
theorem boundaryRunsTheGates : Obligations.BoundaryRunsTheGates := by
  intro s due
  obtain ⟨pending, active⟩ := boundary_duties s
  have prev := gateOutputs_prev s.cfg s.boundary.carrier.c s.boundary.carrier.pc
    (s.gate.atBoundary s.sequencerWork.permission)
  obtain ⟨hiPrev, loPrev⟩ := atBoundary_prev s.gate s.sequencerWork.permission
  rw [← boundary_gate, hiPrev, loPrev] at prev
  have outputs (h : s.boundary.gate.state = .running) :
      (s.boundary.gate.hi = true → s.cfg.deadBand ≤ s.boundary.carrier.c ∧
        s.boundary.carrier.c < s.boundary.gate.activeDuty) ∧
      (s.boundary.gate.lo = true → s.boundary.gate.activeDuty + s.cfg.deadBand ≤ s.boundary.carrier.c ∧
        s.boundary.carrier.c < s.boundary.carrier.pc) := by
    rw [boundary_gate, gateOutputs_state] at h
    obtain ⟨hi, lo⟩ := gateOutputs_running_iff (cfg := s.cfg) (c := s.boundary.carrier.c)
      (pc := s.boundary.carrier.pc) h
    have duty : s.boundary.gate.activeDuty = (s.gate.atBoundary s.sequencerWork.permission).activeDuty := by
      rw [active, (atBoundary_duties _ _).2]
    rw [duty, boundary_gate]
    exact ⟨fun k => ⟨(hi.1 k).1, (hi.1 k).2.1⟩, fun k => ⟨(lo.1 k).1, (lo.1 k).2.1⟩⟩
  have running {b : Bool} (hb : b = true) (hg : s.boundary.gate.state ≠ .running → b = false) :
      s.boundary.gate.state = .running := by
    by_contra k
    rw [hg k] at hb
    cases hb
  refine ⟨s.boundary, exec_cycleBoundary due, active, pending, prev.1, prev.2, fun h => ?_, fun h => ?_,
    boundary_gate_idle, fun h => ?_, fun h => ?_⟩
  · rw [boundary_gate_state, if_neg (by rcases h with h | h <;> simp [h])]
  · rw [boundary_gate_state, if_pos h]
  · exact active ▸ (outputs (running h fun k => (boundary_gate_idle k).1)).1 h
  · exact active ▸ (outputs (running h fun k => (boundary_gate_idle k).2)).2 h

/-! ### Lock and unlock -/

/-- An event of the sequencer stands in the queue after the boundary where there is room. -/
theorem mem_boundary_events_of_sequencer {s : State} {k : EventKind} {d : Byte}
    (h : s.sequencerEvents (s.carrier.cycle + 1) = [eventOf k none d (s.carrier.cycle + 1)])
    (room : s.boundaryEvents.length + s.events.length ≤ 8) :
    (⟨k, none, d, s.carrier.cycle + 1, false⟩ : EventRecord) ∈ s.boundary.events.map EventRecord.unflagged :=
  mem_boundary_events_of_room (e := eventOf k none d (s.carrier.cycle + 1))
    (List.mem_append_right _ (h ▸ List.mem_singleton.2 rfl)) room

/-- Settles O38: every condition of R114 and the count make lock, and the blocks follow. -/
theorem lockReachedGrantsPermission : Obligations.LockReachedGrantsPermission := by
  intro s due hs counts reach
  have next := nextLock_of_counts hs counts
  obtain ⟨capture, -⟩ := (countsTowardLock_iff hs).1 counts
  have lock : s.reachesLock = true := (reachesLock_iff hs).2 (next ▸ reach)
  have seq : s.boundary.seq = { s.seq with sync := .locked, permission := true } := by
    rw [boundary_seq, sequencerWork_acquire hs, if_pos ((reachesLock_iff hs).1 lock)]
  refine ⟨s.boundary, congrArg Host.Outcome.next (if_pos (by simp [due, lock])), exec_cycleBoundary due,
      seq, ?_,
    boundary_measured (.inl hs), fun h => ?_, fun h => ?_, fun room => ?_⟩
  · intro e integ
    rw [boundary_servo, ← boundary_seq, seq, entered_moved (by rw [hs]; exact nofun),
      servoWork_acquire hs capture, lock, Bool.or_true]
    rfl
  · rw [boundary_gate_state, if_pos (.inl h), seq]
    rfl
  · rw [boundary_gate_state, if_neg (by rcases h with h | h <;> simp [h])]
  · rw [boundary_view]
    exact mem_boundary_events_of_sequencer (by simp only [State.sequencerEvents, hs, lock, if_true]; rfl) room

/-- Settles O39: the count outside UnlockWindow makes unlock, and the blocks follow. -/
theorem unlockReachedWithdrawsPermission : Obligations.UnlockReachedWithdrawsPermission := by
  intro s due hs reach
  have unlock : s.reachesUnlock = true := (reachesUnlock_iff hs).2 reach
  have seq : s.boundary.seq = { s.seq with sync := .acquire, permission := false } := by
    rw [boundary_seq, sequencerWork_locked hs, if_pos ((reachesUnlock_iff hs).1 unlock)]
  refine ⟨s.boundary, congrArg Host.Outcome.next (if_pos (by simp [due, unlock])), exec_cycleBoundary due,
      seq, ?_,
    boundary_measured (.inr hs), fun h => ?_, fun h => boundary_stops h (by rw [seq]), fun room => ?_⟩
  · intro e integ
    rw [boundary_servo, ← boundary_seq, seq, entered_moved (by rw [hs]; exact nofun), servoWork_locked hs]
    rfl
  · rw [boundary_gate_state, seq]
    cases hg : s.gate.state <;> simp_all
  · exact mem_boundary_events_of_sequencer (by simp only [State.sequencerEvents, hs, unlock, if_true]; rfl) room

/-! ### LISTEN -/

theorem reachesJoin_iff {s : State} (h : s.seq.sync = .listen) :
    s.reachesJoin = true ↔ s.cfg.listenCycles ≤ s.seq.listen + 1 := by
  simp [State.reachesJoin, h]

theorem sequencerWork_listen {s : State} (h : s.seq.sync = .listen) : s.sequencerWork = { s.seq with
    listen := s.seq.listen + 1, sync := if s.reachesJoin then .join else .listen } := by
  simp only [State.sequencerWork, h]

/-- Settles O40, both sides of ListenCycles. -/
theorem listenCompletesIntoJoin : Obligations.ListenCompletesIntoJoin := by
  refine fun s due hs => ⟨fun reach noLeave => ?_, fun short => ?_⟩
  · have join := (reachesJoin_iff hs).2 reach
    have seq : s.boundary.seq = { s.seq with sync := .join, listen := s.seq.listen + 1 } := by
      rw [boundary_seq, sequencerWork_listen hs, join]
      rfl
    have servo : s.boundary.servo.lock = 0 ∧ s.boundary.servo.unlock = 0 := by
      rw [boundary_servo, ← boundary_seq, seq, entered_moved (by rw [hs]; exact nofun)]
      exact ⟨rfl, rfl⟩
    refine ⟨s.boundary, congrArg Host.Outcome.next (if_pos (by simp [due, join])), exec_cycleBoundary due,
        seq, ?_,
      servo.1, servo.2, ?_⟩
    · simp [boundary_tx, State.queueWork, join, TxQueue.offerClaim, noLeave]
    · simp [boundary_view, State.viewWork, State.nextSettle, hs]
  · have stays : s.reachesJoin = false := Bool.eq_false_iff.2 fun k => by
      have := (reachesJoin_iff hs).1 k
      omega
    refine ⟨s.boundary, exec_cycleBoundary due, ?_, ?_⟩
    · rw [boundary_seq, sequencerWork_listen hs, stays, ← hs]
      rfl
    · simp [boundary_tx, State.queueWork, stays, hs, SyncState.grouped]

/-! ### HOLDOVER -/

theorem clean_iff (s : State) : s.clean = true ↔ s.tx.linkErr = 0 ∧ s.tx.beaconSent = true := by
  simp [State.clean]

/-- Neither roster nor view raises events at a HOLDOVER boundary. -/
theorem boundaryEvents_holdover {s : State} (h : s.seq.sync = .holdover) :
    s.boundaryEvents = s.sequencerEvents (s.carrier.cycle + 1) := by
  have quiet : s.staleEvents (s.carrier.cycle + 1) = [] := by
    simp [State.staleEvents, State.stale, h, SyncState.countsMisses]
  have still : s.viewEvents (s.carrier.cycle + 1) = [] := by
    simp [State.viewEvents, State.adopts, h, SyncState.measuring]
  rw [State.boundaryEvents, quiet, still]
  rfl

theorem boundary_events_of {s : State} {l : List EventRecord} (h : s.boundaryEvents = l) (hl : l.length ≤ 1) :
    s.boundary.events = l.foldl offerEvent s.events := by
  obtain ⟨l', perm, offers⟩ := boundary_events s
  rw [h] at perm
  rw [offers]
  match l, hl with
  | [], _ => rw [List.perm_nil.1 perm]
  | [e], _ => rw [List.perm_singleton.1 perm]

/-- The one event of a HOLDOVER boundary. -/
theorem mem_holdover_events {s : State} {k : EventKind} {d : Byte} (h : s.seq.sync = .holdover)
    (he : s.sequencerEvents (s.carrier.cycle + 1) = [eventOf k none d (s.carrier.cycle + 1)])
    (room : s.events.length < 8) :
    (⟨k, none, d, s.carrier.cycle + 1, false⟩ : EventRecord) ∈ s.boundary.events := by
  rw [boundary_events_of ((boundaryEvents_holdover h).trans he) (le_refl _), List.foldl_cons, List.foldl_nil,
    offerEvent_of_room _ room]
  exact List.mem_append_right _ (List.mem_singleton.2 rfl)

theorem reachesExpiry_iff {s : State} (h : s.seq.sync = .holdover) (hc : s.clean = false) :
    s.reachesExpiry = true ↔ s.seq.expired = false ∧ s.cfg.holdoverMax ≤ min 65535 (s.seq.holdover + 1) := by
  simp [State.reachesExpiry, State.nextHoldover, h, hc]

/-- Settles O41: the clean report, the expiry and the count, each by the sequencer's equation. -/
theorem holdoverBoundary : Obligations.HoldoverBoundary := by
  intro s due hs
  refine ⟨fun h1 h2 => ?_, fun dirty fresh reach => ?_, fun dirty short => ?_⟩
  · have clean := (clean_iff s).2 ⟨h1, h2⟩
    have seq : s.boundary.seq = { s.seq with
        sync := .acquire, holdover := 0, expired := false, permission := false } := by
      rw [boundary_seq]
      simp only [State.sequencerWork, hs, clean, if_true]
    have servo : s.boundary.servo = { s.servo with meanError := 0, lastStep := 0, lock := 0, unlock := 0 } := by
      rw [boundary_servo, ← boundary_seq, seq, entered_moved (by rw [hs]; exact nofun),
        servoWork_idle (by rw [hs]; exact nofun) (by rw [hs]; exact nofun)]
    refine ⟨s.boundary, exec_cycleBoundary due, seq, by rw [servo], by rw [servo], by rw [servo], by rw [servo],
      ?_, fun room => mem_holdover_events hs ?_ room⟩
    · simp [boundary_view, State.viewWork, State.adopts, hs, SyncState.measuring]
    · simp only [State.sequencerEvents, hs, clean, if_true]
      rfl
  · have unclean : s.clean = false := Bool.eq_false_iff.2 fun k => dirty ((clean_iff s).1 k)
    have expiry := (reachesExpiry_iff hs unclean).2 ⟨fresh, reach⟩
    have seq : s.boundary.seq = { s.seq with
        holdover := min 65535 (s.seq.holdover + 1), expired := true, permission := false } := by
      rw [boundary_seq]
      simp only [State.sequencerWork, hs, unclean, expiry, if_true, Bool.false_eq_true, if_false]
      rfl
    refine ⟨s.boundary, congrArg Host.Outcome.next (if_pos (by simp [due, expiry])),
        exec_cycleBoundary due, seq,
      fun hg => boundary_stops hg (by rw [seq]), fun room => mem_holdover_events hs ?_ room⟩
    simp only [State.sequencerEvents, hs, unclean, expiry, if_true, Bool.false_eq_true, if_false]
  · have unclean : s.clean = false := Bool.eq_false_iff.2 fun k => dirty ((clean_iff s).1 k)
    have stays : s.reachesExpiry = false := Bool.eq_false_iff.2 fun k => by
      obtain ⟨fresh, reach⟩ := (reachesExpiry_iff hs unclean).1 k
      rcases short with expired | below
      · rw [fresh] at expired
        cases expired
      · omega
    refine ⟨s.boundary, exec_cycleBoundary due, ?_, ?_⟩
    · rw [boundary_seq]
      simp only [State.sequencerWork, hs, unclean, stays, Bool.false_eq_true, if_false]
      rfl
    · refine boundary_events_of (l := []) ?_ (Nat.zero_le 1)
      rw [boundaryEvents_holdover hs]
      simp only [State.sequencerEvents, hs, unclean, stays, Bool.false_eq_true, if_false]

end Sys2Proof.Machine

/-! Where a command moves the sync state and the gate state (8.1, 9.1). -/

namespace Sys2Proof.Machine

set_option Elab.async false

/-! ### What a command does to the sync state and to the generator -/

/-- A command takes the sync state along one of its edges, or leaves it. -/
def SyncMoved (c : Instr) (s t : State) : Prop :=
  t.seq.sync = s.seq.sync ∨ syncMove c s.seq.sync t.seq.sync = true

/-- The generator keeps its state, or a running one is ARMED with permission withdrawn. -/
def GateHeld (s t : State) : Prop :=
  t.gate.state = s.gate.state ∨ (s.gate.state = .running ∧ t.gate.state = .armed ∧ t.gate.hi = false ∧
    t.gate.lo = false ∧ t.seq.permission = false)

/-- Both, for the commands that neither arm, start, stop nor trip a generator. -/
structure Shifted (c : Instr) (s t : State) : Prop where
  sync : SyncMoved c s t
  gate : GateHeld s t

theorem Shifted.still {c : Instr} {s t : State} (hs : t.seq = s.seq) (hg : t.gate = s.gate) :
    Shifted c s t := ⟨.inl (by rw [hs]), .inl (by rw [hg])⟩

theorem Shifted.congr {c : Instr} {s t s' t' : State} (h : Shifted c s t) (ht : t'.seq = t.seq)
    (hgt : t'.gate = t.gate) (hs : s'.seq = s.seq) (hg : s'.gate.state = s.gate.state) : Shifted c s' t' := by
  obtain ⟨sync, gate⟩ := h
  unfold SyncMoved at sync
  unfold GateHeld at gate
  exact ⟨by rw [SyncMoved, hs, ht]; exact sync, by rw [GateHeld, hg, ht, hgt]; exact gate⟩

theorem Shifted.ite {c : Instr} {s t u : State} {p : Prop} [Decidable p] (ht : p → Shifted c s t)
    (hu : ¬ p → Shifted c s u) : Shifted c s (if p then t else u) := by
  split
  · exact ht ‹_›
  · exact hu ‹_›

/-- A generator whose permission is gone. -/
theorem GateHeld.withdrawn {s t : State} (hg : t.gate = s.gate.withdraw) (hp : t.seq.permission = false) :
    GateHeld s t := by
  by_cases h : s.gate.state = .running
  · rw [withdraw_of_running h] at hg
    exact .inr ⟨h, by rw [hg], by rw [hg], by rw [hg], hp⟩
  · rw [withdraw_of_not_running h] at hg
    exact .inl (by rw [hg])

theorem shifted_enterClearing {c : Instr} {s : State} {x : SyncState} (h : syncMove c s.seq.sync x = true) :
    Shifted c s (s.enterClearing x) := ⟨.inr h, .withdrawn rfl rfl⟩

theorem shifted_enterHoldover {c : Instr} {s : State} (h : syncMove c s.seq.sync .holdover = true) :
    Shifted c s s.enterHoldover := by
  refine ⟨.inr h, ?_⟩
  cases hk : s.cfg.gateInHoldover && !decide (s.cfg.holdoverMax = 0)
  · exact .withdrawn (by simp [State.enterHoldover, hk]) (by simp [State.enterHoldover, hk])
  · exact .inl (by simp [State.enterHoldover, hk])

/-! ### Errors -/

section Errors

variable {c : Instr} (hc : isErrorCommand c = true)

include hc

theorem shifted_answerLinkDown (s : State) : Shifted c s s.answerLinkDown.1 := by
  have parks (h : s.seq.sync.grouped = true) : syncMove c s.seq.sync .parked = true := by
    cases hs : s.seq.sync <;> rw [hs] at h <;> cases h <;> simp [syncMove, hc]
  unfold State.answerLinkDown
  dsimp only
  split <;> rename_i hs
  case h_5 => exact shifted_enterClearing (by rw [hs]; exact hc)
  case h_6 =>
    split
    · exact shifted_enterClearing (parks (by rw [hs]; rfl))
    · exact shifted_enterClearing (by rw [hs]; exact hc)
  case h_7 =>
    split
    · exact shifted_enterClearing (parks (by rw [hs]; rfl))
    · exact shifted_enterHoldover (by rw [hs]; exact hc)
  case h_8 =>
    split
    · exact shifted_enterClearing (parks (by rw [hs]; rfl))
    · exact .still rfl rfl
  case h_4 => exact ⟨.inl rfl, .inl rfl⟩
  all_goals exact .still rfl rfl

theorem shifted_countError (s : State) (d : Byte) : Shifted c s (s.countError d) := by
  rcases countError_cases s d with ⟨-, e⟩ | ⟨-, e⟩ | ⟨-, e⟩ <;> rw [e]
  · exact .still rfl rfl
  · exact .still rfl rfl
  · exact (shifted_answerLinkDown hc { s with tx := { s.tx with linkErr := s.tx.linkErr + 1 } }).congr
      (by simp [State.linkDown]) (by simp [State.linkDown]) rfl rfl

theorem shifted_transmitError (s : State) (n : Nat) : Shifted c s (s.transmitError n) := by
  unfold State.transmitError
  split
  · exact .ite (fun _ => (shifted_countError hc _ 1).congr rfl rfl rfl rfl) fun _ => .still rfl rfl
  · exact .still rfl rfl

theorem shifted_dominantRun (s : State) : Shifted c s s.dominantRun := by
  unfold State.dominantRun
  split
  · exact (shifted_countError hc _ 0).congr rfl rfl rfl rfl
  all_goals exact .still rfl rfl

theorem shifted_frameError (s : State) (bits : List Bit) : Shifted c s (s.frameError bits) := by
  unfold State.frameError
  split
  · refine .ite (fun _ => .still rfl rfl) fun _ => ?_
    split
    · exact (shifted_countError hc _ 0).congr (keepDropped_seq _ _ _) (keepDropped_gate _ _ _) rfl rfl
    · exact .still rfl rfl
  all_goals exact .still rfl rfl

theorem shifted_onSofEdge (s : State) (b : Bit) : Shifted c s (onSofEdge b s) := by
  by_cases hm : s.line.mode = .hunt
  · rw [onSofEdge_hunt hm]
    refine .ite (fun _ => .ite (fun _ => ?_) fun _ => .still rfl rfl) fun _ => .still rfl rfl
    exact (shifted_transmitError hc s.openFrame 0).congr rfl rfl rfl rfl
  · unfold onSofEdge
    split
    · exact absurd ‹_› hm
    all_goals exact .still rfl rfl

theorem shifted_onLinkDown (s : State) (e : LinkError) : Shifted c s (onLinkDown e s) := by
  refine .ite (fun _ => ?_) fun _ => .still rfl rfl
  cases e with
  | receive bits => exact shifted_frameError hc s bits
  | dominantRun => exact shifted_dominantRun hc s
  | transmit n => exact shifted_transmitError hc s n

end Errors

/-! ### Deliveries and completions -/

section Deliveries

variable {c : Instr} (hc : isDelivery c = true)

include hc

theorem shifted_identityConflict (s : State) (k : FrameKind) : Shifted c s (s.identityConflict k) := by
  refine .ite (fun acts => (shifted_enterClearing ?_).congr rfl rfl rfl rfl) fun _ => .still rfl rfl
  cases hs : s.seq.sync <;> rw [hs] at acts <;> first | exact hc | cases acts

theorem shifted_deliverBeacon (s : State) (q : PhaseSample) (i : Identity) (ph : BitVec 16) (h m : StationMap)
    (st : SenderState) : Shifted c s (s.deliverBeacon q i ph h m st) :=
  .ite (fun _ => shifted_identityConflict hc s _) fun _ => .ite (fun _ => .still (by simp) (by simp)) fun _ =>
    .ite (fun _ => .still (by simp) (by simp)) fun _ => .still rfl rfl

theorem shifted_deliverClaim (s : State) (i : Identity) (p : BitVec 16) : Shifted c s (s.deliverClaim i p) :=
  .ite (fun _ => shifted_identityConflict hc s _) fun _ => .ite (fun _ => .still (by simp) (by simp)) fun _ =>
    .ite (fun _ => .still rfl rfl) fun _ => .still rfl rfl

theorem shifted_deliverLeave (s : State) (i : Identity) : Shifted c s (s.deliverLeave i) :=
  .ite (fun _ => shifted_identityConflict hc s _) fun _ =>
    .ite (fun _ => .still (by simp) (by simp)) fun _ => .still rfl rfl

end Deliveries

/-- A command that delivers a frame, by what the delivery does after the end of the frame. -/
theorem shifted_delivery {c : Instr} {s : State} {f : Frame} {deliver : RxRecord → State → State}
    (h : ∀ r u, Shifted c u (deliver r u)) :
    Shifted c s (match s.foreignRecord f with
      | some r => deliver r (s.endOfFrame (idleAfterFrame f))
      | none => s) := by
  cases s.foreignRecord f with
  | some r => exact (h r (s.endOfFrame (idleAfterFrame f))).congr rfl rfl rfl rfl
  | none => exact .still rfl rfl

theorem syncMove_parks {c : Instr} {x : SyncState} (hc : c = .frameComplete) (h : x.grouped = true) :
    syncMove c x .parked = true := by
  subst hc
  cases x <;> first | rfl | cases h

theorem shifted_onFrameComplete (s : State) : Shifted .frameComplete s (onFrameComplete s) := by
  unfold onFrameComplete
  split
  · rename_i f _
    refine .ite (fun _ => .still rfl rfl) fun _ => ?_
    rw [completeFrame_eq]
    unfold State.answerCompletion
    split
    · refine .ite (fun join => ⟨.inr ?_, .inl rfl⟩) fun _ => .still rfl rfl
      rw [show s.seq.sync = .join from join]
      rfl
    · exact .ite (fun grouped => (shifted_enterClearing (syncMove_parks rfl grouped)).congr rfl rfl rfl rfl)
        fun _ => .still rfl rfl
    · exact .still rfl rfl
    · exact .still rfl rfl
  · exact .still rfl rfl

/-! ### Requests that enter or leave, and the end of a read attempt -/

theorem shifted_onAttach (s : State) : Shifted .attach s (onAttach s) := by
  unfold onAttach
  split <;> rename_i hs
  case h_5 | h_6 => exact (shifted_enterClearing (by rw [hs]; rfl)).congr rfl rfl rfl rfl
  all_goals exact .still rfl rfl

theorem shifted_onDetach (s : State) : Shifted .detach s (onDetach s) := by
  have parks {d : Byte} (h : syncMove .detach s.seq.sync .parked = true) :
      Shifted .detach s ((s.park d).reply 0x18 0 .done []) := (shifted_enterClearing h).congr rfl rfl rfl rfl
  unfold onDetach
  split <;> rename_i hs
  case h_4 | h_5 => exact parks (by rw [hs]; rfl)
  case h_6 | h_7 => exact .ite (fun _ => .still rfl rfl) fun _ => .still rfl rfl
  case h_8 =>
    exact .ite (fun _ => .still rfl rfl) fun _ => .ite (fun _ => parks (by rw [hs]; rfl)) fun _ => .still rfl rfl
  all_goals exact .still rfl rfl

/-- A read attempt is at work in LOAD alone, and its end takes the station out of it. -/
theorem syncMoved_onConfigAttemptEnd {s : State} (h : s.loader.phase ≠ .finished → s.seq.sync = .load)
    (bytes : ImageBits) : SyncMoved (.configAttemptEnd bytes) s (onConfigAttemptEnd bytes s) := by
  cases hp : s.loader.phase with
  | reading n k =>
    have load : s.seq.sync = .load := h (by rw [hp]; exact nofun)
    rw [onConfigAttemptEnd_reading hp]
    cases judgeImage bytes with
    | noResponse =>
      dsimp only
      split_ifs
      · exact .inl rfl
      · exact .inr (by rw [load]; rfl)
    | badCheck => exact .inr (by rw [load]; rfl)
    | badField m => exact .inr (by rw [load]; rfl)
    | good i =>
      refine .inr ?_
      change syncMove _ _ (if i.autoJoin then SyncState.listen else .parked) = true
      rw [load]
      cases i.autoJoin <;> rfl
  | _ => rw [onConfigAttemptEnd, hp]; exact .inl rfl

theorem gateHeld_onConfigAttemptEnd (s : State) (bytes : ImageBits) :
    GateHeld s (onConfigAttemptEnd bytes s) := by
  cases hp : s.loader.phase with
  | reading n k =>
    rw [onConfigAttemptEnd_reading hp]
    cases judgeImage bytes with
    | noResponse =>
      dsimp only
      split_ifs
      · exact .inl rfl
      · exact .withdrawn rfl rfl
    | badCheck => exact .withdrawn rfl rfl
    | badField m => exact .withdrawn rfl rfl
    | good i =>
      have loaded : GateHeld { s with
          gate := { s.gate with pendingDuty := i.dutyMin, activeDuty := i.dutyMin } }
          (State.startBlocks { s with loader := ⟨s.loader.phase, bytes⟩ } i) := .withdrawn rfl rfl
      exact loaded
  | _ => rw [onConfigAttemptEnd, hp]; exact .inl rfl

/-! ### The other commands -/

theorem countTick_still (s : State) : (onCountTick s).seq = s.seq ∧
    (onCountTick s).gate.state = s.gate.state := by
  unfold onCountTick
  split
  · exact ⟨rfl, by simp [State.decideOutputs]⟩
  · exact ⟨rfl, rfl⟩

/-- The commands that can set the gate state by themselves, and the end of a read attempt. -/
def setsGate : Instr → Bool
  | .deviceReset => true
  | .loadStart => true
  | .configAttemptEnd _ => true
  | .rxFault _ _ => true
  | .tripPinAssert => true
  | .start => true
  | .stop => true
  | .trip => true
  | .clear => true
  | c => isBoundaryCommand c

theorem refused_still {c : Instr} {s t : State} {code : Byte} {a : BitVec 16} (h : Shifted c s t) :
    Shifted c s (match s.portRefusal with
      | some x => s.reply code a x []
      | none => t) := by
  cases s.portRefusal with
  | some x => exact .still rfl rfl
  | none => exact h

theorem exec_shifted {c : Instr} {s t : State} (h : exec c s = .next t) (hc : setsGate c = false) :
    Shifted c s t := by
  cases c <;> cases hc <;> obtain rfl := Host.Outcome.next.inj h
  case countTick =>
    obtain ⟨hs, hg⟩ := countTick_still s
    exact ⟨.inl (by rw [hs]), .inl hg⟩
  case sofEdge b => exact shifted_onSofEdge rfl s b
  case rxFrameError bits => exact shifted_frameError rfl s bits
  case dominantRunError => exact shifted_dominantRun rfl s
  case transmitError n => exact shifted_transmitError rfl s n
  case linkDown e => exact shifted_onLinkDown rfl s e
  case rxBeacon i ph a m st => exact shifted_delivery fun r u => shifted_deliverBeacon rfl u r.sample i ph a m st
  case rxClaim i p => exact shifted_delivery fun _ u => shifted_deliverClaim rfl u i p
  case rxLeave i => exact shifted_delivery fun _ u => shifted_deliverLeave rfl u i
  case frameComplete => exact shifted_onFrameComplete s
  case attach => exact shifted_onAttach s
  case detach => exact shifted_onDetach s
  case duty v => exact refused_still ⟨.inl rfl, .inl rfl⟩
  case servo => exact refused_still (.still rfl rfl)
  case roster i => exact refused_still (by split <;> exact .still rfl rfl)
  case log i => exact refused_still (by split <;> exact .still rfl rfl)
  case status => exact .ite (fun _ => .still rfl rfl) fun _ => .still rfl rfl
  case syncPulseEnd => exact .ite (fun _ => .still rfl rfl) fun _ => .still rfl rfl
  case tripPinRelease => exact .still rfl rfl
  case lpSelRelease => exact .still rfl rfl
  case unknownRequest n =>
    exact .ite (fun _ => .still rfl rfl) fun _ => .ite (fun _ => .still rfl rfl) fun _ => .still rfl rfl
  case event =>
    refine .ite (fun _ => .still rfl rfl) fun _ => ?_
    split <;> exact .still rfl rfl
  case configRetryWaitEnd => unfold onConfigRetryWaitEnd; split <;> exact .still rfl rfl
  case recoverIdle =>
    unfold onRecoverIdle
    split
    · exact .ite (fun _ => .still rfl rfl) fun _ => .still rfl rfl
    all_goals exact .still rfl rfl
  case lineIdle =>
    unfold onLineIdle
    split
    case h_1 | h_2 => exact .ite (fun _ => .still rfl rfl) fun _ => .still rfl rfl
    all_goals exact .still rfl rfl
  case txFrameStart =>
    refine .ite (fun _ => ?_) fun _ => .still rfl rfl
    split <;> exact .still rfl rfl
  case arbitrationLost n =>
    unfold onArbitrationLost
    split
    · exact .ite (fun _ => .still rfl rfl) fun _ => .still rfl rfl
    · exact .still rfl rfl
  case abortMarkEnd =>
    unfold onAbortMarkEnd
    split
    · exact .ite (fun _ => .still rfl rfl) fun _ => .still rfl rfl
    · exact .still rfl rfl

end Sys2Proof.Machine

/-! The moves of sync state and gate state by a command (8.1, 9.1), command by command. -/

namespace Sys2Proof.Machine

set_option Elab.async false

/-! ### Boundaries -/

/-- A boundary command is the boundary, where it is due, or nothing. -/
theorem exec_boundaryCommand {c : Instr} {s t : State} (hb : isBoundaryCommand c = true)
    (h : exec c s = .next t) : t = s ∨ s.boundaryDue = true ∧ t = s.boundary := by
  have either {b : Bool} {u : State} (hu : u = if s.boundaryDue && b then s.boundary else s) :
      u = s ∨ s.boundaryDue = true ∧ u = s.boundary := by
    split at hu
    · rename_i k
      exact .inr ⟨(Bool.and_eq_true_iff.1 k).1, hu⟩
    · exact .inl hu
  cases c <;> cases hb <;> obtain rfl := Host.Outcome.next.inj h
  case cycleBoundary => exact either (b := true) (by rw [Bool.and_true]; rfl)
  all_goals exact either rfl

theorem syncMoved_boundary {c : Instr} {s : State} (hb : isBoundaryCommand c = true) :
    SyncMoved c s s.boundary := by
  rw [SyncMoved, boundary_seq]
  cases hs : s.seq.sync <;> simp only [State.sequencerWork, hs]
  case listen =>
    split
    · exact .inr hb
    · exact .inl rfl
  case acquire | locked =>
    split
    · exact .inr hb
    · exact .inl hs
  case holdover =>
    split_ifs
    · exact .inr hb
    · exact .inl rfl
    · exact .inl rfl
  all_goals exact .inl trivial

/-! ### Faults -/

theorem syncMoved_deliverFault {c : Instr} (hc : isDelivery c = true) (s : State) (i : Identity)
    (x : LocalCause) : SyncMoved c s (s.deliverFault i x) := by
  unfold State.deliverFault
  dsimp only
  split_ifs
  · exact (shifted_identityConflict hc s _).sync
  all_goals exact .inl (by simp)

theorem onLoadStart_seq (s : State) : (onLoadStart s).seq = s.seq := by
  unfold onLoadStart
  dsimp only
  split_ifs <;> simp

theorem onTripPinAssert_seq (s : State) : (onTripPinAssert s).seq = s.seq := by
  unfold onTripPinAssert
  dsimp only
  split_ifs <;> simp

theorem onTrip_seq (s : State) : (onTrip s).seq = s.seq := by
  unfold onTrip
  split
  · rfl
  · simp

theorem onStart_seq (s : State) : (onStart s).seq = s.seq := by
  unfold onStart
  split
  · rfl
  · split <;> rfl

theorem onStop_seq (s : State) : (onStop s).seq = s.seq := by
  unfold onStop
  split
  · rfl
  · split <;> rfl

theorem onClear_seq (s : State) : (onClear s).seq = s.seq := by
  unfold onClear
  split
  · rfl
  · split_ifs <;> rfl

theorem syncMoved_of_setsGate {c : Instr} {s t : State} (inv : ConfigInv s) (h : exec c s = .next t)
    (hc : setsGate c = true) (hb : isBoundaryCommand c = false) : SyncMoved c s t := by
  cases c <;> cases hc <;> cases hb <;> obtain rfl := Host.Outcome.next.inj h
  case deviceReset => exact .inr (by cases s.seq.sync <;> rfl)
  case loadStart => exact .inl (by rw [onLoadStart_seq])
  case configAttemptEnd bytes => exact syncMoved_onConfigAttemptEnd (fun k => (inv.loadingWithout k).2) bytes
  case tripPinAssert => exact .inl (by rw [onTripPinAssert_seq])
  case trip => exact .inl (by rw [onTrip_seq])
  case start => exact .inl (by rw [onStart_seq])
  case stop => exact .inl (by rw [onStop_seq])
  case clear => exact .inl (by rw [onClear_seq])
  case rxFault i x =>
    unfold onRxFault
    dsimp only
    split
    · exact syncMoved_deliverFault rfl _ i x
    · exact .inl rfl

/-- Settles O44: each command by its kind, boundaries by the sequencer's work. -/
theorem syncStateMovesAsGiven : Obligations.SyncStateMovesAsGiven := by
  intro c s t inv h moved
  suffices SyncMoved c s t from this.resolve_left moved
  by_cases hc : setsGate c = true
  · by_cases hb : isBoundaryCommand c = true
    · rcases exec_boundaryCommand hb h with rfl | ⟨-, rfl⟩
      · exact .inl rfl
      · exact syncMoved_boundary hb
    · exact syncMoved_of_setsGate inv h hc (Bool.not_eq_true _ ▸ hb)
  · exact (exec_shifted h (Bool.not_eq_true _ ▸ hc)).sync

/-! ### What sets the gate state -/

/-- The generator keeps its state or is TRIPPED with both outputs inactive. -/
def GateTripped (s t : State) : Prop :=
  t.gate.state = s.gate.state ∨ t.gate.state = .tripped ∧ t.gate.hi = false ∧ t.gate.lo = false

theorem gateTripped_takeFault (s : State) (c : FaultCause) : GateTripped s (s.takeFault c) := by
  by_cases h : s.gate.state = .tripped
  · rw [takeFault_tripped c h]
    exact .inl rfl
  · rw [takeFault_untripped c h]
    exact .inr ⟨rfl, rfl, rfl⟩

theorem gateTripped_localFault (s : State) (c : LocalCause) : GateTripped s (s.localFault c) := by
  have gate : (s.localFault c).gate = (s.takeFault (LocalCause.asFault c)).gate := by
    unfold State.localFault
    split_ifs <;> rfl
  rw [GateTripped, gate]
  exact gateTripped_takeFault s _

theorem gateTripped_assertTripPin (s : State) : GateTripped s s.assertTripPin := by
  unfold State.assertTripPin
  split
  · exact .inl rfl
  · exact gateTripped_localFault { s with fault := { s.fault with pin := true } } .pin

theorem gateTripped_onTripPinAssert (s : State) : GateTripped s (onTripPinAssert s) := by
  unfold onTripPinAssert
  dsimp only
  split
  · exact .inl rfl
  · exact gateTripped_assertTripPin { s with pins := { s.pins with trip := true } }

theorem gateTripped_onLoadStart (s : State) : (onLoadStart s).gate.state = s.gate.state ∨
    s.pins.trip = true ∧ GateTripped s (onLoadStart s) := by
  unfold onLoadStart
  dsimp only
  split_ifs with held pin
  · exact .inr ⟨pin, gateTripped_assertTripPin { s with
      pins := { s.pins with reset := false }
      port := { s.port with selPrev := s.pins.lpSel }
      loader := { s.loader with phase := .reading 1 0 } }⟩
  · exact .inl rfl
  · exact .inl rfl

theorem gateTripped_onTrip (s : State) : GateTripped s (onTrip s) := by
  unfold onTrip
  split
  · exact .inl rfl
  · exact gateTripped_localFault s .command

/-- A FAULT trips a station with GroupTrip that transmits; an own identity withdraws permission (R35, R161). -/
theorem gate_deliverFault (s : State) (i : Identity) (x : LocalCause) : GateHeld s (s.deliverFault i x) ∨
    s.cfg.groupTrip = true ∧ s.seq.sync.transmits = true ∧ GateTripped s (s.deliverFault i x) := by
  unfold State.deliverFault
  dsimp only
  split_ifs with own acts sends group
  · exact .inl (shifted_identityConflict (c := .rxFault i x) rfl s _).gate
  · refine .inr ⟨group, sends, ?_⟩
    exact gateTripped_takeFault (s.setEntry i { s.roster[i].touch with presence := s.roster[i].presence.onHeard })
      (.remote i)
  all_goals exact .inl (.inl rfl)

theorem onStart_gate (s : State) : (onStart s).gate.state = s.gate.state ∨
    s.gate.state = .off ∧ (onStart s).gate.state = .armed := by
  unfold onStart
  split
  · exact .inl rfl
  · split <;> rename_i hg
    · exact .inr ⟨hg, rfl⟩
    all_goals exact .inl rfl

theorem onStop_gate (s : State) : (onStop s).gate.state = s.gate.state ∨
    (s.gate.state = .armed ∨ s.gate.state = .running) ∧ (onStop s).gate = s.gate.stopped := by
  unfold onStop
  split
  · exact .inl rfl
  · split <;> rename_i hg
    · exact .inl rfl
    · exact .inr ⟨.inl hg, rfl⟩
    · exact .inr ⟨.inr hg, rfl⟩
    · exact .inl rfl

theorem onClear_gate (s : State) : (onClear s).gate.state = s.gate.state ∨
    s.gate.state = .tripped ∧ (onClear s).gate = s.gate.stopped := by
  unfold onClear
  split
  · exact .inl rfl
  · split_ifs with hg
    · exact .inl rfl
    · exact .inr ⟨hg, rfl⟩
    · exact .inl rfl

/-- The ways in which a command leaves the generator. -/
inductive GateMoved (c : Instr) (s t : State) : Prop
  | held (h : GateHeld s t)
  | trips (h : GateTripped s t) (why : c = .tripPinAssert ∨ c = .trip ∨
      (c = .loadStart ∧ s.pins.trip = true) ∨ ((∃ sender cause, c = .rxFault sender cause) ∧
        s.cfg.groupTrip = true ∧ s.seq.sync.transmits = true))
  | ends (hc : isBoundaryCommand c = true) (hd : s.boundaryDue = true) (ht : t = s.boundary)
  | arms (hc : c = .start) (hs : s.gate.state = .off) (ht : t.gate.state = .armed)
  | stops (ht : t.gate.state = .off ∧ t.gate.hi = false ∧ t.gate.lo = false) (why : c = .deviceReset ∨
      (c = .clear ∧ s.gate.state = .tripped) ∨
      (c = .stop ∧ (s.gate.state = .armed ∨ s.gate.state = .running)))

theorem GateMoved.same {c : Instr} {s t : State} (h : t.gate.state = s.gate.state) : GateMoved c s t :=
  .held (.inl h)

theorem gateMoved_of_setsGate {c : Instr} {s t : State} (h : exec c s = .next t) (hc : setsGate c = true)
    (hb : isBoundaryCommand c = false) : GateMoved c s t := by
  cases c <;> cases hc <;> cases hb <;> obtain rfl := Host.Outcome.next.inj h
  case deviceReset => exact .stops ⟨rfl, rfl, rfl⟩ (.inl rfl)
  case configAttemptEnd bytes => exact .held (gateHeld_onConfigAttemptEnd s bytes)
  case tripPinAssert => exact .trips (gateTripped_onTripPinAssert s) (.inl rfl)
  case trip => exact .trips (gateTripped_onTrip s) (.inr (.inl rfl))
  case loadStart =>
    rcases gateTripped_onLoadStart s with same | ⟨pin, trips⟩
    · exact .same same
    · exact .trips trips (.inr (.inr (.inl ⟨rfl, pin⟩)))
  case start =>
    rcases onStart_gate s with same | ⟨off, armed⟩
    · exact .same same
    · exact .arms rfl off armed
  case stop =>
    rcases onStop_gate s with same | ⟨was, gate⟩
    · exact .same same
    · exact .stops (by rw [gate]; exact ⟨rfl, rfl, rfl⟩) (.inr (.inr ⟨rfl, was⟩))
  case clear =>
    rcases onClear_gate s with same | ⟨was, gate⟩
    · exact .same same
    · exact .stops (by rw [gate]; exact ⟨rfl, rfl, rfl⟩) (.inr (.inl ⟨rfl, was⟩))
  case rxFault i x =>
    unfold onRxFault
    dsimp only
    split
    · rcases gate_deliverFault (s.endOfFrame (idleAfterFrame ⟨i, .fault x⟩)) i x with held |
        ⟨group, sends, trips⟩
      · exact .held held
      · exact .trips trips (.inr (.inr (.inr ⟨⟨i, x, rfl⟩, group, sends⟩)))
    · exact .same rfl

theorem gateMoved_of_exec {c : Instr} {s t : State} (h : exec c s = .next t) : GateMoved c s t := by
  by_cases hc : setsGate c = true
  · by_cases hb : isBoundaryCommand c = true
    · rcases exec_boundaryCommand hb h with rfl | ⟨due, ht⟩
      · exact .same rfl
      · exact .ends hb due ht
    · exact gateMoved_of_setsGate h hc (Bool.not_eq_true _ ▸ hb)
  · exact .held (exec_shifted h (Bool.not_eq_true _ ▸ hc)).gate

/-- Settles O48: the state left, by the way in which the command leaves it. -/
theorem gateStateMovesAsGiven : Obligations.GateStateMovesAsGiven := by
  intro c s t h moved
  cases gateMoved_of_exec h with
  | held k =>
    obtain ⟨running, armed, hi, lo, permission⟩ := k.resolve_left moved
    rw [armed, running]
    exact ⟨.inl ⟨rfl, hi, lo, permission⟩, nofun, nofun⟩
  | trips k why =>
    obtain ⟨tripped, hi, lo⟩ := k.resolve_left moved
    rw [tripped] at moved ⊢
    exact ⟨⟨hi, lo, why⟩, fun k => absurd k.symm moved, nofun⟩
  | arms hc off armed =>
    rw [armed, off]
    exact ⟨.inr ⟨hc, rfl⟩, nofun, fun _ _ => hc⟩
  | stops ht why =>
    obtain ⟨off, hi, lo⟩ := ht
    rw [off] at moved ⊢
    refine ⟨⟨hi, lo, why⟩, fun tripped => ?_, nofun⟩
    rcases why with reset | ⟨clear, -⟩ | ⟨-, was⟩
    · exact .inr reset
    · exact .inl clear
    · rw [tripped] at was
      exact was.elim nofun nofun
  | ends hc due ht =>
    subst ht
    have state := boundary_gate_state s
    split_ifs at state with active permitted
    · have was : s.gate.state = .armed := active.resolve_right fun k => moved (state.trans k.symm)
      rw [state, was]
      exact ⟨⟨hc, due, rfl, permitted⟩, nofun, nofun⟩
    · have was : s.gate.state = .running := active.resolve_left fun k => moved (state.trans k.symm)
      have withdrawn := Bool.eq_false_iff.2 permitted
      obtain ⟨-, hi, lo⟩ := boundary_stops was withdrawn
      rw [state, was]
      exact ⟨.inl ⟨rfl, hi, lo, withdrawn⟩, nofun, nofun⟩
    · exact absurd state moved

end Sys2Proof.Machine

/-! Requests and faults: DETACH (8.7), START and STOP (9.2), the TRIP pin, TRIP, CLEAR and the remote FAULT
(Chapter 10). -/

namespace Sys2Proof.Machine

set_option Elab.async false

/-! ### DETACH -/

theorem onDetach_parks {s : State} (h : s.seq.sync = .listen ∨ s.seq.sync = .join) :
    onDetach s = (s.park 0).reply 0x18 0 .done [] := by
  rcases h with h | h <;> simp only [onDetach, h]

/-- What `DETACH` parks: cleared, with its event, the line's side untouched. -/
theorem park_spec (s : State) (d : Byte) : (s.park d).seq = ⟨.parked, 0, 0, false, false⟩ ∧ Cleared (s.park d) ∧
    (s.park d).events = offerEvent s.events ⟨.parked, none, d, s.carrier.cycle, false⟩ ∧
    (s.park d).tx = { s.tx with queue := TxQueue.empty } ∧ ClearingFrame s (s.park d) ∧
    (s.park d).line = s.line ∧ (s.park d).pins = s.pins ∧ (s.park d).free = s.free :=
  ⟨rfl, park_cleared s d, rfl, rfl, ⟨rfl, ⟨rfl, rfl⟩, rfl, rfl⟩, rfl, rfl, rfl⟩

/-- Settles O42, row by row of the table of R133. -/
theorem detachByState : Obligations.DetachByState := by
  intro s
  have taken : exec .detach s = .next (onDetach s) := rfl
  rw [taken]
  refine ⟨fun h => ?_, fun reason h => ?_, fun h => ?_, fun h => ?_, fun grouped leave => ?_,
    fun grouped noLeave below => ?_, fun h noLeave limit => ?_⟩
  · simp only [onDetach, h]
    exact ⟨_, rfl, reply_answered ..⟩
  · simp only [onDetach, h]
    exact ⟨_, rfl, reply_answered ..⟩
  · simp only [onDetach, h]
    exact ⟨_, rfl, reply_answered ..⟩
  · rw [onDetach_parks h]
    exact ⟨s.park 0, _, rfl, reply_answered .., park_spec s 0⟩
  · have already : onDetach s = s.reply 0x18 0 .already [] := by
      unfold onDetach
      split <;> rename_i hs
      case h_6 | h_7 | h_8 => exact if_pos leave
      all_goals simp [hs, SyncState.grouped] at grouped
    rw [already]
    exact ⟨_, rfl, reply_answered ..⟩
  · rw [onDetach_grouped grouped fun _ => decide_eq_false (by omega), State.leavePending, noLeave]
    have offered : s.offerLeave = { s with tx := { s.tx with
        queue := ⟨s.tx.queue.fault, true, false, false⟩ } } := by
      simp [State.offerLeave, TxQueue.offerLeave, noLeave]
    rw [← offered]
    exact ⟨_, rfl, reply_answered ..⟩
  · have parks : onDetach s = (s.park 2).reply 0x18 0 .done [] := by
      simp only [onDetach, h, State.leavePending, noLeave, State.linkAtLimit, decide_eq_true limit,
        Bool.false_eq_true, if_false, if_true]
    rw [parks]
    exact ⟨s.park 2, _, rfl, reply_answered .., park_spec s 2⟩

/-! ### START and STOP -/

/-- Settles O46: the answers of a station that has started, gate state by gate state. -/
theorem startAndStop : Obligations.StartAndStop := by
  intro s load blocked
  have taken := portRefusal_of_taken load blocked
  have start : exec .start s = .next (onStart s) := rfl
  have stop : exec .stop s = .next (onStop s) := rfl
  rw [start, stop]
  refine ⟨fun h => ?_, fun h => ?_, fun h => ?_, fun h => ?_, fun h => ?_, fun h => ?_⟩
  · simp only [onStart, taken, h]
    exact ⟨_, rfl, reply_answered ..⟩
  · rcases h with h | h <;>
      · simp only [onStart, taken, h]
        exact ⟨_, rfl, reply_answered ..⟩
  · simp only [onStart, taken, h]
    exact ⟨_, rfl, reply_answered ..⟩
  · rcases h with h | h <;>
      · simp only [onStop, taken, h]
        exact ⟨_, rfl, reply_answered ..⟩
  · simp only [onStop, taken, h]
    exact ⟨_, rfl, reply_answered ..⟩
  · simp only [onStop, taken, h]
    exact ⟨_, rfl, reply_answered ..⟩

/-! ### Faults -/

/-- A fault trips the stage and fills the record, or raises the repeat count (R155, R157, R162). -/
theorem takeFault_eq (s : State) (c : FaultCause) : s.takeFault c = { s with
    gate := if s.gate.state = .tripped then s.gate
      else { s.gate with state := .tripped, hi := false, lo := false }
    fault := if s.gate.state = .tripped then { s.fault with repeats := min 15 (s.fault.repeats + 1) }
      else { s.fault with cause := c, stamp := s.carrier.cycle, repeats := 0 } } := by
  by_cases h : s.gate.state = .tripped
  · rw [takeFault_tripped c h, if_pos h, if_pos h]
  · rw [takeFault_untripped c h, if_neg h, if_neg h]

/-- A local fault with its event and its offer (R157 to R159). -/
theorem localFault_eq (s : State) (c : LocalCause) : s.localFault c = { s.takeFault (LocalCause.asFault c) with
    events := if s.seq.sync = .load then s.events
      else offerEvent s.events ⟨.faultLocal, none, causeDetail c, s.carrier.cycle, false⟩
    tx := if s.seq.sync.transmits then { s.tx with queue := s.tx.queue.offerFault c } else s.tx } := by
  rw [State.localFault, takeFault_eq]
  split_ifs <;> rfl

/-- Settles O51: an assertion is the local fault, and a level that stays or goes is none. -/
theorem tripPinIsALocalFault : Obligations.TripPinIsALocalFault := by
  intro s begun
  have asserts : exec .tripPinAssert s = .next ({ s with pins := { s.pins with trip := true } }.assertTripPin) :=
    congrArg Host.Outcome.next (if_neg begun)
  rw [asserts]
  refine ⟨fun inactive => ?_, fun active => ?_, rfl⟩
  · rw [State.assertTripPin, if_neg (by simp [inactive]), localFault_eq, takeFault_eq]
    rfl
  · exact congrArg Host.Outcome.next (if_pos active)

/-- Settles O53: TRIP by the local fault's equation, CLEAR by gate state and pin, both behind the refusals. -/
theorem tripAndClear : Obligations.TripAndClear := by
  intro s
  have trip : exec .trip s = .next (onTrip s) := rfl
  have clear : exec .clear s = .next (onClear s) := rfl
  rw [trip, clear]
  have refused {x : StatusCode} (h : s.portRefusal = some x) :
      (∃ t, Host.Outcome.next (onTrip s) = (.next t : Host.Outcome State Fault Refusal) ∧
        Answered s t 0x13 0 x []) ∧
      ∃ t, Host.Outcome.next (onClear s) = (.next t : Host.Outcome State Fault Refusal) ∧
        Answered s t 0x14 0 x [] := by
    simp only [onTrip, onClear, h]
    exact ⟨⟨_, rfl, reply_answered ..⟩, _, rfl, reply_answered ..⟩
  refine ⟨fun h => refused (portRefusal_of_load h), fun h => refused (portRefusal_of_configBlocked h),
    fun load blocked => ?_⟩
  have taken := portRefusal_of_taken load blocked
  refine ⟨?_, fun tripped pin => ?_, fun tripped pin => ?_, fun h => ?_⟩
  · simp only [onTrip, taken]
    rw [localFault_eq, takeFault_eq, if_neg load]
    exact ⟨_, rfl, reply_answered ..⟩
  · simp only [onClear, taken, tripped, pin, if_true, Bool.false_eq_true, if_false]
    exact ⟨_, rfl, reply_answered ..⟩
  · simp only [onClear, taken, tripped, pin, if_true]
    exact ⟨_, rfl, reply_answered ..⟩
  · simp only [onClear, taken, h, if_false]
    exact ⟨_, rfl, reply_answered ..⟩

theorem actsOnPeers_of_transmits {x : SyncState} (h : x.transmits = true) : x.actsOnPeers = true := by
  cases x <;> first | rfl | cases h

/-- Settles O52: what the delivery does in the states that transmit, in LISTEN, and elsewhere. -/
theorem remoteFaultTripsWithGroupTrip : Obligations.RemoteFaultTripsWithGroupTrip := by
  intro s i c r hr hi
  refine (exec_receiveCommand (foreignRecord_of_receiving hr)).trans (congrArg Host.Outcome.next ?_)
  refine (if_neg hi).trans ?_
  rw [← onHeard_eq]
  by_cases sends : s.seq.sync.transmits = true
  · have acts := actsOnPeers_of_transmits sends
    refine (if_pos acts).trans ((if_pos sends).trans ?_)
    rw [if_pos acts, if_pos sends]
    by_cases group : s.cfg.groupTrip = true
    · have both : s.seq.sync.transmits = true ∧ s.cfg.groupTrip = true := ⟨sends, group⟩
      dsimp only
      rw [if_pos (by exact group), takeFault_eq, if_pos both]
      by_cases tripped : s.gate.state = .tripped
      · rw [if_neg (show ¬(_ ∧ _ ∧ s.gate.state ≠ .tripped) from fun k => k.2.2 tripped),
          if_pos (by exact tripped), if_pos (by exact tripped), if_pos tripped]
        rfl
      · rw [if_pos (⟨sends, group, tripped⟩ : _ ∧ _ ∧ _), if_neg (by exact tripped), if_neg (by exact tripped),
          if_neg tripped]
        rfl
    · rw [if_neg (show ¬(_ ∧ s.cfg.groupTrip = true ∧ _) from fun k => group k.2.1),
        if_neg (show ¬(_ ∧ s.cfg.groupTrip = true) from fun k => group k.2)]
      dsimp only
      rw [if_neg (by exact group)]
      rfl
  · rw [if_neg (show ¬(s.seq.sync.transmits = true ∧ _ ∧ _) from fun k => sends k.1),
      if_neg (show ¬(s.seq.sync.transmits = true ∧ _) from fun k => sends k.1), if_neg sends]
    by_cases acts : s.seq.sync.actsOnPeers = true
    · rw [if_pos acts]
      exact (if_pos acts).trans (if_neg sends)
    · rw [if_neg acts]
      exact if_neg acts

end Sys2Proof.Machine

/-! What the requests of the local port answer: the refusals in their order (11.2), and the records of
STATUS, SERVO, ROSTER, LOG and EVENT byte by byte (11.3 to 11.5). -/

namespace Sys2Proof.Machine

set_option Elab.async false

/-! ### Refusals -/

theorem exec_ite {p : Prop} [Decidable p] {a b : Instr} {s x y : State} (ha : exec a s = .next x)
    (hb : exec b s = .next y) : exec (if p then a else b) s = .next (if p then x else y) := by
  by_cases h : p
  · rw [if_pos h, if_pos h, ha]
  · rw [if_neg h, if_neg h, hb]

/-- A request by its code is the command that the code spells: the two tables name the codes alike. -/
theorem exec_decodeRequest (s : State) (code : Byte) (args : BitVec 16) :
    exec (decodeRequest code args) s = .next (takeRequest code args s) :=
  exec_ite rfl <| exec_ite rfl <| exec_ite rfl <| exec_ite rfl <| exec_ite rfl <| exec_ite rfl <|
    exec_ite rfl <| exec_ite rfl <| exec_ite rfl <| exec_ite rfl <| exec_ite rfl <| exec_ite rfl rfl

/-- R169: the port refuses before the owning chapter in exactly two cases. -/
theorem portRefusal_eq_some {s : State} {x : StatusCode} (h : s.portRefusal = some x) :
    (s.seq.sync = .load ∧ x = .notReady) ∨ (s.seq.sync.configBlocked = true ∧ x = .refusedState) := by
  unfold State.portRefusal at h
  split_ifs at h with load blocked
  · exact .inl ⟨load, (Option.some.inj h).symm⟩
  · exact .inr ⟨blocked, (Option.some.inj h).symm⟩

theorem onServo_refused {s : State} {x : StatusCode} (h : s.portRefusal = some x) :
    onServo s = s.reply 0x02 0 x [] := by
  simp only [onServo, h]

theorem onRoster_refused {s : State} {x : StatusCode} (a : Byte) (h : s.portRefusal = some x) :
    onRoster a s = s.reply 0x03 (a.setWidth 16) x [] := by
  simp only [onRoster, h]

theorem onLog_refused {s : State} {x : StatusCode} (a : Byte) (h : s.portRefusal = some x) :
    onLog a s = s.reply 0x04 (a.setWidth 16) x [] := by
  simp only [onLog, h]

theorem onStart_refused {s : State} {x : StatusCode} (h : s.portRefusal = some x) :
    onStart s = s.reply 0x11 0 x [] := by
  simp only [onStart, h]

theorem onStop_refused {s : State} {x : StatusCode} (h : s.portRefusal = some x) :
    onStop s = s.reply 0x12 0 x [] := by
  simp only [onStop, h]

theorem onTrip_refused {s : State} {x : StatusCode} (h : s.portRefusal = some x) :
    onTrip s = s.reply 0x13 0 x [] := by
  simp only [onTrip, h]

theorem onClear_refused {s : State} {x : StatusCode} (h : s.portRefusal = some x) :
    onClear s = s.reply 0x14 0 x [] := by
  simp only [onClear, h]

theorem onDetach_refused {s : State} {x : StatusCode} (h : s.portRefusal = some x) :
    onDetach s = s.reply 0x18 0 x [] := by
  rcases portRefusal_eq_some h with ⟨load, rfl⟩ | ⟨blocked, rfl⟩
  · simp only [onDetach, load]
  · cases hs : s.seq.sync <;> rw [hs] at blocked
    case blocked r => simp only [onDetach, hs]
    all_goals cases blocked

theorem onAttach_refused {s : State} {x : StatusCode} (h : s.portRefusal = some x) :
    onAttach s = s.reply 0x19 0 x [] := by
  rcases portRefusal_eq_some h with ⟨load, rfl⟩ | ⟨blocked, rfl⟩
  · exact onAttach_of_load load
  · exact onAttach_of_configBlocked blocked

/-- One argument byte, taken from the low byte of the arguments and put back. -/
theorem setWidth_lowByte {args : BitVec 16} (h : args.toNat < 256) :
    (args.extractLsb' 0 8).setWidth 16 = args := by
  refine BitVec.eq_of_toNat_eq ?_
  rw [BitVec.toNat_setWidth, BitVec.extractLsb'_toNat, Nat.shiftRight_zero]
  omega

theorem mem_requestCodes {code : Byte} (h : requestCodes.contains code = true) :
    code = 0x01 ∨ code = 0x02 ∨ code = 0x03 ∨ code = 0x04 ∨ code = 0x05 ∨ code = 0x10 ∨ code = 0x11 ∨
      code = 0x12 ∨ code = 0x13 ∨ code = 0x14 ∨ code = 0x18 ∨ code = 0x19 := by
  simpa [requestCodes] using h

/-- What the port refuses it answers alike for every code; STATUS and EVENT are refused in LOAD alone. -/
theorem takeRequest_refused {s : State} {x : StatusCode} {code : Byte} {args : BitVec 16}
    (h : s.portRefusal = some x) (known : requestCodes.contains code = true)
    (fits : argumentBytes code = 2 ∨ args.toNat < 256)
    (always : code = 0x01 ∨ code = 0x05 → s.seq.sync = .load ∧ x = .notReady) :
    takeRequest code args s = s.reply code (if argumentBytes code = 0 then 0 else args) x [] := by
  rcases mem_requestCodes known with rfl | rfl | rfl | rfl | rfl | rfl | rfl | rfl | rfl | rfl | rfl | rfl
  · obtain ⟨load, rfl⟩ := always (.inl rfl)
    exact if_pos load
  · exact onServo_refused h
  · refine (onRoster_refused _ h).trans ?_
    rw [setWidth_lowByte (fits.resolve_left (by decide))]
    rfl
  · refine (onLog_refused _ h).trans ?_
    rw [setWidth_lowByte (fits.resolve_left (by decide))]
    rfl
  · obtain ⟨load, rfl⟩ := always (.inr rfl)
    exact if_pos load
  · exact onDuty_of_refused h
  · exact onStart_refused h
  · exact onStop_refused h
  · exact onTrip_refused h
  · exact onClear_refused h
  · exact onDetach_refused h
  · exact onAttach_refused h

theorem onUnknownRequest_eq {s : State} {code : Byte} (h : requestCodes.contains code = false) :
    onUnknownRequest code s = s.reply code 0 (if s.seq.sync = .load then .notReady else .unknown) [] := by
  rw [onUnknownRequest, if_neg (by rw [h]; exact nofun)]
  split_ifs <;> rfl

theorem takeRequest_unknown {s : State} {code : Byte} (args : BitVec 16)
    (h : requestCodes.contains code = false) :
    takeRequest code args s = onUnknownRequest code s := by
  have other : ∀ c ∈ requestCodes, code ≠ c := by
    rintro c hc rfl
    exact Bool.false_ne_true (h.symm.trans (List.contains_iff_mem.2 hc))
  simp only [requestCodes, List.forall_mem_cons] at other
  obtain ⟨h1, h2, h3, h4, h5, h6, h7, h8, h9, h10, h11, h12, -⟩ := other
  simp only [takeRequest, h1, h2, h3, h4, h5, h6, h7, h8, h9, h10, h11, h12, if_false]

/-- Settles O54: NOT_READY before all, then UNKNOWN, then REFUSED_STATE. -/
theorem refusalsComeInOrder : Obligations.RefusalsComeInOrder := by
  intro s code args
  rw [exec_decodeRequest]
  refine ⟨fun load => ⟨fun known fits => ?_, fun unknown => ?_⟩, fun load unknown => ?_,
    fun blocked known status event fits => ?_⟩
  · rw [takeRequest_refused (portRefusal_of_load load) known fits fun _ => ⟨load, rfl⟩]
    exact ⟨_, rfl, reply_answered ..⟩
  · rw [takeRequest_unknown args unknown, onUnknownRequest_eq unknown, if_pos load]
    exact ⟨_, rfl, reply_answered ..⟩
  · have taken : exec (.unknownRequest code) s = .next (onUnknownRequest code s) := rfl
    rw [taken, onUnknownRequest_eq unknown, if_neg load]
    exact ⟨_, rfl, reply_answered ..⟩
  · rw [takeRequest_refused (portRefusal_of_configBlocked blocked) known fits
      fun h => absurd h (not_or.2 ⟨status, event⟩)]
    exact ⟨_, rfl, reply_answered ..⟩

/-! ### Words by their bytes -/

theorem append_bytes16 (v : BitVec 16) : v.extractLsb' 8 8 ++ v.extractLsb' 0 8 = v := by
  rw [BitVec.extractLsb'_append_extractLsb'_eq_extractLsb' (by rfl)]
  exact BitVec.extractLsb'_eq_self

theorem append_bytes24 (v : BitVec 24) :
    v.extractLsb' 16 8 ++ v.extractLsb' 8 8 ++ v.extractLsb' 0 8 = v := by
  rw [BitVec.extractLsb'_append_extractLsb'_eq_extractLsb' (by rfl),
    BitVec.extractLsb'_append_extractLsb'_eq_extractLsb' (by rfl)]
  exact BitVec.extractLsb'_eq_self

theorem append_bytes32 (v : BitVec 32) :
    v.extractLsb' 24 8 ++ v.extractLsb' 16 8 ++ v.extractLsb' 8 8 ++ v.extractLsb' 0 8 = v := by
  rw [BitVec.extractLsb'_append_extractLsb'_eq_extractLsb' (by rfl),
    BitVec.extractLsb'_append_extractLsb'_eq_extractLsb' (by rfl),
    BitVec.extractLsb'_append_extractLsb'_eq_extractLsb' (by rfl)]
  exact BitVec.extractLsb'_eq_self

/-! ### STATUS and SERVO -/

/-- The 25 bytes of STATUS, the fields of the blocks that a good image starts read through `live`. -/
def statusBytes (s : State) (live : Byte → Byte) : List Byte :=
  [s.seq.sync.code, s.seq.sync.reasonCode, s.gate.state.code,
    live (byteOf (countOf s.view.adopted)), live (byteOf (rankIn s.view.adopted s.own)),
    live (s.view.adopted.extractLsb' 8 8), live (s.view.adopted.extractLsb' 0 8),
    live (s.memberMap.extractLsb' 8 8), live (s.memberMap.extractLsb' 0 8),
    live (byteOf s.tx.linkErr), live (byteOf s.view.settle), live (byteOf s.servo.lock),
    live (byteOf s.servo.unlock),
    s.fault.cause.code, identityByte s.fault.cause.originator, byteOf s.fault.repeats,
    s.fault.stamp.extractLsb' 24 8, s.fault.stamp.extractLsb' 16 8, s.fault.stamp.extractLsb' 8 8,
    s.fault.stamp.extractLsb' 0 8, byteOf s.events.length,
    live (s.carrier.cycle.extractLsb' 24 8), live (s.carrier.cycle.extractLsb' 16 8),
    live (s.carrier.cycle.extractLsb' 8 8), live (s.carrier.cycle.extractLsb' 0 8)]

theorem statusRecord_started {s : State} (h : s.seq.sync.configBlocked = false) :
    statusRecord s = statusBytes s id := by
  unfold statusRecord
  rw [h]
  rfl

theorem statusRecord_blocked {s : State} (h : s.seq.sync.configBlocked = true) :
    statusRecord s = statusBytes s fun _ => 0 := by
  unfold statusRecord
  rw [h]
  rfl

theorem statusRecord_eq (s : State) : ∃ live, statusRecord s = statusBytes s live ∧
    (s.seq.sync.configBlocked = false → live = id) ∧
    (s.seq.sync.configBlocked = true → live = fun _ => 0) := by
  cases h : s.seq.sync.configBlocked
  · exact ⟨id, statusRecord_started h, fun _ => rfl, nofun⟩
  · exact ⟨fun _ => 0, statusRecord_blocked h, nofun, fun _ => rfl⟩

theorem statusBytes_zero {s : State} {n : Nat} (h : 3 ≤ n ∧ n ≤ 12 ∨ 21 ≤ n) :
    (statusBytes s fun _ => 0).getD n 0 = 0 := by
  rcases h with ⟨lo, hi⟩ | late
  · interval_cases n <;> rfl
  · rcases Nat.lt_or_ge n 25 with inside | outside
    · interval_cases n <;> rfl
    · exact List.getD_eq_default _ _ outside

/-- The SERVO record byte by byte. -/
theorem servoRecord_fields (s : State) :
    let r := servoRecord s
    r.length = 16 ∧ r.getD 0 0 ++ r.getD 1 0 = BitVec.ofInt 16 s.servo.trim ∧
    r.getD 2 0 ++ r.getD 3 0 = BitVec.ofInt 16 s.servo.integ ∧
    r.getD 4 0 ++ r.getD 5 0 = BitVec.ofInt 16 s.servo.meanError ∧
    r.getD 6 0 ++ r.getD 7 0 = BitVec.ofInt 16 s.servo.lastStep ∧
    r.getD 8 0 ++ r.getD 9 0 = BitVec.ofNat 16 s.carrier.o ∧
    r.getD 10 0 ++ r.getD 11 0 = BitVec.ofNat 16 s.view.target ∧
    r.getD 12 0 ++ r.getD 13 0 ++ r.getD 14 0 = BitVec.ofNat 24 s.carrier.pc ∧
    r.getD 15 0 = (if s.servo.captureDone then 1 else 0) :=
  ⟨rfl, append_bytes16 _, append_bytes16 _, append_bytes16 _, append_bytes16 _, append_bytes16 _,
    append_bytes16 _, append_bytes24 _, rfl⟩

/-- Settles O55: STATUS through its bytes, SERVO through its fields. -/
theorem statusAndServoReport : Obligations.StatusAndServoReport := by
  intro s load
  have status : exec .status s = .next (onStatus s) := rfl
  have servo : exec .servo s = .next (onServo s) := rfl
  rw [status, servo]
  refine ⟨?_, fun started => ?_⟩
  · obtain ⟨live, bytes, started, blocked⟩ := statusRecord_eq s
    rw [onStatus, if_neg load, bytes]
    refine ⟨_, _, rfl, reply_answered .., rfl, ?_, fun unblocked => ?_, fun reason h => ?_, ?_, ?_, ?_,
      rfl, append_bytes32 _, rfl, fun h => ?_, fun h n place => ?_⟩
    · cases h : s.seq.sync <;> simp [statusBytes, h, SyncState.code]
    · cases h : s.seq.sync
      case blocked reason => exact absurd h (unblocked reason)
      all_goals simp [statusBytes, h, SyncState.reasonCode]
    · cases reason <;> simp [statusBytes, h, SyncState.reasonCode, BlockedReason.code]
    · cases h : s.gate.state <;> simp [statusBytes, h, GateState.code]
    · cases h : s.fault.cause <;> simp [statusBytes, h, FaultCause.code]
    · cases h : s.fault.cause <;> simp [statusBytes, h, FaultCause.originator, identityByte]
    · rw [started h]
      exact ⟨rfl, rfl, append_bytes16 _, append_bytes16 _, rfl, rfl, rfl, rfl, append_bytes32 _⟩
    · rw [blocked h]
      exact statusBytes_zero place
  · simp only [onServo, portRefusal_of_taken load started]
    exact ⟨_, servoRecord s, rfl, reply_answered .., servoRecord_fields s⟩

/-! ### ROSTER and LOG -/

/-- The ROSTER record of SELF: the published maps. -/
theorem rosterRecord_self {s : State} {i : Identity} (h : i = s.own) : rosterRecord s i =
    [byteOf i.val, 3, 0, 0, 2, 0, s.heardMap.extractLsb' 8 8, s.heardMap.extractLsb' 0 8,
      s.memberMap.extractLsb' 8 8, s.memberMap.extractLsb' 0 8, 0, 0] := by
  rw [rosterRecord, if_pos h]
  rfl

/-- The ROSTER record of a peer that no BEACON has described. -/
theorem rosterRecord_bare {s : State} {i : Identity} (h : i ≠ s.own) (bare : s.roster[i].last = none) :
    rosterRecord s i = [byteOf i.val, s.roster[i].presence.code, flagByte s.roster[i].flag,
      byteOf s.roster[i].misses, 0, 0, 0, 0, 0, 0, 0, 0] := by
  rw [rosterRecord, if_neg h]
  simp only [bare]
  rfl

/-- The ROSTER record of a peer with its last BEACON. -/
theorem rosterRecord_described {s : State} {i : Identity} {b : LastBeacon} (h : i ≠ s.own)
    (last : s.roster[i].last = some b) :
    rosterRecord s i = [byteOf i.val, s.roster[i].presence.code, flagByte s.roster[i].flag,
      byteOf s.roster[i].misses, 1, b.state.code.setWidth 8, b.heardMap.extractLsb' 8 8,
      b.heardMap.extractLsb' 0 8, b.memberMap.extractLsb' 8 8, b.memberMap.extractLsb' 0 8,
      (BitVec.ofInt 16 b.error).extractLsb' 8 8, (BitVec.ofInt 16 b.error).extractLsb' 0 8] := by
  rw [rosterRecord, if_neg h]
  simp only [last]
  rfl

/-- The bytes that the ROSTER records of peers share. -/
theorem rosterRecord_peer {s : State} {i : Identity} (h : i ≠ s.own) :
    (rosterRecord s i).length = 12 ∧ (rosterRecord s i).getD 0 0 = byteOf i.val ∧
    (rosterRecord s i).getD 1 0 = s.roster[i].presence.code ∧
    (rosterRecord s i).getD 2 0 = flagByte s.roster[i].flag ∧
    (rosterRecord s i).getD 3 0 = byteOf s.roster[i].misses := by
  cases last : s.roster[i].last
  · rw [rosterRecord_bare h last]
    exact ⟨rfl, rfl, rfl, rfl, rfl⟩
  · rw [rosterRecord_described h last]
    exact ⟨rfl, rfl, rfl, rfl, rfl⟩

theorem bareRosterBytes_zero (a b c d : Byte) {n : Nat} (h : 4 ≤ n) :
    [a, b, c, d, 0, 0, 0, 0, 0, 0, 0, 0].getD n 0 = 0 := by
  rcases Nat.lt_or_ge n 12 with inside | outside
  · interval_cases n <;> rfl
  · exact List.getD_eq_default _ _ outside

/-- The two flags of an arrival record in their byte. -/
theorem logFlags (usable cross : Bool) :
    let flags := byteOf (usable.toNat + 2 * cross.toNat)
    flags.getLsbD 0 = usable ∧ flags.getLsbD 1 = cross ∧ ∀ n, 2 ≤ n → flags.getLsbD n = false := by
  refine ⟨by cases usable <;> cases cross <;> rfl, by cases usable <;> cases cross <;> rfl, fun n h => ?_⟩
  have small : usable.toNat + 2 * cross.toNat < 2 ^ n := by
    have := Nat.pow_le_pow_right (n := 2) (by decide) h
    have := usable.toNat_le
    have := cross.toNat_le
    omega
  simp only [byteOf, BitVec.getLsbD_ofNat, Nat.testBit_lt_two_pow small, Bool.and_false]

/-- Settles O56: the entry and the record by their bytes. -/
theorem rosterAndLogReport : Obligations.RosterAndLogReport := by
  intro s arg load started
  have roster : exec (.roster arg) s = .next (onRoster arg s) := rfl
  have log : exec (.log arg) s = .next (onLog arg s) := rfl
  have taken := portRefusal_of_taken load started
  rw [roster, log]
  refine ⟨fun above => ?_, fun i h => ?_, fun past => ?_, fun x held => ?_⟩
  · simp only [onRoster, taken, dif_neg (not_lt.2 above)]
    exact ⟨_, rfl, reply_answered ..⟩
  · have asked : byteOf i.val = arg := by rw [byteOf, ← h, BitVec.ofNat_toNat, BitVec.setWidth_eq]
    have inRange : arg.toNat < 16 := h ▸ i.isLt
    have same : (⟨arg.toNat, inRange⟩ : Identity) = i := Fin.ext h
    simp only [onRoster, taken, dif_pos inRange, same]
    refine ⟨_, rosterRecord s i, rfl, reply_answered .., ?_⟩
    by_cases own : i = s.own
    · rw [rosterRecord_self own]
      refine ⟨rfl, asked, fun _ => ⟨rfl, rfl, rfl, rfl, rfl, append_bytes16 _, append_bytes16 _, rfl, rfl,
        fun j => ⟨?_, ?_⟩⟩, fun other => absurd own other⟩
      · exact (iff_of_eq (congrArg (lists · j = true) (append_bytes16 s.heardMap))).trans (lists_heardMap s j)
      · exact (iff_of_eq (congrArg (lists · j = true) (append_bytes16 s.memberMap))).trans
          (lists_memberMap s j)
    · obtain ⟨len, first, presence, flag, misses⟩ := rosterRecord_peer own
      refine ⟨len, first.trans asked, fun self => absurd self own, fun _ => ⟨presence.trans ?_, flag, misses,
        fun bare n => ?_, fun b last => ?_⟩⟩
      · cases s.roster[i].presence <;> rfl
      · rw [rosterRecord_bare own bare]
        exact bareRosterBytes_zero _ _ _ _
      · rw [rosterRecord_described own last]
        refine ⟨rfl, ?_, append_bytes16 _, append_bytes16 _, append_bytes16 _⟩
        cases b.state <;> rfl
  · simp only [onLog, taken, List.getElem?_eq_none past]
    exact ⟨_, logHead s, rfl, reply_answered .., rfl, rfl, append_bytes32 _⟩
  · simp only [onLog, taken, held]
    refine ⟨_, logHead s ++ logRecord x, rfl, reply_answered .., rfl, rfl, append_bytes32 _, rfl, ?_,
      append_bytes16 _, append_bytes16 _, append_bytes16 _, append_bytes16 _, append_bytes16 _,
      logFlags x.usable x.crossBoundary⟩
    cases h : x.state <;> simp [logHead, be32, logRecord, h, SenderState.code]

/-! ### EVENT -/

/-- Settles O57: the oldest record goes, byte by byte. -/
theorem eventTakesTheOldest : Obligations.EventTakesTheOldest := by
  intro s load
  have taken : exec .event s = .next (onEvent s) := rfl
  rw [taken, onEvent, if_neg load]
  refine ⟨fun empty => ?_, fun e rest held => ?_⟩
  · simp only [empty]
    exact ⟨_, rfl, reply_answered ..⟩
  · simp only [held]
    refine ⟨_, eventRecordBytes rest.length e, rfl, reply_answered .., rfl, rfl, ?_, ?_, rfl,
      append_bytes32 e.stamp, rfl⟩
    · cases h : e.kind <;> simp [eventRecordBytes, h, EventKind.code]
    · cases h : e.subject <;> simp [eventRecordBytes, h, identityByte]

end Sys2Proof.Machine

/-! The local port tick by tick (11.1): select, bits taken, answer shifted out, and the request of a tick. -/

namespace Sys2Proof.Machine

set_option Elab.async false

/-! ### The select and the clock -/

theorem readSelect_asserts {u : State} (now : u.pins.lpSel = true) (before : u.port.selPrev = false) :
    u.readSelect = { u with port := { u.port with
      active := true, bits := 0, code := 0, args := 0, answer := none, lpDo := false } } :=
  if_pos (by simp [now, before])

theorem readSelect_releases {u : State} (now : u.pins.lpSel = false) (before : u.port.selPrev = true) :
    u.readSelect = onLpSelRelease u :=
  (if_neg (by simp [now])).trans (if_pos (by simp [now, before]))

theorem readSelect_same {u : State} (same : u.pins.lpSel = u.port.selPrev) : u.readSelect = u := by
  unfold State.readSelect
  rw [same]
  cases u.port.selPrev <;> rfl

theorem readClock_same {u : State} (same : u.pins.lpClk = u.port.clkPrev) : u.readClock = u := by
  unfold State.readClock
  rw [same]
  cases u.port.clkPrev <;> simp

theorem readClock_unselected {u : State} (h : u.pins.lpSel = false) : u.readClock = u :=
  if_neg (by simp [h])

theorem readClock_rises {u : State} (sel : u.pins.lpSel = true) (active : u.port.active = true)
    (now : u.pins.lpClk = true) (before : u.port.clkPrev = false) : u.readClock = u.takePortBit :=
  (if_pos (by simp [sel, active])).trans (if_pos (by simp [now, before]))

theorem readClock_falls {u : State} (sel : u.pins.lpSel = true) (active : u.port.active = true)
    (now : u.pins.lpClk = false) (before : u.port.clkPrev = true) :
    u.readClock = { u with port := { u.port with lpDo := portOutput u.port } } :=
  (if_pos (by simp [sel, active])).trans ((if_neg (by simp [now])).trans (if_pos (by simp [now, before])))

/-- A tick of the port reads the select and then the clock; where neither moves, both readings change
nothing. -/
theorem stepPort_eq (u : State) : stepPort u = u.readSelect.readClock := by
  by_cases moves : u.portMoves = true
  · exact if_pos moves
  · simp only [State.portMoves, Bool.or_eq_true, bne_iff_ne, not_or, not_not] at moves
    rw [readSelect_same moves.1, readClock_same moves.2]
    exact stepPort_idle (by simp [State.portMoves, moves.1, moves.2])

/-- A select that stands leaves the tick to the clock. -/
theorem stepPort_selected {u : State} (now : u.pins.lpSel = true) (before : u.port.selPrev = true) :
    stepPort u = u.readClock := by
  rw [stepPort_eq, readSelect_same (now.trans before.symm)]

/-! ### A bit taken -/

/-- The bit on LP_DI. -/
def State.portBit (s : State) : Nat := if s.pins.lpDi then 1 else 0

/-- The request code with the bit that LP_DI adds to it. -/
def State.nextCode (s : State) : Byte :=
  if s.port.bits < 8 then (s.port.code <<< 1) ||| BitVec.ofNat 8 s.portBit else s.port.code

/-- The argument bytes with the bit that LP_DI adds to them. -/
def State.nextArgs (s : State) : BitVec 16 :=
  if 8 ≤ s.port.bits ∧ s.port.bits < 8 * (1 + argumentBytes s.port.code) then
    (s.port.args <<< 1) ||| BitVec.ofNat 16 s.portBit
  else s.port.args

/-- The station with the bit taken, the request not yet. -/
def State.bitTaken (s : State) : State :=
  { s with port := { s.port with bits := s.port.bits + 1, code := s.nextCode, args := s.nextArgs } }

/-- Eight bits on, or the code is still being read. -/
theorem nextCode_of_full {s : State} (h : 8 ≤ s.port.bits) : s.nextCode = s.port.code := if_neg (by omega)

/-- A rising edge adds the bit, and takes the request with the last one. -/
theorem takePortBit_eq (s : State) : s.takePortBit =
    if s.port.answer = none ∧ s.port.bits + 1 = 8 * (1 + argumentBytes s.nextCode) then
      takeRequest s.nextCode s.nextArgs s.bitTaken
    else s.bitTaken := by
  have bit : s.pins.lpDi.toNat = s.portBit := by
    unfold State.portBit
    cases s.pins.lpDi <;> rfl
  unfold State.takePortBit State.bitTaken State.nextCode State.nextArgs byteOf
  simp only [bit, decide_eq_true_eq, Bool.and_eq_true, Option.isNone_iff_eq_none]

/-- What the last bit of a request leaves: its own bits and code, and an answer. -/
theorem takePortBit_last {s : State} (last : s.port.bits + 1 = 8 * (1 + argumentBytes s.nextCode)) :
    s.takePortBit.port.bits = s.port.bits + 1 ∧ s.takePortBit.port.code = s.nextCode ∧
    s.takePortBit.port.answer.isSome = true := by
  rw [takePortBit_eq]
  by_cases fresh : s.port.answer = none
  · rw [if_pos ⟨fresh, last⟩]
    obtain ⟨u, a, x, r, replied⟩ := takeRequest_replied s.nextCode s.nextArgs s.bitTaken
    rw [replied]
    exact ⟨last.symm, rfl, rfl⟩
  · rw [if_neg fun k => fresh k.1]
    exact ⟨rfl, rfl, Option.isSome_iff_ne_none.2 fresh⟩

/-- Any other bit is a bit taken and no more. -/
theorem takePortBit_inside {s : State} (more : s.port.bits + 1 ≠ 8 * (1 + argumentBytes s.nextCode)) :
    s.takePortBit = s.bitTaken := by
  rw [takePortBit_eq, if_neg fun k => more k.2]

/-! ### The answer shifted out -/

theorem portOutput_answer {p : Port} {a : Answer} {n k : Nat} (answer : p.answer = some a) (small : k < 8)
    (at_ : p.bits = 8 * (2 + argumentBytes p.code) + 8 * n + k) :
    portOutput p = ((a.status.code :: a.response).getD n 0).getMsbD k := by
  have byte : (p.bits - 8 * (2 + argumentBytes p.code)) / 8 = n := by omega
  have place : (p.bits - 8 * (2 + argumentBytes p.code)) % 8 = k := by omega
  simp only [portOutput, answer, byte, place]
  exact if_neg (by omega)

theorem portOutput_silent {p : Port}
    (h : p.answer = none ∨ p.bits < 8 * (2 + argumentBytes p.code)) : portOutput p = false := by
  unfold portOutput
  split
  · next a answer => exact if_pos (h.resolve_left (by rw [answer]; exact nofun))
  · rfl

/-! ### The pins and the port of a tick -/

theorem portSide_iff {u s : State} : u.portSide = s.portSide ↔ u.port = s.port ∧ u.pins.lpSel = s.pins.lpSel ∧
    u.pins.lpClk = s.pins.lpClk ∧ u.pins.lpDi = s.pins.lpDi := by
  simp only [State.portSide, Prod.mk.injEq]

theorem nextCode_portSide {u s : State} (h : u.portSide = s.portSide) : u.nextCode = s.nextCode := by
  obtain ⟨port, -, -, di⟩ := portSide_iff.1 h
  simp only [State.nextCode, State.portBit, port, di]

theorem nextArgs_portSide {u s : State} (h : u.portSide = s.portSide) : u.nextArgs = s.nextArgs := by
  obtain ⟨port, -, -, di⟩ := portSide_iff.1 h
  simp only [State.nextArgs, State.portBit, port, di]

theorem bitTaken_portSide {u s : State} (h : u.portSide = s.portSide) : u.bitTaken =
    { u with port := { s.port with bits := s.port.bits + 1, code := s.nextCode, args := s.nextArgs } } := by
  rw [State.bitTaken, nextCode_portSide h, nextArgs_portSide h, (portSide_iff.1 h).1]

/-! ### A request in a tick of its own -/

/-- As the last bit of a request arrives, every earlier bit after the code is an argument bit. -/
theorem nextArgs_of_last {s : State} (last : s.port.bits + 1 = 8 * (1 + argumentBytes s.nextCode)) :
    s.nextArgs = if s.port.bits < 8 then s.port.args else (s.port.args <<< 1) ||| BitVec.ofNat 16 s.portBit := by
  rcases Nat.lt_or_ge s.port.bits 8 with inCode | inArgs
  · rw [State.nextArgs, if_neg fun k => absurd k.1 (by omega), if_pos inCode]
  · rw [nextCode_of_full inArgs] at last
    rw [State.nextArgs, if_pos ⟨inArgs, by omega⟩, if_neg (by omega)]

/-- The end of a tick decides the outputs and keeps the levels read. -/
theorem closeTick_eq {v : State} (sel : v.pins.lpSel = true) (clk : v.pins.lpClk = true) : v.closeTick = { v with
    gate := { v.gate with hi := v.closeTick.gate.hi, lo := v.closeTick.gate.lo }
    line := v.closeTick.line
    port := { v.port with selPrev := true, clkPrev := true } } := by
  have gate : v.closeTick.gate = { v.gate with hi := v.closeTick.gate.hi, lo := v.closeTick.gate.lo } :=
    gateOutputs_eq ..
  have port : v.closeTick.port = { v.port with selPrev := true, clkPrev := true } := by
    rw [State.closeTick, sel, clk]
  rw [← gate, ← port]
  rfl

/-- A tick that takes a request and has nothing else to do is the request, then the end of the tick. -/
theorem tick_of_request {s : State} (alone : PortAlone s) (sel : s.pins.lpSel = true)
    (selPrev : s.port.selPrev = true) (active : s.port.active = true) (clk : s.pins.lpClk = true)
    (clkPrev : s.port.clkPrev = false) (fresh : s.port.answer = none)
    (last : s.port.bits + 1 = 8 * (1 + argumentBytes s.nextCode)) :
    step s = .next (takeRequest s.nextCode s.nextArgs s.openTick.bitTaken).closeTick := by
  have same := openTick_portSide alone.begun
  have request : s.openTick.takePortBit = takeRequest s.nextCode s.nextArgs s.openTick.bitTaken := by
    rw [takePortBit_eq, nextCode_portSide same, nextArgs_portSide same, (portSide_iff.1 same).1,
      if_pos ⟨fresh, last⟩]
  rw [bitTaken_portSide same] at request ⊢
  exact tick_request alone sel selPrev active clk clkPrev request

/-! ### The port in a tick -/

section
variable {s : State} (noReset : s.pins.reset = false) (begun : s.loader.phase ≠ .held)
include noReset begun

theorem tick_port_asserts (sel : s.pins.lpSel = true) (selPrev : s.port.selPrev = false)
    (clk : s.pins.lpClk = s.port.clkPrev) :
    (tick s).port = ⟨true, s.pins.lpClk, true, 0, 0, 0, none, false⟩ := by
  obtain ⟨u, side, e⟩ := tick_port noReset begun
  obtain ⟨port, hsel, hclk, -⟩ := portSide_iff.1 side
  rw [e, stepPort_eq, readSelect_asserts (hsel.trans sel) (port ▸ selPrev),
    readClock_same (by exact hclk.trans (port ▸ clk))]
  simp only [hsel, hclk, sel]

theorem tick_port_releases (sel : s.pins.lpSel = false) (selPrev : s.port.selPrev = true) :
    (tick s).port = ⟨false, s.pins.lpClk, false, 0, 0, 0, none, false⟩ := by
  obtain ⟨u, side, e⟩ := tick_port noReset begun
  obtain ⟨port, hsel, hclk, -⟩ := portSide_iff.1 side
  rw [e, stepPort_eq, readSelect_releases (hsel.trans sel) (port ▸ selPrev), readClock_unselected rfl]
  simp only [onLpSelRelease, hclk]

theorem tick_port_unselected (sel : s.pins.lpSel = false) (selPrev : s.port.selPrev = false) :
    (tick s).port = { s.port with clkPrev := s.pins.lpClk } := by
  obtain ⟨u, side, e⟩ := tick_port noReset begun
  obtain ⟨port, hsel, hclk, -⟩ := portSide_iff.1 side
  rw [e, stepPort_eq, readSelect_same (by rw [hsel, port, sel, selPrev]), readClock_unselected (hsel.trans sel),
    port, hsel, hclk, sel, ← selPrev]

theorem tick_port_stands (sel : s.pins.lpSel = true) (selPrev : s.port.selPrev = true)
    (clk : s.pins.lpClk = s.port.clkPrev) : (tick s).port = s.port := by
  obtain ⟨u, side, e⟩ := tick_port noReset begun
  obtain ⟨port, hsel, hclk, -⟩ := portSide_iff.1 side
  rw [e, stepPort_selected (hsel.trans sel) (port ▸ selPrev),
    readClock_same (by rw [hclk, port, clk]), port, hsel, hclk, sel, clk, ← selPrev]

theorem tick_port_rises (sel : s.pins.lpSel = true) (selPrev : s.port.selPrev = true)
    (active : s.port.active = true) (clk : s.pins.lpClk = true) (clkPrev : s.port.clkPrev = false) :
    ∃ u : State, u.portSide = s.portSide ∧ (tick s).port = { u.takePortBit.port with
      selPrev := u.takePortBit.pins.lpSel, clkPrev := u.takePortBit.pins.lpClk } := by
  obtain ⟨u, side, e⟩ := tick_port noReset begun
  obtain ⟨port, hsel, hclk, -⟩ := portSide_iff.1 side
  refine ⟨u, side, ?_⟩
  rw [e, stepPort_selected (hsel.trans sel) (port ▸ selPrev),
    readClock_rises (hsel.trans sel) (port ▸ active) (hclk.trans clk) (port ▸ clkPrev)]

theorem tick_port_falls (sel : s.pins.lpSel = true) (selPrev : s.port.selPrev = true)
    (active : s.port.active = true) (clk : s.pins.lpClk = false) (clkPrev : s.port.clkPrev = true) :
    (tick s).port = { s.port with clkPrev := false, lpDo := portOutput s.port } := by
  obtain ⟨u, side, e⟩ := tick_port noReset begun
  obtain ⟨port, hsel, hclk, -⟩ := portSide_iff.1 side
  rw [e, stepPort_selected (hsel.trans sel) (port ▸ selPrev),
    readClock_falls (hsel.trans sel) (port ▸ active) (hclk.trans clk) (port ▸ clkPrev)]
  simp only [port, hsel, hclk, sel, clk, ← selPrev]

end

/-- Settles O58: the release, the request spelled and taken, and the port's part of a tick by what select and
clock do. -/
theorem selectReleaseEndsTheTransaction : Obligations.SelectReleaseEndsTheTransaction := by
  refine ⟨fun _ => rfl, exec_decodeRequest, fun x => by cases x <;> rfl,
    fun s alone sel selPrev active clk clkPrev fresh last => ?_,
    fun s waiting noReset held idle => ⟨tick s, step_idle waiting, tick_port_held noReset held idle⟩,
    fun s waiting noReset begun => ⟨tick s, step_idle waiting, tick_port_asserts noReset begun,
      tick_port_releases noReset begun, tick_port_unselected noReset begun, tick_port_stands noReset begun,
      fun sel selPrev active clk clkPrev => ?_, fun sel selPrev active clk clkPrev => ?_⟩⟩
  · have args := nextArgs_of_last last
    have alike := openTick_alone alone
    have selected := takeRequest_selected s.nextCode s.nextArgs s.openTick.bitTaken
    have clock := (takeRequest_besidePort s.nextCode s.nextArgs s.openTick.bitTaken).clock
    refine ⟨_, s.openTick.bitTaken, _, tick_of_request alone sel selPrev active clk clkPrev fresh last,
      args ▸ exec_decodeRequest .., ?_, alike.2.1,
      closeTick_eq selected.1 (clock.trans ((portSide_iff.1 (openTick_portSide alone.begun)).2.2.1.trans clk))⟩
    exact congrArg (fun x : State => { x with port := s.openTick.bitTaken.port }) alike.1
  · obtain ⟨u, side, e⟩ := tick_port_rises noReset begun sel selPrev active clk clkPrev
    have code := nextCode_portSide side
    have port := (portSide_iff.1 side).1
    rw [e]
    by_cases last : s.port.bits + 1 = 8 * (1 + argumentBytes s.nextCode)
    · obtain ⟨bits, hcode, answered⟩ := takePortBit_last (s := u) (by rw [port, code, last])
      exact ⟨bits.trans (by rw [port]), hcode.trans code, fun _ => answered, fun more => absurd last more,
        fun _ more => absurd last more.ne⟩
    · rw [takePortBit_inside (by rw [port, code]; exact last), bitTaken_portSide side]
      refine ⟨rfl, rfl, fun full => absurd full last, fun _ => ⟨rfl, rfl⟩,
          fun inArgs more => if_pos ⟨inArgs, ?_⟩⟩
      rw [← nextCode_of_full inArgs]
      exact Nat.lt_of_succ_lt more
  · rw [tick_port_falls noReset begun sel selPrev active clk clkPrev]
    exact ⟨rfl, fun a n k answer small place => portOutput_answer answer small place, portOutput_silent⟩

end Sys2Proof.Machine

/-! A LEAVE delivered: its sender's entry, and the event of a MEMBER that goes (R77). -/

namespace Sys2Proof.Machine

set_option Elab.async false

/-- Where one event is raised or none, the event queue alone may change. -/
theorem raiseAll_ite_one (s : State) (p : Prop) [Decidable p] (e : EventRecord) :
    s.raiseAll (if p then [e] else []) =
      { s with events := if p then offerEvent s.events e else s.events } := by
  split <;> rfl

/-- A LEAVE of another station moves its sender's entry and the event queue, in the states that act on
peers, and nothing in the others. -/
theorem deliverLeave_of_foreign {s : State} {i : Identity} (foreign : i ≠ s.own) :
    s.deliverLeave i = { s with
      roster := if s.seq.sync.actsOnPeers then s.roster.set i.val RosterEntry.absent else s.roster
      events := if s.seq.sync.actsOnPeers = true ∧ s.roster[i].presence = .member then
        offerEvent s.events (eventOf .peerDropped (some i) 1 s.carrier.cycle) else s.events } := by
  rw [State.deliverLeave, if_neg foreign]
  by_cases acts : s.seq.sync.actsOnPeers = true
  · rw [if_pos acts, raiseAll_ite_one]
    simp only [acts, true_and, if_true]
    rfl
  · simp only [acts, false_and, if_false, Bool.false_eq_true]

/-- Settles O26: a valid LEAVE is the end of its frame and then its delivery. -/
theorem leaveDropsItsSender : Obligations.LeaveDropsItsSender := by
  intro s i r receiving foreign
  have valid : exec (.rxLeave i) s = .next ((s.afterValidFrame ⟨i, .leave⟩).deliverLeave i) :=
    exec_receiveCommand (foreignRecord_of_receiving receiving)
  have other : i ≠ (s.afterValidFrame ⟨i, .leave⟩).own := foreign
  rw [valid, deliverLeave_of_foreign other]
  rfl

end Sys2Proof.Machine
